-- ==== Sys2Proof/Word.lean ====
section
/-! DEFINITION. The word types of the PIC18FXX2: 00_scope.md rule R7 fixes every width. -/

namespace Sys2Proof

/-- A data byte (R7, data width 8). -/
abbrev Byte := BitVec 8

/-- An instruction word (R7, instruction word width 16). -/
abbrev Word := BitVec 16

/-- An address of the data space (R7, 12 bits). -/
abbrev DataAddr := BitVec 12

/-- A byte address of the program space (R7, 21 bits). -/
abbrev ProgAddr := BitVec 21

end Sys2Proof
end

