-- ==== Sys2Proof/Syntax.lean ====
section
/-! DEFINITION. The abstract syntax: one constructor for each row of opcode_table.json (30_encoding.md rule R130).
Operand names and widths are those of 30_encoding.md rule R122. A `Bool` is a one-bit field, true for 1: `d` true is
"destination f", `a` true is "bank from BSR", `s` true is the fast form. -/

namespace Sys2Proof

/-- The instructions of the PIC18FXX2. -/
inductive Instr where
  /-- ADDWF, rule R164. -/
  | addwf (f : Byte) (d : Bool) (a : Bool)
  /-- ADDWFC, rule R165. -/
  | addwfc (f : Byte) (d : Bool) (a : Bool)
  /-- ANDWF, rule R166. -/
  | andwf (f : Byte) (d : Bool) (a : Bool)
  /-- CLRF, rule R167. -/
  | clrf (f : Byte) (a : Bool)
  /-- COMF, rule R168. -/
  | comf (f : Byte) (d : Bool) (a : Bool)
  /-- CPFSEQ, rule R204. -/
  | cpfseq (f : Byte) (a : Bool)
  /-- CPFSGT, rule R205. -/
  | cpfsgt (f : Byte) (a : Bool)
  /-- CPFSLT, rule R203. -/
  | cpfslt (f : Byte) (a : Bool)
  /-- DECF, rule R169. -/
  | decf (f : Byte) (d : Bool) (a : Bool)
  /-- DECFSZ, rule R206. -/
  | decfsz (f : Byte) (d : Bool) (a : Bool)
  /-- DCFSNZ, rule R207. -/
  | dcfsnz (f : Byte) (d : Bool) (a : Bool)
  /-- INCF, rule R170. -/
  | incf (f : Byte) (d : Bool) (a : Bool)
  /-- INCFSZ, rule R208. -/
  | incfsz (f : Byte) (d : Bool) (a : Bool)
  /-- INFSNZ, rule R209. -/
  | infsnz (f : Byte) (d : Bool) (a : Bool)
  /-- IORWF, rule R171. -/
  | iorwf (f : Byte) (d : Bool) (a : Bool)
  /-- MOVF, rule R173. -/
  | movf (f : Byte) (d : Bool) (a : Bool)
  /-- MOVFF, rule R172. -/
  | movff (fs : DataAddr) (fd : DataAddr)
  /-- MOVWF, rule R174. -/
  | movwf (f : Byte) (a : Bool)
  /-- MULWF, rule R175. -/
  | mulwf (f : Byte) (a : Bool)
  /-- NEGF, rule R176. -/
  | negf (f : Byte) (a : Bool)
  /-- RLCF, rule R177. -/
  | rlcf (f : Byte) (d : Bool) (a : Bool)
  /-- RLNCF, rule R178. -/
  | rlncf (f : Byte) (d : Bool) (a : Bool)
  /-- RRCF, rule R179. -/
  | rrcf (f : Byte) (d : Bool) (a : Bool)
  /-- RRNCF, rule R180. -/
  | rrncf (f : Byte) (d : Bool) (a : Bool)
  /-- SETF, rule R181. -/
  | setf (f : Byte) (a : Bool)
  /-- SUBFWB, rule R182. -/
  | subfwb (f : Byte) (d : Bool) (a : Bool)
  /-- SUBWF, rule R183. -/
  | subwf (f : Byte) (d : Bool) (a : Bool)
  /-- SUBWFB, rule R184. -/
  | subwfb (f : Byte) (d : Bool) (a : Bool)
  /-- SWAPF, rule R185. -/
  | swapf (f : Byte) (d : Bool) (a : Bool)
  /-- TSTFSZ, rule R210. -/
  | tstfsz (f : Byte) (a : Bool)
  /-- XORWF, rule R186. -/
  | xorwf (f : Byte) (d : Bool) (a : Bool)
  /-- BCF, rule R222. -/
  | bcf (f : Byte) (b : BitVec 3) (a : Bool)
  /-- BSF, rule R223. -/
  | bsf (f : Byte) (b : BitVec 3) (a : Bool)
  /-- BTFSC, rule R224. -/
  | btfsc (f : Byte) (b : BitVec 3) (a : Bool)
  /-- BTFSS, rule R225. -/
  | btfss (f : Byte) (b : BitVec 3) (a : Bool)
  /-- BTG, rule R226. -/
  | btg (f : Byte) (b : BitVec 3) (a : Bool)
  /-- BC, rule R242. -/
  | bc (n : BitVec 8)
  /-- BN, rule R243. -/
  | bn (n : BitVec 8)
  /-- BNC, rule R244. -/
  | bnc (n : BitVec 8)
  /-- BNN, rule R245. -/
  | bnn (n : BitVec 8)
  /-- BNOV, rule R246. -/
  | bnov (n : BitVec 8)
  /-- BNZ, rule R247. -/
  | bnz (n : BitVec 8)
  /-- BOV, rule R248. -/
  | bov (n : BitVec 8)
  /-- BZ, rule R249. -/
  | bz (n : BitVec 8)
  /-- BRA, rule R233. -/
  | bra (n : BitVec 11)
  /-- RCALL, rule R236. -/
  | rcall (n : BitVec 11)
  /-- CALL, rule R237. -/
  | call (k : BitVec 20) (s : Bool)
  /-- GOTO, rule R238. -/
  | goto (k : BitVec 20)
  /-- RETURN, rule R239. -/
  | ret (s : Bool)
  /-- RETLW, rule R240. -/
  | retlw (k : Byte)
  /-- RETFIE, rule R241. -/
  | retfie (s : Bool)
  /-- PUSH, rule R250. -/
  | push
  /-- POP, rule R251. -/
  | pop
  /-- NOP, rule R261. -/
  | nop
  /-- NOP, rule R261 (the second encoding: a second word met on its own, its 12 low bits ignored). -/
  | nopx (x : BitVec 12)
  /-- CLRWDT, rule R262. -/
  | clrwdt
  /-- DAW, rule R263. -/
  | daw
  /-- RESET, rule R266. -/
  | reset
  /-- SLEEP, rule R267. -/
  | sleep
  /-- ADDLW, rule R281. -/
  | addlw (k : Byte)
  /-- ANDLW, rule R282. -/
  | andlw (k : Byte)
  /-- IORLW, rule R283. -/
  | iorlw (k : Byte)
  /-- LFSR, rule R284. -/
  | lfsr (ff : BitVec 2) (k : BitVec 12)
  /-- MOVLB, rule R285. -/
  | movlb (k : BitVec 4)
  /-- MOVLW, rule R286. -/
  | movlw (k : Byte)
  /-- MULLW, rule R287. -/
  | mullw (k : Byte)
  /-- SUBLW, rule R288. -/
  | sublw (k : Byte)
  /-- XORLW, rule R289. -/
  | xorlw (k : Byte)
  /-- TBLRD*, rule R302. -/
  | tblrd
  /-- TBLRD*+, rule R303. -/
  | tblrdPostInc
  /-- TBLRD*-, rule R304. -/
  | tblrdPostDec
  /-- TBLRD+*, rule R305. -/
  | tblrdPreInc
  /-- TBLWT*, rule R306. -/
  | tblwt
  /-- TBLWT*+, rule R307. -/
  | tblwtPostInc
  /-- TBLWT*-, rule R308. -/
  | tblwtPostDec
  /-- TBLWT+*, rule R309. -/
  | tblwtPreInc
deriving DecidableEq, Repr

end Sys2Proof
end

