-- ==== Sys2Proof/WellFormed.lean ====
section
/-! DEFINITION. Which terms of `Instr` stand for an instruction of the manual. The widths of 30_encoding.md rule R122 are
in the types; the one range a width does not give is the FSR number of LFSR, 0 to 2 (rules R122, R136). -/

namespace Sys2Proof

/-- Well-formed: every operand is in the range of 30_encoding.md R122. Only LFSR has a field with a reserved value
(R136: "LFSR `ff` = 3"). -/
def Instr.wf : Instr → Bool
  | .lfsr ff _ => ff != 3#2
  | _ => true

end Sys2Proof
end

