-- ==== Sys2Proof/Decode.lean ====
section
/-! DEFINITION. Decoding and encoding, from the encoding table of 30_encoding.md rule R130. Decoding is total on any
list of bytes and rejects by name (rules R127, R134, R136); a word is little-endian in memory and the first word of a
two-word instruction is the lower one (20_memory.md rule R94). -/

namespace Sys2Proof

/-- Why bytes are no instruction. -/
inductive Undecodable where
  /-- The bytes end before the instruction does; the fetch reached the end of the implemented program memory
  (20_memory.md R92, R93). -/
  | truncated
  /-- A first word that no row of R130 matches (R134). -/
  | unassigned
  /-- MOVLB with bits 7:4 not 0, LFSR with ff = 3 or with bits 11:8 of its second word not 0 (R136). -/
  | reservedForm
  /-- A second word whose bits 15:12 are not 1111 (R127). -/
  | badSecondWord
deriving DecidableEq, Repr

/-- Bit `i` of a word as a field of one bit. -/
def bitAt (i : Nat) (w : Word) : Bool := w.getLsbD i

/-- The file-register field, bits 7:0 (R121, formats BYTE_FDA, BYTE_FA, BIT). -/
def fieldF (w : Word) : Byte := w.extractLsb' 0 8

/-- The bit-number field, bits 11:9 (R121, format BIT). -/
def fieldB (w : Word) : BitVec 3 := w.extractLsb' 9 3

/-- The literal or offset in bits 7:0 (R121, formats LIT8, BR8). -/
def fieldK (w : Word) : Byte := w.extractLsb' 0 8

/-- Whether bits 15:12 of a second word are 1111 (R126, R127). -/
def isSecondWord (w : Word) : Bool := w.extractLsb' 12 4 == 0xF#4

/-- MOVFF from its two words (R123). -/
def decodeMovff (w1 w2 : Word) : Except Undecodable Instr :=
  if isSecondWord w2 then .ok (.movff (w1.extractLsb' 0 12) (w2.extractLsb' 0 12)) else .error .badSecondWord

/-- The 20-bit literal of CALL and GOTO: the first word holds the low 8 bits (R123, 20_memory.md R94). -/
def literal20 (w1 w2 : Word) : BitVec 20 := (w2.extractLsb' 0 12 ++ w1.extractLsb' 0 8 : BitVec 20)

/-- CALL from its two words (R123). -/
def decodeCall (w1 w2 : Word) : Except Undecodable Instr :=
  if isSecondWord w2 then .ok (.call (literal20 w1 w2) (bitAt 8 w1)) else .error .badSecondWord

/-- GOTO from its two words (R123). -/
def decodeGoto (w1 w2 : Word) : Except Undecodable Instr :=
  if isSecondWord w2 then .ok (.goto (literal20 w1 w2)) else .error .badSecondWord

/-- LFSR from its two words: the first word holds the high 4 bits of the literal (R123); BadSecondWord is checked
before ReservedForm (60_exceptions.md R322). -/
def decodeLfsr (w1 w2 : Word) : Except Undecodable Instr :=
  if isSecondWord w2 then
    if w2.extractLsb' 8 4 != 0#4 || w1.extractLsb' 4 2 == 3#2 then .error .reservedForm
    else .ok (.lfsr (w1.extractLsb' 4 2) (w1.extractLsb' 0 4 ++ w2.extractLsb' 0 8 : BitVec 12))
  else .error .badSecondWord

/-- How a row of the table reads the operands: from one word, or from two. -/
inductive Build where
  | one (k : Word → Instr)
  | two (k : Word → Word → Except Undecodable Instr)

/-- A row of the encoding table R130: the first word `w` is the row's when `w AND mask = match` (R124). -/
structure Row where
  mask : Word
  pattern : Word
  build : Build

/-- Whether a first word belongs to a row (R124). -/
def Row.hits (r : Row) (w : Word) : Bool := w &&& r.mask == r.pattern

/-- The byte-oriented rows of R130. -/
def rowsByte : List Row :=
  [ ⟨0xFC00#16, 0x2400#16, .one fun w => .addwf (fieldF w) (bitAt 9 w) (bitAt 8 w)⟩
  , ⟨0xFC00#16, 0x2000#16, .one fun w => .addwfc (fieldF w) (bitAt 9 w) (bitAt 8 w)⟩
  , ⟨0xFC00#16, 0x1400#16, .one fun w => .andwf (fieldF w) (bitAt 9 w) (bitAt 8 w)⟩
  , ⟨0xFE00#16, 0x6A00#16, .one fun w => .clrf (fieldF w) (bitAt 8 w)⟩
  , ⟨0xFC00#16, 0x1C00#16, .one fun w => .comf (fieldF w) (bitAt 9 w) (bitAt 8 w)⟩
  , ⟨0xFE00#16, 0x6200#16, .one fun w => .cpfseq (fieldF w) (bitAt 8 w)⟩
  , ⟨0xFE00#16, 0x6400#16, .one fun w => .cpfsgt (fieldF w) (bitAt 8 w)⟩
  , ⟨0xFE00#16, 0x6000#16, .one fun w => .cpfslt (fieldF w) (bitAt 8 w)⟩
  , ⟨0xFC00#16, 0x0400#16, .one fun w => .decf (fieldF w) (bitAt 9 w) (bitAt 8 w)⟩
  , ⟨0xFC00#16, 0x2C00#16, .one fun w => .decfsz (fieldF w) (bitAt 9 w) (bitAt 8 w)⟩
  , ⟨0xFC00#16, 0x4C00#16, .one fun w => .dcfsnz (fieldF w) (bitAt 9 w) (bitAt 8 w)⟩
  , ⟨0xFC00#16, 0x2800#16, .one fun w => .incf (fieldF w) (bitAt 9 w) (bitAt 8 w)⟩
  , ⟨0xFC00#16, 0x3C00#16, .one fun w => .incfsz (fieldF w) (bitAt 9 w) (bitAt 8 w)⟩
  , ⟨0xFC00#16, 0x4800#16, .one fun w => .infsnz (fieldF w) (bitAt 9 w) (bitAt 8 w)⟩
  , ⟨0xFC00#16, 0x1000#16, .one fun w => .iorwf (fieldF w) (bitAt 9 w) (bitAt 8 w)⟩
  , ⟨0xFC00#16, 0x5000#16, .one fun w => .movf (fieldF w) (bitAt 9 w) (bitAt 8 w)⟩
  , ⟨0xF000#16, 0xC000#16, .two decodeMovff⟩
  , ⟨0xFE00#16, 0x6E00#16, .one fun w => .movwf (fieldF w) (bitAt 8 w)⟩
  , ⟨0xFE00#16, 0x0200#16, .one fun w => .mulwf (fieldF w) (bitAt 8 w)⟩
  , ⟨0xFE00#16, 0x6C00#16, .one fun w => .negf (fieldF w) (bitAt 8 w)⟩
  , ⟨0xFC00#16, 0x3400#16, .one fun w => .rlcf (fieldF w) (bitAt 9 w) (bitAt 8 w)⟩
  , ⟨0xFC00#16, 0x4400#16, .one fun w => .rlncf (fieldF w) (bitAt 9 w) (bitAt 8 w)⟩
  , ⟨0xFC00#16, 0x3000#16, .one fun w => .rrcf (fieldF w) (bitAt 9 w) (bitAt 8 w)⟩
  , ⟨0xFC00#16, 0x4000#16, .one fun w => .rrncf (fieldF w) (bitAt 9 w) (bitAt 8 w)⟩
  , ⟨0xFE00#16, 0x6800#16, .one fun w => .setf (fieldF w) (bitAt 8 w)⟩
  , ⟨0xFC00#16, 0x5400#16, .one fun w => .subfwb (fieldF w) (bitAt 9 w) (bitAt 8 w)⟩
  , ⟨0xFC00#16, 0x5C00#16, .one fun w => .subwf (fieldF w) (bitAt 9 w) (bitAt 8 w)⟩
  , ⟨0xFC00#16, 0x5800#16, .one fun w => .subwfb (fieldF w) (bitAt 9 w) (bitAt 8 w)⟩
  , ⟨0xFC00#16, 0x3800#16, .one fun w => .swapf (fieldF w) (bitAt 9 w) (bitAt 8 w)⟩
  , ⟨0xFE00#16, 0x6600#16, .one fun w => .tstfsz (fieldF w) (bitAt 8 w)⟩
  , ⟨0xFC00#16, 0x1800#16, .one fun w => .xorwf (fieldF w) (bitAt 9 w) (bitAt 8 w)⟩ ]

/-- The bit-oriented rows of R130. -/
def rowsBit : List Row :=
  [ ⟨0xF000#16, 0x9000#16, .one fun w => .bcf (fieldF w) (fieldB w) (bitAt 8 w)⟩
  , ⟨0xF000#16, 0x8000#16, .one fun w => .bsf (fieldF w) (fieldB w) (bitAt 8 w)⟩
  , ⟨0xF000#16, 0xB000#16, .one fun w => .btfsc (fieldF w) (fieldB w) (bitAt 8 w)⟩
  , ⟨0xF000#16, 0xA000#16, .one fun w => .btfss (fieldF w) (fieldB w) (bitAt 8 w)⟩
  , ⟨0xF000#16, 0x7000#16, .one fun w => .btg (fieldF w) (fieldB w) (bitAt 8 w)⟩ ]

/-- The control-flow rows of R130. -/
def rowsFlow : List Row :=
  [ ⟨0xFF00#16, 0xE200#16, .one fun w => .bc (fieldK w)⟩
  , ⟨0xFF00#16, 0xE600#16, .one fun w => .bn (fieldK w)⟩
  , ⟨0xFF00#16, 0xE300#16, .one fun w => .bnc (fieldK w)⟩
  , ⟨0xFF00#16, 0xE700#16, .one fun w => .bnn (fieldK w)⟩
  , ⟨0xFF00#16, 0xE500#16, .one fun w => .bnov (fieldK w)⟩
  , ⟨0xFF00#16, 0xE100#16, .one fun w => .bnz (fieldK w)⟩
  , ⟨0xFF00#16, 0xE400#16, .one fun w => .bov (fieldK w)⟩
  , ⟨0xFF00#16, 0xE000#16, .one fun w => .bz (fieldK w)⟩
  , ⟨0xF800#16, 0xD000#16, .one fun w => .bra (w.extractLsb' 0 11)⟩
  , ⟨0xF800#16, 0xD800#16, .one fun w => .rcall (w.extractLsb' 0 11)⟩
  , ⟨0xFE00#16, 0xEC00#16, .two decodeCall⟩
  , ⟨0xFF00#16, 0xEF00#16, .two decodeGoto⟩
  , ⟨0xFFFE#16, 0x0012#16, .one fun w => .ret (bitAt 0 w)⟩
  , ⟨0xFF00#16, 0x0C00#16, .one fun w => .retlw (fieldK w)⟩
  , ⟨0xFFFE#16, 0x0010#16, .one fun w => .retfie (bitAt 0 w)⟩
  , ⟨0xFFFF#16, 0x0005#16, .one fun _ => .push⟩
  , ⟨0xFFFF#16, 0x0006#16, .one fun _ => .pop⟩ ]

/-- The system-control rows of R130 (NOP has two). -/
def rowsSystem : List Row :=
  [ ⟨0xFFFF#16, 0x0000#16, .one fun _ => .nop⟩
  , ⟨0xF000#16, 0xF000#16, .one fun w => .nopx (w.extractLsb' 0 12)⟩
  , ⟨0xFFFF#16, 0x0004#16, .one fun _ => .clrwdt⟩
  , ⟨0xFFFF#16, 0x0007#16, .one fun _ => .daw⟩
  , ⟨0xFFFF#16, 0x00FF#16, .one fun _ => .reset⟩
  , ⟨0xFFFF#16, 0x0003#16, .one fun _ => .sleep⟩ ]

/-- The literal rows of R130. -/
def rowsLiteral : List Row :=
  [ ⟨0xFF00#16, 0x0F00#16, .one fun w => .addlw (fieldK w)⟩
  , ⟨0xFF00#16, 0x0B00#16, .one fun w => .andlw (fieldK w)⟩
  , ⟨0xFF00#16, 0x0900#16, .one fun w => .iorlw (fieldK w)⟩
  , ⟨0xFFC0#16, 0xEE00#16, .two decodeLfsr⟩
  , ⟨0xFFF0#16, 0x0100#16, .one fun w => .movlb (w.extractLsb' 0 4)⟩
  , ⟨0xFF00#16, 0x0E00#16, .one fun w => .movlw (fieldK w)⟩
  , ⟨0xFF00#16, 0x0D00#16, .one fun w => .mullw (fieldK w)⟩
  , ⟨0xFF00#16, 0x0800#16, .one fun w => .sublw (fieldK w)⟩
  , ⟨0xFF00#16, 0x0A00#16, .one fun w => .xorlw (fieldK w)⟩ ]

/-- The table-access rows of R130. -/
def rowsTable : List Row :=
  [ ⟨0xFFFF#16, 0x0008#16, .one fun _ => .tblrd⟩
  , ⟨0xFFFF#16, 0x0009#16, .one fun _ => .tblrdPostInc⟩
  , ⟨0xFFFF#16, 0x000A#16, .one fun _ => .tblrdPostDec⟩
  , ⟨0xFFFF#16, 0x000B#16, .one fun _ => .tblrdPreInc⟩
  , ⟨0xFFFF#16, 0x000C#16, .one fun _ => .tblwt⟩
  , ⟨0xFFFF#16, 0x000D#16, .one fun _ => .tblwtPostInc⟩
  , ⟨0xFFFF#16, 0x000E#16, .one fun _ => .tblwtPostDec⟩
  , ⟨0xFFFF#16, 0x000F#16, .one fun _ => .tblwtPreInc⟩ ]

/-- The whole encoding table R130. -/
def rows : List Row := rowsByte ++ rowsBit ++ rowsFlow ++ rowsSystem ++ rowsLiteral ++ rowsTable

/-- The row a first word belongs to; the rows are disjoint, so the first hit is the only one (R124). -/
def rowOf (w : Word) : Option Row := rows.find? (fun r => r.hits w)

/-- Whether a word is the first word of a two-word instruction, the reserved ff = 3 of LFSR included (R128). -/
def isTwoWord (w : Word) : Bool :=
  w &&& 0xF000#16 == 0xC000#16 || w &&& 0xFE00#16 == 0xEC00#16 || w &&& 0xFF00#16 == 0xEF00#16
    || w &&& 0xFFC0#16 == 0xEE00#16

/-- The name a first word of no row is rejected under: the words 0110h to 01FFh are the disputed form of MOVLB, all
others are unassigned (R134, 45_literal.md R285). -/
def rejectFirst (w : Word) : Undecodable :=
  if w &&& 0xFF00#16 == 0x0100#16 then .reservedForm else .unassigned

/-- The instruction of a first word and the word after it (R124). A one-word instruction does not look at the second. -/
def decodeWords (w1 w2 : Word) : Except Undecodable Instr :=
  match rowOf w1 with
  | none => .error (rejectFirst w1)
  | some r =>
    match r.build with
    | .one k => .ok (k w1)
    | .two k => k w1 w2

/-- The word of two bytes, the lower address first: little-endian (20_memory.md R93, R94). -/
def wordOf (low high : Byte) : Word := (high ++ low : BitVec 16)

/-- Decoding: the instruction at the front of a list of bytes, and the bytes after it. -/
def decode : List Byte → Except Undecodable (Instr × List Byte)
  | b0 :: b1 :: rest =>
    if isTwoWord (wordOf b0 b1) then
      match rest with
      | b2 :: b3 :: rest' => (decodeWords (wordOf b0 b1) (wordOf b2 b3)).map fun i => (i, rest')
      | _ => .error .truncated
    else (decodeWords (wordOf b0 b1) 0#16).map fun i => (i, rest)
  | _ => .error .truncated

/-- How many bytes a skip passes over for the word it skips: 4 for a two-word instruction, 2 for one word, none for an
unassigned word or a reserved form (41_byte_skip.md R201; R128, R134, R136). Only the first word is looked at. -/
def skippedBytes (w : Word) : Option Nat :=
  if isTwoWord w then
    if w &&& 0xFFF0#16 == 0xEE30#16 then none else some 4
  else if (rowOf w).isSome then some 2 else none

/-- Format BYTE_FDA (R121): opcode 15:10, d 9, a 8, f 7:0. -/
def encodeFda (op : BitVec 6) (f : Byte) (d a : Bool) : List Word :=
  [(op ++ BitVec.ofBool d ++ BitVec.ofBool a ++ f : BitVec 16)]

/-- Format BYTE_FA (R121): opcode 15:9, a 8, f 7:0. -/
def encodeFa (op : BitVec 7) (f : Byte) (a : Bool) : List Word :=
  [(op ++ BitVec.ofBool a ++ f : BitVec 16)]

/-- Format BIT (R121): opcode 15:12, b 11:9, a 8, f 7:0. -/
def encodeBit (op : BitVec 4) (f : Byte) (b : BitVec 3) (a : Bool) : List Word :=
  [(op ++ b ++ BitVec.ofBool a ++ f : BitVec 16)]

/-- Formats LIT8 and BR8 (R121): opcode 15:8, literal or offset 7:0. -/
def encodeK (op : BitVec 8) (k : Byte) : List Word := [(op ++ k : BitVec 16)]

/-- Format BR11 (R121): opcode 15:11, offset 10:0. -/
def encodeN11 (op : BitVec 5) (n : BitVec 11) : List Word := [(op ++ n : BitVec 16)]

/-- Format RET_S (R121): opcode 15:1, s 0. -/
def encodeS (op : BitVec 15) (s : Bool) : List Word := [(op ++ BitVec.ofBool s : BitVec 16)]

/-- The second word of a two-word instruction: 1111 in bits 15:12 (R126). -/
def secondWord (x : BitVec 12) : Word := (0xF#4 ++ x : BitVec 16)

/-- The words of an instruction, first word first (R121, R130). -/
def encode : Instr → List Word
  | .addwf f d a => encodeFda 0b001001#6 f d a
  | .addwfc f d a => encodeFda 0b001000#6 f d a
  | .andwf f d a => encodeFda 0b000101#6 f d a
  | .clrf f a => encodeFa 0b0110101#7 f a
  | .comf f d a => encodeFda 0b000111#6 f d a
  | .cpfseq f a => encodeFa 0b0110001#7 f a
  | .cpfsgt f a => encodeFa 0b0110010#7 f a
  | .cpfslt f a => encodeFa 0b0110000#7 f a
  | .decf f d a => encodeFda 0b000001#6 f d a
  | .decfsz f d a => encodeFda 0b001011#6 f d a
  | .dcfsnz f d a => encodeFda 0b010011#6 f d a
  | .incf f d a => encodeFda 0b001010#6 f d a
  | .incfsz f d a => encodeFda 0b001111#6 f d a
  | .infsnz f d a => encodeFda 0b010010#6 f d a
  | .iorwf f d a => encodeFda 0b000100#6 f d a
  | .movf f d a => encodeFda 0b010100#6 f d a
  | .movff fs fd => [(0b1100#4 ++ fs : BitVec 16), secondWord fd]
  | .movwf f a => encodeFa 0b0110111#7 f a
  | .mulwf f a => encodeFa 0b0000001#7 f a
  | .negf f a => encodeFa 0b0110110#7 f a
  | .rlcf f d a => encodeFda 0b001101#6 f d a
  | .rlncf f d a => encodeFda 0b010001#6 f d a
  | .rrcf f d a => encodeFda 0b001100#6 f d a
  | .rrncf f d a => encodeFda 0b010000#6 f d a
  | .setf f a => encodeFa 0b0110100#7 f a
  | .subfwb f d a => encodeFda 0b010101#6 f d a
  | .subwf f d a => encodeFda 0b010111#6 f d a
  | .subwfb f d a => encodeFda 0b010110#6 f d a
  | .swapf f d a => encodeFda 0b001110#6 f d a
  | .tstfsz f a => encodeFa 0b0110011#7 f a
  | .xorwf f d a => encodeFda 0b000110#6 f d a
  | .bcf f b a => encodeBit 0b1001#4 f b a
  | .bsf f b a => encodeBit 0b1000#4 f b a
  | .btfsc f b a => encodeBit 0b1011#4 f b a
  | .btfss f b a => encodeBit 0b1010#4 f b a
  | .btg f b a => encodeBit 0b0111#4 f b a
  | .bc n => encodeK 0b11100010#8 n
  | .bn n => encodeK 0b11100110#8 n
  | .bnc n => encodeK 0b11100011#8 n
  | .bnn n => encodeK 0b11100111#8 n
  | .bnov n => encodeK 0b11100101#8 n
  | .bnz n => encodeK 0b11100001#8 n
  | .bov n => encodeK 0b11100100#8 n
  | .bz n => encodeK 0b11100000#8 n
  | .bra n => encodeN11 0b11010#5 n
  | .rcall n => encodeN11 0b11011#5 n
  | .call k s => [(0b1110110#7 ++ BitVec.ofBool s ++ k.extractLsb' 0 8 : BitVec 16), secondWord (k.extractLsb' 8 12)]
  | .goto k => [(0b11101111#8 ++ k.extractLsb' 0 8 : BitVec 16), secondWord (k.extractLsb' 8 12)]
  | .ret s => encodeS 0b000000000001001#15 s
  | .retlw k => encodeK 0b00001100#8 k
  | .retfie s => encodeS 0b000000000001000#15 s
  | .push => [0b0000000000000101#16]
  | .pop => [0b0000000000000110#16]
  | .nop => [0b0000000000000000#16]
  | .nopx x => [secondWord x]
  | .clrwdt => [0b0000000000000100#16]
  | .daw => [0b0000000000000111#16]
  | .reset => [0b0000000011111111#16]
  | .sleep => [0b0000000000000011#16]
  | .addlw k => encodeK 0b00001111#8 k
  | .andlw k => encodeK 0b00001011#8 k
  | .iorlw k => encodeK 0b00001001#8 k
  | .lfsr ff k => [(0b1110111000#10 ++ ff ++ k.extractLsb' 8 4 : BitVec 16), secondWord (0#4 ++ k.extractLsb' 0 8 : BitVec 12)]
  | .movlb k => [(0b000000010000#12 ++ k : BitVec 16)]
  | .movlw k => encodeK 0b00001110#8 k
  | .mullw k => encodeK 0b00001101#8 k
  | .sublw k => encodeK 0b00001000#8 k
  | .xorlw k => encodeK 0b00001010#8 k
  | .tblrd => [0b0000000000001000#16]
  | .tblrdPostInc => [0b0000000000001001#16]
  | .tblrdPostDec => [0b0000000000001010#16]
  | .tblrdPreInc => [0b0000000000001011#16]
  | .tblwt => [0b0000000000001100#16]
  | .tblwtPostInc => [0b0000000000001101#16]
  | .tblwtPostDec => [0b0000000000001110#16]
  | .tblwtPreInc => [0b0000000000001111#16]

/-- The bytes of a word in memory, the low byte first (20_memory.md R94). -/
def bytesOfWord (w : Word) : List Byte := [w.extractLsb' 0 8, w.extractLsb' 8 8]

/-- The bytes of an instruction in program memory, lowest address first. -/
def encodeBytes (i : Instr) : List Byte := (encode i).flatMap bytesOfWord

/-- The bytes of `count` consecutive program addresses that the number `w` stands for in the numbering of
opcode_table.json: bit 0 is the least significant bit of the first word, a later word counts on. Words are
little-endian, so byte `j` is bits 8j+7 to 8j. -/
def tableBytes : Nat → Nat → List Byte
  | 0, _ => []
  | count + 1, w => BitVec.ofNat 8 w :: tableBytes count (w / 256)

/-- What the decoder reads from an instruction whose low `nbits` bits are `w` and whose other bits are 0. -/
def decodeTableWord (nbits w : Nat) : Option Instr :=
  match decode (tableBytes 4 (w % 2 ^ nbits)) with
  | .ok (i, _) => some i
  | .error _ => none

end Sys2Proof
end

