-- ==== Sys2Proof/Config.lean ====
section
/-! DEFINITION. The parameters of 00_scope.md rule R7 with the defaults of 92_eei_decisions.md, and the free value: a
constant with no body, so that nothing proved about it fixes what it is. -/

namespace Sys2Proof.Config

/-- The four members of the family (R1, R2). -/
inductive Device where
  | pic18f242
  | pic18f252
  | pic18f442
  | pic18f452
deriving DecidableEq, Repr

/-- Implemented program FLASH in bytes (R2). -/
def Device.progBytes : Device → Nat
  | .pic18f242 => 16384
  | .pic18f252 => 32768
  | .pic18f442 => 16384
  | .pic18f452 => 32768

/-- Implemented general-purpose RAM in bytes (R2). -/
def Device.ramBytes : Device → Nat
  | .pic18f242 => 768
  | .pic18f252 => 1536
  | .pic18f442 => 768
  | .pic18f452 => 1536

/-- Whether the member has 40 pins, and with them PORTD, PORTE and the parallel slave port (10_state.md R60). -/
def Device.fortyPins : Device → Bool
  | .pic18f242 => false
  | .pic18f252 => false
  | .pic18f442 => true
  | .pic18f452 => true

/-- Parameter DEVICE. DESIGN CHOICE (log 1): the default of decision D1. -/
def device : Device := .pic18f452

/-- PROG_BYTES (R7). -/
def progBytes : Nat := device.progBytes

/-- RAM_BYTES (R7). -/
def ramBytes : Nat := device.ramBytes

/-- ACCESS_SPLIT (R7, decision D7). DESIGN CHOICE (log 1). -/
def accessSplit : Nat := 0x80

/-- STACK_DEPTH (R7, decision D13). DESIGN CHOICE (log 1). -/
def stackDepth : Nat := 31

/-- HOLDING_BYTES (R7, decision D20). DESIGN CHOICE (log 1). -/
def holdingBytes : Nat := 8

/-- RESET_VECTOR (R7, decision D16). DESIGN CHOICE (log 1). -/
def resetVector : ProgAddr := 0x000000#21

/-- HI_VECTOR (R7, decision D14). DESIGN CHOICE (log 1). -/
def hiVector : ProgAddr := 0x000008#21

/-- LO_VECTOR (R7, decision D14). DESIGN CHOICE (log 1). -/
def loVector : ProgAddr := 0x000018#21

/-- WDT_ENABLED, the configuration bit of the watchdog (decision D19, default false). DESIGN CHOICE (log 1). -/
def wdtEnabled : Bool := false

/-- FREE VALUE: the byte the environment answers the `n`-th draw with, for a read of the peripheral register at the
address (20_memory.md R98: "two reads of the same address need not agree"). DESIGN CHOICE (log 8): unconstrained. -/
opaque deviceByte : Nat → DataAddr → Byte

end Sys2Proof.Config
end

