-- ==== Sys2Proof/Machine/State.lean ====
section
/-! DEFINITION. The state of the machine (10_state.md rule R20), the names of the ways a step can stop (60_exceptions.md
rule R321) and the power-on state (10_state.md rule R64). -/

namespace Sys2Proof.Machine

/-- The model's faults. The hardware has no trap (60_exceptions.md R320, R321): a fault stops the run. -/
inductive Fault where
  /-- A push with SP = STACK_DEPTH: CALL, RCALL, PUSH, interrupt entry (10_state.md R36). Safe: the hardware goes on in a
  way the manual does not say. -/
  | stackOverflow
  /-- A pop with SP = 0: RETURN, RETLW, RETFIE, POP (10_state.md R37). Safe, for the same reason. -/
  | stackUnderflow
  /-- A read of a byte of general-purpose RAM that nothing has written (20_memory.md R86, 10_state.md R65). Safe: the
  hardware reads some byte. -/
  | readOfUnwritten
deriving DecidableEq, Repr

/-- The model's refusals: the step has no meaning (60_exceptions.md R321). All are safe: the hardware does something, and
nothing can be proved of it. -/
inductive Refusal where
  /-- An instruction without a meaning in `exec`; no arm uses it. Raised by nobody. Safe. -/
  | notModelled (mnemonic : String)
  /-- The word at PC matches no row of the opcode table. Raised by the fetch (30_encoding.md R134). Safe. -/
  | unassignedOpcode
  /-- MOVLB with bits 7:4 not 0, LFSR with ff = 3 or bits 11:8 of its second word not 0. Raised by the fetch, and by
  LFSR itself for an ill-formed term (45_literal.md R284, R285). Safe. -/
  | reservedForm
  /-- The second word of MOVFF, CALL, GOTO or LFSR lacks 1111 in bits 15:12. Raised by the fetch (30_encoding.md R127).
  Safe. -/
  | badSecondWord
  /-- A taken skip over a word that is unassigned or a reserved form. Raised by the ten skip instructions
  (41_byte_skip.md R201). Safe. -/
  | skipOverUnassigned
  /-- MOVFF naming PCL, TOSU, TOSH or TOSL. Raised by MOVFF (40_byte_oriented.md R172). Safe. -/
  | movffRestricted
  /-- A data access at an address that is neither RAM nor a register of the map. Raised by every instruction with a file
  operand (20_memory.md R86, R87). Safe. -/
  | unimplementedData
  /-- An instruction that uses an indirect register of FSRn and addresses FSRnH or FSRnL. Raised by every instruction
  with a file operand (20_memory.md R89). Safe. -/
  | indirectSelfReference
  /-- A fetch, a table read or a skip at a program address not below PROG_BYTES (20_memory.md R92). Safe. -/
  | unimplementedProgram
  /-- A table instruction with TBLPTRU bit 5 set (46_table.md R301). Safe. -/
  | configSpace
  /-- A data write to EECON2, the start of the FLASH and EEPROM programming sequence (46_table.md R306). Safe. -/
  | flashProgramming
deriving DecidableEq, Repr

/-- The five ALU flags of STATUS (10_state.md R22). -/
structure Flags where
  n : Bool
  ov : Bool
  z : Bool
  dc : Bool
  c : Bool
deriving DecidableEq, Repr

/-- The number of an FSR (10_state.md R25). -/
inductive FsrIx where
  | f0
  | f1
  | f2
deriving DecidableEq, Repr

/-- The three 12-bit indirect pointers (10_state.md R25). -/
structure Fsrs where
  fsr0 : DataAddr
  fsr1 : DataAddr
  fsr2 : DataAddr
deriving DecidableEq, Repr

/-- The hidden registers WS, STATUSS, BSRS (10_state.md R39). -/
structure Shadow where
  ws : Byte
  statuss : Flags
  bsrs : BitVec 4
deriving DecidableEq, Repr

/-- The interrupt-control registers (60_exceptions.md R331) and the PORTB mismatch that holds RBIF (R332). -/
structure IrqRegs where
  intcon : Byte
  intcon2 : Byte
  intcon3 : Byte
  pir1 : Byte
  pir2 : Byte
  pie1 : Byte
  pie2 : Byte
  ipr1 : Byte
  ipr2 : Byte
  rbMismatch : Bool
deriving DecidableEq, Repr

/-- The watchdog: its counter and scaler, of unspecified width (10_state.md R41), and WDTCON.SWDTEN (R61). -/
structure Wdt where
  counter : Nat
  scaler : Nat
  swdten : Bool
deriving DecidableEq, Repr

/-- The sources of interrupts (60_exceptions.md R332), in the order of its table. -/
inductive Source where
  | int0
  | int1
  | int2
  | tmr0
  | rbChange
  | psp
  | adc
  | usartRx
  | usartTx
  | mssp
  | ccp1
  | tmr2
  | tmr1
  | eeprom
  | busCollision
  | lowVoltage
  | tmr3
  | ccp2
deriving DecidableEq, Repr

/-- What the environment does at an instruction boundary (00_scope.md R14 items 1 and 8). DESIGN CHOICE (log 7): the
model holds the environment's steps as data, and with them where the core's own steps come between them. -/
inductive Input where
  /-- `RaiseFlag(source)` (60_exceptions.md R332). -/
  | raiseFlag (src : Source)
  /-- RCIF and TXIF follow the USART buffers (60_exceptions.md R331, R332). -/
  | usartBuffers (rcif txif : Bool)
  /-- The watchdog's own oscillator counts: counter and scaler take these values (10_state.md R41). -/
  | wdtClock (counter scaler : Nat)
  /-- `WdtTimeout` (60_exceptions.md R346). -/
  | wdtTimeout
  /-- A power-on reset (70_reset_and_hazards.md R370). -/
  | powerOnReset
  /-- A reset by the MCLR pin (70_reset_and_hazards.md R370). -/
  | mclrReset
  /-- A brown-out reset (70_reset_and_hazards.md R370). -/
  | brownOutReset
  /-- The environment lets this boundary pass before a pending interrupt is taken (60_exceptions.md R334). -/
  | delayInterrupt
  /-- The environment does nothing at this boundary and the core takes its own step, an interrupt entry included, with the
  later events still to come: so an event can follow an entry (60_exceptions.md R332, R334, R346). -/
  | proceed
deriving DecidableEq, Repr

/-- A memory: the bytes that differ from what an unlisted address reads as, addresses strictly rising. -/
abbrev Memory := List Host.Cell

/-- The state of the machine (10_state.md R20). Fields are named after the registers. -/
structure State where
  /-- W, WREG (R21). -/
  w : Byte
  /-- STATUS (R22). -/
  status : Flags
  /-- BSR (R24), its four implemented bits. -/
  bsr : BitVec 4
  /-- FSR0, FSR1, FSR2 (R25). -/
  fsr : Fsrs
  /-- PRODH (R26). -/
  prodh : Byte
  /-- PRODL (R26). -/
  prodl : Byte
  /-- TBLPTR (R27), bits 20:0. -/
  tblptr : ProgAddr
  /-- TBLPTRU bit 5, TBLPTR[21] (R27, R61). -/
  tblptr21 : Bool
  /-- TABLAT (R28). -/
  tablat : Byte
  /-- PC (R30, R31). -/
  pc : ProgAddr
  /-- PCLATH (R32). -/
  pclath : Byte
  /-- PCLATU (R32), its five implemented bits. -/
  pclatu : BitVec 5
  /-- Return-stack entries 1 to STACK_DEPTH (R35); entry n is at index n - 1. -/
  stack : Vector ProgAddr Config.stackDepth
  /-- STKPTR bits 4:0, the stack pointer; 0 is empty (R35, R38). -/
  sp : BitVec 5
  /-- STKPTR bit 7 (R38). -/
  stkful : Bool
  /-- STKPTR bit 6 (R38). -/
  stkunf : Bool
  /-- WS, STATUSS, BSRS (R39). -/
  shadow : Shadow
  /-- INTCON, INTCON2, INTCON3, PIR1, PIR2, PIE1, PIE2, IPR1, IPR2 (R40; 60_exceptions.md R331). -/
  irq : IrqRegs
  /-- RCON (R41, R61). -/
  rcon : Byte
  /-- The watchdog (R41). -/
  wdt : Wdt
  /-- The sleep flag (R42). -/
  sleeping : Bool
  /-- The model's own: the core has woken from SLEEP and the instruction after SLEEP has not run, which comes before an
  interrupt entry (60_exceptions.md R348; DEDUCED, log 40). -/
  waking : Bool
  /-- General-purpose RAM, keyed by data address (R43). -/
  ram : Memory
  /-- Program memory, keyed by byte address (R44). -/
  prog : Memory
  /-- The table-write holding latches (R45). -/
  holding : Vector Byte Config.holdingBytes
  /-- Device output events, oldest first (20_memory.md R98). -/
  outputs : List (DataAddr × Byte)
  /-- The model's own: the number of free values drawn so far. -/
  draws : Nat
  /-- The model's own: what the environment does at the next boundaries, soonest first. -/
  inputs : List Input
deriving DecidableEq, Repr

/-- STATUS with no flag set. -/
def Flags.clear : Flags := ⟨false, false, false, false, false⟩

/-- The state after a power-on reset (10_state.md R64, column "Power-on reset"; 95_test_vectors.md T1).
DESIGN CHOICE (log 2), unsafe: where R64 has `x` or "unspecified" a register holds zero. RAM lists nothing (log 3) and
program memory is erased (log 4). DESIGN CHOICE (log 7, 8, 15, 40): no input is pending, nothing has been drawn or
output, and no wake-up is under way. -/
def State.reset : State where
  w := 0x00#8
  status := Flags.clear
  bsr := 0#4
  fsr := ⟨0x000#12, 0x000#12, 0x000#12⟩
  prodh := 0x00#8
  prodl := 0x00#8
  tblptr := 0x000000#21
  tblptr21 := false
  tablat := 0x00#8
  pc := Config.resetVector
  pclath := 0x00#8
  pclatu := 0#5
  stack := Vector.replicate Config.stackDepth 0#21
  sp := 0#5
  stkful := false
  stkunf := false
  shadow := ⟨0x00#8, Flags.clear, 0#4⟩
  irq :=
    { intcon := 0x00#8
      intcon2 := 0xF5#8
      intcon3 := 0xC0#8
      pir1 := 0x00#8
      pir2 := 0x00#8
      pie1 := 0x00#8
      pie2 := 0x00#8
      ipr1 := if Config.device.fortyPins then 0xFF#8 else 0x7F#8
      ipr2 := 0x1F#8
      rbMismatch := false }
  rcon := 0x1C#8
  wdt := ⟨0, 0, false⟩
  sleeping := false
  waking := false
  ram := []
  prog := []
  holding := Vector.replicate Config.holdingBytes 0x00#8
  outputs := []
  draws := 0
  inputs := []

/-- The state with `w` replaced. -/
def State.setW (s : State) (x : Byte) : State := { s with w := x }

/-- The state with `status` replaced. -/
def State.setStatus (s : State) (x : Flags) : State := { s with status := x }

/-- The state with `bsr` replaced. -/
def State.setBsr (s : State) (x : BitVec 4) : State := { s with bsr := x }

/-- The state with `fsr` replaced. -/
def State.setFsr (s : State) (x : Fsrs) : State := { s with fsr := x }

/-- The state with `prodh` replaced. -/
def State.setProdh (s : State) (x : Byte) : State := { s with prodh := x }

/-- The state with `prodl` replaced. -/
def State.setProdl (s : State) (x : Byte) : State := { s with prodl := x }

/-- The state with `tblptr` replaced. -/
def State.setTblptr (s : State) (x : ProgAddr) : State := { s with tblptr := x }

/-- The state with `tblptr21` replaced. -/
def State.setTblptr21 (s : State) (x : Bool) : State := { s with tblptr21 := x }

/-- The state with `tablat` replaced. -/
def State.setTablat (s : State) (x : Byte) : State := { s with tablat := x }

/-- The state with `pc` replaced. -/
def State.setPc (s : State) (x : ProgAddr) : State := { s with pc := x }

/-- The state with `pclath` replaced. -/
def State.setPclath (s : State) (x : Byte) : State := { s with pclath := x }

/-- The state with `pclatu` replaced. -/
def State.setPclatu (s : State) (x : BitVec 5) : State := { s with pclatu := x }

/-- The state with `stack` replaced. -/
def State.setStack (s : State) (x : Vector ProgAddr Config.stackDepth) : State := { s with stack := x }

/-- The state with `sp` replaced. -/
def State.setSp (s : State) (x : BitVec 5) : State := { s with sp := x }

/-- The state with `stkful` replaced. -/
def State.setStkful (s : State) (x : Bool) : State := { s with stkful := x }

/-- The state with `stkunf` replaced. -/
def State.setStkunf (s : State) (x : Bool) : State := { s with stkunf := x }

/-- The state with `shadow` replaced. -/
def State.setShadow (s : State) (x : Shadow) : State := { s with shadow := x }

/-- The state with `irq` replaced. -/
def State.setIrq (s : State) (x : IrqRegs) : State := { s with irq := x }

/-- The state with `rcon` replaced. -/
def State.setRcon (s : State) (x : Byte) : State := { s with rcon := x }

/-- The state with `wdt` replaced. -/
def State.setWdt (s : State) (x : Wdt) : State := { s with wdt := x }

/-- The state with `sleeping` replaced. -/
def State.setSleeping (s : State) (x : Bool) : State := { s with sleeping := x }

/-- The state with `waking` replaced. -/
def State.setWaking (s : State) (x : Bool) : State := { s with waking := x }

/-- The state with `ram` replaced. -/
def State.setRam (s : State) (x : Memory) : State := { s with ram := x }

/-- The state with `prog` replaced. -/
def State.setProg (s : State) (x : Memory) : State := { s with prog := x }

/-- The state with `holding` replaced. -/
def State.setHolding (s : State) (x : Vector Byte Config.holdingBytes) : State := { s with holding := x }

/-- The state with `outputs` replaced. -/
def State.setOutputs (s : State) (x : List (DataAddr × Byte)) : State := { s with outputs := x }

/-- The state with `draws` replaced. -/
def State.setDraws (s : State) (x : Nat) : State := { s with draws := x }

/-- The state with `inputs` replaced. -/
def State.setInputs (s : State) (x : List Input) : State := { s with inputs := x }

end Sys2Proof.Machine
end

