-- ==== Sys2Proof/Machine/Flags.lean ====
section
/-! DEFINITION. STATUS as a byte (10_state.md rules R22, R61), which flags an instruction writes (40_byte_oriented.md rule
R163) and the arithmetic that computes them (00_scope.md rule R12). -/

namespace Sys2Proof.Machine

/-- STATUS as software reads it: bits 7:5 are 0, then N, OV, Z, DC, C (R22, R61). -/
def Flags.toByte (s : Flags) : Byte :=
  (0#3 ++ BitVec.ofBool s.n ++ BitVec.ofBool s.ov ++ BitVec.ofBool s.z ++ BitVec.ofBool s.dc ++ BitVec.ofBool s.c : BitVec 8)

/-- STATUS from a byte written to it: bits 7:5 are ignored (R22, R61). -/
def Flags.ofByte (v : Byte) : Flags where
  n := v.getLsbD 4
  ov := v.getLsbD 3
  z := v.getLsbD 2
  dc := v.getLsbD 1
  c := v.getLsbD 0

/-- The flags an instruction writes: `none` leaves a flag as it is (R163). -/
structure FlagUpdate where
  n : Option Bool
  ov : Option Bool
  z : Option Bool
  dc : Option Bool
  c : Option Bool
deriving DecidableEq, Repr

/-- STATUS after the flags of `u` are written. It is applied after the result is written, so that with STATUS as the
destination the flags the instruction writes take the ALU's values and the others the result's bits (10_state.md R23). -/
def FlagUpdate.apply (u : FlagUpdate) (s : Flags) : Flags where
  n := u.n.getD s.n
  ov := u.ov.getD s.ov
  z := u.z.getD s.z
  dc := u.dc.getD s.dc
  c := u.c.getD s.c

/-- No flag is written. -/
def noFlags : FlagUpdate := ⟨none, none, none, none, none⟩

/-- Z and N of a result: the logic, move and rotate groups (R163). -/
def flagsZN (r : Byte) : FlagUpdate :=
  { n := some r.msb, ov := none, z := some (r == 0#8), dc := none, c := none }

/-- C, Z and N: the rotates through carry (R163). -/
def flagsCZN (c : Bool) (r : Byte) : FlagUpdate :=
  { n := some r.msb, ov := none, z := some (r == 0#8), dc := none, c := some c }

/-- Z set to 1 and no other flag: CLRF (R163, R167). -/
def flagsSetZ : FlagUpdate := { n := none, ov := none, z := some true, dc := none, c := none }

/-- C and no other flag: DAW (44_control_system.md R263). -/
def flagsC (c : Bool) : FlagUpdate := { n := none, ov := none, z := none, dc := none, c := some c }

/-- `add8` (R12): the 8-bit sum of x, y and a carry, and all five flags. -/
def add8 (x y : Byte) (cin : Bool) : Byte × FlagUpdate :=
  let sum := x.toNat + y.toNat + cin.toNat
  let r := BitVec.ofNat 8 sum
  (r,
    { c := some (decide (sum > 255))
      dc := some (decide (x.toNat % 16 + y.toNat % 16 + cin.toNat > 15))
      z := some (r == 0#8)
      n := some r.msb
      ov := some (x.msb == y.msb && r.msb != x.msb) })

/-- A result that writes Z and N. -/
def resultZN (r : Byte) : Byte × FlagUpdate := (r, flagsZN r)

end Sys2Proof.Machine
end

