-- ==== Sys2Proof/Machine/Sfr.lean ====
section
/-! DEFINITION. The data address map: 10_state.md rule R60, 20_memory.md rules R81, R86. PRESUMED (log 26): the spec takes
the map from general knowledge of the family (GK2, decision D8). -/

namespace Sys2Proof.Machine

/-- The registers of the map that are state of the model (bold in R60, and the interrupt-control registers and WDTCON:
20_memory.md R98, 60_exceptions.md R343). -/
inductive CoreReg where
  | tosu
  | tosh
  | tosl
  | stkptr
  | pclatu
  | pclath
  | pcl
  | tblptru
  | tblptrh
  | tblptrl
  | tablat
  | prodh
  | prodl
  | intcon
  | intcon2
  | intcon3
  | wreg
  | fsrh (n : FsrIx)
  | fsrl (n : FsrIx)
  | bsr
  | status
  | wdtcon
  | rcon
  | ipr1
  | pir1
  | pie1
  | ipr2
  | pir2
  | pie2
deriving DecidableEq, Repr

/-- The five ways through an FSR (20_memory.md R89). -/
inductive IndirectMode where
  | indf
  | postInc
  | postDec
  | preInc
  | plusW
deriving DecidableEq, Repr

/-- What stands at a data address (20_memory.md R86, R87). -/
inductive Place where
  /-- General-purpose RAM. -/
  | ram
  /-- A register of the core. -/
  | reg (r : CoreReg)
  /-- One of the fifteen indirect addresses. -/
  | indirect (n : FsrIx) (m : IndirectMode)
  /-- A peripheral register: the device oracle. -/
  | device
  /-- EECON2: a peripheral register whose write starts the programming sequence (46_table.md R306). -/
  | eecon2
  /-- Neither RAM nor a register of the map. -/
  | unimplemented
deriving DecidableEq, Repr

/-- FF0h to FFFh (R60). -/
def sfrF : List (Nat × Place) :=
  [ (0xFFF, .reg .tosu), (0xFFE, .reg .tosh), (0xFFD, .reg .tosl), (0xFFC, .reg .stkptr)
  , (0xFFB, .reg .pclatu), (0xFFA, .reg .pclath), (0xFF9, .reg .pcl)
  , (0xFF8, .reg .tblptru), (0xFF7, .reg .tblptrh), (0xFF6, .reg .tblptrl), (0xFF5, .reg .tablat)
  , (0xFF4, .reg .prodh), (0xFF3, .reg .prodl)
  , (0xFF2, .reg .intcon), (0xFF1, .reg .intcon2), (0xFF0, .reg .intcon3) ]

/-- FE0h to FEFh (R60). -/
def sfrE : List (Nat × Place) :=
  [ (0xFEF, .indirect .f0 .indf), (0xFEE, .indirect .f0 .postInc), (0xFED, .indirect .f0 .postDec)
  , (0xFEC, .indirect .f0 .preInc), (0xFEB, .indirect .f0 .plusW)
  , (0xFEA, .reg (.fsrh .f0)), (0xFE9, .reg (.fsrl .f0)), (0xFE8, .reg .wreg)
  , (0xFE7, .indirect .f1 .indf), (0xFE6, .indirect .f1 .postInc), (0xFE5, .indirect .f1 .postDec)
  , (0xFE4, .indirect .f1 .preInc), (0xFE3, .indirect .f1 .plusW)
  , (0xFE2, .reg (.fsrh .f1)), (0xFE1, .reg (.fsrl .f1)), (0xFE0, .reg .bsr) ]

/-- FD0h to FDFh (R60): with TMR0H, TMR0L, T0CON, OSCCON and LVDCON as peripherals. -/
def sfrD : List (Nat × Place) :=
  [ (0xFDF, .indirect .f2 .indf), (0xFDE, .indirect .f2 .postInc), (0xFDD, .indirect .f2 .postDec)
  , (0xFDC, .indirect .f2 .preInc), (0xFDB, .indirect .f2 .plusW)
  , (0xFDA, .reg (.fsrh .f2)), (0xFD9, .reg (.fsrl .f2)), (0xFD8, .reg .status)
  , (0xFD7, .device), (0xFD6, .device), (0xFD5, .device)
  , (0xFD3, .device), (0xFD2, .device), (0xFD1, .reg .wdtcon), (0xFD0, .reg .rcon) ]

/-- FC1h to FCFh (R60): TMR1H, TMR1L, T1CON, TMR2, PR2, T2CON, SSPBUF, SSPADD, SSPSTAT, SSPCON1, SSPCON2, ADRESH, ADRESL,
ADCON0, ADCON1. -/
def sfrC : List (Nat × Place) :=
  [ (0xFCF, .device), (0xFCE, .device), (0xFCD, .device), (0xFCC, .device), (0xFCB, .device), (0xFCA, .device)
  , (0xFC9, .device), (0xFC8, .device), (0xFC7, .device), (0xFC6, .device), (0xFC5, .device)
  , (0xFC4, .device), (0xFC3, .device), (0xFC2, .device), (0xFC1, .device) ]

/-- FB1h to FBFh (R60): CCPR1H, CCPR1L, CCP1CON, CCPR2H, CCPR2L, CCP2CON, TMR3H, TMR3L, T3CON. -/
def sfrB : List (Nat × Place) :=
  [ (0xFBF, .device), (0xFBE, .device), (0xFBD, .device), (0xFBC, .device), (0xFBB, .device), (0xFBA, .device)
  , (0xFB3, .device), (0xFB2, .device), (0xFB1, .device) ]

/-- FA0h to FAFh (R60): SPBRG, RCREG, TXREG, TXSTA, RCSTA, EEADR, EEDATA, EECON2, EECON1, IPR2, PIR2, PIE2. -/
def sfrA : List (Nat × Place) :=
  [ (0xFAF, .device), (0xFAE, .device), (0xFAD, .device), (0xFAC, .device), (0xFAB, .device)
  , (0xFA9, .device), (0xFA8, .device), (0xFA7, .eecon2), (0xFA6, .device)
  , (0xFA2, .reg .ipr2), (0xFA1, .reg .pir2), (0xFA0, .reg .pie2) ]

/-- F80h to F9Fh (R60): IPR1, PIR1, PIE1, TRISC, TRISB, TRISA, LATC, LATB, LATA, PORTC, PORTB, PORTA. -/
def sfr98 : List (Nat × Place) :=
  [ (0xF9F, .reg .ipr1), (0xF9E, .reg .pir1), (0xF9D, .reg .pie1)
  , (0xF94, .device), (0xF93, .device), (0xF92, .device)
  , (0xF8B, .device), (0xF8A, .device), (0xF89, .device)
  , (0xF82, .device), (0xF81, .device), (0xF80, .device) ]

/-- The registers of the 40-pin members only (marked † in R60): TRISE, TRISD, LATE, LATD, PORTE, PORTD. -/
def sfrFortyPins : List (Nat × Place) :=
  [ (0xF96, .device), (0xF95, .device), (0xF8D, .device), (0xF8C, .device), (0xF84, .device), (0xF83, .device) ]

/-- SfrMap (R60). -/
def sfrMap : List (Nat × Place) :=
  sfrF ++ sfrE ++ sfrD ++ sfrC ++ sfrB ++ sfrA ++ sfr98 ++ (if Config.device.fortyPins then sfrFortyPins else [])

/-- What stands at a data address: RAM below RAM_BYTES (20_memory.md R81), else what the map says, else nothing. -/
def place (a : DataAddr) : Place :=
  if a.toNat < Config.ramBytes then .ram else (sfrMap.lookup a.toNat).getD .unimplemented

/-- The address of PCL (R60). -/
def pclAddr : DataAddr := 0xFF9#12

/-- The address of PORTB (R60), whose read ends the RBIF mismatch (60_exceptions.md R332). -/
def portbAddr : DataAddr := 0xF81#12

/-- The registers MOVFF must not name: PCL, TOSU, TOSH, TOSL (40_byte_oriented.md R172). -/
def movffForbids (a : DataAddr) : Bool :=
  a == pclAddr || a == 0xFFF#12 || a == 0xFFE#12 || a == 0xFFD#12

/-- Whether the address is that of FSRnH or FSRnL (20_memory.md R89). -/
def isFsrByte (n : FsrIx) (a : DataAddr) : Bool :=
  match n with
  | .f0 => a == 0xFEA#12 || a == 0xFE9#12
  | .f1 => a == 0xFE2#12 || a == 0xFE1#12
  | .f2 => a == 0xFDA#12 || a == 0xFD9#12

end Sys2Proof.Machine
end

