-- ==== Sys2Proof/Machine/Ops.lean ====
section
/-! DEFINITION. The named operations over the state: memory, program counter, return stack, registers in the data space,
data reads and writes, instruction fetch, the reset step, taking an interrupt and returning from one. -/

namespace Sys2Proof.Machine

/-- The answer of an operation: a value, a fault or a refusal (60_exceptions.md R321). -/
abbrev Res (α : Type) := Host.Outcome α Fault Refusal

/-- One operation after another; the first fault or refusal is the answer (60_exceptions.md R322). -/
def andThen {α β : Type} (r : Res α) (k : α → Res β) : Res β :=
  match r with
  | .next a => k a
  | .fault e => .fault e
  | .refused e => .refused e

/-! ### Memory in canonical form -/

/-- The byte listed for an address. -/
def Memory.lookup : Memory → Nat → Option Byte
  | [], _ => none
  | (k, v) :: m, a => if k = a then some v else Memory.lookup m a

/-- The memory with a byte listed for an address, addresses still rising. -/
def Memory.insert : Memory → Nat → Byte → Memory
  | [], a, v => [(a, v)]
  | (k, x) :: m, a, v =>
    if a < k then (a, v) :: (k, x) :: m
    else if a = k then (a, v) :: m
    else (k, x) :: Memory.insert m a v

/-- The memory with nothing listed for an address. -/
def Memory.erase (m : Memory) (a : Nat) : Memory := m.filter (fun c => c.1 != a)

/-- What an address reads as, where an unlisted one reads as `unlisted` (`none`: it holds no value). -/
def Memory.read (unlisted : Option Byte) (m : Memory) (a : Nat) : Option Byte :=
  match Memory.lookup m a with
  | some v => some v
  | none => unlisted

/-- A write; writing what an unlisted address reads as lists nothing. -/
def Memory.write (unlisted : Option Byte) (m : Memory) (a : Nat) (v : Byte) : Memory :=
  if unlisted = some v then Memory.erase m a else Memory.insert m a v

/-- The canonical form: addresses strictly rising and below the bound, no byte equal to what an unlisted one reads as. -/
abbrev Memory.wf (unlisted : Option Byte) (bound : Nat) (m : Memory) : Prop :=
  (m.map Prod.fst).Pairwise (· < ·) ∧ ∀ c ∈ m, some c.2 ≠ unlisted ∧ c.1 < bound

/-- An unwritten byte of general-purpose RAM holds no value (20_memory.md R86, decision D17; log 3). -/
def ramUnlisted : Option Byte := none

/-- Erased FLASH reads FFh (20_memory.md R92; log 4). -/
def progUnlisted : Option Byte := some 0xFF#8

/-- The byte of general-purpose RAM at a data address; `none` for one nothing has written (20_memory.md R86). -/
def ramByte (a : DataAddr) (s : State) : Option Byte := Memory.read ramUnlisted s.ram a.toNat

/-- RAM with a byte written (20_memory.md R87). -/
def ramWrite (a : DataAddr) (v : Byte) (s : State) : State :=
  s.setRam (Memory.write ramUnlisted s.ram a.toNat v)

/-- `ProgRead` (20_memory.md R92): `none` outside the implemented program memory. -/
def progRead (a : ProgAddr) (s : State) : Option Byte :=
  if a.toNat < Config.progBytes then Memory.read progUnlisted s.prog a.toNat else none

/-- A byte placed in program memory by the host (70_reset_and_hazards.md R374); outside the implemented range nothing
is there to hold it. No instruction does this (20_memory.md R104). -/
def progLoad (a : ProgAddr) (v : Byte) (s : State) : State :=
  if a.toNat < Config.progBytes then s.setProg (Memory.write progUnlisted s.prog a.toNat v) else s

/-- Bytes placed in program memory from an address on. -/
def progLoadBytes : ProgAddr → List Byte → State → State
  | _, [], s => s
  | a, b :: bs, s => progLoadBytes (a + 1#21) bs (progLoad a b s)

/-! ### Program counter -/

/-- A value loaded into PC, bit 0 cleared (10_state.md R31, decision D11). -/
def evenAddr (v : ProgAddr) : ProgAddr := v &&& 0x1FFFFE#21

/-- PC moved past the words of the instruction, modulo 2^21 (30_encoding.md R125, 10_state.md R31). Every meaning does
this first, so that PC is "the address of the next instruction" while it accesses data (10_state.md R32; log 10). -/
def advance (bytes : Nat) (s : State) : State := s.setPc (s.pc + BitVec.ofNat 21 bytes)

/-- `PC + 2n` for a signed word offset, from the next instruction's address (30_encoding.md R123). -/
def branchTarget {k : Nat} (n : BitVec k) (next : ProgAddr) : ProgAddr := next + (n.signExtend 21 <<< 1)

/-- The byte address of a 20-bit word address: `k ++ 0` (30_encoding.md R123). -/
def wordAddr (k : BitVec 20) : ProgAddr := (k ++ 0#1 : BitVec 21)

/-! ### Return stack -/

/-- Entry `n` of the return stack; entry 0 does not exist and reads 000000h (10_state.md R35). -/
def stackEntry (n : BitVec 5) (s : State) : ProgAddr :=
  if n = 0#5 then 0#21 else s.stack[n.toNat - 1]?.getD 0#21

/-- Entry `n` replaced; entry 0 does not exist, so nothing is written (10_state.md R35; DEDUCED, log 12). -/
def setStackEntry (n : BitVec 5) (v : ProgAddr) (s : State) : State :=
  if n = 0#5 then s else s.setStack (s.stack.setIfInBounds (n.toNat - 1) v)

/-- TOS (10_state.md R35, R38). -/
def tos (s : State) : ProgAddr := stackEntry s.sp s

/-- `Push` (10_state.md R36). -/
def push (v : ProgAddr) (s : State) : Res State :=
  if s.sp.toNat < Config.stackDepth then
    .next (setStackEntry (s.sp + 1#5) v (s.setSp (s.sp + 1#5)))
  else .fault .stackOverflow

/-- `Pop`: the value of TOS, and the state with it discarded (10_state.md R37). -/
def pop (s : State) : Res (ProgAddr × State) :=
  if s.sp = 0#5 then .fault .stackUnderflow else .next (tos s, s.setSp (s.sp - 1#5))

/-! ### Shadow registers -/

/-- W, STATUS and BSR copied to WS, STATUSS and BSRS (10_state.md R39). -/
def saveShadow (s : State) : State := s.setShadow ⟨s.w, s.status, s.bsr⟩

/-- WS, STATUSS and BSRS copied back (10_state.md R39, 43_control_flow.md R235). -/
def restoreShadow (s : State) : State :=
  ((s.setW s.shadow.ws).setStatus s.shadow.statuss).setBsr s.shadow.bsrs

/-! ### Registers of the data space (10_state.md R61, R62) -/

/-- An FSR. -/
def Fsrs.get (n : FsrIx) (r : Fsrs) : DataAddr :=
  match n with
  | .f0 => r.fsr0
  | .f1 => r.fsr1
  | .f2 => r.fsr2

/-- The FSRs with one replaced. -/
def Fsrs.put (n : FsrIx) (v : DataAddr) (r : Fsrs) : Fsrs :=
  match n with
  | .f0 => { r with fsr0 := v }
  | .f1 => { r with fsr1 := v }
  | .f2 => { r with fsr2 := v }

/-- The FSR numbered `n` of a state (R25). -/
def getFsr (n : FsrIx) (s : State) : DataAddr := s.fsr.get n

/-- The state with FSR `n` replaced (R25). -/
def putFsr (n : FsrIx) (v : DataAddr) (s : State) : State := s.setFsr (s.fsr.put n v)

/-- The implemented bits of PIR1, PIE1 and IPR1: bit 7 only on the 40-pin members (60_exceptions.md R331). -/
def mask1 : Byte := if Config.device.fortyPins then 0xFF#8 else 0x7F#8

/-- The implemented bits of PIR2, PIE2 and IPR2 (60_exceptions.md R331). -/
def mask2 : Byte := 0x1F#8

/-- The implemented bits of INTCON2 (60_exceptions.md R331). -/
def maskIntcon2 : Byte := 0xF5#8

/-- The implemented bits of INTCON3 (60_exceptions.md R331). -/
def maskIntcon3 : Byte := 0xDB#8

/-- The implemented bits of RCON (10_state.md R61). -/
def maskRcon : Byte := 0x9F#8

/-- RCIF and TXIF in PIR1, read-only (60_exceptions.md R331). -/
def maskUsart : Byte := 0x30#8

/-- The bits of `v` that `mask` names, and the others of `old`. -/
def merge (mask v old : Byte) : Byte := (v &&& mask) ||| (old &&& ~~~mask)

/-- STKPTR as it reads: STKFUL, STKUNF, 0, SP (10_state.md R38). -/
def stkptrByte (s : State) : Byte :=
  (BitVec.ofBool s.stkful ++ BitVec.ofBool s.stkunf ++ 0#1 ++ s.sp : BitVec 8)

/-- The value a register of the core reads as; unimplemented bits read 0 (20_memory.md R86, 10_state.md R61). -/
def regValue (r : CoreReg) (s : State) : Byte :=
  match r with
  | .tosu => (0#3 ++ (tos s).extractLsb' 16 5 : BitVec 8)
  | .tosh => (tos s).extractLsb' 8 8
  | .tosl => (tos s).extractLsb' 0 8
  | .stkptr => stkptrByte s
  | .pclatu => (0#3 ++ s.pclatu : BitVec 8)
  | .pclath => s.pclath
  | .pcl => s.pc.extractLsb' 0 8
  | .tblptru => (0#2 ++ BitVec.ofBool s.tblptr21 ++ s.tblptr.extractLsb' 16 5 : BitVec 8)
  | .tblptrh => s.tblptr.extractLsb' 8 8
  | .tblptrl => s.tblptr.extractLsb' 0 8
  | .tablat => s.tablat
  | .prodh => s.prodh
  | .prodl => s.prodl
  | .intcon => s.irq.intcon
  | .intcon2 => s.irq.intcon2
  | .intcon3 => s.irq.intcon3
  | .wreg => s.w
  | .fsrh n => (0#4 ++ (getFsr n s).extractLsb' 8 4 : BitVec 8)
  | .fsrl n => (getFsr n s).extractLsb' 0 8
  | .bsr => (0#4 ++ s.bsr : BitVec 8)
  | .status => s.status.toByte
  | .wdtcon => (0#7 ++ BitVec.ofBool s.wdt.swdten : BitVec 8)
  | .rcon => s.rcon
  | .ipr1 => s.irq.ipr1
  | .pir1 => s.irq.pir1
  | .pie1 => s.irq.pie1
  | .ipr2 => s.irq.ipr2
  | .pir2 => s.irq.pir2
  | .pie2 => s.irq.pie2

/-- What reading a register of the core does besides: a read of PCL copies PC[15:8] into PCLATH and PC[20:16] into PCLATU
(10_state.md R32); no other register has a read effect (20_memory.md R95). -/
def regReadEffect (r : CoreReg) (s : State) : State :=
  match r with
  | .pcl => (s.setPclath (s.pc.extractLsb' 8 8)).setPclatu (s.pc.extractLsb' 16 5)
  | _ => s

/-- A write of a byte to a register of the core: its writable bits take the byte's (20_memory.md R87, 10_state.md R61, R62).
A write to PCL is a jump to PCLATU:PCLATH:v with bit 0 cleared (R32). STKFUL and STKUNF can only be cleared (R38; DEDUCED,
log 11). RBIF stays 1 while the PORTB mismatch lasts (60_exceptions.md R332; DEDUCED, log 15). TO and PD of RCON are read-only
(10_state.md R61, R62), where 60_exceptions.md R331 makes all bits but RCIF and TXIF writable: DESIGN CHOICE (log 39). -/
def regWrite (r : CoreReg) (v : Byte) (s : State) : State :=
  match r with
  | .tosu => setStackEntry s.sp (v.extractLsb' 0 5 ++ (tos s).extractLsb' 0 16 : BitVec 21) s
  | .tosh => setStackEntry s.sp ((tos s).extractLsb' 16 5 ++ v ++ (tos s).extractLsb' 0 8 : BitVec 21) s
  | .tosl => setStackEntry s.sp ((tos s).extractLsb' 8 13 ++ v : BitVec 21) s
  | .stkptr =>
    ((s.setSp (v.extractLsb' 0 5)).setStkful (s.stkful && v.getLsbD 7)).setStkunf (s.stkunf && v.getLsbD 6)
  | .pclatu => s.setPclatu (v.extractLsb' 0 5)
  | .pclath => s.setPclath v
  | .pcl => s.setPc (evenAddr (s.pclatu ++ s.pclath ++ v : BitVec 21))
  | .tblptru => (s.setTblptr (v.extractLsb' 0 5 ++ s.tblptr.extractLsb' 0 16 : BitVec 21)).setTblptr21 (v.getLsbD 5)
  | .tblptrh => s.setTblptr (s.tblptr.extractLsb' 16 5 ++ v ++ s.tblptr.extractLsb' 0 8 : BitVec 21)
  | .tblptrl => s.setTblptr (s.tblptr.extractLsb' 8 13 ++ v : BitVec 21)
  | .tablat => s.setTablat v
  | .prodh => s.setProdh v
  | .prodl => s.setProdl v
  | .intcon => s.setIrq { s.irq with intcon := if s.irq.rbMismatch then v ||| 0x01#8 else v }
  | .intcon2 => s.setIrq { s.irq with intcon2 := v &&& maskIntcon2 }
  | .intcon3 => s.setIrq { s.irq with intcon3 := v &&& maskIntcon3 }
  | .wreg => s.setW v
  | .fsrh n => putFsr n (v.extractLsb' 0 4 ++ (getFsr n s).extractLsb' 0 8 : BitVec 12) s
  | .fsrl n => putFsr n ((getFsr n s).extractLsb' 8 4 ++ v : BitVec 12) s
  | .bsr => s.setBsr (v.extractLsb' 0 4)
  | .status => s.setStatus (Flags.ofByte v)
  | .wdtcon => s.setWdt { s.wdt with swdten := v.getLsbD 0 }
  | .rcon => s.setRcon (merge 0x93#8 v s.rcon &&& maskRcon)
  | .ipr1 => s.setIrq { s.irq with ipr1 := v &&& mask1 }
  | .pir1 => s.setIrq { s.irq with pir1 := merge maskUsart s.irq.pir1 v &&& mask1 }
  | .pie1 => s.setIrq { s.irq with pie1 := v &&& mask1 }
  | .ipr2 => s.setIrq { s.irq with ipr2 := v &&& mask2 }
  | .pir2 => s.setIrq { s.irq with pir2 := v &&& mask2 }
  | .pie2 => s.setIrq { s.irq with pie2 := v &&& mask2 }

/-! ### Data reads and writes (20_memory.md R86, R87) -/

/-- The byte a read of an address gives where it gives one. A peripheral register answers with a free value (R98; log 8);
an indirect address reached as a resolved target reads 00h (R89). -/
def readValue (a : DataAddr) (s : State) : Byte :=
  match place a with
  | .ram => (ramByte a s).getD 0#8
  | .reg r => regValue r s
  | .indirect _ _ => 0#8
  | .device => Config.deviceByte s.draws a
  | .eecon2 => Config.deviceByte s.draws a
  | .unimplemented => 0#8

/-- The state after a peripheral register is read: one value has been drawn (R98), and a read of PORTB ends the mismatch
that holds RBIF (60_exceptions.md R332). -/
def deviceReadEffect (a : DataAddr) (s : State) : State :=
  if a = portbAddr then (s.setDraws (s.draws + 1)).setIrq { s.irq with rbMismatch := false }
  else s.setDraws (s.draws + 1)

/-- The state after a read of an address. -/
def readEffect (a : DataAddr) (s : State) : State :=
  match place a with
  | .ram => s
  | .reg r => regReadEffect r s
  | .indirect _ _ => s
  | .device => deviceReadEffect a s
  | .eecon2 => deviceReadEffect a s
  | .unimplemented => s

/-- `DataRead` (R86): the byte and the state after the read. -/
def dataRead (a : DataAddr) (s : State) : Res (Byte × State) :=
  match place a with
  | .unimplemented => .refused .unimplementedData
  | .ram => if (ramByte a s).isSome then .next (readValue a s, readEffect a s) else .fault .readOfUnwritten
  | _ => .next (readValue a s, readEffect a s)

/-- The read whose value CLRF and SETF discard: its effect without its value, so that an unwritten byte is no fault
(20_memory.md R95, 10_state.md R65). -/
def dataReadDiscard (a : DataAddr) (s : State) : Res State :=
  match place a with
  | .unimplemented => .refused .unimplementedData
  | _ => .next (readEffect a s)

/-- The state after a write of an address: an indirect address reached as a resolved target takes nothing (R89); a
peripheral register's write is an output event and changes no other state (R98). -/
def writeEffect (a : DataAddr) (v : Byte) (s : State) : State :=
  match place a with
  | .ram => ramWrite a v s
  | .reg r => regWrite r v s
  | .indirect _ _ => s
  | .device => s.setOutputs (s.outputs ++ [(a, v)])
  | .eecon2 => s
  | .unimplemented => s

/-- `DataWrite` (R87). A write to EECON2 is refused (46_table.md R306, decision D20). -/
def dataWrite (a : DataAddr) (v : Byte) (s : State) : Res State :=
  match place a with
  | .unimplemented => .refused .unimplementedData
  | .eecon2 => .refused .flashProgramming
  | _ => .next (writeEffect a v s)

/-! ### Instruction fetch and skip -/

/-- `Fetch16` (20_memory.md R93): `none` where the word is not in the implemented program memory. -/
def fetch16 (a : ProgAddr) (s : State) : Option Word :=
  match progRead a s, progRead (a + 1#21) s with
  | some low, some high => some (wordOf low high)
  | _, _ => none

/-- At most `count` bytes of program memory from an address on, up to the end of the implemented range. -/
def fetchBytes : Nat → ProgAddr → State → List Byte
  | 0, _, _ => []
  | count + 1, a, s =>
    match progRead a s with
    | some b => b :: fetchBytes count (a + 1#21) s
    | none => []

/-- The name a step is refused under when the bytes at PC are no instruction (60_exceptions.md R321, R322). -/
def refusalOf : Undecodable → Refusal
  | .truncated => .unimplementedProgram
  | .unassigned => .unassignedOpcode
  | .reservedForm => .reservedForm
  | .badSecondWord => .badSecondWord

/-- The instruction at PC (30_encoding.md R124). -/
def fetch (s : State) : Res Instr :=
  match decode (fetchBytes 4 s.pc s) with
  | .ok (i, _) => .next i
  | .error e => .refused (refusalOf e)

/-- `skip()` (41_byte_skip.md R201), from a state whose PC is the address after the skip instruction. -/
def skip (s : State) : Res State :=
  match fetch16 s.pc s with
  | none => .refused .unimplementedProgram
  | some w =>
    match skippedBytes w with
    | none => .refused .skipOverUnassigned
    | some n => .next (advance n s)

/-- A skip that is taken or not (41_byte_skip.md R201). -/
def skipIf (taken : Bool) (s : State) : Res State := if taken then skip s else .next s

/-! ### RCON and the watchdog -/

/-- RCON with TO and PD set to the given bits (44_control_system.md R262, R267; 10_state.md R41). -/
def setToPd (toBit pdBit : Bool) (s : State) : State :=
  s.setRcon (merge 0x0C#8 (0#4 ++ BitVec.ofBool toBit ++ BitVec.ofBool pdBit ++ 0#2 : BitVec 8) s.rcon)

/-- The watchdog counter and scaler cleared (10_state.md R41). -/
def clearWdt (s : State) : State := s.setWdt { s.wdt with counter := 0, scaler := 0 }

/-- Whether the watchdog runs: by configuration, or by WDTCON.SWDTEN (60_exceptions.md R346). -/
def wdtRuns (s : State) : Bool := Config.wdtEnabled || s.wdt.swdten

/-! ### The reset step (70_reset_and_hazards.md R370, 10_state.md R64) -/

/-- The causes of a reset (R370). -/
inductive ResetCause where
  | powerOn
  | mclr
  | resetInstruction
  | wdt
  | brownOut
deriving DecidableEq, Repr

/-- What every reset but a power-on does, RCON apart: the column "MCLR reset, WDT reset, RESET instruction" of R64, and what
it does not touch keeps its value (R373). -/
def warmReset (s : State) : State :=
  { s with
    pc := Config.resetVector
    bsr := 0#4
    tblptr := 0#21
    tblptr21 := false
    tablat := 0x00#8
    pclatu := 0#5
    pclath := 0x00#8
    sp := 0#5
    irq := { State.reset.irq with intcon := s.irq.intcon &&& 0x01#8, rbMismatch := s.irq.rbMismatch }
    wdt := ⟨0, 0, false⟩
    sleeping := false
    waking := false }

/-- What a brown-out reset does besides (R370: the power-on column for the registers that R64 marks `x`, unknown). R373 says
which value W, STATUS, the FSRs, PRODH:PRODL and RAM have then: the one they had (DEDUCED, log 18). It does not name RBIF,
which takes the value of State.reset. DESIGN CHOICE (log 2, 18), unsafe. -/
def loseUnknowns (s : State) : State :=
  s.setIrq { s.irq with intcon := s.irq.intcon &&& 0xFE#8, rbMismatch := false }

/-- The reset step. RCON by the table of R370: IPEN, RI, TO, PD, POR, BOR are bits 7, 4, 3, 2, 1, 0. A power-on reset
gives State.reset; program memory is not touched (R373), and the model's own fields and the outputs go on. -/
def resetStep (cause : ResetCause) (s : State) : State :=
  match cause with
  | .powerOn =>
    { State.reset with prog := s.prog, outputs := s.outputs, draws := s.draws, inputs := s.inputs }
  | .mclr =>
    (warmReset s).setRcon (if s.sleeping then merge 0x0C#8 0x08#8 (s.rcon &&& 0x1F#8) else s.rcon &&& 0x1F#8)
  | .resetInstruction => (warmReset s).setRcon (s.rcon &&& 0x0F#8)
  | .wdt => (warmReset s).setRcon (merge 0x0C#8 0x04#8 (s.rcon &&& 0x1F#8))
  | .brownOut => (loseUnknowns (warmReset s)).setRcon (merge 0x1D#8 0x1C#8 (s.rcon &&& 0x1F#8))

/-! ### Interrupts: sources, requests, entry and return (60_exceptions.md R331 to R336) -/

/-- The sources, in the order of R332. -/
def allSources : List Source :=
  [.int0, .int1, .int2, .tmr0, .rbChange, .psp, .adc, .usartRx, .usartTx, .mssp, .ccp1, .tmr2, .tmr1]
    ++ [.eeprom, .busCollision, .lowVoltage, .tmr3, .ccp2]

/-- The request flag of a source (R332). -/
def Source.flag (r : IrqRegs) : Source → Bool
  | .int0 => r.intcon.getLsbD 1
  | .int1 => r.intcon3.getLsbD 0
  | .int2 => r.intcon3.getLsbD 1
  | .tmr0 => r.intcon.getLsbD 2
  | .rbChange => r.intcon.getLsbD 0
  | .psp => r.pir1.getLsbD 7
  | .adc => r.pir1.getLsbD 6
  | .usartRx => r.pir1.getLsbD 5
  | .usartTx => r.pir1.getLsbD 4
  | .mssp => r.pir1.getLsbD 3
  | .ccp1 => r.pir1.getLsbD 2
  | .tmr2 => r.pir1.getLsbD 1
  | .tmr1 => r.pir1.getLsbD 0
  | .eeprom => r.pir2.getLsbD 4
  | .busCollision => r.pir2.getLsbD 3
  | .lowVoltage => r.pir2.getLsbD 2
  | .tmr3 => r.pir2.getLsbD 1
  | .ccp2 => r.pir2.getLsbD 0

/-- The enable bit of a source (R332). -/
def Source.enable (r : IrqRegs) : Source → Bool
  | .int0 => r.intcon.getLsbD 4
  | .int1 => r.intcon3.getLsbD 3
  | .int2 => r.intcon3.getLsbD 4
  | .tmr0 => r.intcon.getLsbD 5
  | .rbChange => r.intcon.getLsbD 3
  | .psp => r.pie1.getLsbD 7
  | .adc => r.pie1.getLsbD 6
  | .usartRx => r.pie1.getLsbD 5
  | .usartTx => r.pie1.getLsbD 4
  | .mssp => r.pie1.getLsbD 3
  | .ccp1 => r.pie1.getLsbD 2
  | .tmr2 => r.pie1.getLsbD 1
  | .tmr1 => r.pie1.getLsbD 0
  | .eeprom => r.pie2.getLsbD 4
  | .busCollision => r.pie2.getLsbD 3
  | .lowVoltage => r.pie2.getLsbD 2
  | .tmr3 => r.pie2.getLsbD 1
  | .ccp2 => r.pie2.getLsbD 0

/-- The priority bit of a source, 1 for high; INT0 has none and is always high (R332). -/
def Source.highPriority (r : IrqRegs) : Source → Bool
  | .int0 => true
  | .int1 => r.intcon3.getLsbD 6
  | .int2 => r.intcon3.getLsbD 7
  | .tmr0 => r.intcon2.getLsbD 2
  | .rbChange => r.intcon2.getLsbD 0
  | .psp => r.ipr1.getLsbD 7
  | .adc => r.ipr1.getLsbD 6
  | .usartRx => r.ipr1.getLsbD 5
  | .usartTx => r.ipr1.getLsbD 4
  | .mssp => r.ipr1.getLsbD 3
  | .ccp1 => r.ipr1.getLsbD 2
  | .tmr2 => r.ipr1.getLsbD 1
  | .tmr1 => r.ipr1.getLsbD 0
  | .eeprom => r.ipr2.getLsbD 4
  | .busCollision => r.ipr2.getLsbD 3
  | .lowVoltage => r.ipr2.getLsbD 2
  | .tmr3 => r.ipr2.getLsbD 1
  | .ccp2 => r.ipr2.getLsbD 0

/-- Whether a source is of the peripheral group (R332). -/
def Source.peripheral : Source → Bool
  | .int0 => false
  | .int1 => false
  | .int2 => false
  | .tmr0 => false
  | .rbChange => false
  | _ => true

/-- Whether a source can raise its flag: the parallel slave port is on the 40-pin members only (R332), and TMR0 and TMR2
stand still while the oscillator does (R348). -/
def Source.canRaise (sleeping : Bool) : Source → Bool
  | .psp => Config.device.fortyPins
  | .tmr0 => !sleeping
  | .tmr2 => !sleeping
  | _ => true

/-- `RaiseFlag(source)` (R332): the flag becomes 1. A PORTB change also starts the mismatch that holds RBIF. -/
def Source.raise (r : IrqRegs) : Source → IrqRegs
  | .int0 => { r with intcon := r.intcon ||| 0x02#8 }
  | .int1 => { r with intcon3 := r.intcon3 ||| 0x01#8 }
  | .int2 => { r with intcon3 := r.intcon3 ||| 0x02#8 }
  | .tmr0 => { r with intcon := r.intcon ||| 0x04#8 }
  | .rbChange => { r with intcon := r.intcon ||| 0x01#8, rbMismatch := true }
  | .psp => { r with pir1 := r.pir1 ||| 0x80#8 }
  | .adc => { r with pir1 := r.pir1 ||| 0x40#8 }
  | .usartRx => { r with pir1 := r.pir1 ||| 0x20#8 }
  | .usartTx => { r with pir1 := r.pir1 ||| 0x10#8 }
  | .mssp => { r with pir1 := r.pir1 ||| 0x08#8 }
  | .ccp1 => { r with pir1 := r.pir1 ||| 0x04#8 }
  | .tmr2 => { r with pir1 := r.pir1 ||| 0x02#8 }
  | .tmr1 => { r with pir1 := r.pir1 ||| 0x01#8 }
  | .eeprom => { r with pir2 := r.pir2 ||| 0x10#8 }
  | .busCollision => { r with pir2 := r.pir2 ||| 0x08#8 }
  | .lowVoltage => { r with pir2 := r.pir2 ||| 0x04#8 }
  | .tmr3 => { r with pir2 := r.pir2 ||| 0x02#8 }
  | .ccp2 => { r with pir2 := r.pir2 ||| 0x01#8 }

/-- `req(s)`: flag and enable (R335). -/
def Source.requests (r : IrqRegs) (src : Source) : Bool := src.flag r && src.enable r

/-- GIE, GIEH: INTCON bit 7 (10_state.md R40). -/
def gieh (s : State) : Bool := s.irq.intcon.getLsbD 7

/-- PEIE, GIEL: INTCON bit 6 (10_state.md R40). -/
def giel (s : State) : Bool := s.irq.intcon.getLsbD 6

/-- RCON.IPEN (60_exceptions.md R331). -/
def ipen (s : State) : Bool := s.rcon.getLsbD 7

/-- The two priority levels (R330). -/
inductive Level where
  | high
  | low
deriving DecidableEq, Repr

/-- `high` of R335. -/
def requestsHigh (s : State) : Bool :=
  if ipen s then gieh s && allSources.any (fun i => i.requests s.irq && i.highPriority s.irq)
  else gieh s && (allSources.any (fun i => i.requests s.irq && !i.peripheral)
    || giel s && allSources.any (fun i => i.requests s.irq && i.peripheral))

/-- `low` of R335. -/
def requestsLow (s : State) : Bool :=
  ipen s && gieh s && giel s && allSources.any (fun i => i.requests s.irq && !i.highPriority s.irq)

/-- The level of the request that is taken: high wins over low (R335). -/
def requestedLevel (s : State) : Option Level :=
  if requestsHigh s then some .high else if requestsLow s then some .low else none

/-- Whether a source wakes the machine from SLEEP: flag and enable, and for a peripheral source with IPEN = 0 also
PEIE, whatever the global bits hold (R348). -/
def wakes (s : State) : Bool :=
  allSources.any fun i => i.requests s.irq && (!i.peripheral || ipen s || giel s)

/-- WAKING UP: a sleeping core that a source wakes is awake, and the instruction after SLEEP is its next (R348). -/
def wakeUp (s : State) : State := if s.sleeping && wakes s then (s.setSleeping false).setWaking true else s

/-- TAKING AN INTERRUPT (R333): the address of the instruction not yet executed is pushed, W, STATUS and BSR go to the
shadow registers, the enable of the level is cleared, PC goes to the level's vector. -/
def interruptEntry (level : Level) (s : State) : Res State :=
  andThen (push s.pc s) fun s1 =>
    .next ((((saveShadow s1).setIrq
        { s1.irq with intcon := s1.irq.intcon &&& (match level with | .high => 0x7F#8 | .low => 0xBF#8) }).setPc
        (match level with | .high => Config.hiVector | .low => Config.loVector)).setSleeping false)

/-- The global enable that a return from interrupt sets: GIEH if it is 0, otherwise GIEL (43_control_flow.md R241,
decision D15). -/
def enableOnReturn (s : State) : State :=
  s.setIrq { s.irq with intcon := s.irq.intcon ||| (if gieh s then 0x40#8 else 0x80#8) }

/-- A return: the popped value goes to PC with bit 0 cleared (43_control_flow.md R234, R239). -/
def returnFromCall (s : State) : Res State :=
  andThen (pop s) fun p => .next (p.2.setPc (evenAddr p.1))

/-- RETURN FROM INTERRUPT (43_control_flow.md R241, 60_exceptions.md R336): pop PC, set one enable, and with `fast` restore
W, STATUS and BSR from the shadow registers. -/
def returnFromInterrupt (fast : Bool) (s : State) : Res State :=
  andThen (returnFromCall s) fun s1 =>
    .next (if fast then restoreShadow (enableOnReturn s1) else enableOnReturn s1)

end Sys2Proof.Machine
end

