-- ==== Sys2Proof/Machine/Operands.lean ====
section
/-! DEFINITION. The operand forms: the effective address of a file operand (20_memory.md rules R84, R85, R89), the
destination of a result (40_byte_oriented.md rule R162), and the execution patterns the families share (40_byte_oriented.md
R161, 41_byte_skip.md R200, 42_bit_oriented.md R221, 46_table.md R301). -/

namespace Sys2Proof.Machine

/-- `raw(f, a)` (20_memory.md R84): the bank of BSR with a = 1, the access bank with a = 0. -/
def rawAddr (f : Byte) (a : Bool) (s : State) : DataAddr :=
  if a then (s.bsr ++ f : BitVec 12)
  else if f.toNat < Config.accessSplit then (0x0#4 ++ f : BitVec 12)
  else (0xF#4 ++ f : BitVec 12)

/-- `resolve` (20_memory.md R89): the address a raw address stands for; the indirect addresses stand for where their FSR
points. -/
def resolve (raw : DataAddr) (s : State) : DataAddr :=
  match place raw with
  | .indirect n .indf => getFsr n s
  | .indirect n .postInc => getFsr n s
  | .indirect n .postDec => getFsr n s
  | .indirect n .preInc => getFsr n s + 1#12
  | .indirect n .plusW => getFsr n s + s.w.signExtend 12
  | _ => raw

/-- The update of PREINCn, before the access (20_memory.md R89). -/
def preUpdate (raw : DataAddr) (s : State) : State :=
  match place raw with
  | .indirect n .preInc => putFsr n (getFsr n s + 1#12) s
  | _ => s

/-- The update of POSTINCn and POSTDECn, "after the instruction's accesses" (20_memory.md R89). -/
def postUpdate (raw : DataAddr) (s : State) : State :=
  match place raw with
  | .indirect n .postInc => putFsr n (getFsr n s + 1#12) s
  | .indirect n .postDec => putFsr n (getFsr n s - 1#12) s
  | _ => s

/-- Whether a raw address is an indirect register of an FSR whose own bytes the instruction addresses (20_memory.md R89;
DEDUCED, log 14: an operand is judged by the address it resolves to). -/
def touchesOwnFsr (raw : DataAddr) (addrs : List DataAddr) : Bool :=
  match place raw with
  | .indirect n _ => addrs.any (isFsrByte n)
  | _ => false

/-- `ea(f, a)` (20_memory.md R84): the effective address, and the state with a PREINCn update made. -/
def fileOperand (f : Byte) (a : Bool) (s : State) : Res (DataAddr × State) :=
  if touchesOwnFsr (rawAddr f a s) [resolve (rawAddr f a s) s] then .refused .indirectSelfReference
  else .next (resolve (rawAddr f a s) s, preUpdate (rawAddr f a s) s)

/-- `dest(d, addr, v)` (40_byte_oriented.md R162). -/
def dest (d : Bool) (addr : DataAddr) (v : Byte) (s : State) : Res State :=
  if d then dataWrite addr v s else .next (s.setW v)

/-- STATUS with the flags an instruction writes (40_byte_oriented.md R163, 10_state.md R23). -/
def setFlags (u : FlagUpdate) (s : State) : State := s.setStatus (u.apply s.status)

/-- What a byte operation computes from the file register, W and STATUS: the result and the flags it writes. -/
abbrev ByteFn := Byte → Byte → Flags → Byte × FlagUpdate

/-- The pattern of 40_byte_oriented.md R161: read f, compute, write the result to W or f, write the flags. -/
def byteOp (op : ByteFn) (f : Byte) (d a : Bool) (s : State) : Res State :=
  andThen (fileOperand f a (advance 2 s)) fun o =>
  andThen (dataRead o.1 o.2) fun x =>
  andThen (dest d o.1 (op x.1 x.2.w x.2.status).1 x.2) fun s3 =>
    .next (postUpdate (rawAddr f a s) (setFlags (op x.1 x.2.w x.2.status).2 s3))

/-- The pattern of CLRF and SETF (40_byte_oriented.md R161, R167, R181): read f and discard it, write a constant to f. -/
def constOp (v : Byte) (u : FlagUpdate) (f : Byte) (a : Bool) (s : State) : Res State :=
  andThen (fileOperand f a (advance 2 s)) fun o =>
  andThen (dataReadDiscard o.1 o.2) fun s2 =>
  andThen (dataWrite o.1 v s2) fun s3 =>
    .next (postUpdate (rawAddr f a s) (setFlags u s3))

/-- The pattern of the bit instructions that write (42_bit_oriented.md R221): the whole byte is read and written back. -/
def bitOp (op : Byte → Byte → Byte) (f : Byte) (b : BitVec 3) (a : Bool) (s : State) : Res State :=
  andThen (fileOperand f a (advance 2 s)) fun o =>
  andThen (dataRead o.1 o.2) fun x =>
  andThen (dataWrite o.1 (op x.1 (1#8 <<< b.toNat)) x.2) fun s3 =>
    .next (postUpdate (rawAddr f a s) s3)

/-- The pattern of the skips that only test (41_byte_skip.md R203 to R205, R210; 42_bit_oriented.md R224, R225). -/
def testSkip (cond : Byte → Byte → Bool) (f : Byte) (a : Bool) (s : State) : Res State :=
  andThen (fileOperand f a (advance 2 s)) fun o =>
  andThen (dataRead o.1 o.2) fun x =>
    skipIf (cond x.1 x.2.w) (postUpdate (rawAddr f a s) x.2)

/-- The pattern of the skips that count (41_byte_skip.md R206 to R209): the result goes to W or f, then the skip is decided
on the result. `skip()` comes after `dest` and starts from the address of the skip instruction (R201), so that a taken skip
gives the next PC also where the result went to PCL; where none is taken such a write is the jump that it is for every data
instruction (10_state.md R33). DEDUCED (log 9). -/
def countSkip (delta : Byte) (cond : Byte → Bool) (f : Byte) (d a : Bool) (s : State) : Res State :=
  andThen (fileOperand f a (advance 2 s)) fun o =>
  andThen (dataRead o.1 o.2) fun x =>
  andThen (dest d o.1 (x.1 + delta) x.2) fun s3 =>
    if cond (x.1 + delta) then skip (postUpdate (rawAddr f a s) (s3.setPc (advance 2 s).pc))
    else .next (postUpdate (rawAddr f a s) s3)

/-- A literal operation on W (45_literal.md R280): W and flags, no data memory. -/
def literalOp (op : ByteFn) (k : Byte) (s : State) : Res State :=
  .next (setFlags (op k s.w s.status).2 ((advance 2 s).setW (op k s.w s.status).1))

/-- The 16-bit unsigned product in PRODH:PRODL (40_byte_oriented.md R175, 45_literal.md R287). -/
def setProduct (x y : Byte) (s : State) : State :=
  (s.setProdh ((x.setWidth 16 * y.setWidth 16).extractLsb' 8 8)).setProdl
    ((x.setWidth 16 * y.setWidth 16).extractLsb' 0 8)

/-- A conditional branch (43_control_flow.md R232). -/
def branchIf (cond : Bool) (n : BitVec 8) (s : State) : Res State :=
  .next (if cond then (advance 2 s).setPc (branchTarget n (advance 2 s).pc) else advance 2 s)

/-- The table pointer modes (46_table.md R301). -/
inductive TableMode where
  | none
  | postInc
  | postDec
  | preInc
deriving DecidableEq, Repr

/-- The address a table instruction uses (46_table.md R301). -/
def tableAddr (m : TableMode) (s : State) : ProgAddr :=
  match m with
  | .preInc => s.tblptr + 1#21
  | _ => s.tblptr

/-- TBLPTR after a table instruction, modulo 2^21 (46_table.md R301). -/
def tableNext (m : TableMode) (s : State) : ProgAddr :=
  match m with
  | .none => s.tblptr
  | .postInc => s.tblptr + 1#21
  | .postDec => s.tblptr - 1#21
  | .preInc => s.tblptr + 1#21

/-- A table read (46_table.md section 2): TABLAT gets the byte of program memory; ConfigSpace is checked before
UnimplementedProgram (60_exceptions.md R322). -/
def tableRead (m : TableMode) (s : State) : Res State :=
  if s.tblptr21 then .refused .configSpace
  else
    match progRead (tableAddr m s) s with
    | .none => .refused .unimplementedProgram
    | .some v => .next (((advance 2 s).setTablat v).setTblptr (tableNext m s))

/-- The holding latch an address selects: its low three bits (46_table.md R306). -/
def holdingIndex (a : ProgAddr) : Nat := a.toNat % Config.holdingBytes

/-- A table write (46_table.md R306): the holding latch gets TABLAT; program memory does not change. -/
def tableWrite (m : TableMode) (s : State) : Res State :=
  if s.tblptr21 then .refused .configSpace
  else
    .next (((advance 2 s).setHolding (s.holding.setIfInBounds (holdingIndex (tableAddr m s)) s.tablat)).setTblptr
      (tableNext m s))

end Sys2Proof.Machine
end

