-- ==== Sys2Proof/Machine/BitOriented.lean ====
section
/-! DEFINITION. The bit-oriented instructions, 42_bit_oriented.md rules R222 to R226. -/

namespace Sys2Proof.Machine

/-- BCF: 0 to bit b of f (R222). -/
def execBcf (f : Byte) (b : BitVec 3) (a : Bool) (s : State) : Res State :=
  bitOp (fun x m => x &&& (0xFF#8 ^^^ m)) f b a s

/-- BSF: 1 to bit b of f (R223). -/
def execBsf (f : Byte) (b : BitVec 3) (a : Bool) (s : State) : Res State :=
  bitOp (fun x m => x ||| m) f b a s

/-- BTFSC: skip if bit b of f is 0 (R224). -/
def execBtfsc (f : Byte) (b : BitVec 3) (a : Bool) (s : State) : Res State :=
  testSkip (fun x _ => !x.getLsbD b.toNat) f a s

/-- BTFSS: skip if bit b of f is 1 (R225). -/
def execBtfss (f : Byte) (b : BitVec 3) (a : Bool) (s : State) : Res State :=
  testSkip (fun x _ => x.getLsbD b.toNat) f a s

/-- BTG: bit b of f inverted (R226). -/
def execBtg (f : Byte) (b : BitVec 3) (a : Bool) (s : State) : Res State :=
  bitOp (fun x m => x ^^^ m) f b a s

end Sys2Proof.Machine
end

