-- ==== Sys2Proof/Machine/ByteOriented.lean ====
section
/-! DEFINITION. The byte-oriented file register instructions, 40_byte_oriented.md rules R164 to R186. -/

namespace Sys2Proof.Machine

/-- ADDWF: (W) + (f) (R164). -/
def execAddwf (f : Byte) (d a : Bool) (s : State) : Res State :=
  byteOp (fun x w _ => add8 w x false) f d a s

/-- ADDWFC: (W) + (f) + (C) (R165). -/
def execAddwfc (f : Byte) (d a : Bool) (s : State) : Res State :=
  byteOp (fun x w st => add8 w x st.c) f d a s

/-- ANDWF: (W) AND (f) (R166). -/
def execAndwf (f : Byte) (d a : Bool) (s : State) : Res State :=
  byteOp (fun x w _ => resultZN (w &&& x)) f d a s

/-- CLRF: 000h to f, 1 to Z (R167). -/
def execClrf (f : Byte) (a : Bool) (s : State) : Res State := constOp 0x00#8 flagsSetZ f a s

/-- COMF: the complement of f (R168). -/
def execComf (f : Byte) (d a : Bool) (s : State) : Res State :=
  byteOp (fun x _ _ => resultZN (x ^^^ 0xFF#8)) f d a s

/-- DECF: (f) - 1 (R169). -/
def execDecf (f : Byte) (d a : Bool) (s : State) : Res State :=
  byteOp (fun x _ _ => add8 x 0xFE#8 true) f d a s

/-- INCF: (f) + 1 (R170). -/
def execIncf (f : Byte) (d a : Bool) (s : State) : Res State :=
  byteOp (fun x _ _ => add8 x 0x01#8 false) f d a s

/-- IORWF: (W) OR (f) (R171). -/
def execIorwf (f : Byte) (d a : Bool) (s : State) : Res State :=
  byteOp (fun x w _ => resultZN (w ||| x)) f d a s

/-- MOVFF: (fs) to fd, absolute addresses (R172, 20_memory.md R85). Both operands' FSR updates are made, those of POSTINCn
and POSTDECn after both accesses (20_memory.md R89; DEDUCED, log 13). -/
def execMovff (fs fd : DataAddr) (s : State) : Res State :=
  if movffForbids fs || movffForbids fd then .refused .movffRestricted
  else
    let s1 := preUpdate fs (advance 4 s)
    let s2 := preUpdate fd s1
    let source := resolve fs (advance 4 s)
    let target := resolve fd s1
    if touchesOwnFsr fs [source, target] || touchesOwnFsr fd [source, target] then .refused .indirectSelfReference
    else
      andThen (dataRead source s2) fun x =>
      andThen (dataWrite target x.1 x.2) fun s3 =>
        .next (postUpdate fd (postUpdate fs s3))

/-- MOVF: (f) to the destination (R173). -/
def execMovf (f : Byte) (d a : Bool) (s : State) : Res State :=
  byteOp (fun x _ _ => resultZN x) f d a s

/-- MOVWF: (W) to f, which is not read (R174). -/
def execMovwf (f : Byte) (a : Bool) (s : State) : Res State :=
  andThen (fileOperand f a (advance 2 s)) fun o =>
  andThen (dataWrite o.1 o.2.w o.2) fun s3 =>
    .next (postUpdate (rawAddr f a s) s3)

/-- MULWF: (W) x (f) to PRODH:PRODL, unsigned (R175). -/
def execMulwf (f : Byte) (a : Bool) (s : State) : Res State :=
  andThen (fileOperand f a (advance 2 s)) fun o =>
  andThen (dataRead o.1 o.2) fun x =>
    .next (postUpdate (rawAddr f a s) (setProduct x.2.w x.1 x.2))

/-- NEGF: 0 - (f), always to f (R176). -/
def execNegf (f : Byte) (a : Bool) (s : State) : Res State :=
  byteOp (fun x _ _ => add8 0x00#8 (x ^^^ 0xFF#8) true) f true a s

/-- RLCF: rotate left through C (R177). -/
def execRlcf (f : Byte) (d a : Bool) (s : State) : Res State :=
  byteOp (fun x _ st =>
    let r : Byte := (x.extractLsb' 0 7 ++ BitVec.ofBool st.c : BitVec 8)
    (r, flagsCZN (x.getLsbD 7) r)) f d a s

/-- RLNCF: rotate left, no carry (R178). -/
def execRlncf (f : Byte) (d a : Bool) (s : State) : Res State :=
  byteOp (fun x _ _ => resultZN (x.extractLsb' 0 7 ++ x.extractLsb' 7 1 : BitVec 8)) f d a s

/-- RRCF: rotate right through C (R179). -/
def execRrcf (f : Byte) (d a : Bool) (s : State) : Res State :=
  byteOp (fun x _ st =>
    let r : Byte := (BitVec.ofBool st.c ++ x.extractLsb' 1 7 : BitVec 8)
    (r, flagsCZN (x.getLsbD 0) r)) f d a s

/-- RRNCF: rotate right, no carry (R180). -/
def execRrncf (f : Byte) (d a : Bool) (s : State) : Res State :=
  byteOp (fun x _ _ => resultZN (x.extractLsb' 0 1 ++ x.extractLsb' 1 7 : BitVec 8)) f d a s

/-- SETF: FFh to f (R181). -/
def execSetf (f : Byte) (a : Bool) (s : State) : Res State := constOp 0xFF#8 noFlags f a s

/-- SUBFWB: (W) - (f) - NOT C (R182). -/
def execSubfwb (f : Byte) (d a : Bool) (s : State) : Res State :=
  byteOp (fun x w st => add8 w (x ^^^ 0xFF#8) st.c) f d a s

/-- SUBWF: (f) - (W) (R183). -/
def execSubwf (f : Byte) (d a : Bool) (s : State) : Res State :=
  byteOp (fun x w _ => add8 x (w ^^^ 0xFF#8) true) f d a s

/-- SUBWFB: (f) - (W) - NOT C (R184). -/
def execSubwfb (f : Byte) (d a : Bool) (s : State) : Res State :=
  byteOp (fun x w st => add8 x (w ^^^ 0xFF#8) st.c) f d a s

/-- SWAPF: the nibbles exchanged, no flag (R185). -/
def execSwapf (f : Byte) (d a : Bool) (s : State) : Res State :=
  byteOp (fun x _ _ => ((x.extractLsb' 0 4 ++ x.extractLsb' 4 4 : BitVec 8), noFlags)) f d a s

/-- XORWF: (W) XOR (f) (R186). -/
def execXorwf (f : Byte) (d a : Bool) (s : State) : Res State :=
  byteOp (fun x w _ => resultZN (w ^^^ x)) f d a s

end Sys2Proof.Machine
end

