-- ==== Sys2Proof/Machine/ByteSkip.lean ====
section
/-! DEFINITION. The byte-oriented skip instructions, 41_byte_skip.md rules R203 to R210. Comparison is unsigned (R202); no
flag is written (R200). -/

namespace Sys2Proof.Machine

/-- CPFSLT: skip if (f) < (W), unsigned (R203, decision D6). -/
def execCpfslt (f : Byte) (a : Bool) (s : State) : Res State := testSkip (fun x w => x.ult w) f a s

/-- CPFSEQ: skip if (f) = (W) (R204). -/
def execCpfseq (f : Byte) (a : Bool) (s : State) : Res State := testSkip (fun x w => x == w) f a s

/-- CPFSGT: skip if (f) > (W), unsigned (R205). -/
def execCpfsgt (f : Byte) (a : Bool) (s : State) : Res State := testSkip (fun x w => w.ult x) f a s

/-- DECFSZ: (f) - 1, skip if the result is 0 (R206). -/
def execDecfsz (f : Byte) (d a : Bool) (s : State) : Res State := countSkip 0xFF#8 (fun r => r == 0#8) f d a s

/-- DCFSNZ: (f) - 1, skip if the result is not 0 (R207). -/
def execDcfsnz (f : Byte) (d a : Bool) (s : State) : Res State := countSkip 0xFF#8 (fun r => r != 0#8) f d a s

/-- INCFSZ: (f) + 1, skip if the result is 0 (R208). -/
def execIncfsz (f : Byte) (d a : Bool) (s : State) : Res State := countSkip 0x01#8 (fun r => r == 0#8) f d a s

/-- INFSNZ: (f) + 1, skip if the result is not 0 (R209). -/
def execInfsnz (f : Byte) (d a : Bool) (s : State) : Res State := countSkip 0x01#8 (fun r => r != 0#8) f d a s

/-- TSTFSZ: skip if f = 0 (R210). -/
def execTstfsz (f : Byte) (a : Bool) (s : State) : Res State := testSkip (fun x _ => x == 0#8) f a s

end Sys2Proof.Machine
end

