-- ==== Sys2Proof/Machine/ControlFlow.lean ====
section
/-! DEFINITION. The control-flow instructions, 43_control_flow.md rules R233 to R251. -/

namespace Sys2Proof.Machine

/-- BC: branch if C = 1 (R242). -/
def execBc (n : BitVec 8) (s : State) : Res State := branchIf s.status.c n s

/-- BN: branch if N = 1 (R243). -/
def execBn (n : BitVec 8) (s : State) : Res State := branchIf s.status.n n s

/-- BNC: branch if C = 0 (R244). -/
def execBnc (n : BitVec 8) (s : State) : Res State := branchIf (!s.status.c) n s

/-- BNN: branch if N = 0 (R245). -/
def execBnn (n : BitVec 8) (s : State) : Res State := branchIf (!s.status.n) n s

/-- BNOV: branch if OV = 0 (R246). -/
def execBnov (n : BitVec 8) (s : State) : Res State := branchIf (!s.status.ov) n s

/-- BNZ: branch if Z = 0 (R247). -/
def execBnz (n : BitVec 8) (s : State) : Res State := branchIf (!s.status.z) n s

/-- BOV: branch if OV = 1 (R248). -/
def execBov (n : BitVec 8) (s : State) : Res State := branchIf s.status.ov n s

/-- BZ: branch if Z = 1 (R249). -/
def execBz (n : BitVec 8) (s : State) : Res State := branchIf s.status.z n s

/-- BRA: unconditional relative branch (R233). -/
def execBra (n : BitVec 11) (s : State) : Res State :=
  .next ((advance 2 s).setPc (branchTarget n (advance 2 s).pc))

/-- RCALL: push the next address, then branch (R236). -/
def execRcall (n : BitVec 11) (s : State) : Res State :=
  andThen (push (advance 2 s).pc (advance 2 s)) fun s1 =>
    .next (s1.setPc (branchTarget n (advance 2 s).pc))

/-- CALL: push the next address, with s = 1 save the shadow registers, then jump (R237). -/
def execCall (k : BitVec 20) (fast : Bool) (s : State) : Res State :=
  andThen (push (advance 4 s).pc (advance 4 s)) fun s1 =>
    .next ((if fast then saveShadow s1 else s1).setPc (wordAddr k))

/-- GOTO: jump (R238). -/
def execGoto (k : BitVec 20) (s : State) : Res State := .next ((advance 4 s).setPc (wordAddr k))

/-- RETURN: pop PC, with s = 1 restore the shadow registers (R239). -/
def execReturn (fast : Bool) (s : State) : Res State :=
  andThen (returnFromCall (advance 2 s)) fun s1 => .next (if fast then restoreShadow s1 else s1)

/-- RETLW: k to W, pop PC (R240). -/
def execRetlw (k : Byte) (s : State) : Res State := returnFromCall ((advance 2 s).setW k)

/-- RETFIE: return from interrupt (R241). -/
def execRetfie (fast : Bool) (s : State) : Res State := returnFromInterrupt fast (advance 2 s)

/-- PUSH: push the address of the next instruction (R250). -/
def execPush (s : State) : Res State := push (advance 2 s).pc (advance 2 s)

/-- POP: discard the top of the return stack (R251). -/
def execPop (s : State) : Res State := andThen (pop (advance 2 s)) fun p => .next p.2

end Sys2Proof.Machine
end

