-- ==== Sys2Proof/Machine/Literal.lean ====
section
/-! DEFINITION. The literal instructions, 45_literal.md rules R281 to R289. -/

namespace Sys2Proof.Machine

/-- ADDLW: (W) + k (R281). -/
def execAddlw (k : Byte) (s : State) : Res State := literalOp (fun k w _ => add8 w k false) k s

/-- ANDLW: (W) AND k (R282). -/
def execAndlw (k : Byte) (s : State) : Res State := literalOp (fun k w _ => resultZN (w &&& k)) k s

/-- IORLW: (W) OR k (R283). -/
def execIorlw (k : Byte) (s : State) : Res State := literalOp (fun k w _ => resultZN (w ||| k)) k s

/-- The FSR an `ff` field names; 3 is reserved (R284). -/
def fsrOfField (ff : BitVec 2) : Option FsrIx :=
  if ff = 0#2 then some .f0 else if ff = 1#2 then some .f1 else if ff = 2#2 then some .f2 else none

/-- LFSR: k to FSR ff (R284). -/
def execLfsr (ff : BitVec 2) (k : BitVec 12) (s : State) : Res State :=
  match fsrOfField ff with
  | some n => .next (putFsr n k (advance 4 s))
  | none => .refused .reservedForm

/-- MOVLB: k to BSR (R285). -/
def execMovlb (k : BitVec 4) (s : State) : Res State := .next ((advance 2 s).setBsr k)

/-- MOVLW: k to W, no flag (R286). -/
def execMovlw (k : Byte) (s : State) : Res State := literalOp (fun k _ _ => (k, noFlags)) k s

/-- MULLW: (W) x k to PRODH:PRODL, unsigned (R287). -/
def execMullw (k : Byte) (s : State) : Res State := .next (setProduct s.w k (advance 2 s))

/-- SUBLW: k - (W) (R288). -/
def execSublw (k : Byte) (s : State) : Res State := literalOp (fun k w _ => add8 k (w ^^^ 0xFF#8) true) k s

/-- XORLW: (W) XOR k (R289). -/
def execXorlw (k : Byte) (s : State) : Res State := literalOp (fun k w _ => resultZN (w ^^^ k)) k s

end Sys2Proof.Machine
end

