-- ==== Sys2Proof/Machine/System.lean ====
section
/-! DEFINITION. The system control instructions, 44_control_system.md rules R261 to R267. -/

namespace Sys2Proof.Machine

/-- NOP, the encoding 0000h (R261). -/
def execNop (s : State) : Res State := .next (advance 2 s)

/-- NOP, the encodings F000h to FFFFh; the low 12 bits are ignored (R261, 30_encoding.md R126). -/
def execNopx (_x : BitVec 12) (s : State) : Res State := .next (advance 2 s)

/-- CLRWDT: the watchdog cleared, TO = 1, PD = 1 (R262). -/
def execClrwdt (s : State) : Res State := .next (setToPd true true (clearWdt (advance 2 s)))

/-- The two sequential corrections of DAW on a 9-bit value (R263, decision D24). -/
def decimalAdjust (w : Byte) (dc c : Bool) : Nat :=
  let t1 := if w.toNat % 16 > 9 || dc then w.toNat + 0x06 else w.toNat
  if t1 / 16 > 9 || c then t1 + 0x60 else t1

/-- DAW: decimal adjust W; C is set by a carry and otherwise keeps its value (R263). -/
def execDaw (s : State) : Res State :=
  let t2 := decimalAdjust s.w s.status.dc s.status.c
  .next (setFlags (flagsC (decide (t2 > 255) || s.status.c)) ((advance 2 s).setW (BitVec.ofNat 8 t2)))

/-- RESET: the reset step for this cause (R266). -/
def execReset (s : State) : Res State := .next (resetStep .resetInstruction s)

/-- SLEEP: the watchdog cleared, TO = 1, PD = 0, the core stops (R267). -/
def execSleep (s : State) : Res State :=
  .next ((setToPd true false (clearWdt (advance 2 s))).setSleeping true)

end Sys2Proof.Machine
end

