-- ==== Sys2Proof/Machine/Table.lean ====
section
/-! DEFINITION. The table instructions, 46_table.md rules R302 to R309. -/

namespace Sys2Proof.Machine

/-- TBLRD* (R302). -/
def execTblrd (s : State) : Res State := tableRead .none s

/-- TBLRD*+ (R303). -/
def execTblrdPostInc (s : State) : Res State := tableRead .postInc s

/-- TBLRD*- (R304). -/
def execTblrdPostDec (s : State) : Res State := tableRead .postDec s

/-- TBLRD+* (R305). -/
def execTblrdPreInc (s : State) : Res State := tableRead .preInc s

/-- TBLWT* (R306). -/
def execTblwt (s : State) : Res State := tableWrite .none s

/-- TBLWT*+ (R307). -/
def execTblwtPostInc (s : State) : Res State := tableWrite .postInc s

/-- TBLWT*- (R308). -/
def execTblwtPostDec (s : State) : Res State := tableWrite .postDec s

/-- TBLWT+* (R309). -/
def execTblwtPreInc (s : State) : Res State := tableWrite .preInc s

end Sys2Proof.Machine
end

