-- ==== Sys2Proof/Machine/Environment.lean ====
section
/-! DEFINITION. The environment's steps at an instruction boundary: 60_exceptions.md rules R332, R346, R348 and
70_reset_and_hazards.md rule R370. An event that cannot happen in the state it meets changes nothing. -/

namespace Sys2Proof.Machine

/-- `RaiseFlag(source)` (60_exceptions.md R332); where the source then wakes a sleeping core, the sleep ends (R348). -/
def raiseFlag (src : Source) (s : State) : State :=
  wakeUp (if src.canRaise s.sleeping then s.setIrq (src.raise s.irq) else s)

/-- RCIF and TXIF take the values the USART buffers give them (60_exceptions.md R331, R332; DEDUCED, log 16), which may
wake a sleeping core too (R348). -/
def usartBuffers (rcif txif : Bool) (s : State) : State :=
  wakeUp (s.setIrq { s.irq with
    pir1 := merge maskUsart (0#2 ++ BitVec.ofBool rcif ++ BitVec.ofBool txif ++ 0#4 : BitVec 8) s.irq.pir1 })

/-- The watchdog counts, where it runs (10_state.md R41). -/
def wdtClock (counter scaler : Nat) (s : State) : State :=
  if wdtRuns s then s.setWdt { s.wdt with counter := counter, scaler := scaler } else s

/-- `WdtTimeout` (60_exceptions.md R346), where the watchdog runs: awake it is a reset; asleep it wakes the core with
TO = 0 and PD = 0, and the instruction after SLEEP is its next (R348). -/
def wdtTimeout (s : State) : State :=
  if !wdtRuns s then s
  else if s.sleeping then ((setToPd false false s).setSleeping false).setWaking true
  else resetStep .wdt s

end Sys2Proof.Machine
end

