-- ==== Sys2Proof/Machine/Boundary.lean ====
section
/-! DEFINITION. What can happen at an instruction boundary (60_exceptions.md rules R322, R334, R335, R348): the core's own
step, with or without an interrupt entry, and an event of the environment. -/

namespace Sys2Proof.Machine

/-- Fetch, decode and execute the instruction at PC (30_encoding.md R124). -/
def runInstr (s : State) : Host.Outcome State Fault Refusal :=
  andThen (fetch s) fun i => exec i s

/-- After the instruction that follows SLEEP "the interrupt entry follows it" (60_exceptions.md R348), also where that
instruction is SLEEP again: with a request that would be taken the core does not go back to sleep (DEDUCED, log 19). -/
def stayAwakeForEntry (s : State) : State := if (requestedLevel s).isSome then s.setSleeping false else s

/-- The instruction after SLEEP, which runs before any interrupt entry (60_exceptions.md R348; log 40). -/
def afterSleep (s : State) : Host.Outcome State Fault Refusal :=
  andThen (runInstr (s.setWaking false)) fun t => .next (stayAwakeForEntry t)

/-- The step of the core where it takes no interrupt at this boundary. A core still asleep executes nothing (10_state.md
R42): it stays as it is for ever (93_implementation_defined.md U19). -/
def core1 (s : State) : Host.Outcome State Fault Refusal :=
  if s.sleeping then .next s else if s.waking then afterSleep s else runInstr s

/-- The level of the request taken at this boundary: none asleep, and none before the instruction after SLEEP
(60_exceptions.md R335, R348). -/
def takenLevel (s : State) : Option Level := if s.sleeping || s.waking then none else requestedLevel s

/-- The step of the core: a requested interrupt, or else no interrupt (60_exceptions.md R335). DESIGN CHOICE (log 6): a
request is taken at the first boundary the environment leaves to the core, which decision D14 allows. -/
def boundary (s : State) : Host.Outcome State Fault Refusal :=
  match takenLevel s with
  | some level => interruptEntry level s
  | none => core1 s

/-- The step that an event makes. `proceed` and `delayInterrupt` leave this boundary to the core, which takes a requested
interrupt or does not (60_exceptions.md R334). That an event other than a reset comes before a requested interrupt is a
DESIGN CHOICE (log 7); a reset does by R335. -/
def event (e : Input) (s : State) : Host.Outcome State Fault Refusal :=
  match e with
  | .raiseFlag src => .next (raiseFlag src s)
  | .usartBuffers rcif txif => .next (usartBuffers rcif txif s)
  | .wdtClock counter scaler => .next (wdtClock counter scaler s)
  | .wdtTimeout => .next (wdtTimeout s)
  | .powerOnReset => .next (resetStep .powerOn s)
  | .mclrReset => .next (resetStep .mclr s)
  | .brownOutReset => .next (resetStep .brownOut s)
  | .delayInterrupt => core1 s
  | .proceed => boundary s

end Sys2Proof.Machine
end

