-- ==== Sys2Proof/Machine/Step.lean ====
section
/-! DEFINITION. One step of the machine: the environment's next event at this boundary (60_exceptions.md rules R322, R334,
R335), else the core's own step. -/

namespace Sys2Proof.Machine

/-- One step: the next event of the list is used up and is the step; with none listed the core makes its own. A core that
was put to sleep with a source standing that wakes it is awake first (60_exceptions.md R348; log 40). -/
def step (s : State) : Host.Outcome State Fault Refusal :=
  match s.inputs with
  | [] => boundary (wakeUp s)
  | e :: rest => event e (wakeUp (s.setInputs rest))

/-- The state with an instruction stored where `step` fetches its next one, in the numbering of opcode_table.json: four
bytes of program memory at PC (the bits of `w` from `nbits` on are 0), the core awake with no wake-up under way, no event
of the environment pending, and a request that would be taken first held back by its global enable. From State.reset only
program memory changes (log 5). -/
def State.withFetchWord (s : State) (nbits w : Nat) : State :=
  let awake := ((s.setSleeping false).setWaking false).setInputs []
  let ready :=
    if (requestedLevel awake).isSome then
      awake.setIrq { awake.irq with intcon := awake.irq.intcon &&& 0x7F#8 }
    else awake
  progLoadBytes s.pc (tableBytes 4 (w % 2 ^ nbits)) ready

end Sys2Proof.Machine
end

