-- ==== Sys2Proof/Safety.lean ====
section
/-! DEFINITION. What claims about the machine are stated in: the invariant of the state, the conditions under which an
operand can be read and written, the next states of the instruction patterns, sums and differences as integers, and what
a quiescent machine is. -/

namespace Sys2Proof.Machine

/-- The invariant that every step keeps: PC is even (10_state.md R31), RAM and program memory are in canonical form and
inside their implemented ranges (R43, R44), unimplemented bits read 0 (R61; 60_exceptions.md R331), a sleeping core has
TO = 1 and PD = 0 (44_control_system.md R267) and no wake-up under way (60_exceptions.md R348), and RBIF is 1 while the
PORTB mismatch lasts (60_exceptions.md R332). -/
abbrev State.Inv (s : State) : Prop :=
  s.pc.getLsbD 0 = false ∧
  Memory.wf ramUnlisted Config.ramBytes s.ram ∧
  Memory.wf progUnlisted Config.progBytes s.prog ∧
  (s.irq.intcon2 &&& ~~~maskIntcon2 = 0#8 ∧ s.irq.intcon3 &&& ~~~maskIntcon3 = 0#8) ∧
  (s.irq.pir1 &&& ~~~mask1 = 0#8 ∧ s.irq.pie1 &&& ~~~mask1 = 0#8 ∧ s.irq.ipr1 &&& ~~~mask1 = 0#8) ∧
  (s.irq.pir2 &&& ~~~mask2 = 0#8 ∧ s.irq.pie2 &&& ~~~mask2 = 0#8 ∧ s.irq.ipr2 &&& ~~~mask2 = 0#8) ∧
  s.rcon &&& ~~~maskRcon = 0#8 ∧
  (s.sleeping = true → s.rcon.getLsbD 3 = true ∧ s.rcon.getLsbD 2 = false ∧ s.waking = false) ∧
  (s.irq.rbMismatch = true → s.irq.intcon.getLsbD 0 = true)

/-! ### Operands -/

/-- A data address whose read gives a value: RAM that has been written, or any register of the map
(20_memory.md R86). -/
abbrev Readable (a : DataAddr) (s : State) : Prop :=
  place a ≠ .unimplemented ∧ (place a = .ram → (ramByte a s).isSome = true)

/-- A data address that takes a write (20_memory.md R87, 46_table.md R306). -/
abbrev Writable (a : DataAddr) : Prop := place a ≠ .unimplemented ∧ place a ≠ .eecon2

/-- The effective address of a file operand (20_memory.md R84). -/
def effAddr (f : Byte) (a : Bool) (s : State) : DataAddr := resolve (rawAddr f a s) s

/-- The instruction addresses no byte of an FSR it goes through (20_memory.md R89). -/
abbrev OperandOk (f : Byte) (a : Bool) (s : State) : Prop :=
  touchesOwnFsr (rawAddr f a s) [effAddr f a s] = false

/-- The file operand can be read (20_memory.md R86, R89). -/
abbrev CanRead (f : Byte) (a : Bool) (s : State) : Prop := OperandOk f a s ∧ Readable (effAddr f a s) s

/-- The result can go where `d` sends it (40_byte_oriented.md R162): to W always, to f where f takes a write. -/
abbrev CanStore (d : Bool) (f : Byte) (a : Bool) (s : State) : Prop := d = true → Writable (effAddr f a s)

/-- The state an instruction of `bytes` bytes makes its data accesses in: PC at the next instruction (10_state.md R32) and
a PREINCn update made (20_memory.md R89). -/
def accessState (bytes : Nat) (raw : DataAddr) (s : State) : State := preUpdate raw (advance bytes s)

/-- The byte a one-word instruction reads from its file operand (20_memory.md R86). -/
def operandValue (f : Byte) (a : Bool) (s : State) : Byte :=
  readValue (effAddr f a s) (accessState 2 (rawAddr f a s) s)

/-- The state after that read. -/
def afterRead (f : Byte) (a : Bool) (s : State) : State :=
  readEffect (effAddr f a s) (accessState 2 (rawAddr f a s) s)

/-- What `dest(d, addr, v)` does where it can (40_byte_oriented.md R162). -/
def destEffect (d : Bool) (a : DataAddr) (v : Byte) (s : State) : State :=
  if d then writeEffect a v s else s.setW v

/-! ### The next states of the patterns -/

/-- The pattern of 40_byte_oriented.md R161: f read, the result `r` written to W or f, the flags `u` written, PC at the next
instruction, and the POSTINCn or POSTDECn update after the accesses (20_memory.md R89). -/
def byteNext (f : Byte) (d a : Bool) (r : Byte) (u : FlagUpdate) (s : State) : State :=
  postUpdate (rawAddr f a s) (setFlags u (destEffect d (effAddr f a s) r (afterRead f a s)))

/-- The pattern of MOVWF: f is written and not read (40_byte_oriented.md R161). -/
def storeNext (f : Byte) (a : Bool) (v : Byte) (s : State) : State :=
  postUpdate (rawAddr f a s) (writeEffect (effAddr f a s) v (accessState 2 (rawAddr f a s) s))

/-- The pattern of the instructions that only read f. -/
def readNext (f : Byte) (a : Bool) (s : State) : State := postUpdate (rawAddr f a s) (afterRead f a s)

/-- A state whose PC has gone `bytes` further, modulo 2^21 (41_byte_skip.md R201). -/
def skipped (bytes : Nat) (s : State) : State := s.setPc (BitVec.ofNat 21 (s.pc.toNat + bytes))

/-- The word after a skip instruction exists, is assigned, and belongs to an instruction of `bytes` bytes
(41_byte_skip.md R201). -/
abbrev NextIs (bytes : Nat) (s : State) : Prop :=
  ((fetch16 (s.pc + 2#21) s).bind skippedBytes) = some bytes

/-- The state `t` with PC where a taken skip at `s` leads: past the skip instruction and the next one, of `bytes` bytes,
wherever PC was in `t` (41_byte_skip.md R201). -/
def afterSkip (bytes : Nat) (s t : State) : State := skipped bytes (t.setPc (s.pc + 2#21))

/-- PC + k modulo 2^21, for a signed number of bytes (30_encoding.md R123). -/
def pcPlus (k : Int) (s : State) : ProgAddr := BitVec.ofInt 21 ((s.pc.toNat : Int) + k)

/-- A number with bit 0 cleared, as it goes to PC (10_state.md R31). -/
def evenPc (n : Nat) : ProgAddr := BitVec.ofNat 21 (2 * (n / 2))

/-- `Push(v)` in pointer form (10_state.md R36): the pointer is one higher, the entry it names is `v`, every other entry is
as before. -/
abbrev Pushed (v : ProgAddr) (s t : State) : Prop :=
  t.sp.toNat = s.sp.toNat + 1 ∧ stackEntry t.sp t = v ∧ ∀ n, n ≠ t.sp → stackEntry n t = stackEntry n s

/-! ### Sums and differences as integers (00_scope.md R12) -/

/-- The sum x + y + c: C is the carry out of bit 7, DC the carry out of bit 3, OV says that the sum of the signed values is
out of range. -/
def sumOf (x y : Byte) (c : Bool) : Byte × FlagUpdate :=
  let r := BitVec.ofNat 8 (x.toNat + y.toNat + c.toNat)
  let signed : Int := x.toInt + y.toInt + c.toNat
  (r,
    { n := some (decide (r.toInt < 0))
      ov := some (decide (signed < -128 ∨ 127 < signed))
      z := some (decide ((x.toNat + y.toNat + c.toNat) % 256 = 0))
      dc := some (decide (16 ≤ x.toNat % 16 + y.toNat % 16 + c.toNat))
      c := some (decide (256 ≤ x.toNat + y.toNat + c.toNat)) })

/-- The difference x - y - b: C says that there is no borrow, DC that there is no borrow out of the low nibble, OV that the
difference of the signed values is out of range. -/
def differenceOf (x y : Byte) (b : Bool) : Byte × FlagUpdate :=
  let r := BitVec.ofInt 8 ((x.toNat : Int) - y.toNat - b.toNat)
  let signed : Int := x.toInt - y.toInt - b.toNat
  (r,
    { n := some (decide (r.toInt < 0))
      ov := some (decide (signed < -128 ∨ 127 < signed))
      z := some (decide (((x.toNat : Int) - y.toNat - b.toNat) % 256 = 0))
      dc := some (decide (y.toNat % 16 + b.toNat ≤ x.toNat % 16))
      c := some (decide (y.toNat + b.toNat ≤ x.toNat)) })

/-- `r` is bit by bit what `g` says. -/
abbrev Bits (r : Byte) (g : Nat → Bool) : Prop := ∀ j, j < 8 → r.getLsbD j = g j

/-- The flags of a logic result: Z and N, no other (40_byte_oriented.md R163). -/
def logicFlags (r : Byte) : FlagUpdate :=
  { n := some (r.getLsbD 7), ov := none, z := some (decide (r.toNat = 0)), dc := none, c := none }

/-- The next state of a literal instruction: W, STATUS and PC, nothing else (45_literal.md R280). -/
def literalNext (r : Byte) (u : FlagUpdate) (s : State) : State :=
  { s with pc := s.pc + 2#21, w := r, status := u.apply s.status }

/-- The words of an instruction, as numbers (30_encoding.md R130). -/
abbrev EncodedAs (i : Instr) (ws : List Nat) : Prop := encode i = ws.map (BitVec.ofNat 16)

/-- A word of format BYTE_FDA: opcode from bit 10 on, d, a, f (30_encoding.md R121). -/
def wordFda (opcode : Nat) (f : Byte) (d a : Bool) : Nat := opcode * 1024 + d.toNat * 512 + a.toNat * 256 + f.toNat

/-- A word of format BYTE_FA: opcode from bit 9 on, a, f (30_encoding.md R121). -/
def wordFa (opcode : Nat) (f : Byte) (a : Bool) : Nat := opcode * 512 + a.toNat * 256 + f.toNat

/-- A word of format BIT: opcode from bit 12 on, b, a, f (30_encoding.md R121). -/
def wordBit (opcode : Nat) (f : Byte) (b : BitVec 3) (a : Bool) : Nat :=
  opcode * 4096 + b.toNat * 512 + a.toNat * 256 + f.toNat

/-! ### The instructions with a file operand, by what they do to it -/

/-- The arithmetic, logic, move and rotate instructions with a `d` bit (40_byte_oriented.md R163). -/
def aluInstrs (f : Byte) (d a : Bool) : List Instr :=
  [.addwf f d a, .addwfc f d a, .andwf f d a, .comf f d a, .decf f d a, .incf f d a, .iorwf f d a, .movf f d a,
    .rlcf f d a, .rlncf f d a, .rrcf f d a, .rrncf f d a, .subfwb f d a, .subwf f d a, .subwfb f d a,
    .swapf f d a, .xorwf f d a]

/-- The instructions that count and skip (41_byte_skip.md R206 to R209). -/
def countInstrs (f : Byte) (d a : Bool) : List Instr := [.decfsz f d a, .dcfsnz f d a, .incfsz f d a, .infsnz f d a]

/-- The instructions that read f and write it back whatever their operands (40_byte_oriented.md R176; 42_bit_oriented.md
R222, R223, R226). -/
def modifyInstrs (f : Byte) (b : BitVec 3) (a : Bool) : List Instr := [.negf f a, .bcf f b a, .bsf f b a, .btg f b a]

/-- The instructions that write f without using its value (40_byte_oriented.md R167, R174, R181). -/
def storeInstrs (f : Byte) (a : Bool) : List Instr := [.clrf f a, .movwf f a, .setf f a]

/-- The instructions that read f and write no file register (40_byte_oriented.md R175; 41_byte_skip.md R203 to R205, R210;
42_bit_oriented.md R224, R225). -/
def testInstrs (f : Byte) (b : BitVec 3) (a : Bool) : List Instr :=
  [.mulwf f a, .cpfslt f a, .cpfseq f a, .cpfsgt f a, .tstfsz f a, .btfsc f b a, .btfss f b a]

/-- Every instruction that reads f and writes no file register. -/
def quietInstrs (f : Byte) (b : BitVec 3) (a : Bool) : List Instr :=
  aluInstrs f false a ++ countInstrs f false a ++ testInstrs f b a

/-- Every instruction that uses the value of f. -/
def readerInstrs (f : Byte) (b : BitVec 3) (d a : Bool) : List Instr :=
  aluInstrs f d a ++ countInstrs f d a ++ modifyInstrs f b a ++ testInstrs f b a

/-- Every instruction that writes f. -/
def writerInstrs (f : Byte) (b : BitVec 3) (a : Bool) : List Instr :=
  aluInstrs f true a ++ countInstrs f true a ++ modifyInstrs f b a ++ storeInstrs f a

/-- Every instruction with a file operand but MOVFF. -/
def fileInstrs (f : Byte) (b : BitVec 3) (d a : Bool) : List Instr := readerInstrs f b d a ++ storeInstrs f a

/-- The data address an instruction stores to, if it stores to one: the effective address of its file operand, or the
target of MOVFF (40_byte_oriented.md R161, R162, R172; 42_bit_oriented.md R221). -/
def writeTarget (i : Instr) (s : State) : Option DataAddr :=
  match i with
  | .addwf f d a | .addwfc f d a | .andwf f d a | .comf f d a | .decf f d a | .incf f d a | .iorwf f d a | .movf f d a
  | .rlcf f d a | .rlncf f d a | .rrcf f d a | .rrncf f d a | .subfwb f d a | .subwf f d a | .subwfb f d a
  | .swapf f d a | .xorwf f d a | .decfsz f d a | .dcfsnz f d a | .incfsz f d a | .infsnz f d a =>
    if d then some (effAddr f a s) else none
  | .clrf f a | .movwf f a | .negf f a | .setf f a | .bcf f _ a | .bsf f _ a | .btg f _ a => some (effAddr f a s)
  | .movff fs fd => some (resolve fd (preUpdate fs s))
  | .cpfseq _ _ | .cpfsgt _ _ | .cpfslt _ _ | .mulwf _ _ | .tstfsz _ _ | .btfsc _ _ _ | .btfss _ _ _ => none
  | .bc _ | .bn _ | .bnc _ | .bnn _ | .bnov _ | .bnz _ | .bov _ | .bz _ | .bra _ | .rcall _ | .call _ _ | .goto _ => none
  | .ret _ | .retlw _ | .retfie _ | .push | .pop | .nop | .nopx _ | .clrwdt | .daw | .reset | .sleep => none
  | .addlw _ | .andlw _ | .iorlw _ | .lfsr _ _ | .movlb _ | .movlw _ | .mullw _ | .sublw _ | .xorlw _ => none
  | .tblrd | .tblrdPostInc | .tblrdPostDec | .tblrdPreInc => none
  | .tblwt | .tblwtPostInc | .tblwtPostDec | .tblwtPreInc => none

/-! ### Runs -/

/-- A machine that stays as it is: the end of a run (70_reset_and_hazards.md R395). -/
abbrev Quiescent (s : State) : Prop := step s = .next s

/-- Nothing comes before the instruction at PC: awake, no wake-up under way, no event of the environment and no interrupt
(60_exceptions.md R335). -/
abbrev InstrNext (s : State) : Prop :=
  s.sleeping = false ∧ s.waking = false ∧ s.inputs = [] ∧ requestedLevel s = none

/-- A source that wakes a sleeping core stands: flag and enable are 1, and for a peripheral source with IPEN = 0 also
PEIE, whatever the global bits hold (60_exceptions.md R348). -/
abbrev WakingSource (s : State) : Prop :=
  ∃ i : Source, i.requests s.irq = true ∧
    (i.peripheral = true → s.rcon.getLsbD 7 = true ∨ s.irq.intcon.getLsbD 6 = true)

/-- The bytes of program memory from PC on are the instruction's (20_memory.md R93, R94). -/
abbrev InstrAtPc (i : Instr) (s : State) : Prop :=
  fetchBytes (2 * (encode i).length) s.pc s = encodeBytes i

end Sys2Proof.Machine
end

