-- ==== Sys2Proof/Certificates/Slice0/Obligations.lean ====
section
/-! DEFINITION. The statements for the provers. Each is a proposition about the model of PIC18FXX2, written from the rules
of spec/ that OBLIGATIONS.json cites. -/

section

open Sys2Proof Sys2Proof.Machine

/-! ### Decoding and encoding (30_encoding.md) -/

/-- A few words written out from 30_encoding.md R130 decode to the instructions they stand for: ADDWF 20h,1,0 is
2620h, BTG 20h,4,0 is 7820h, BC 5 is E205h, RETURN 1 is 0013h, TBLRD*- is 000Ah, MOVLW 5Ah is 0E5Ah, CALL 2468h,1 is
ED34h F012h, MOVFF 020h,321h is C020h F321h, LFSR 2,3ABh is EE23h F0ABh. -/
def Obligations.KnownWordsDecode : Prop :=
  decodeTableWord 16 0x2620 = some (.addwf 0x20#8 true false) ∧
  decodeTableWord 16 0x7820 = some (.btg 0x20#8 4#3 false) ∧
  decodeTableWord 16 0xE205 = some (.bc 5#8) ∧
  decodeTableWord 16 0x0013 = some (.ret true) ∧
  decodeTableWord 16 0x000A = some .tblrdPostDec ∧
  decodeTableWord 16 0x0E5A = some (.movlw 0x5A#8) ∧
  decodeTableWord 32 0xF012ED34 = some (.call 0x01234#20 true) ∧
  decodeTableWord 32 0xF321C020 = some (.movff 0x020#12 0x321#12) ∧
  decodeTableWord 32 0xF0ABEE23 = some (.lfsr 2#2 0x3AB#12)

/-- DECODE AND ENCODE AGREE: the bytes of every well-formed instruction, whatever follows them, decode to it. -/
def Obligations.DecodeEncode : Prop :=
  ∀ (i : Instr) (rest : List Byte), i.wf = true → decode (encodeBytes i ++ rest) = .ok (i, rest)

/-- Whatever bytes decode to an instruction are that instruction's encoding: it is well-formed, and no bit of the
bytes is ignored. -/
def Obligations.EncodeDecode : Prop :=
  ∀ (bytes rest : List Byte) (i : Instr), decode bytes = .ok (i, rest) → i.wf = true ∧ bytes = encodeBytes i ++ rest

/-- The words of no row are those of the five ranges of 30_encoding.md R134; those of the range 0110h to 01FFh are
rejected as a reserved form, the others as unassigned (spec's choices, decisions D2, D3). -/
def Obligations.UnassignedWords : Prop :=
  ∀ w w2 : Word,
    (rowOf w = none ↔
      (0x0001 ≤ w.toNat ∧ w.toNat ≤ 0x0002) ∨ (0x0014 ≤ w.toNat ∧ w.toNat ≤ 0x00FE) ∨
      (0x0110 ≤ w.toNat ∧ w.toNat ≤ 0x01FF) ∨ (0xE800 ≤ w.toNat ∧ w.toNat ≤ 0xEBFF) ∨
      (0xEE40 ≤ w.toNat ∧ w.toNat ≤ 0xEEFF)) ∧
    (rowOf w = none → decodeWords w w2 =
      .error (if 0x0110 ≤ w.toNat ∧ w.toNat ≤ 0x01FF then .reservedForm else .unassigned))

/-- The first word of a well-formed instruction says how many bytes a skip passes over: all of the instruction's. -/
def Obligations.SkipLength : Prop :=
  ∀ (i : Instr) (w : Word) (rest : List Word), i.wf = true → encode i = w :: rest →
    skippedBytes w = some (2 * (encode i).length)

/-! ### One step (60_exceptions.md) -/

/-- A STEP RUNS THE DECODED INSTRUCTION: where nothing comes before it and the bytes at PC decode to `i`, the step is
exec of `i`; so it is where the bytes at PC are the encoding of a well-formed `i`. -/
def Obligations.StepRunsInstruction : Prop :=
  ∀ (s : State) (i : Instr), InstrNext s →
    ((∀ rest, decode (fetchBytes 4 s.pc s) = .ok (i, rest) → step s = exec i s) ∧
    (i.wf = true → InstrAtPc i s → step s = exec i s))

/-- Where nothing comes before the instruction and the bytes at PC are none, the step is refused under the name of
what is wrong with them, and the state has no successor (60_exceptions.md R321, R322): a first word outside the program
memory; a first word of no row; a second word outside the program memory; a second word without 1111 in bits 15:12;
LFSR with ff = 3, or with a second word whose bits 11:8 are not 0. -/
def Obligations.StepRefusesUndecodable : Prop :=
  ∀ (s : State), InstrNext s →
    (Config.progBytes ≤ s.pc.toNat → step s = .refused .unimplementedProgram) ∧
    (∀ w : Word, fetch16 s.pc s = some w →
      (rowOf w = none → step s =
        .refused (if 0x0110 ≤ w.toNat ∧ w.toNat ≤ 0x01FF then .reservedForm else .unassignedOpcode)) ∧
      (isTwoWord w = true → fetch16 (s.pc + 2#21) s = none → step s = .refused .unimplementedProgram) ∧
      (∀ w2 : Word, isTwoWord w = true → fetch16 (s.pc + 2#21) s = some w2 →
        (w2.toNat < 0xF000 → step s = .refused .badSecondWord) ∧
        (0xF000 ≤ w2.toNat → 0xEE00 ≤ w.toNat → w.toNat ≤ 0xEE3F → 0xEE30 ≤ w.toNat ∨ 0xF100 ≤ w2.toNat →
          step s = .refused .reservedForm)))

/-- WHAT A STEP IS. With no event at this boundary, or with `proceed`, an awake core takes a requested interrupt before
the instruction at PC, at the first such boundary (decision D14; the model's choice, log 6); with `delayInterrupt` the
instruction runs although the request stands (60_exceptions.md R334). A reset is the step before anything else, awake
and asleep (R335; 70_reset_and_hazards.md R370). So is every other event: a raised flag, the USART flags, the
watchdog's clock, whose widths and place are open (log 17); that they come before a requested interrupt is the model's
choice (log 7). `wakeUp` (SleepAndWake) says that a source which stands or rises in SLEEP ends the sleep (R348; that
one standing when SLEEP was executed does so ahead of the event is the model's reading, log 40). A flag whose device
stands still in SLEEP is not raised there (R348; the model's reading, log 20), nor is the watchdog's clock seen where
the watchdog does not run. -/
def Obligations.StepOrder : Prop :=
  ∀ (s : State) (rest : List Input),
    let s1 := { s with inputs := rest }
    let s' := wakeUp s1
    (s.sleeping = false → s.waking = false → (s.inputs = [] ∧ rest = []) ∨ s.inputs = .proceed :: rest →
      (∀ level, requestedLevel s = some level → step s = interruptEntry level s1) ∧
      (∀ i tail, requestedLevel s = none → decode (fetchBytes 4 s.pc s) = .ok (i, tail) → step s = exec i s1)) ∧
    (s.sleeping = false → s.waking = false → s.inputs = .delayInterrupt :: rest →
      ∀ i tail, decode (fetchBytes 4 s.pc s) = .ok (i, tail) → step s = exec i s1) ∧
    (s.inputs = .powerOnReset :: rest → step s = .next (resetStep .powerOn s1)) ∧
    (s.inputs = .mclrReset :: rest → step s = .next (resetStep .mclr s')) ∧
    (s.inputs = .brownOutReset :: rest → step s = .next (resetStep .brownOut s1)) ∧
    (∀ src, s.inputs = .raiseFlag src :: rest →
      step s = .next (wakeUp
        (if s'.sleeping = true ∧ (src = .tmr0 ∨ src = .tmr2) then s' else { s' with irq := src.raise s.irq }))) ∧
    (∀ rcif txif, s.inputs = .usartBuffers rcif txif :: rest →
      ∃ p : Byte, Bits p (fun j => if j = 5 then rcif else if j = 4 then txif else s.irq.pir1.getLsbD j) ∧
        step s = .next (wakeUp { s' with irq := { s.irq with pir1 := p } })) ∧
    (∀ counter scaler, s.inputs = .wdtClock counter scaler :: rest →
      step s = .next (if s.wdt.swdten = true ∨ Config.wdtEnabled = true then
        { s' with wdt := { s.wdt with counter := counter, scaler := scaler } } else s'))

/-! ### The invariant and what no step changes -/

/-- The machine is in the invariant after a power-on reset. -/
def Obligations.ResetInv : Prop := State.reset.Inv

/-- EVERY STEP KEEPS THE INVARIANT: PC stays even, both memories stay in canonical form inside their implemented
ranges, unimplemented bits stay 0, a sleeping core keeps TO = 1 and PD = 0 and has no wake-up under way (log 40), and
RBIF stands while the mismatch lasts (the layouts and the mismatch are the spec's general knowledge and the model's
reading of it, logs 15, 26). -/
def Obligations.StepKeepsInv : Prop := ∀ s t : State, s.Inv → step s = .next t → t.Inv

/-- Program memory never changes (20_memory.md R104, decision D20). -/
def Obligations.ProgramMemoryFixed : Prop :=
  ∀ s t : State, step s = .next t → ∀ a : ProgAddr, progRead a t = progRead a s

/-- With the global enable 0 no interrupt is requested, in either priority mode; and no instruction sets it but RETFIE
and those that store to INTCON, at FF2h (60_exceptions.md R335, R339, the spec's general knowledge, decision D14). -/
def Obligations.InterruptsStayOff : Prop :=
  ∀ (s : State), s.irq.intcon.getLsbD 7 = false →
    requestedLevel s = none ∧
    ∀ (i : Instr) (t : State), (∀ fast, i ≠ .retfie fast) → writeTarget i s ≠ some 0xFF2#12 →
      exec i s = .next t → t.irq.intcon.getLsbD 7 = false

/-- THE FRAME OF MEMORY, for every instruction: no byte of RAM changes but the one at the address the instruction
stores to, and no byte of program memory changes (20_memory.md R80, R87, R104). -/
def Obligations.MemoryFrame : Prop :=
  ∀ (i : Instr) (s t : State), exec i s = .next t →
    (∀ a, writeTarget i s ≠ some a → ramByte a t = ramByte a s) ∧ (∀ a, progRead a t = progRead a s)

/-! ### Literal instructions (45_literal.md) -/

/-- ADDLW and SUBLW: the sum W + k and the difference k - W, with all five flags (45_literal.md R281, R288; the
formulas of OV and of DC are the spec's choice, decision D26). -/
def Obligations.ArithmeticLiterals : Prop :=
  ∀ (k : Byte) (s : State),
    exec (.addlw k) s = .next (literalNext (sumOf s.w k false).1 (sumOf s.w k false).2 s) ∧
    exec (.sublw k) s = .next (literalNext (differenceOf k s.w false).1 (differenceOf k s.w false).2 s)

/-- ANDLW, IORLW and XORLW: every bit of W, Z and N from the result, no other flag and nothing else. MOVLW: W is k and
nothing else. Each with its encoding (45_literal.md R282, R283, R286, R289). -/
def Obligations.LogicLiterals : Prop :=
  ∀ (k : Byte) (s : State),
    EncodedAs (.andlw k) [0x0B00 + k.toNat] ∧ EncodedAs (.iorlw k) [0x0900 + k.toNat] ∧
    EncodedAs (.movlw k) [0x0E00 + k.toNat] ∧ EncodedAs (.xorlw k) [0x0A00 + k.toNat] ∧
    (∃ r, Bits r (fun j => s.w.getLsbD j && k.getLsbD j) ∧ exec (.andlw k) s = .next (literalNext r (logicFlags r) s)) ∧
    (∃ r, Bits r (fun j => s.w.getLsbD j || k.getLsbD j) ∧ exec (.iorlw k) s = .next (literalNext r (logicFlags r) s)) ∧
    (∃ r, Bits r (fun j => s.w.getLsbD j != k.getLsbD j) ∧ exec (.xorlw k) s = .next (literalNext r (logicFlags r) s)) ∧
    exec (.movlw k) s = .next { s with pc := s.pc + 2#21, w := k }

/-- MULLW and MULWF: PRODH:PRODL is the unsigned product of W and k, or of W and f; W, f and the flags stay
(45_literal.md R287; 40_byte_oriented.md R175). -/
def Obligations.Products : Prop :=
  ∀ (k f : Byte) (a : Bool) (s : State),
    EncodedAs (.mullw k) [0x0D00 + k.toNat] ∧ EncodedAs (.mulwf f a) [0x0200 + a.toNat * 256 + f.toNat] ∧
    (∃ h l : Byte, h.toNat * 256 + l.toNat = s.w.toNat * k.toNat ∧
      exec (.mullw k) s = .next { s with pc := s.pc + 2#21, prodh := h, prodl := l }) ∧
    (CanRead f a s → ∃ h l : Byte, h.toNat * 256 + l.toNat = s.w.toNat * (operandValue f a s).toNat ∧
      exec (.mulwf f a) s = .next { readNext f a s with prodh := h, prodl := l })

/-- LFSR loads the 12-bit literal into the FSR it names and is refused for ff = 3; MOVLB loads BSR (45_literal.md
R284, R285). -/
def Obligations.PointerLiterals : Prop :=
  ∀ (s : State) (k : BitVec 12) (b : BitVec 4),
    exec (.lfsr 0#2 k) s = .next { s with pc := s.pc + 4#21, fsr := { s.fsr with fsr0 := k } } ∧
    exec (.lfsr 1#2 k) s = .next { s with pc := s.pc + 4#21, fsr := { s.fsr with fsr1 := k } } ∧
    exec (.lfsr 2#2 k) s = .next { s with pc := s.pc + 4#21, fsr := { s.fsr with fsr2 := k } } ∧
    exec (.lfsr 3#2 k) s = .refused .reservedForm ∧
    exec (.movlb b) s = .next { s with pc := s.pc + 2#21, bsr := b }

/-! ### Byte-oriented instructions (40_byte_oriented.md) -/

/-- ADDWF, ADDWFC and INCF wherever f can be read and the result stored: the sum and all five flags
(40_byte_oriented.md R164, R165, R170; OV is decision D26). -/
def Obligations.AddToFile : Prop :=
  ∀ (f : Byte) (d a : Bool) (s : State), CanRead f a s → CanStore d f a s →
    (let x := sumOf s.w (operandValue f a s) false; exec (.addwf f d a) s = .next (byteNext f d a x.1 x.2 s)) ∧
    (let x := sumOf s.w (operandValue f a s) s.status.c; exec (.addwfc f d a) s = .next (byteNext f d a x.1 x.2 s)) ∧
    (let x := sumOf (operandValue f a s) 1#8 false; exec (.incf f d a) s = .next (byteNext f d a x.1 x.2 s))

/-- SUBWF, SUBWFB, SUBFWB, DECF and NEGF: the difference and all five flags, C being NOT borrow (40_byte_oriented.md
R169, R176, R182 to R184; OV and DC of a subtraction are decision D26). -/
def Obligations.SubtractFromFile : Prop :=
  ∀ (f : Byte) (d a : Bool) (s : State), CanRead f a s → CanStore d f a s →
    (let x := differenceOf (operandValue f a s) s.w false; exec (.subwf f d a) s = .next (byteNext f d a x.1 x.2 s)) ∧
    (let x := differenceOf (operandValue f a s) s.w (!s.status.c);
      exec (.subwfb f d a) s = .next (byteNext f d a x.1 x.2 s)) ∧
    (let x := differenceOf s.w (operandValue f a s) (!s.status.c);
      exec (.subfwb f d a) s = .next (byteNext f d a x.1 x.2 s)) ∧
    (let x := differenceOf (operandValue f a s) 1#8 false; exec (.decf f d a) s = .next (byteNext f d a x.1 x.2 s)) ∧
    (d = true →
      let x := differenceOf 0#8 (operandValue f a s) false; exec (.negf f a) s = .next (byteNext f true a x.1 x.2 s))

/-- ANDWF, IORWF, XORWF, COMF and MOVF, with their encodings: every bit of the result, and of the flags Z and N only
(40_byte_oriented.md R166, R168, R171, R173, R186). -/
def Obligations.LogicOnFile : Prop :=
  ∀ (f : Byte) (d a : Bool) (s : State),
    EncodedAs (.andwf f d a) [wordFda 0b000101 f d a] ∧ EncodedAs (.iorwf f d a) [wordFda 0b000100 f d a] ∧
    EncodedAs (.xorwf f d a) [wordFda 0b000110 f d a] ∧ EncodedAs (.comf f d a) [wordFda 0b000111 f d a] ∧
    EncodedAs (.movf f d a) [wordFda 0b010100 f d a] ∧
    (CanRead f a s → CanStore d f a s →
      (∃ r, Bits r (fun j => s.w.getLsbD j && (operandValue f a s).getLsbD j) ∧
        exec (.andwf f d a) s = .next (byteNext f d a r (logicFlags r) s)) ∧
      (∃ r, Bits r (fun j => s.w.getLsbD j || (operandValue f a s).getLsbD j) ∧
        exec (.iorwf f d a) s = .next (byteNext f d a r (logicFlags r) s)) ∧
      (∃ r, Bits r (fun j => s.w.getLsbD j != (operandValue f a s).getLsbD j) ∧
        exec (.xorwf f d a) s = .next (byteNext f d a r (logicFlags r) s)) ∧
      (∃ r, Bits r (fun j => !(operandValue f a s).getLsbD j) ∧
        exec (.comf f d a) s = .next (byteNext f d a r (logicFlags r) s)) ∧
      exec (.movf f d a) s = .next (byteNext f d a (operandValue f a s) (logicFlags (operandValue f a s)) s))

/-- RLCF, RLNCF, RRCF, RRNCF and SWAPF, with their encodings: where every bit goes; the rotates write Z and N, those
through carry also C, SWAPF no flag (40_byte_oriented.md R177 to R180, R185). -/
def Obligations.RotateFile : Prop :=
  ∀ (f : Byte) (d a : Bool) (s : State),
    EncodedAs (.rlcf f d a) [wordFda 0b001101 f d a] ∧ EncodedAs (.rlncf f d a) [wordFda 0b010001 f d a] ∧
    EncodedAs (.rrcf f d a) [wordFda 0b001100 f d a] ∧ EncodedAs (.rrncf f d a) [wordFda 0b010000 f d a] ∧
    EncodedAs (.swapf f d a) [wordFda 0b001110 f d a] ∧
    (CanRead f a s → CanStore d f a s →
      (∃ r, Bits r (fun j => if j = 0 then s.status.c else (operandValue f a s).getLsbD (j - 1)) ∧
        exec (.rlcf f d a) s =
          .next (byteNext f d a r { logicFlags r with c := some ((operandValue f a s).getLsbD 7) } s)) ∧
      (∃ r, Bits r (fun j => (operandValue f a s).getLsbD ((j + 7) % 8)) ∧
        exec (.rlncf f d a) s = .next (byteNext f d a r (logicFlags r) s)) ∧
      (∃ r, Bits r (fun j => if j = 7 then s.status.c else (operandValue f a s).getLsbD (j + 1)) ∧
        exec (.rrcf f d a) s =
          .next (byteNext f d a r { logicFlags r with c := some ((operandValue f a s).getLsbD 0) } s)) ∧
      (∃ r, Bits r (fun j => (operandValue f a s).getLsbD ((j + 1) % 8)) ∧
        exec (.rrncf f d a) s = .next (byteNext f d a r (logicFlags r) s)) ∧
      (∃ r, Bits r (fun j => (operandValue f a s).getLsbD ((j + 4) % 8)) ∧
        exec (.swapf f d a) s = .next (byteNext f d a r noFlags s)))

/-- CLRF writes 00h and sets Z alone, SETF writes FFh and no flag, MOVWF writes W, without reading f, and no flag: all
three on a byte of RAM that nothing has written too. Each with its encoding (40_byte_oriented.md R167, R174, R181). -/
def Obligations.StoreToFile : Prop :=
  ∀ (f : Byte) (a : Bool) (s : State),
    EncodedAs (.clrf f a) [wordFa 0b0110101 f a] ∧ EncodedAs (.setf f a) [wordFa 0b0110100 f a] ∧
    EncodedAs (.movwf f a) [wordFa 0b0110111 f a] ∧
    (OperandOk f a s → Writable (effAddr f a s) →
      exec (.clrf f a) s =
        .next (byteNext f true a 0x00#8 { n := none, ov := none, z := some true, dc := none, c := none } s) ∧
      exec (.setf f a) s = .next (byteNext f true a 0xFF#8 noFlags s) ∧
      exec (.movwf f a) s = .next (storeNext f a s.w s))

/-- MOVFF copies the byte at the source to the destination, with both operands' FSR updates (40_byte_oriented.md R172;
20_memory.md R85, R89; that a POSTINCn or POSTDECn update of either operand comes after both accesses is the model's
reading, log 13). It is refused where it names PCL, TOSU, TOSH or TOSL, as source or as destination (decision D25). -/
def Obligations.MovffCopies : Prop :=
  ∀ (fs fd : DataAddr) (s : State),
    let s1 := preUpdate fs (advance 4 s)
    let source := resolve fs (advance 4 s)
    let target := resolve fd s1
    let barred := fun (x : DataAddr) => x = 0xFF9#12 ∨ x = 0xFFF#12 ∨ x = 0xFFE#12 ∨ x = 0xFFD#12
    (barred fs ∨ barred fd → exec (.movff fs fd) s = .refused .movffRestricted) ∧
    (¬ barred fs → ¬ barred fd →
      touchesOwnFsr fs [source, target] = false → touchesOwnFsr fd [source, target] = false →
      Readable source s → Writable target →
      exec (.movff fs fd) s =
        .next (postUpdate fd (postUpdate fs (writeEffect target (readValue source (preUpdate fd s1))
          (readEffect source (preUpdate fd s1))))))

/-- MOVFF between two bytes of RAM: the destination reads as the source did, every other byte of RAM is as before, PC
is 4 further, and nothing else has changed (40_byte_oriented.md R172). -/
def Obligations.MovffRamToRam : Prop :=
  ∀ (fs fd : DataAddr) (s : State) (v : Byte), place fs = .ram → place fd = .ram → ramByte fs s = some v →
    ∃ t, exec (.movff fs fd) s = .next t ∧ t = { s with pc := s.pc + 4#21, ram := t.ram } ∧
      ramByte fd t = some v ∧ ∀ a, a ≠ fd → ramByte a t = ramByte a s

/-! ### Bit-oriented instructions (42_bit_oriented.md) -/

/-- BCF, BSF and BTG, with their encodings, write back the byte read with bit b cleared, set or inverted, and no flag
of their own (42_bit_oriented.md R222, R223, R226). -/
def Obligations.BitWrites : Prop :=
  ∀ (f : Byte) (b : BitVec 3) (a : Bool) (s : State),
    EncodedAs (.bcf f b a) [wordBit 0b1001 f b a] ∧ EncodedAs (.bsf f b a) [wordBit 0b1000 f b a] ∧
    EncodedAs (.btg f b a) [wordBit 0b0111 f b a] ∧
    (CanRead f a s → Writable (effAddr f a s) →
      (∃ r, Bits r (fun j => if j = b.toNat then false else (operandValue f a s).getLsbD j) ∧
        exec (.bcf f b a) s = .next (byteNext f true a r noFlags s)) ∧
      (∃ r, Bits r (fun j => if j = b.toNat then true else (operandValue f a s).getLsbD j) ∧
        exec (.bsf f b a) s = .next (byteNext f true a r noFlags s)) ∧
      (∃ r, Bits r (fun j => (operandValue f a s).getLsbD j != decide (j = b.toNat)) ∧
        exec (.btg f b a) s = .next (byteNext f true a r noFlags s)))

/-! ### Skips (41_byte_skip.md) -/

/-- The skips that only test: where the test holds PC passes over the next instruction, of `n` bytes; where it fails
nothing is asked of the next word and PC is the next address. Comparison is unsigned (41_byte_skip.md R203 to R205,
R210; 42_bit_oriented.md R224, R225; unsigned for CPFSLT is the spec's choice, decision D6). -/
def Obligations.TestSkips : Prop :=
  ∀ (f : Byte) (b : BitVec 3) (a : Bool) (s : State) (n : Nat), CanRead f a s →
    (let p := decide ((operandValue f a s).toNat < s.w.toNat);
      (p = true → NextIs n s) → exec (.cpfslt f a) s = .next (skipped (if p then n else 0) (readNext f a s))) ∧
    (let p := decide ((operandValue f a s).toNat = s.w.toNat);
      (p = true → NextIs n s) → exec (.cpfseq f a) s = .next (skipped (if p then n else 0) (readNext f a s))) ∧
    (let p := decide (s.w.toNat < (operandValue f a s).toNat);
      (p = true → NextIs n s) → exec (.cpfsgt f a) s = .next (skipped (if p then n else 0) (readNext f a s))) ∧
    (let p := decide ((operandValue f a s).toNat = 0);
      (p = true → NextIs n s) → exec (.tstfsz f a) s = .next (skipped (if p then n else 0) (readNext f a s))) ∧
    (let p := !(operandValue f a s).getLsbD b.toNat;
      (p = true → NextIs n s) → exec (.btfsc f b a) s = .next (skipped (if p then n else 0) (readNext f a s))) ∧
    (let p := (operandValue f a s).getLsbD b.toNat;
      (p = true → NextIs n s) → exec (.btfss f b a) s = .next (skipped (if p then n else 0) (readNext f a s)))

/-- The skips that count: the result goes to W or f, no flag is written, and the skip is decided on the result
(41_byte_skip.md R206 to R209). Where it is taken PC passes over the next instruction, of `n` bytes, counted from the
skip instruction, whatever was written (R201): also where the result went to PCL, since the rules write the result
before they skip (the model's reading, log 9). Where it is not taken nothing is asked of the next word. -/
def Obligations.CountSkips : Prop :=
  ∀ (f : Byte) (d a : Bool) (s : State) (n : Nat), CanRead f a s → CanStore d f a s →
    let down := BitVec.ofInt 8 ((operandValue f a s).toNat - 1 : Int)
    let up := BitVec.ofNat 8 ((operandValue f a s).toNat + 1)
    let goes := fun (i : Instr) (r : Byte) (p : Bool) =>
      (p = false → exec i s = .next (byteNext f d a r noFlags s)) ∧
      (p = true → NextIs n s →
        exec i s = .next { byteNext f d a r noFlags s with pc := BitVec.ofNat 21 (s.pc.toNat + 2 + n) })
    goes (.decfsz f d a) down (decide (down = 0#8)) ∧ goes (.dcfsnz f d a) down (decide (down ≠ 0#8)) ∧
    goes (.incfsz f d a) up (decide (up = 0#8)) ∧ goes (.infsnz f d a) up (decide (up ≠ 0#8))

/-! ### Frames of the instructions with a file operand -/

/-- With d = 0, and for the instructions that write no file register, nothing but PC, W, PRODH:PRODL, STATUS, the FSR
of an indirect operand and the effects of reading the operand changes: no byte of RAM or program memory, no stack
entry, no other register. W changes only where the instruction has it as destination, PRODH:PRODL only for MULWF;
PCLATH and PCLATU only where PCL is read; the draw counter and the PORTB mismatch only where a peripheral register is
read. -/
def Obligations.FrameNoFileWrite : Prop :=
  ∀ (f : Byte) (b : BitVec 3) (a : Bool) (s t : State) (i : Instr),
    i ∈ quietInstrs f b a → exec i s = .next t →
    t = { s with
      pc := t.pc, w := t.w, prodh := t.prodh, prodl := t.prodl, status := t.status, fsr := t.fsr
      pclath := t.pclath, pclatu := t.pclatu, draws := t.draws
      irq := { s.irq with rbMismatch := t.irq.rbMismatch } } ∧
    (∀ x, ramByte x t = ramByte x s) ∧
    (i ∈ testInstrs f b a → t.w = s.w) ∧
    (i ≠ .mulwf f a → t.prodh = s.prodh ∧ t.prodl = s.prodl) ∧
    (place (effAddr f a s) ≠ .reg .pcl → t.pclath = s.pclath ∧ t.pclatu = s.pclatu) ∧
    (place (effAddr f a s) ≠ .device → place (effAddr f a s) ≠ .eecon2 →
      t.draws = s.draws ∧ t.irq.rbMismatch = s.irq.rbMismatch) ∧
    (∀ n, (∀ m, place (rawAddr f a s) ≠ .indirect n m) → t.fsr.get n = s.fsr.get n)

/-- With a byte of RAM as destination, nothing but PC, STATUS, the FSR of an indirect operand and that one byte
changes: the byte at the effective address the instruction computes. W stays (40_byte_oriented.md R161, R162). -/
def Obligations.FrameRamWrite : Prop :=
  ∀ (f : Byte) (b : BitVec 3) (a : Bool) (s t : State) (i : Instr),
    i ∈ writerInstrs f b a → place (effAddr f a s) = .ram → exec i s = .next t →
    t = { s with pc := t.pc, status := t.status, fsr := t.fsr, ram := t.ram } ∧
    (∀ x, x ≠ effAddr f a s → ramByte x t = ramByte x s) ∧
    (∀ n, (∀ m, place (rawAddr f a s) ≠ .indirect n m) → t.fsr.get n = s.fsr.get n)

/-- With a register of the core as destination, every other register of the core reads as before, save PC, STATUS, the
FSR of an indirect operand, PCLATH and PCLATU where PCL is read, and the three bytes of TOS where STKPTR is written;
every entry of the return stack is as before, save the one SP names where TOSU, TOSH or TOSL is written (10_state.md
R35, R38); and RAM, program memory, the shadow registers, the watchdog's counter and scaler, the latches, the outputs,
the draw counter and the PORTB mismatch are as before. -/
def Obligations.FrameRegisterWrite : Prop :=
  ∀ (f : Byte) (b : BitVec 3) (a : Bool) (s t : State) (i : Instr) (r : CoreReg),
    i ∈ writerInstrs f b a → place (effAddr f a s) = .reg r → exec i s = .next t →
    (∀ q : CoreReg, q ≠ r → q ≠ .pcl → q ≠ .status →
      (r = .pcl → q ≠ .pclath ∧ q ≠ .pclatu) → (r = .stkptr → q ≠ .tosu ∧ q ≠ .tosh ∧ q ≠ .tosl) →
      (∀ n m, place (rawAddr f a s) = .indirect n m → q ≠ .fsrh n ∧ q ≠ .fsrl n) → regValue q t = regValue q s) ∧
    (∀ x, ramByte x t = ramByte x s) ∧ t.prog = s.prog ∧ t.shadow = s.shadow ∧ t.holding = s.holding ∧
    t.wdt.counter = s.wdt.counter ∧ t.wdt.scaler = s.wdt.scaler ∧ t.sleeping = s.sleeping ∧ t.waking = s.waking ∧
    t.outputs = s.outputs ∧ t.inputs = s.inputs ∧ t.draws = s.draws ∧ t.irq.rbMismatch = s.irq.rbMismatch ∧
    (∀ n, n ≠ s.sp ∨ (r ≠ .tosu ∧ r ≠ .tosh ∧ r ≠ .tosl) → stackEntry n t = stackEntry n s)

/-- The flags an instruction does not write keep their values, wherever STATUS itself is not the destination
(40_byte_oriented.md R163): all of them for the moves, the skips, the bit instructions, SETF, SWAPF and MULWF; all but
Z for CLRF; C, DC and OV for the logic instructions and the rotates without carry; DC and OV for the rotates through
carry. MOVFF keeps them all wherever the address it stores to is not that of STATUS, FD8h. -/
def Obligations.FlagFrame : Prop :=
  ∀ (f : Byte) (b : BitVec 3) (d a : Bool) (s t : State) (i : Instr), exec i s = .next t →
    ((d = true → place (effAddr f a s) ≠ .reg .status) →
      (i = .swapf f d a ∨ i ∈ countInstrs f d a ∨ i ∈ testInstrs f b a → t.status = s.status) ∧
      (d = true → i ∈ ([.bcf f b a, .bsf f b a, .btg f b a, .movwf f a, .setf f a] : List Instr) →
        t.status = s.status) ∧
      (d = true → i = .clrf f a → t.status = { s.status with z := true }) ∧
      (i ∈ ([.andwf f d a, .comf f d a, .iorwf f d a, .movf f d a, .rlncf f d a, .rrncf f d a, .xorwf f d a]
          : List Instr) → t.status = { s.status with z := t.status.z, n := t.status.n }) ∧
      (i ∈ ([.rlcf f d a, .rrcf f d a] : List Instr) →
        t.status = { s.status with c := t.status.c, z := t.status.z, n := t.status.n })) ∧
    (∀ fs fd, i = .movff fs fd → writeTarget i s ≠ some 0xFD8#12 → t.status = s.status)

/-! ### Data memory (20_memory.md, 10_state.md) -/

/-- What a byte instruction stores in RAM is what a read of that address gives next, and a read of every other address
of RAM gives what it gave (20_memory.md R86, R87). -/
def Obligations.RamReadAfterWrite : Prop :=
  ∀ (a b : DataAddr) (v : Byte) (s : State), place a = .ram →
    ∃ t, dataWrite a v s = .next t ∧ t = { s with ram := t.ram } ∧ dataRead a t = .next (v, t) ∧
      ramByte a t = some v ∧ (b ≠ a → ramByte b t = ramByte b s)

/-- What a write leaves in a register of the core, read back: the implemented bits of the byte written, but for the
bits that software cannot set (10_state.md R61, R62): TO and PD of RCON, RCIF and TXIF of PIR1, bit 0 of PCL; STKFUL
and STKUNF can only be cleared; RBIF cannot be cleared while the mismatch lasts; with an empty stack TOS has no entry
and reads 0. The layouts are the spec's general knowledge (GK2 to GK8; the model's readings are logs 11, 12, 15, 16).
That TO and PD are read-only is R61 and R62, against 60_exceptions.md R331: the model's choice between them (log 39). -/
def Obligations.RegisterReadBack : Prop :=
  ∀ (v : Byte) (s : State),
    (∀ r ∈ ([.pclath, .tblptrh, .tblptrl, .tablat, .prodh, .prodl, .wreg, .fsrl .f0, .fsrl .f1, .fsrl .f2,
        .pie1, .ipr1] : List CoreReg), regValue r (regWrite r v s) = v) ∧
    (∀ r ∈ ([.pclatu, .status, .pir2, .pie2, .ipr2] : List CoreReg), regValue r (regWrite r v s) = v &&& 0x1F#8) ∧
    (∀ r ∈ ([.bsr, .fsrh .f0, .fsrh .f1, .fsrh .f2] : List CoreReg), regValue r (regWrite r v s) = v &&& 0x0F#8) ∧
    regValue .tblptru (regWrite .tblptru v s) = v &&& 0x3F#8 ∧
    regValue .wdtcon (regWrite .wdtcon v s) = v &&& 0x01#8 ∧
    regValue .pcl (regWrite .pcl v s) = v &&& 0xFE#8 ∧
    regValue .intcon2 (regWrite .intcon2 v s) = v &&& 0xF5#8 ∧
    regValue .intcon3 (regWrite .intcon3 v s) = v &&& 0xDB#8 ∧
    regValue .intcon (regWrite .intcon v s) = (if s.irq.rbMismatch then v ||| 0x01#8 else v) ∧
    regValue .rcon (regWrite .rcon v s) = (v &&& 0x93#8) ||| (s.rcon &&& 0x0C#8) ∧
    regValue .pir1 (regWrite .pir1 v s) = (v &&& 0xCF#8) ||| (s.irq.pir1 &&& 0x30#8) ∧
    regValue .stkptr (regWrite .stkptr v s) = (v &&& 0x1F#8) ||| (v &&& regValue .stkptr s &&& 0xC0#8) ∧
    (s.sp ≠ 0#5 → regValue .tosu (regWrite .tosu v s) = v &&& 0x1F#8 ∧
      regValue .tosh (regWrite .tosh v s) = v ∧ regValue .tosl (regWrite .tosl v s) = v) ∧
    (s.sp = 0#5 → regValue .tosu (regWrite .tosu v s) = 0#8 ∧
      regValue .tosh (regWrite .tosh v s) = 0#8 ∧ regValue .tosl (regWrite .tosl v s) = 0#8)

/-- PCL (10_state.md R32, decision D30). MOVF PCL,0,0 gives the low byte of the next instruction's address and copies
the rest of that address into the latches; MOVWF PCL jumps to PCLATU:PCLATH:W with bit 0 cleared and changes nothing
else. -/
def Obligations.ProgramCounterAsRegister : Prop :=
  ∀ (s : State),
    (∃ t, exec (.movf 0xF9#8 false false) s = .next t ∧ t.pc = s.pc + 2#21 ∧
      t.pclatu.toNat * 65536 + t.pclath.toNat * 256 + t.w.toNat = (s.pc.toNat + 2) % 2097152) ∧
    exec (.movwf 0xF9#8 false) s =
      .next { s with pc := evenPc (s.pclatu.toNat * 65536 + s.pclath.toNat * 256 + s.w.toNat) }

/-- A peripheral register (20_memory.md R98, decision D22): a read answers with the environment's next byte, of which
nothing is known, and takes no more than that draw; at PORTB it also ends the mismatch that holds RBIF
(60_exceptions.md R332; the model's reading, log 15); a write is recorded as an output event and changes nothing else;
EECON2 alone refuses a write (46_table.md R306). -/
def Obligations.PeripheralAccess : Prop :=
  ∀ (a : DataAddr) (v : Byte) (s : State),
    (place a = .device → a ≠ portbAddr →
      dataRead a s = .next (Config.deviceByte s.draws a, { s with draws := s.draws + 1 })) ∧
    (dataRead portbAddr s = .next (Config.deviceByte s.draws portbAddr,
      { s with draws := s.draws + 1, irq := { s.irq with rbMismatch := false } })) ∧
    (place a = .device → dataWrite a v s = .next { s with outputs := s.outputs ++ [(a, v)] }) ∧
    (place a = .eecon2 → dataWrite a v s = .refused .flashProgramming)

/-- Data addresses. The raw address of a file operand: the bank of BSR with a = 1; with a = 0 the first 128 bytes of
RAM, or the special function registers from F80h, whatever BSR holds (20_memory.md R82 to R84, decision D7). What
stands at an address: RAM exactly below 600h and nothing from there to F7Fh (R81); from F80h on the table of
10_state.md R60 (the spec's general knowledge, decision D8; log 26), address by address: each register of the core,
each of the fifteen indirect addresses, the peripheral registers (those of the 40-pin members among them), EECON2, and
nothing at the addresses of the table's dashes; and no register stands at two addresses. -/
def Obligations.DataAddresses : Prop :=
  ∀ (f : Byte) (s : State) (x y : DataAddr) (r : CoreReg),
    (rawAddr f true s).toNat = s.bsr.toNat * 256 + f.toNat ∧
    (rawAddr f false s).toNat = (if f.toNat < 128 then f.toNat else 0xF00 + f.toNat) ∧
    (place x = .ram ↔ x.toNat < 0x600) ∧
    (0x600 ≤ x.toNat ∧ x.toNat < 0xF80 → place x = .unimplemented) ∧
    (place x = .reg r → place y = .reg r → x = y) ∧
    (∀ c ∈ ([
        (0xFFF, .tosu), (0xFFE, .tosh), (0xFFD, .tosl), (0xFFC, .stkptr), (0xFFB, .pclatu), (0xFFA, .pclath),
        (0xFF9, .pcl), (0xFF8, .tblptru), (0xFF7, .tblptrh), (0xFF6, .tblptrl), (0xFF5, .tablat),
        (0xFF4, .prodh), (0xFF3, .prodl), (0xFF2, .intcon), (0xFF1, .intcon2), (0xFF0, .intcon3),
        (0xFEA, .fsrh .f0), (0xFE9, .fsrl .f0), (0xFE8, .wreg), (0xFE2, .fsrh .f1), (0xFE1, .fsrl .f1),
        (0xFE0, .bsr), (0xFDA, .fsrh .f2), (0xFD9, .fsrl .f2), (0xFD8, .status), (0xFD1, .wdtcon),
        (0xFD0, .rcon), (0xFA2, .ipr2), (0xFA1, .pir2), (0xFA0, .pie2), (0xF9F, .ipr1), (0xF9E, .pir1),
        (0xF9D, .pie1)
      ] : List (Nat × CoreReg)), x.toNat = c.1 → place x = .reg c.2) ∧
    (∀ c ∈ ([
        (0xFEF, .f0, .indf), (0xFEE, .f0, .postInc), (0xFED, .f0, .postDec), (0xFEC, .f0, .preInc),
        (0xFEB, .f0, .plusW), (0xFE7, .f1, .indf), (0xFE6, .f1, .postInc), (0xFE5, .f1, .postDec),
        (0xFE4, .f1, .preInc), (0xFE3, .f1, .plusW), (0xFDF, .f2, .indf), (0xFDE, .f2, .postInc),
        (0xFDD, .f2, .postDec), (0xFDC, .f2, .preInc), (0xFDB, .f2, .plusW)
      ] : List (Nat × FsrIx × IndirectMode)), x.toNat = c.1 → place x = .indirect c.2.1 c.2.2) ∧
    (x.toNat ∈ ([
        0xFD7, 0xFD6, 0xFD5, 0xFD3, 0xFD2, 0xFCF, 0xFCE, 0xFCD, 0xFCC, 0xFCB, 0xFCA, 0xFC9, 0xFC8, 0xFC7,
        0xFC6, 0xFC5, 0xFC4, 0xFC3, 0xFC2, 0xFC1, 0xFBF, 0xFBE, 0xFBD, 0xFBC, 0xFBB, 0xFBA, 0xFB3, 0xFB2,
        0xFB1, 0xFAF, 0xFAE, 0xFAD, 0xFAC, 0xFAB, 0xFA9, 0xFA8, 0xFA6, 0xF96, 0xF95, 0xF94, 0xF93, 0xF92,
        0xF8D, 0xF8C, 0xF8B, 0xF8A, 0xF89, 0xF84, 0xF83, 0xF82, 0xF81, 0xF80
      ] : List Nat) → place x = .device) ∧
    (x.toNat = 0xFA7 → place x = .eecon2) ∧
    (x.toNat ∈ ([
        0xFD4, 0xFC0, 0xFB9, 0xFB8, 0xFB7, 0xFB6, 0xFB5, 0xFB4, 0xFB0, 0xFAA, 0xFA5, 0xFA4, 0xFA3, 0xF9C,
        0xF9B, 0xF9A, 0xF99, 0xF98, 0xF97, 0xF91, 0xF90, 0xF8F, 0xF8E, 0xF88, 0xF87, 0xF86, 0xF85
      ] : List Nat) → place x = .unimplemented)

/-- The five ways through an FSR (20_memory.md R89, decision D29). On a pointer into RAM: where MOVWF stores, and what
becomes of the FSR, modulo 4096; W is the signed offset of PLUSWn. On a pointer at an indirect register: a read gives
00h and a write does nothing. -/
def Obligations.IndirectAddressing : Prop :=
  ∀ (s : State) (n : FsrIx) (m : IndirectMode) (f : Byte),
    (∀ (x : DataAddr) (v : Byte), place x = .indirect n m → dataRead x s = .next (0#8, s) ∧ dataWrite x v s = .next s) ∧
    (place (rawAddr f false s) = .indirect n m →
      let p := (s.fsr.get n).toNat
      let target := match m with
        | .indf => p | .postInc => p | .postDec => p
        | .preInc => (p + 1) % 4096
        | .plusW => (((p : Int) + s.w.toInt) % 4096).toNat
      let pointer := match m with
        | .indf => p | .plusW => p
        | .postInc => (p + 1) % 4096
        | .preInc => (p + 1) % 4096
        | .postDec => (p + 4095) % 4096
      target < 0x600 →
      ∃ t, exec (.movwf f false) s = .next t ∧ (t.fsr.get n).toNat = pointer ∧
        (∀ k, k ≠ n → t.fsr.get k = s.fsr.get k) ∧
        ∀ x, ramByte x t = if x.toNat = target then some s.w else ramByte x s)

/-- WHERE A DATA ACCESS STOPS (60_exceptions.md R321, R322; the stops are the spec's choices, decisions D17, D20, D23,
D29): an operand that goes through an FSR to that FSR's own bytes; an unimplemented address; a read of RAM that
nothing has written, by every instruction that uses the value; a write of EECON2. The same for MOVFF, of both its
operands, the source's stops before the target's (which own bytes count, log 14). -/
def Obligations.DataStops : Prop :=
  ∀ (f : Byte) (b : BitVec 3) (d a : Bool) (fs fd : DataAddr) (s : State),
    (¬ OperandOk f a s → ∀ i ∈ fileInstrs f b d a, exec i s = .refused .indirectSelfReference) ∧
    (OperandOk f a s →
      (place (effAddr f a s) = .unimplemented → ∀ i ∈ fileInstrs f b d a, exec i s = .refused .unimplementedData) ∧
      (place (effAddr f a s) = .ram → ramByte (effAddr f a s) s = none →
        ∀ i ∈ readerInstrs f b d a, exec i s = .fault .readOfUnwritten) ∧
      (place (effAddr f a s) = .eecon2 → ∀ i ∈ writerInstrs f b a, exec i s = .refused .flashProgramming)) ∧
    (let source := resolve fs (advance 4 s)
     let target := resolve fd (preUpdate fs (advance 4 s))
     let barred := fun (x : DataAddr) => x = 0xFF9#12 ∨ x = 0xFFF#12 ∨ x = 0xFFE#12 ∨ x = 0xFFD#12
     let own := touchesOwnFsr fs [source, target] = true ∨ touchesOwnFsr fd [source, target] = true
     ¬ barred fs → ¬ barred fd →
      (own → exec (.movff fs fd) s = .refused .indirectSelfReference) ∧
      (¬ own →
        (place source = .unimplemented → exec (.movff fs fd) s = .refused .unimplementedData) ∧
        (place source = .ram → ramByte source s = none → exec (.movff fs fd) s = .fault .readOfUnwritten) ∧
        (Readable source s →
          (place target = .unimplemented → exec (.movff fs fd) s = .refused .unimplementedData) ∧
          (place target = .eecon2 → exec (.movff fs fd) s = .refused .flashProgramming))))

/-! ### Control flow (43_control_flow.md) -/

/-- The branches and the jump, with their encodings: the eight conditional ones go to PC + 2 + 2n where the flag is as
asked, for the signed n, else to PC + 2; BRA always, with an 11-bit n; all modulo 2^21. GOTO goes to the byte address
2k. Nothing else changes (43_control_flow.md R233, R238, R242 to R249). -/
def Obligations.Branches : Prop :=
  ∀ (n : BitVec 8) (m : BitVec 11) (k : BitVec 20) (s : State),
    let go := fun (p : Bool) => { s with pc := if p then pcPlus (2 + 2 * n.toInt) s else pcPlus 2 s }
    (EncodedAs (.bz n) [0xE000 + n.toNat] ∧ exec (.bz n) s = .next (go s.status.z)) ∧
    (EncodedAs (.bnz n) [0xE100 + n.toNat] ∧ exec (.bnz n) s = .next (go (!s.status.z))) ∧
    (EncodedAs (.bc n) [0xE200 + n.toNat] ∧ exec (.bc n) s = .next (go s.status.c)) ∧
    (EncodedAs (.bnc n) [0xE300 + n.toNat] ∧ exec (.bnc n) s = .next (go (!s.status.c))) ∧
    (EncodedAs (.bov n) [0xE400 + n.toNat] ∧ exec (.bov n) s = .next (go s.status.ov)) ∧
    (EncodedAs (.bnov n) [0xE500 + n.toNat] ∧ exec (.bnov n) s = .next (go (!s.status.ov))) ∧
    (EncodedAs (.bn n) [0xE600 + n.toNat] ∧ exec (.bn n) s = .next (go s.status.n)) ∧
    (EncodedAs (.bnn n) [0xE700 + n.toNat] ∧ exec (.bnn n) s = .next (go (!s.status.n))) ∧
    (EncodedAs (.bra m) [0xD000 + m.toNat] ∧ exec (.bra m) s = .next { s with pc := pcPlus (2 + 2 * m.toInt) s }) ∧
    (EncodedAs (.goto k) [0xEF00 + k.toNat % 256, 0xF000 + k.toNat / 256] ∧
      exec (.goto k) s = .next { s with pc := BitVec.ofNat 21 (2 * k.toNat) })

/-- CALL, RCALL and PUSH where the stack has room (its depth is decision D13): the address of the next instruction is
pushed, every other entry stays; CALL with s = 1 copies W, STATUS and BSR to the shadow registers; PC goes to 2k, to
PC + 2 + 2n, to the next instruction; nothing else changes (43_control_flow.md R234, R236, R237, R250). -/
def Obligations.Calls : Prop :=
  ∀ (k : BitVec 20) (fast : Bool) (n : BitVec 11) (s : State), s.sp.toNat < Config.stackDepth →
    (∃ t, exec (.call k fast) s = .next t ∧ Pushed (s.pc + 4#21) s t ∧
      t = { s with
        pc := BitVec.ofNat 21 (2 * k.toNat), sp := t.sp, stack := t.stack
        shadow := if fast then ⟨s.w, s.status, s.bsr⟩ else s.shadow }) ∧
    (∃ t, exec (.rcall n) s = .next t ∧ Pushed (s.pc + 2#21) s t ∧
      t = { s with pc := pcPlus (2 + 2 * n.toInt) s, sp := t.sp, stack := t.stack }) ∧
    (∃ t, exec .push s = .next t ∧ Pushed (s.pc + 2#21) s t ∧
      t = { s with pc := s.pc + 2#21, sp := t.sp, stack := t.stack })

/-- RETURN, RETLW and POP where the stack is not empty: the pointer is one lower and no entry changes; RETURN and
RETLW load PC with the value on top, bit 0 cleared; RETURN 1 restores W, STATUS and BSR from the shadow registers,
RETLW loads W; POP goes on to the next instruction; PCLATH and PCLATU and all else stay (43_control_flow.md R239,
R240, R251). -/
def Obligations.Returns : Prop :=
  ∀ (k : Byte) (s : State), s.sp ≠ 0#5 →
    exec (.ret false) s = .next { s with pc := evenPc (stackEntry s.sp s).toNat, sp := s.sp - 1#5 } ∧
    exec (.ret true) s = .next { s with
      pc := evenPc (stackEntry s.sp s).toNat, sp := s.sp - 1#5
      w := s.shadow.ws, status := s.shadow.statuss, bsr := s.shadow.bsrs } ∧
    exec (.retlw k) s = .next { s with pc := evenPc (stackEntry s.sp s).toNat, sp := s.sp - 1#5, w := k } ∧
    exec .pop s = .next { s with pc := s.pc + 2#21, sp := s.sp - 1#5 }

/-- RETFIE where the stack is not empty: as RETURN, and one global enable of INTCON is set, GIEH (bit 7) if it was 0,
else GIEL (bit 6), no other bit of it (43_control_flow.md R241; which enable is the spec's choice, decision D15). -/
def Obligations.ReturnFromInterrupt : Prop :=
  ∀ (s : State), s.sp ≠ 0#5 →
    ∃ c : Byte,
      Bits c (fun j => s.irq.intcon.getLsbD j || decide (j = if s.irq.intcon.getLsbD 7 then 6 else 7)) ∧
      exec (.retfie false) s = .next { s with
        pc := evenPc (stackEntry s.sp s).toNat, sp := s.sp - 1#5, irq := { s.irq with intcon := c } } ∧
      exec (.retfie true) s = .next { s with
        pc := evenPc (stackEntry s.sp s).toNat, sp := s.sp - 1#5, irq := { s.irq with intcon := c }
        w := s.shadow.ws, status := s.shadow.statuss, bsr := s.shadow.bsrs }

/-- A full stack stops every push and an empty one every pop, under the names of 60_exceptions.md R321 (the spec's
choice, decision D13). -/
def Obligations.StackStops : Prop :=
  ∀ (k : BitVec 20) (b : Byte) (fast : Bool) (n : BitVec 11) (level : Level) (s : State),
    (s.sp = 31#5 → exec (.call k fast) s = .fault .stackOverflow ∧ exec (.rcall n) s = .fault .stackOverflow ∧
      exec .push s = .fault .stackOverflow ∧ interruptEntry level s = .fault .stackOverflow) ∧
    (s.sp = 0#5 → exec (.ret fast) s = .fault .stackUnderflow ∧ exec (.retlw b) s = .fault .stackUnderflow ∧
      exec (.retfie fast) s = .fault .stackUnderflow ∧ exec .pop s = .fault .stackUnderflow)

/-- CALL and then RETURN, both fast, at whatever address the call leads to: W, STATUS and BSR are as at the call, PC
is the instruction after it, the stack holds what it held, and only the free entry above it and the shadow registers
differ (43_control_flow.md R235, R237, R239). -/
def Obligations.CallThenReturn : Prop :=
  ∀ (k : BitVec 20) (s t u : State), s.pc.getLsbD 0 = false →
    exec (.call k true) s = .next t → exec (.ret true) t = .next u →
    u = { s with pc := s.pc + 4#21, stack := u.stack, shadow := u.shadow } ∧
    ∀ n, n.toNat ≤ s.sp.toNat → stackEntry n u = stackEntry n s

/-! ### System control (44_control_system.md) -/

/-- NOP in both encodings, whatever its low 12 bits, only moves PC; CLRWDT clears the watchdog and sets TO and PD;
SLEEP clears it, sets TO, clears PD and stops the core (44_control_system.md R261, R262, R267). Nothing else changes.
That TO and PD are bits 3 and 2 of RCON is the spec's general knowledge (log 26). -/
def Obligations.SystemControl : Prop :=
  ∀ (x : BitVec 12) (s : State),
    EncodedAs .nop [0x0000] ∧ EncodedAs (.nopx x) [0xF000 + x.toNat] ∧ EncodedAs .clrwdt [0x0004] ∧
    EncodedAs .sleep [0x0003] ∧
    exec .nop s = .next { s with pc := s.pc + 2#21 } ∧
    exec (.nopx x) s = .next { s with pc := s.pc + 2#21 } ∧
    (∃ r : Byte, Bits r (fun j => if j = 3 then true else if j = 2 then true else s.rcon.getLsbD j) ∧
      exec .clrwdt s = .next { s with
        pc := s.pc + 2#21, wdt := { s.wdt with counter := 0, scaler := 0 }, rcon := r }) ∧
    (∃ r : Byte, Bits r (fun j => if j = 3 then true else if j = 2 then false else s.rcon.getLsbD j) ∧
      exec .sleep s = .next { s with
        pc := s.pc + 2#21, wdt := { s.wdt with counter := 0, scaler := 0 }, rcon := r, sleeping := true })

/-- DAW for every W, C and DC (44_control_system.md R263, the sequential reading of decision D24): W and C change, and
PC. -/
def Obligations.DecimalAdjust : Prop :=
  ∀ (s : State),
    let low := if 9 < s.w.toNat % 16 ∨ s.status.dc = true then s.w.toNat + 6 else s.w.toNat
    let high := if 9 < low / 16 ∨ s.status.c = true then low + 96 else low
    exec .daw s = .next { s with
      pc := s.pc + 2#21, w := BitVec.ofNat 8 high
      status := { s.status with c := s.status.c || decide (256 ≤ high) } }

/-- DAW after ADDLW corrects packed BCD: for two valid BCD bytes the sum's two digits are in W, and C says that there
is a hundred (44_control_system.md R263: "correct BCD" after an addition). -/
def Obligations.BcdAddition : Prop :=
  ∀ (x y : Nat) (k : Byte) (s t u : State), x < 100 → y < 100 →
    s.w.toNat = x / 10 * 16 + x % 10 → k.toNat = y / 10 * 16 + y % 10 →
    exec (.addlw k) s = .next t → exec .daw t = .next u →
    u.w.toNat = (x + y) % 100 / 10 * 16 + (x + y) % 10 ∧ u.status.c = decide (100 ≤ x + y)

/-- RESET: PC and the registers of the column "RESET instruction" of 10_state.md R64, RI of RCON 0 and its other low
bits as before, and W, STATUS, the FSRs, PRODH:PRODL, RAM, the stack entries, the flags of STKPTR, the shadow
registers and the latches as before (44_control_system.md R266; 70_reset_and_hazards.md R370; the values are the
spec's general knowledge, GK9, decision D16; that the PORTB mismatch, which holds RBIF, lasts like RBIF is the model's
reading, log 15; that no wake-up is under way then, log 40). -/
def Obligations.ResetInstruction : Prop :=
  ∀ (s : State), ∃ r c : Byte,
    Bits r (fun j => if j = 3 ∨ j = 2 ∨ j = 1 ∨ j = 0 then s.rcon.getLsbD j else false) ∧
    Bits c (fun j => if j = 0 then s.irq.intcon.getLsbD 0 else false) ∧
    exec .reset s = .next { s with
      pc := 0#21, bsr := 0#4, tblptr := 0#21, tblptr21 := false, tablat := 0#8, pclath := 0#8, pclatu := 0#5, sp := 0#5
      rcon := r, wdt := ⟨0, 0, false⟩, sleeping := false, waking := false
      irq := { intcon := c, intcon2 := 0xF5#8, intcon3 := 0xC0#8, pir1 := 0#8, pir2 := 0#8, pie1 := 0#8, pie2 := 0#8,
               ipr1 := 0xFF#8, ipr2 := 0x1F#8, rbMismatch := s.irq.rbMismatch } }

/-! ### Table access (46_table.md) -/

/-- TBLRD in its four modes, wherever the byte addressed is implemented: TABLAT gets it, TBLPTR moves modulo 2^21, PC
is 2 further, nothing else changes (46_table.md R302 to R305; the wrap is decision D21). -/
def Obligations.TableReads : Prop :=
  ∀ (s : State), s.tblptr21 = false →
    (s.tblptr.toNat < Config.progBytes → ∃ v, progRead s.tblptr s = some v ∧
      exec .tblrd s = .next { s with pc := s.pc + 2#21, tablat := v } ∧
      exec .tblrdPostInc s =
        .next { s with pc := s.pc + 2#21, tablat := v, tblptr := BitVec.ofNat 21 (s.tblptr.toNat + 1) } ∧
      exec .tblrdPostDec s =
        .next { s with pc := s.pc + 2#21, tablat := v, tblptr := BitVec.ofNat 21 (s.tblptr.toNat + 2097151) }) ∧
    ((s.tblptr.toNat + 1) % 2097152 < Config.progBytes →
      ∃ v, progRead (BitVec.ofNat 21 (s.tblptr.toNat + 1)) s = some v ∧
        exec .tblrdPreInc s =
          .next { s with pc := s.pc + 2#21, tablat := v, tblptr := BitVec.ofNat 21 (s.tblptr.toNat + 1) })

/-- TBLWT in its four modes: the holding latch that the low three bits of the address name gets TABLAT, the others and
all of program memory stay, TBLPTR moves modulo 2^21 (46_table.md R301, R306 to R309; that only a latch is written is
the spec's choice, decision D20). -/
def Obligations.TableWrites : Prop :=
  ∀ (s : State), s.tblptr21 = false →
    let writes := fun (i : Instr) (address after : Nat) => ∃ h : Vector Byte Config.holdingBytes,
      (∀ j, j < 8 → h[j]? = if j = address % 8 then some s.tablat else s.holding[j]?) ∧
      exec i s = .next { s with pc := s.pc + 2#21, holding := h, tblptr := BitVec.ofNat 21 after }
    writes .tblwt s.tblptr.toNat s.tblptr.toNat ∧
    writes .tblwtPostInc s.tblptr.toNat (s.tblptr.toNat + 1) ∧
    writes .tblwtPostDec s.tblptr.toNat (s.tblptr.toNat + 2097151) ∧
    writes .tblwtPreInc (s.tblptr.toNat + 1) (s.tblptr.toNat + 1)

/-- Where the table instructions and the skips stop: all eight table instructions with TBLPTRU bit 5 set; the table
reads outside the implemented program memory; each of the ten skips, where it is taken past the end of the program
memory, or over a word that is unassigned or a reserved form (46_table.md R301; 20_memory.md R92; 41_byte_skip.md R201;
the refusals are the spec's choices, decisions D12, D21, D32). -/
def Obligations.TableAndSkipStops : Prop :=
  ∀ (s : State),
    (s.tblptr21 = true → ∀ i ∈ ([.tblrd, .tblrdPostInc, .tblrdPostDec, .tblrdPreInc, .tblwt, .tblwtPostInc,
        .tblwtPostDec, .tblwtPreInc] : List Instr), exec i s = .refused .configSpace) ∧
    (s.tblptr21 = false → Config.progBytes ≤ s.tblptr.toNat →
      ∀ i ∈ ([.tblrd, .tblrdPostInc, .tblrdPostDec] : List Instr), exec i s = .refused .unimplementedProgram) ∧
    (s.tblptr21 = false → Config.progBytes ≤ (s.tblptr.toNat + 1) % 2097152 →
      exec .tblrdPreInc s = .refused .unimplementedProgram) ∧
    ∀ (f : Byte) (b : BitVec 3) (d a : Bool), CanRead f a s →
      let x := operandValue f a s
      let stops := fun (i : Instr) =>
        (fetch16 (s.pc + 2#21) s = none → exec i s = .refused .unimplementedProgram) ∧
        (∀ w : Word, fetch16 (s.pc + 2#21) s = some w → rowOf w = none ∨ (0xEE30 ≤ w.toNat ∧ w.toNat ≤ 0xEE3F) →
          exec i s = .refused .skipOverUnassigned)
      (x.toNat < s.w.toNat → stops (.cpfslt f a)) ∧ (x = s.w → stops (.cpfseq f a)) ∧
      (s.w.toNat < x.toNat → stops (.cpfsgt f a)) ∧ (x = 0#8 → stops (.tstfsz f a)) ∧
      (x.getLsbD b.toNat = false → stops (.btfsc f b a)) ∧ (x.getLsbD b.toNat = true → stops (.btfss f b a)) ∧
      (CanStore d f a s →
        (x = 1#8 → stops (.decfsz f d a)) ∧ (x ≠ 1#8 → stops (.dcfsnz f d a)) ∧
        (x = 255#8 → stops (.incfsz f d a)) ∧ (x ≠ 255#8 → stops (.infsnz f d a)))

/-! ### Interrupts, sleep, reset (60_exceptions.md, 70_reset_and_hazards.md) -/

/-- TAKING AN INTERRUPT (60_exceptions.md R333, the spec's general knowledge, decision D14): the address of the
instruction not yet executed is pushed, W, STATUS and BSR go to the shadow registers, GIEH or GIEL is cleared, PC goes
to 000008h or 000018h, and nothing else changes. -/
def Obligations.InterruptEntry : Prop :=
  ∀ (s : State) (level : Level), s.sp.toNat < Config.stackDepth →
    ∃ (t : State) (c : Byte), interruptEntry level s = .next t ∧ Pushed s.pc s t ∧
      Bits c (fun j => s.irq.intcon.getLsbD j && decide (j ≠ match level with | .high => 7 | .low => 6)) ∧
      t = { s with
        pc := BitVec.ofNat 21 (match level with | .high => 8 | .low => 24)
        sp := t.sp, stack := t.stack, shadow := ⟨s.w, s.status, s.bsr⟩, irq := { s.irq with intcon := c }
        sleeping := false }

/-- RETFIE 1 UNDOES AN ENTRY: a handler whose first instruction it is gives back the interrupted program's state, but
for the entry of the stack above its top and the shadow registers (60_exceptions.md R333, R336; decisions D14, D15). -/
def Obligations.RetfieUndoesEntry : Prop :=
  ∀ (s t u : State) (level : Level), s.pc.getLsbD 0 = false → s.sleeping = false →
    requestedLevel s = some level → interruptEntry level s = .next t → exec (.retfie true) t = .next u →
    u = { s with stack := u.stack, shadow := u.shadow } ∧ ∀ n, n.toNat ≤ s.sp.toNat → stackEntry n u = stackEntry n s

/-- WHO REQUESTS AND WHICH REQUEST IS TAKEN (60_exceptions.md R331, R332, R335, the spec's general knowledge, decision
D14; log 26). Each of the 18 sources has its flag, its enable and its priority at the bits of the two tables, INT0 being
always high, and is of the peripheral group or not; it requests where flag and enable are 1. With IPEN = 0: high, if
GIE and a source that is not peripheral requests, or GIE, PEIE and one that is. With IPEN = 1: high, if GIEH and a
source of high priority requests; else low, if GIEH, GIEL and one of low priority requests; else none. -/
def Obligations.RequestPriority : Prop :=
  ∀ (s : State),
    let r := s.irq
    let row := fun (i : Source) (flag enable high group : Bool) => i.flag r = flag ∧ i.enable r = enable ∧
      i.highPriority r = high ∧ i.peripheral = group ∧ i.requests r = (flag && enable)
    let first := fun (i : Source) (k : Nat) =>
      row i (r.pir1.getLsbD k) (r.pie1.getLsbD k) (r.ipr1.getLsbD k) true
    let second := fun (i : Source) (k : Nat) =>
      row i (r.pir2.getLsbD k) (r.pie2.getLsbD k) (r.ipr2.getLsbD k) true
    let asked := fun (p : Source → Bool) => ∃ i : Source, i.requests s.irq = true ∧ p i = true
    (row .int0 (r.intcon.getLsbD 1) (r.intcon.getLsbD 4) true false ∧
      row .int1 (r.intcon3.getLsbD 0) (r.intcon3.getLsbD 3) (r.intcon3.getLsbD 6) false ∧
      row .int2 (r.intcon3.getLsbD 1) (r.intcon3.getLsbD 4) (r.intcon3.getLsbD 7) false ∧
      row .tmr0 (r.intcon.getLsbD 2) (r.intcon.getLsbD 5) (r.intcon2.getLsbD 2) false ∧
      row .rbChange (r.intcon.getLsbD 0) (r.intcon.getLsbD 3) (r.intcon2.getLsbD 0) false ∧
      first .psp 7 ∧ first .adc 6 ∧ first .usartRx 5 ∧ first .usartTx 4 ∧ first .mssp 3 ∧ first .ccp1 2 ∧
      first .tmr2 1 ∧ first .tmr1 0 ∧
      second .eeprom 4 ∧ second .busCollision 3 ∧ second .lowVoltage 2 ∧ second .tmr3 1 ∧ second .ccp2 0) ∧
    (s.rcon.getLsbD 7 = false →
      (requestedLevel s = some .high ↔ s.irq.intcon.getLsbD 7 = true ∧
        (asked (fun i => !i.peripheral) ∨ (s.irq.intcon.getLsbD 6 = true ∧ asked (fun i => i.peripheral)))) ∧
      requestedLevel s ≠ some .low) ∧
    (s.rcon.getLsbD 7 = true →
      (requestedLevel s = some .high ↔ s.irq.intcon.getLsbD 7 = true ∧ asked (fun i => i.highPriority s.irq)) ∧
      (requestedLevel s = some .low ↔ s.irq.intcon.getLsbD 7 = true ∧ s.irq.intcon.getLsbD 6 = true ∧
        asked (fun i => !i.highPriority s.irq) ∧ ¬ asked (fun i => i.highPriority s.irq)))

/-- `RaiseFlag(source)` sets the flag of its source and changes no other bit of any interrupt register, neither a flag,
an enable or a priority nor a global enable, RBPU or an edge select (60_exceptions.md R332, the spec's general
knowledge, decision D14); a PORTB change also starts the mismatch that holds RBIF (the model's reading, log 15). Asleep
the core wakes in this step if a source that wakes it now stands, and stays asleep otherwise (R348); then the
instruction after SLEEP is next (`waking`, the model's reading, log 40). Nothing else of the machine changes. That the
event is this step is the model's choice (log 7). -/
def Obligations.RaiseFlagSetsOne : Prop :=
  ∀ (s : State) (src : Source) (rest : List Input), s.inputs = .raiseFlag src :: rest →
    src.canRaise s.sleeping = true →
    ∃ t, step s = .next t ∧
      t = { s with irq := t.irq, inputs := rest, sleeping := t.sleeping, waking := t.waking } ∧
      (t.sleeping = true ↔ s.sleeping = true ∧ ¬ WakingSource t) ∧
      (t.waking = true ↔ s.waking = true ∨ (s.sleeping = true ∧ WakingSource t)) ∧
      (∀ i : Source, i.flag t.irq = (i.flag s.irq || decide (i = src)) ∧ i.enable t.irq = i.enable s.irq ∧
        i.highPriority t.irq = i.highPriority s.irq) ∧
      t.irq = { s.irq with
        intcon := t.irq.intcon, intcon3 := t.irq.intcon3, pir1 := t.irq.pir1, pir2 := t.irq.pir2
        rbMismatch := s.irq.rbMismatch || decide (src = .rbChange) } ∧
      (∀ j, 3 ≤ j → t.irq.intcon.getLsbD j = s.irq.intcon.getLsbD j) ∧
      (∀ j, 2 ≤ j → t.irq.intcon3.getLsbD j = s.irq.intcon3.getLsbD j) ∧
      (∀ j, 5 ≤ j → t.irq.pir2.getLsbD j = s.irq.pir2.getLsbD j)

/-- SLEEP (60_exceptions.md R348, the spec's general knowledge, decision D18). A source with flag and enable 1 (and PEIE,
if peripheral with IPEN = 0) ends the sleep, and nothing else does so without an event: with none a sleeping core stays
as it is for ever. Once awake, by a source or by a time-out, the core executes the instruction after SLEEP before any
entry, whatever stands, and the entry follows it: where one is requested the core is awake after that instruction,
even if it is SLEEP again (the model's reading, log 19). That `waking` holds the wake-up until that instruction, and
that a source standing when SLEEP was executed wakes the core in the same step as it, are the model's reading (log
40). -/
def Obligations.SleepAndWake : Prop :=
  ∀ (s : State) (rest : List Input),
    (s.sleeping = true → WakingSource s → wakeUp s = { s with sleeping := false, waking := true }) ∧
    (s.sleeping = false ∨ ¬ WakingSource s → wakeUp s = s) ∧
    ((s.inputs = [] ∧ rest = []) ∨ s.inputs = .proceed :: rest ∨ s.inputs = .delayInterrupt :: rest →
      (s.sleeping = true → ¬ WakingSource s → step s = .next { s with inputs := rest }) ∧
      ((s.sleeping = true ∧ WakingSource s) ∨ (s.sleeping = false ∧ s.waking = true) →
        ∀ (j : Instr) (t : State), j.wf = true → InstrAtPc j s →
          exec j { s with inputs := rest, sleeping := false, waking := false } = .next t →
          t.waking = false ∧ step s = .next { t with sleeping := t.sleeping && (requestedLevel t).isNone }))

/-- The watchdog's time-out (60_exceptions.md R346, R348, the spec's general knowledge, decision D19): nothing where
the watchdog does not run; awake the whole reset step of cause WDT (its contents are those of ResetCauses), with TO = 0
and PD = 1, also where a source has ended the sleep before it; asleep a wake-up with TO = 0 and PD = 0 that changes
nothing else, the instruction after SLEEP being next (`waking`, the model's reading, log 40); and in each case the
event is used up. That it may come at any boundary is the model's choice (log 17). -/
def Obligations.WatchdogTimeout : Prop :=
  ∀ (s : State) (rest : List Input), s.inputs = .wdtTimeout :: rest →
    let s1 := { s with inputs := rest }
    (Config.wdtEnabled = false → s.wdt.swdten = false → step s = .next (wakeUp s1)) ∧
    (Config.wdtEnabled = true ∨ s.wdt.swdten = true → s.sleeping = false ∨ WakingSource s →
      let t := resetStep .wdt s1
      step s = .next t ∧ t.pc = 0#21 ∧ t.sp = 0#5 ∧ t.w = s.w ∧ t.ram = s.ram ∧ t.inputs = rest ∧
        t.rcon.getLsbD 3 = false ∧ t.rcon.getLsbD 2 = true ∧ t.irq.intcon.getLsbD 7 = false) ∧
    (Config.wdtEnabled = true ∨ s.wdt.swdten = true → s.sleeping = true → ¬ WakingSource s →
      ∃ r : Byte, Bits r (fun j => if j = 3 then false else if j = 2 then false else s.rcon.getLsbD j) ∧
        step s = .next { s1 with sleeping := false, waking := true, rcon := r })

/-- THE RESETS (70_reset_and_hazards.md R370, R372, R373; 10_state.md R64, the spec's general knowledge GK9, decision
D16): each, from whatever state, awake or asleep, loads the registers that R64 gives one value in both its columns, so
that no interrupt is requested, and touches neither program memory nor what lies outside the machine. Every reset but a
power-on keeps W, STATUS, the FSRs, PRODH:PRODL, RAM, the stack entries, the shadow registers, the latches (R373; for a
brown-out, which R370 sends to the power-on column, the model's reading, log 18), STKFUL and STKUNF; MCLR, the watchdog
and RESET keep RBIF too. A power-on clears STKFUL and STKUNF, and no byte of RAM holds a value after it (log 3); of the
registers R64 then marks unknown nothing is said, nor of RBIF after a brown-out (logs 2, 18). That the PORTB mismatch
lasts like RBIF is the model's reading (log 15), and that no wake-up is under way (log 40). RCON records the cause by
the table of R370. -/
def Obligations.ResetCauses : Prop :=
  ∀ (s : State) (cause : ResetCause),
    let t := resetStep cause s
    t = { s with
      pc := 0#21, bsr := 0#4, tblptr := 0#21, tblptr21 := false, tablat := 0#8, pclath := 0#8, pclatu := 0#5, sp := 0#5
      wdt := ⟨0, 0, false⟩, sleeping := false, waking := false
      irq := { intcon := t.irq.intcon, intcon2 := 0xF5#8, intcon3 := 0xC0#8, pir1 := 0#8, pir2 := 0#8, pie1 := 0#8,
               pie2 := 0#8, ipr1 := 0xFF#8, ipr2 := 0x1F#8, rbMismatch := t.irq.rbMismatch }
      rcon := t.rcon, w := t.w, status := t.status, fsr := t.fsr, prodh := t.prodh, prodl := t.prodl, ram := t.ram
      stack := t.stack, stkful := t.stkful, stkunf := t.stkunf, shadow := t.shadow, holding := t.holding } ∧
    t.irq.intcon &&& 0xFE#8 = 0#8 ∧ requestedLevel t = none ∧
    (cause ≠ .powerOn → t.w = s.w ∧ t.status = s.status ∧ t.fsr = s.fsr ∧ t.prodh = s.prodh ∧ t.prodl = s.prodl ∧
      t.ram = s.ram ∧ t.stack = s.stack ∧ t.shadow = s.shadow ∧ t.holding = s.holding ∧
      t.stkful = s.stkful ∧ t.stkunf = s.stkunf) ∧
    (cause ≠ .powerOn → cause ≠ .brownOut → t.irq.intcon.getLsbD 0 = s.irq.intcon.getLsbD 0 ∧
      t.irq.rbMismatch = s.irq.rbMismatch) ∧
    (cause = .powerOn → t.stkful = false ∧ t.stkunf = false ∧ ∀ a, ramByte a t = none) ∧
    Bits t.rcon (fun j => match cause, j with
      | .powerOn, j => j = 4 || j = 3 || j = 2
      | .mclr, 4 => s.rcon.getLsbD 4
      | .mclr, 3 => s.sleeping || s.rcon.getLsbD 3
      | .mclr, 2 => !s.sleeping && s.rcon.getLsbD 2
      | .mclr, 1 => s.rcon.getLsbD 1
      | .mclr, 0 => s.rcon.getLsbD 0
      | .resetInstruction, 3 => s.rcon.getLsbD 3
      | .resetInstruction, 2 => s.rcon.getLsbD 2
      | .resetInstruction, 1 => s.rcon.getLsbD 1
      | .resetInstruction, 0 => s.rcon.getLsbD 0
      | .wdt, 4 => s.rcon.getLsbD 4
      | .wdt, 2 => true
      | .wdt, 1 => s.rcon.getLsbD 1
      | .wdt, 0 => s.rcon.getLsbD 0
      | .brownOut, 4 => true
      | .brownOut, 3 => true
      | .brownOut, 2 => true
      | .brownOut, 1 => s.rcon.getLsbD 1
      | _, _ => false)

/-- WHAT POWER-ON LEAVES (10_state.md R64, the spec's general knowledge GK9, decision D16): the values the table
gives. The registers it marks unknown are left out here; their values are the model's choice (log 2). -/
def Obligations.PowerOnValues : Prop :=
  State.reset.pc = 0#21 ∧ State.reset.bsr = 0#4 ∧ State.reset.tblptr = 0#21 ∧ State.reset.tblptr21 = false ∧
  State.reset.tablat = 0#8 ∧ State.reset.pclath = 0#8 ∧ State.reset.pclatu = 0#5 ∧
  State.reset.sp = 0#5 ∧ State.reset.stkful = false ∧ State.reset.stkunf = false ∧
  State.reset.irq.intcon &&& 0xFE#8 = 0#8 ∧ State.reset.irq.intcon2 = 0xF5#8 ∧ State.reset.irq.intcon3 = 0xC0#8 ∧
  State.reset.irq.pir1 = 0#8 ∧ State.reset.irq.pir2 = 0#8 ∧ State.reset.irq.pie1 = 0#8 ∧ State.reset.irq.pie2 = 0#8 ∧
  State.reset.irq.ipr1 = 0xFF#8 ∧ State.reset.irq.ipr2 = 0x1F#8 ∧ State.reset.rcon = 0x1C#8 ∧
  State.reset.wdt = ⟨0, 0, false⟩ ∧ State.reset.sleeping = false ∧ ∀ a, ramByte a State.reset = none

/-- THE END OF A RUN (70_reset_and_hazards.md R395, decision D37): with no event and no interrupt requested, BRA $
(the word D7FFh) and GOTO $ leave the machine as it is for ever. -/
def Obligations.EndOfRun : Prop :=
  ∀ (s : State), InstrNext s →
    (fetchBytes 2 s.pc s = [0xFF#8, 0xD7#8] → Quiescent s) ∧
    (∀ k : BitVec 20, 2 * k.toNat = s.pc.toNat → InstrAtPc (.goto k) s → Quiescent s)

end
end

