-- ==== Sys2Proof/Laws/Arithmetic.lean ====
section
/-! SUPPORT. The arithmetic of the model said in integers: sums, differences, flags, and the values that go to PC. -/

namespace Sys2Proof.Machine

/-- `add8` is the sum of 00_scope.md R12, its overflow told by the range of the signed sum. -/
theorem add8_eq_sumOf (x y : Byte) (c : Bool) : add8 x y c = sumOf x y c := by
  have hx := x.isLt
  have hy := y.isLt
  have hc : c.toNat ≤ 1 := by cases c <;> decide
  unfold add8 sumOf
  simp only [Prod.mk.injEq, FlagUpdate.mk.injEq, Option.some.injEq, true_and]
  refine ⟨?_, ?_, ?_, ?_, ?_⟩
  · rw [Bool.eq_iff_iff]
    simp [BitVec.msb_eq_toInt]
  · rw [Bool.eq_iff_iff]
    simp only [Bool.and_eq_true, beq_iff_eq, bne_iff_ne, decide_eq_true_eq, BitVec.msb_eq_decide, BitVec.toInt,
      BitVec.toNat_ofNat, ne_eq, decide_eq_decide]
    split <;> split <;> omega
  · rw [Bool.eq_iff_iff]
    simp only [beq_iff_eq, decide_eq_true_eq, ← BitVec.toNat_inj]
    simp
  · rw [Bool.eq_iff_iff]
    simp
    omega
  · rw [Bool.eq_iff_iff]
    simp
    omega

/-- Adding the complement and the carry's negation subtracts (00_scope.md R12). -/
theorem add8_complement (x y : Byte) (c : Bool) : add8 x (y ^^^ 0xFF#8) c = differenceOf x y (!c) := by
  have hx := x.isLt
  have hy := y.isLt
  rw [show (0xFF#8) = BitVec.allOnes 8 from rfl, BitVec.xor_allOnes, add8_eq_sumOf]
  have hn : (~~~ y).toNat = 255 - y.toNat := by simp
  have hc : (!c).toNat = 1 - c.toNat := by cases c <;> rfl
  have hc1 : c.toNat ≤ 1 := by cases c <;> decide
  have hr : BitVec.ofNat 8 (x.toNat + (255 - y.toNat) + c.toNat) =
      BitVec.ofInt 8 ((x.toNat : Int) - y.toNat - (1 - c.toNat : Nat)) := by
    apply BitVec.eq_of_toNat_eq
    rw [BitVec.toNat_ofNat, BitVec.toNat_ofInt]
    omega
  unfold sumOf differenceOf
  simp only [hn, hc, hr, Prod.mk.injEq, FlagUpdate.mk.injEq, Option.some.injEq, true_and]
  refine ⟨?_, ?_, ?_, ?_⟩
  · have hi : (~~~ y).toInt = -1 - y.toInt := by
      simp only [BitVec.toInt, hn]
      split <;> split <;> omega
    rw [Bool.eq_iff_iff]
    simp only [hi, decide_eq_true_eq]
    omega
  · rw [Bool.eq_iff_iff]
    simp only [decide_eq_true_eq]
    omega
  · rw [Bool.eq_iff_iff]
    simp only [decide_eq_true_eq]
    omega
  · rw [Bool.eq_iff_iff]
    simp only [decide_eq_true_eq]
    omega

/-- The flags of a logic result. -/
theorem flagsZN_eq (r : Byte) : flagsZN r = logicFlags r := by
  unfold flagsZN logicFlags
  simp only [BitVec.msb_eq_getLsbD_last, FlagUpdate.mk.injEq, true_and, Option.some.injEq, and_true]
  rw [Bool.eq_iff_iff]
  simp [← BitVec.toNat_inj]

/-- Two fields side by side, as a number. -/
theorem append_eq_ofNat {m n : Nat} (x : BitVec m) (y : BitVec n) :
    (x ++ y) = BitVec.ofNat (m + n) (x.toNat * 2 ^ n + y.toNat) := by
  have hx := x.isLt
  have hy := y.isLt
  apply BitVec.eq_of_toNat_eq
  rw [BitVec.toNat_append, BitVec.toNat_ofNat, ← Nat.shiftLeft_add_eq_or_of_lt hy, Nat.shiftLeft_eq,
    Nat.mod_eq_of_lt]
  rw [Nat.pow_add]
  calc x.toNat * 2 ^ n + y.toNat < x.toNat * 2 ^ n + 2 ^ n := by omega
    _ = (x.toNat + 1) * 2 ^ n := by ring
    _ ≤ 2 ^ m * 2 ^ n := Nat.mul_le_mul_right _ hx

/-- What goes to PC has bit 0 cleared (10_state.md R31). -/
theorem evenPc_toNat (v : ProgAddr) : evenPc v.toNat = evenAddr v := by
  unfold evenPc evenAddr
  apply BitVec.eq_of_toNat_eq
  have hv := v.isLt
  have h : v.toNat &&& (0x1FFFFE#21).toNat = 2 * (v.toNat / 2) := by
    rw [show (0x1FFFFE#21).toNat = 2 * (2 ^ 20 - 1) by rfl]
    apply Nat.eq_of_testBit_eq
    intro i
    rw [Nat.testBit_and]
    cases i with
    | zero => simp
    | succ i =>
      simp only [Nat.testBit_succ]
      rw [Nat.mul_div_cancel_left _ (by decide : 0 < 2), Nat.mul_div_cancel_left _ (by decide : 0 < 2),
        Nat.testBit_two_pow_sub_one]
      by_cases hi : i < 20
      · simp [hi]
      · have hlt : v.toNat / 2 < 2 ^ i := by
          have : 2 ^ 20 ≤ 2 ^ i := Nat.pow_le_pow_right (by decide) (by omega)
          omega
        simp [hi, Nat.testBit_lt_two_pow hlt]
  rw [BitVec.toNat_and, h, BitVec.toNat_ofNat, Nat.mod_eq_of_lt]
  omega

theorem evenAddr_even (v : ProgAddr) : (evenAddr v).getLsbD 0 = false := by
  unfold evenAddr
  simp

theorem evenAddr_of_even {p : ProgAddr} (h : p.getLsbD 0 = false) : evenAddr p = p := by
  rw [← evenPc_toNat]
  unfold evenPc
  have h0 : p.toNat % 2 = 0 := by
    rw [BitVec.getLsbD, Nat.testBit_zero] at h
    simpa using h
  rw [show 2 * (p.toNat / 2) = p.toNat by omega]
  simp

/-- A branch goes to PC + 2 + 2n for the signed n (30_encoding.md R123). -/
theorem branchTarget_eq {k : Nat} (hk : k ≤ 21) (n : BitVec k) (s : State) :
    branchTarget n (s.pc + 2#21) = pcPlus (2 + 2 * n.toInt) s := by
  unfold branchTarget pcPlus
  apply BitVec.eq_of_toNat_eq
  rw [BitVec.toNat_add, BitVec.toNat_shiftLeft, BitVec.toNat_ofInt, BitVec.toNat_add, Nat.shiftLeft_eq]
  have e : n.toInt = (n.signExtend 21).toInt := by rw [BitVec.toInt_signExtend_of_le hk]
  rw [e]
  have e' : (n.signExtend 21).toInt = (n.signExtend 21).toNat ∨
      (n.signExtend 21).toInt = (n.signExtend 21).toNat - 2097152 := by
    rw [BitVec.toInt]
    split <;> simp
  have := (n.signExtend 21).isLt
  have := s.pc.isLt
  simp only [BitVec.toNat_ofNat]
  norm_num
  omega

/-- The byte address of a word address (30_encoding.md R123). -/
theorem wordAddr_eq (k : BitVec 20) : wordAddr k = BitVec.ofNat 21 (2 * k.toNat) := by
  unfold wordAddr
  rw [append_eq_ofNat]
  show BitVec.ofNat 21 _ = _
  congr 1
  simp
  omega

/-- Appending bit vectors, as numbers. -/
theorem toNat_append_add {m n : Nat} (x : BitVec m) (y : BitVec n) : (x ++ y).toNat = x.toNat * 2 ^ n + y.toNat := by
  rw [BitVec.toNat_append, ← Nat.shiftLeft_add_eq_or_of_lt y.isLt, Nat.shiftLeft_eq]

/-- The word of format BYTE_FDA as a number (30_encoding.md R121). -/
theorem encodeFda_word (op : BitVec 6) (f : Byte) (d a : Bool) :
    encodeFda op f d a = [BitVec.ofNat 16 (wordFda op.toNat f d a)] := by
  have hop := op.isLt
  have hf := f.isLt
  simp only [encodeFda, wordFda, List.cons.injEq, and_true]
  apply BitVec.eq_of_toNat_eq
  rw [toNat_append_add, toNat_append_add, toNat_append_add]
  cases d <;> cases a <;> simp <;> omega

/-- The word of format BYTE_FA as a number (30_encoding.md R121). -/
theorem encodeFa_word (op : BitVec 7) (f : Byte) (a : Bool) :
    encodeFa op f a = [BitVec.ofNat 16 (wordFa op.toNat f a)] := by
  have hop := op.isLt
  have hf := f.isLt
  simp only [encodeFa, wordFa, List.cons.injEq, and_true]
  apply BitVec.eq_of_toNat_eq
  rw [toNat_append_add, toNat_append_add]
  cases a <;> simp <;> omega

/-- The word of format BIT as a number (30_encoding.md R121). -/
theorem encodeBit_word (op : BitVec 4) (f : Byte) (b : BitVec 3) (a : Bool) :
    encodeBit op f b a = [BitVec.ofNat 16 (wordBit op.toNat f b a)] := by
  have hop := op.isLt
  have hf := f.isLt
  have hb := b.isLt
  simp only [encodeBit, wordBit, List.cons.injEq, and_true]
  apply BitVec.eq_of_toNat_eq
  rw [toNat_append_add, toNat_append_add, toNat_append_add]
  cases a <;> simp <;> omega

end Sys2Proof.Machine
end

