-- ==== Sys2Proof/Laws/Decode.lean ====
section
/-! SUPPORT. The decoder and the encoder: bytes and words, the fields of a word whose high byte is known, and which rows a
high byte admits. -/

namespace Sys2Proof

/-- The mask of a row meets the two bytes of a word each by itself. -/
theorem append_and (h l : Byte) (m : Word) :
    (h ++ l : BitVec 16) &&& m = ((h &&& m.extractLsb' 8 8) ++ (l &&& m.extractLsb' 0 8) : BitVec 16) := by
  apply BitVec.eq_of_getLsbD_eq
  intro i hi
  rw [BitVec.getLsbD_and, BitVec.getLsbD_append, BitVec.getLsbD_append]
  by_cases h8 : i < 8
  · simp [h8]
  · have hi' : i - 8 < 8 := by omega
    simp only [h8, if_false, BitVec.getLsbD_and, BitVec.getLsbD_extractLsb', hi', decide_true, Bool.true_and]
    rw [show 8 + (i - 8) = i by omega]

/-- Two words of two bytes each are equal exactly where both bytes are. -/
theorem append_inj (h l h' l' : Byte) : (h ++ l : BitVec 16) = (h' ++ l' : BitVec 16) ↔ h = h' ∧ l = l' := by
  constructor
  · intro e
    have key : ∀ a b : Byte, (a ++ b : BitVec 16).toNat = a.toNat * 256 + b.toNat := by
      intro a b
      rw [BitVec.toNat_append, ← Nat.shiftLeft_add_eq_or_of_lt b.isLt, Nat.shiftLeft_eq]
    have e' := congrArg BitVec.toNat e
    rw [key, key] at e'
    have hl := l.isLt
    have hl' := l'.isLt
    exact ⟨BitVec.eq_of_toNat_eq (by omega), BitVec.eq_of_toNat_eq (by omega)⟩
  · rintro ⟨rfl, rfl⟩
    rfl

/-- A row either looks at the high byte of a word alone, or asks for a high byte of 00h, 01h or EEh. -/
theorem rows_masks : ∀ r ∈ rows, r.mask.extractLsb' 0 8 = 0#8 ∨
    (r.mask.extractLsb' 8 8 = 0xFF#8 ∧ (r.pattern.extractLsb' 8 8 = 0x00#8 ∨ r.pattern.extractLsb' 8 8 = 0x01#8 ∨
      r.pattern.extractLsb' 8 8 = 0xEE#8)) := by
  decide

theorem find?_congr_on {α : Type} {p q : α → Bool} {l : List α} (h : ∀ x ∈ l, p x = q x) : l.find? p = l.find? q := by
  induction l with
  | nil => rfl
  | cons a l ih =>
    rw [List.find?_cons, List.find?_cons, h a List.mem_cons_self, ih fun x hx => h x (List.mem_cons_of_mem a hx)]

/-- But for the high bytes 00h, 01h and EEh, the high byte of a word alone says which row it belongs to. -/
theorem rowOf_high (h l : Byte) (h0 : h ≠ 0x00#8) (h1 : h ≠ 0x01#8) (h2 : h ≠ 0xEE#8) :
    rowOf (h ++ l : BitVec 16) = rowOf (h ++ 0#8 : BitVec 16) := by
  unfold rowOf
  apply find?_congr_on
  intro r hr
  unfold Row.hits
  rw [append_and, append_and]
  rcases rows_masks r hr with e | ⟨e, e'⟩
  · rw [e]
    simp
  · have hp : r.pattern = (r.pattern.extractLsb' 8 8 ++ r.pattern.extractLsb' 0 8 : BitVec 16) := by
      apply BitVec.eq_of_getLsbD_eq
      intro i hi
      rw [BitVec.getLsbD_append]
      by_cases h8 : i < 8
      · simp [h8]
      · have hi' : i - 8 < 8 := by omega
        simp only [h8, if_false, BitVec.getLsbD_extractLsb', hi', decide_true, Bool.true_and]
        rw [show 8 + (i - 8) = i by omega]
    have hn : h ≠ r.pattern.extractLsb' 8 8 := by
      rcases e' with e' | e' | e' <;> rw [e'] <;> assumption
    rw [e, show (0xFF#8) = BitVec.allOnes 8 from rfl, BitVec.and_allOnes]
    have no : ∀ x : Byte, ((h ++ x : BitVec 16) == r.pattern) = false := by
      intro x
      rw [beq_eq_false_iff_ne, hp]
      intro e
      exact hn ((append_inj _ _ _ _).1 e).1
    rw [no, no]

/-- But for EEh, the high byte of a word alone says whether it starts a two-word instruction. -/
theorem isTwoWord_high (h l : Byte) (h2 : h ≠ 0xEE#8) :
    isTwoWord (h ++ l : BitVec 16) = isTwoWord (h ++ 0#8 : BitVec 16) := by
  unfold isTwoWord
  simp only [append_and]
  have e : ∀ m : Word, m.extractLsb' 0 8 = 0#8 → (l &&& m.extractLsb' 0 8) = (0#8 &&& m.extractLsb' 0 8) := by
    intro m hm
    rw [hm]
    simp
  have no : ∀ x : Byte, (((h &&& BitVec.extractLsb' 8 8 0xFFC0#16) ++ x : BitVec 16) == 0xEE00#16) = false := by
    intro x
    rw [beq_eq_false_iff_ne]
    intro hx
    have := ((append_inj (h &&& BitVec.extractLsb' 8 8 0xFFC0#16) x 0xEE#8 0x00#8).1 hx).1
    rw [show BitVec.extractLsb' 8 8 0xFFC0#16 = BitVec.allOnes 8 from rfl, BitVec.and_allOnes] at this
    exact h2 this
  rw [e _ rfl, e _ rfl, e _ rfl, no, no]

/-- The two bytes of a word give it back. -/
@[simp] theorem wordOf_bytes (w : Word) : wordOf (w.extractLsb' 0 8) (w.extractLsb' 8 8) = w := by
  unfold wordOf
  apply BitVec.eq_of_getLsbD_eq
  intro i hi
  rw [BitVec.getLsbD_append]
  by_cases h8 : i < 8
  · simp [h8]
  · have hi' : i - 8 < 8 := by omega
    simp only [h8, if_false, BitVec.getLsbD_extractLsb', hi', decide_true, Bool.true_and]
    rw [show 8 + (i - 8) = i by omega]

/-- Decoding a list that starts with the bytes of a word that is an instruction by itself. -/
theorem decode_one (w : Word) (rest : List Byte) (h : isTwoWord w = false) :
    decode (bytesOfWord w ++ rest) = (decodeWords w 0#16).map fun i => (i, rest) := by
  simp [bytesOfWord, decode, h]

/-- Decoding a list that starts with the bytes of the two words of an instruction. -/
theorem decode_two (w w2 : Word) (rest : List Byte) (h : isTwoWord w = true) :
    decode (bytesOfWord w ++ bytesOfWord w2 ++ rest) = (decodeWords w w2).map fun i => (i, rest) := by
  simp [bytesOfWord, decode, h]

/-- The low byte of a word: f, k or n. -/
@[simp] theorem fieldF_append (h l : Byte) : fieldF (h ++ l : BitVec 16) = l := by
  unfold fieldF
  apply BitVec.eq_of_getLsbD_eq
  intro i hi
  rw [BitVec.getLsbD_extractLsb', BitVec.getLsbD_append]
  simp [hi]

@[simp] theorem fieldK_append (h l : Byte) : fieldK (h ++ l : BitVec 16) = l := fieldF_append h l

/-- A bit of the high byte of a word: a, d or s. -/
theorem bitAt_append (i : Nat) (h l : Byte) : bitAt (8 + i) (h ++ l : BitVec 16) = h.getLsbD i := by
  unfold bitAt
  rw [BitVec.getLsbD_append, if_neg (by omega), show 8 + i - 8 = i by omega]

/-- The bit number: bits 3:1 of the high byte. -/
theorem fieldB_append (h l : Byte) : fieldB (h ++ l : BitVec 16) = h.extractLsb' 1 3 := by
  unfold fieldB
  apply BitVec.eq_of_getLsbD_eq
  intro i hi
  rw [BitVec.getLsbD_extractLsb', BitVec.getLsbD_extractLsb', BitVec.getLsbD_append, if_neg (by omega),
    show 9 + i - 8 = 1 + i by omega]

/-- An instruction has one word or two. -/
theorem encode_length (i : Instr) : (encode i).length = 1 ∨ (encode i).length = 2 := by
  cases i <;> first | exact .inl rfl | exact .inr rfl

/-- A word is two bytes. -/
theorem encodeBytes_length (i : Instr) : (encodeBytes i).length = 2 * (encode i).length := by
  unfold encodeBytes
  induction encode i with
  | nil => rfl
  | cons w ws ih =>
    rw [List.flatMap_cons, List.length_append, ih, List.length_cons]
    show 2 + 2 * ws.length = 2 * (ws.length + 1)
    omega

end Sys2Proof
end

