-- ==== Sys2Proof/Laws/State.lean ====
section
/-! SUPPORT. One lemma per field per update of State, each true by rfl: a later proof rewrites with them and never
unfolds an update. -/

namespace Sys2Proof.Machine

variable (s : State)

@[simp] theorem State.setW_w (x : Byte) : (s.setW x).w = x := rfl
@[simp] theorem State.setW_status (x : Byte) : (s.setW x).status = s.status := rfl
@[simp] theorem State.setW_bsr (x : Byte) : (s.setW x).bsr = s.bsr := rfl
@[simp] theorem State.setW_fsr (x : Byte) : (s.setW x).fsr = s.fsr := rfl
@[simp] theorem State.setW_prodh (x : Byte) : (s.setW x).prodh = s.prodh := rfl
@[simp] theorem State.setW_prodl (x : Byte) : (s.setW x).prodl = s.prodl := rfl
@[simp] theorem State.setW_tblptr (x : Byte) : (s.setW x).tblptr = s.tblptr := rfl
@[simp] theorem State.setW_tblptr21 (x : Byte) : (s.setW x).tblptr21 = s.tblptr21 := rfl
@[simp] theorem State.setW_tablat (x : Byte) : (s.setW x).tablat = s.tablat := rfl
@[simp] theorem State.setW_pc (x : Byte) : (s.setW x).pc = s.pc := rfl
@[simp] theorem State.setW_pclath (x : Byte) : (s.setW x).pclath = s.pclath := rfl
@[simp] theorem State.setW_pclatu (x : Byte) : (s.setW x).pclatu = s.pclatu := rfl
@[simp] theorem State.setW_stack (x : Byte) : (s.setW x).stack = s.stack := rfl
@[simp] theorem State.setW_sp (x : Byte) : (s.setW x).sp = s.sp := rfl
@[simp] theorem State.setW_stkful (x : Byte) : (s.setW x).stkful = s.stkful := rfl
@[simp] theorem State.setW_stkunf (x : Byte) : (s.setW x).stkunf = s.stkunf := rfl
@[simp] theorem State.setW_shadow (x : Byte) : (s.setW x).shadow = s.shadow := rfl
@[simp] theorem State.setW_irq (x : Byte) : (s.setW x).irq = s.irq := rfl
@[simp] theorem State.setW_rcon (x : Byte) : (s.setW x).rcon = s.rcon := rfl
@[simp] theorem State.setW_wdt (x : Byte) : (s.setW x).wdt = s.wdt := rfl
@[simp] theorem State.setW_sleeping (x : Byte) : (s.setW x).sleeping = s.sleeping := rfl
@[simp] theorem State.setW_waking (x : Byte) : (s.setW x).waking = s.waking := rfl
@[simp] theorem State.setW_ram (x : Byte) : (s.setW x).ram = s.ram := rfl
@[simp] theorem State.setW_prog (x : Byte) : (s.setW x).prog = s.prog := rfl
@[simp] theorem State.setW_holding (x : Byte) : (s.setW x).holding = s.holding := rfl
@[simp] theorem State.setW_outputs (x : Byte) : (s.setW x).outputs = s.outputs := rfl
@[simp] theorem State.setW_draws (x : Byte) : (s.setW x).draws = s.draws := rfl
@[simp] theorem State.setW_inputs (x : Byte) : (s.setW x).inputs = s.inputs := rfl
@[simp] theorem State.setW_setW (x y : Byte) : (s.setW x).setW y = s.setW y := rfl

@[simp] theorem State.setStatus_w (x : Flags) : (s.setStatus x).w = s.w := rfl
@[simp] theorem State.setStatus_status (x : Flags) : (s.setStatus x).status = x := rfl
@[simp] theorem State.setStatus_bsr (x : Flags) : (s.setStatus x).bsr = s.bsr := rfl
@[simp] theorem State.setStatus_fsr (x : Flags) : (s.setStatus x).fsr = s.fsr := rfl
@[simp] theorem State.setStatus_prodh (x : Flags) : (s.setStatus x).prodh = s.prodh := rfl
@[simp] theorem State.setStatus_prodl (x : Flags) : (s.setStatus x).prodl = s.prodl := rfl
@[simp] theorem State.setStatus_tblptr (x : Flags) : (s.setStatus x).tblptr = s.tblptr := rfl
@[simp] theorem State.setStatus_tblptr21 (x : Flags) : (s.setStatus x).tblptr21 = s.tblptr21 := rfl
@[simp] theorem State.setStatus_tablat (x : Flags) : (s.setStatus x).tablat = s.tablat := rfl
@[simp] theorem State.setStatus_pc (x : Flags) : (s.setStatus x).pc = s.pc := rfl
@[simp] theorem State.setStatus_pclath (x : Flags) : (s.setStatus x).pclath = s.pclath := rfl
@[simp] theorem State.setStatus_pclatu (x : Flags) : (s.setStatus x).pclatu = s.pclatu := rfl
@[simp] theorem State.setStatus_stack (x : Flags) : (s.setStatus x).stack = s.stack := rfl
@[simp] theorem State.setStatus_sp (x : Flags) : (s.setStatus x).sp = s.sp := rfl
@[simp] theorem State.setStatus_stkful (x : Flags) : (s.setStatus x).stkful = s.stkful := rfl
@[simp] theorem State.setStatus_stkunf (x : Flags) : (s.setStatus x).stkunf = s.stkunf := rfl
@[simp] theorem State.setStatus_shadow (x : Flags) : (s.setStatus x).shadow = s.shadow := rfl
@[simp] theorem State.setStatus_irq (x : Flags) : (s.setStatus x).irq = s.irq := rfl
@[simp] theorem State.setStatus_rcon (x : Flags) : (s.setStatus x).rcon = s.rcon := rfl
@[simp] theorem State.setStatus_wdt (x : Flags) : (s.setStatus x).wdt = s.wdt := rfl
@[simp] theorem State.setStatus_sleeping (x : Flags) : (s.setStatus x).sleeping = s.sleeping := rfl
@[simp] theorem State.setStatus_waking (x : Flags) : (s.setStatus x).waking = s.waking := rfl
@[simp] theorem State.setStatus_ram (x : Flags) : (s.setStatus x).ram = s.ram := rfl
@[simp] theorem State.setStatus_prog (x : Flags) : (s.setStatus x).prog = s.prog := rfl
@[simp] theorem State.setStatus_holding (x : Flags) : (s.setStatus x).holding = s.holding := rfl
@[simp] theorem State.setStatus_outputs (x : Flags) : (s.setStatus x).outputs = s.outputs := rfl
@[simp] theorem State.setStatus_draws (x : Flags) : (s.setStatus x).draws = s.draws := rfl
@[simp] theorem State.setStatus_inputs (x : Flags) : (s.setStatus x).inputs = s.inputs := rfl
@[simp] theorem State.setStatus_setStatus (x y : Flags) : (s.setStatus x).setStatus y = s.setStatus y := rfl

@[simp] theorem State.setBsr_w (x : BitVec 4) : (s.setBsr x).w = s.w := rfl
@[simp] theorem State.setBsr_status (x : BitVec 4) : (s.setBsr x).status = s.status := rfl
@[simp] theorem State.setBsr_bsr (x : BitVec 4) : (s.setBsr x).bsr = x := rfl
@[simp] theorem State.setBsr_fsr (x : BitVec 4) : (s.setBsr x).fsr = s.fsr := rfl
@[simp] theorem State.setBsr_prodh (x : BitVec 4) : (s.setBsr x).prodh = s.prodh := rfl
@[simp] theorem State.setBsr_prodl (x : BitVec 4) : (s.setBsr x).prodl = s.prodl := rfl
@[simp] theorem State.setBsr_tblptr (x : BitVec 4) : (s.setBsr x).tblptr = s.tblptr := rfl
@[simp] theorem State.setBsr_tblptr21 (x : BitVec 4) : (s.setBsr x).tblptr21 = s.tblptr21 := rfl
@[simp] theorem State.setBsr_tablat (x : BitVec 4) : (s.setBsr x).tablat = s.tablat := rfl
@[simp] theorem State.setBsr_pc (x : BitVec 4) : (s.setBsr x).pc = s.pc := rfl
@[simp] theorem State.setBsr_pclath (x : BitVec 4) : (s.setBsr x).pclath = s.pclath := rfl
@[simp] theorem State.setBsr_pclatu (x : BitVec 4) : (s.setBsr x).pclatu = s.pclatu := rfl
@[simp] theorem State.setBsr_stack (x : BitVec 4) : (s.setBsr x).stack = s.stack := rfl
@[simp] theorem State.setBsr_sp (x : BitVec 4) : (s.setBsr x).sp = s.sp := rfl
@[simp] theorem State.setBsr_stkful (x : BitVec 4) : (s.setBsr x).stkful = s.stkful := rfl
@[simp] theorem State.setBsr_stkunf (x : BitVec 4) : (s.setBsr x).stkunf = s.stkunf := rfl
@[simp] theorem State.setBsr_shadow (x : BitVec 4) : (s.setBsr x).shadow = s.shadow := rfl
@[simp] theorem State.setBsr_irq (x : BitVec 4) : (s.setBsr x).irq = s.irq := rfl
@[simp] theorem State.setBsr_rcon (x : BitVec 4) : (s.setBsr x).rcon = s.rcon := rfl
@[simp] theorem State.setBsr_wdt (x : BitVec 4) : (s.setBsr x).wdt = s.wdt := rfl
@[simp] theorem State.setBsr_sleeping (x : BitVec 4) : (s.setBsr x).sleeping = s.sleeping := rfl
@[simp] theorem State.setBsr_waking (x : BitVec 4) : (s.setBsr x).waking = s.waking := rfl
@[simp] theorem State.setBsr_ram (x : BitVec 4) : (s.setBsr x).ram = s.ram := rfl
@[simp] theorem State.setBsr_prog (x : BitVec 4) : (s.setBsr x).prog = s.prog := rfl
@[simp] theorem State.setBsr_holding (x : BitVec 4) : (s.setBsr x).holding = s.holding := rfl
@[simp] theorem State.setBsr_outputs (x : BitVec 4) : (s.setBsr x).outputs = s.outputs := rfl
@[simp] theorem State.setBsr_draws (x : BitVec 4) : (s.setBsr x).draws = s.draws := rfl
@[simp] theorem State.setBsr_inputs (x : BitVec 4) : (s.setBsr x).inputs = s.inputs := rfl
@[simp] theorem State.setBsr_setBsr (x y : BitVec 4) : (s.setBsr x).setBsr y = s.setBsr y := rfl

@[simp] theorem State.setFsr_w (x : Fsrs) : (s.setFsr x).w = s.w := rfl
@[simp] theorem State.setFsr_status (x : Fsrs) : (s.setFsr x).status = s.status := rfl
@[simp] theorem State.setFsr_bsr (x : Fsrs) : (s.setFsr x).bsr = s.bsr := rfl
@[simp] theorem State.setFsr_fsr (x : Fsrs) : (s.setFsr x).fsr = x := rfl
@[simp] theorem State.setFsr_prodh (x : Fsrs) : (s.setFsr x).prodh = s.prodh := rfl
@[simp] theorem State.setFsr_prodl (x : Fsrs) : (s.setFsr x).prodl = s.prodl := rfl
@[simp] theorem State.setFsr_tblptr (x : Fsrs) : (s.setFsr x).tblptr = s.tblptr := rfl
@[simp] theorem State.setFsr_tblptr21 (x : Fsrs) : (s.setFsr x).tblptr21 = s.tblptr21 := rfl
@[simp] theorem State.setFsr_tablat (x : Fsrs) : (s.setFsr x).tablat = s.tablat := rfl
@[simp] theorem State.setFsr_pc (x : Fsrs) : (s.setFsr x).pc = s.pc := rfl
@[simp] theorem State.setFsr_pclath (x : Fsrs) : (s.setFsr x).pclath = s.pclath := rfl
@[simp] theorem State.setFsr_pclatu (x : Fsrs) : (s.setFsr x).pclatu = s.pclatu := rfl
@[simp] theorem State.setFsr_stack (x : Fsrs) : (s.setFsr x).stack = s.stack := rfl
@[simp] theorem State.setFsr_sp (x : Fsrs) : (s.setFsr x).sp = s.sp := rfl
@[simp] theorem State.setFsr_stkful (x : Fsrs) : (s.setFsr x).stkful = s.stkful := rfl
@[simp] theorem State.setFsr_stkunf (x : Fsrs) : (s.setFsr x).stkunf = s.stkunf := rfl
@[simp] theorem State.setFsr_shadow (x : Fsrs) : (s.setFsr x).shadow = s.shadow := rfl
@[simp] theorem State.setFsr_irq (x : Fsrs) : (s.setFsr x).irq = s.irq := rfl
@[simp] theorem State.setFsr_rcon (x : Fsrs) : (s.setFsr x).rcon = s.rcon := rfl
@[simp] theorem State.setFsr_wdt (x : Fsrs) : (s.setFsr x).wdt = s.wdt := rfl
@[simp] theorem State.setFsr_sleeping (x : Fsrs) : (s.setFsr x).sleeping = s.sleeping := rfl
@[simp] theorem State.setFsr_waking (x : Fsrs) : (s.setFsr x).waking = s.waking := rfl
@[simp] theorem State.setFsr_ram (x : Fsrs) : (s.setFsr x).ram = s.ram := rfl
@[simp] theorem State.setFsr_prog (x : Fsrs) : (s.setFsr x).prog = s.prog := rfl
@[simp] theorem State.setFsr_holding (x : Fsrs) : (s.setFsr x).holding = s.holding := rfl
@[simp] theorem State.setFsr_outputs (x : Fsrs) : (s.setFsr x).outputs = s.outputs := rfl
@[simp] theorem State.setFsr_draws (x : Fsrs) : (s.setFsr x).draws = s.draws := rfl
@[simp] theorem State.setFsr_inputs (x : Fsrs) : (s.setFsr x).inputs = s.inputs := rfl
@[simp] theorem State.setFsr_setFsr (x y : Fsrs) : (s.setFsr x).setFsr y = s.setFsr y := rfl

@[simp] theorem State.setProdh_w (x : Byte) : (s.setProdh x).w = s.w := rfl
@[simp] theorem State.setProdh_status (x : Byte) : (s.setProdh x).status = s.status := rfl
@[simp] theorem State.setProdh_bsr (x : Byte) : (s.setProdh x).bsr = s.bsr := rfl
@[simp] theorem State.setProdh_fsr (x : Byte) : (s.setProdh x).fsr = s.fsr := rfl
@[simp] theorem State.setProdh_prodh (x : Byte) : (s.setProdh x).prodh = x := rfl
@[simp] theorem State.setProdh_prodl (x : Byte) : (s.setProdh x).prodl = s.prodl := rfl
@[simp] theorem State.setProdh_tblptr (x : Byte) : (s.setProdh x).tblptr = s.tblptr := rfl
@[simp] theorem State.setProdh_tblptr21 (x : Byte) : (s.setProdh x).tblptr21 = s.tblptr21 := rfl
@[simp] theorem State.setProdh_tablat (x : Byte) : (s.setProdh x).tablat = s.tablat := rfl
@[simp] theorem State.setProdh_pc (x : Byte) : (s.setProdh x).pc = s.pc := rfl
@[simp] theorem State.setProdh_pclath (x : Byte) : (s.setProdh x).pclath = s.pclath := rfl
@[simp] theorem State.setProdh_pclatu (x : Byte) : (s.setProdh x).pclatu = s.pclatu := rfl
@[simp] theorem State.setProdh_stack (x : Byte) : (s.setProdh x).stack = s.stack := rfl
@[simp] theorem State.setProdh_sp (x : Byte) : (s.setProdh x).sp = s.sp := rfl
@[simp] theorem State.setProdh_stkful (x : Byte) : (s.setProdh x).stkful = s.stkful := rfl
@[simp] theorem State.setProdh_stkunf (x : Byte) : (s.setProdh x).stkunf = s.stkunf := rfl
@[simp] theorem State.setProdh_shadow (x : Byte) : (s.setProdh x).shadow = s.shadow := rfl
@[simp] theorem State.setProdh_irq (x : Byte) : (s.setProdh x).irq = s.irq := rfl
@[simp] theorem State.setProdh_rcon (x : Byte) : (s.setProdh x).rcon = s.rcon := rfl
@[simp] theorem State.setProdh_wdt (x : Byte) : (s.setProdh x).wdt = s.wdt := rfl
@[simp] theorem State.setProdh_sleeping (x : Byte) : (s.setProdh x).sleeping = s.sleeping := rfl
@[simp] theorem State.setProdh_waking (x : Byte) : (s.setProdh x).waking = s.waking := rfl
@[simp] theorem State.setProdh_ram (x : Byte) : (s.setProdh x).ram = s.ram := rfl
@[simp] theorem State.setProdh_prog (x : Byte) : (s.setProdh x).prog = s.prog := rfl
@[simp] theorem State.setProdh_holding (x : Byte) : (s.setProdh x).holding = s.holding := rfl
@[simp] theorem State.setProdh_outputs (x : Byte) : (s.setProdh x).outputs = s.outputs := rfl
@[simp] theorem State.setProdh_draws (x : Byte) : (s.setProdh x).draws = s.draws := rfl
@[simp] theorem State.setProdh_inputs (x : Byte) : (s.setProdh x).inputs = s.inputs := rfl
@[simp] theorem State.setProdh_setProdh (x y : Byte) : (s.setProdh x).setProdh y = s.setProdh y := rfl

@[simp] theorem State.setProdl_w (x : Byte) : (s.setProdl x).w = s.w := rfl
@[simp] theorem State.setProdl_status (x : Byte) : (s.setProdl x).status = s.status := rfl
@[simp] theorem State.setProdl_bsr (x : Byte) : (s.setProdl x).bsr = s.bsr := rfl
@[simp] theorem State.setProdl_fsr (x : Byte) : (s.setProdl x).fsr = s.fsr := rfl
@[simp] theorem State.setProdl_prodh (x : Byte) : (s.setProdl x).prodh = s.prodh := rfl
@[simp] theorem State.setProdl_prodl (x : Byte) : (s.setProdl x).prodl = x := rfl
@[simp] theorem State.setProdl_tblptr (x : Byte) : (s.setProdl x).tblptr = s.tblptr := rfl
@[simp] theorem State.setProdl_tblptr21 (x : Byte) : (s.setProdl x).tblptr21 = s.tblptr21 := rfl
@[simp] theorem State.setProdl_tablat (x : Byte) : (s.setProdl x).tablat = s.tablat := rfl
@[simp] theorem State.setProdl_pc (x : Byte) : (s.setProdl x).pc = s.pc := rfl
@[simp] theorem State.setProdl_pclath (x : Byte) : (s.setProdl x).pclath = s.pclath := rfl
@[simp] theorem State.setProdl_pclatu (x : Byte) : (s.setProdl x).pclatu = s.pclatu := rfl
@[simp] theorem State.setProdl_stack (x : Byte) : (s.setProdl x).stack = s.stack := rfl
@[simp] theorem State.setProdl_sp (x : Byte) : (s.setProdl x).sp = s.sp := rfl
@[simp] theorem State.setProdl_stkful (x : Byte) : (s.setProdl x).stkful = s.stkful := rfl
@[simp] theorem State.setProdl_stkunf (x : Byte) : (s.setProdl x).stkunf = s.stkunf := rfl
@[simp] theorem State.setProdl_shadow (x : Byte) : (s.setProdl x).shadow = s.shadow := rfl
@[simp] theorem State.setProdl_irq (x : Byte) : (s.setProdl x).irq = s.irq := rfl
@[simp] theorem State.setProdl_rcon (x : Byte) : (s.setProdl x).rcon = s.rcon := rfl
@[simp] theorem State.setProdl_wdt (x : Byte) : (s.setProdl x).wdt = s.wdt := rfl
@[simp] theorem State.setProdl_sleeping (x : Byte) : (s.setProdl x).sleeping = s.sleeping := rfl
@[simp] theorem State.setProdl_waking (x : Byte) : (s.setProdl x).waking = s.waking := rfl
@[simp] theorem State.setProdl_ram (x : Byte) : (s.setProdl x).ram = s.ram := rfl
@[simp] theorem State.setProdl_prog (x : Byte) : (s.setProdl x).prog = s.prog := rfl
@[simp] theorem State.setProdl_holding (x : Byte) : (s.setProdl x).holding = s.holding := rfl
@[simp] theorem State.setProdl_outputs (x : Byte) : (s.setProdl x).outputs = s.outputs := rfl
@[simp] theorem State.setProdl_draws (x : Byte) : (s.setProdl x).draws = s.draws := rfl
@[simp] theorem State.setProdl_inputs (x : Byte) : (s.setProdl x).inputs = s.inputs := rfl
@[simp] theorem State.setProdl_setProdl (x y : Byte) : (s.setProdl x).setProdl y = s.setProdl y := rfl

@[simp] theorem State.setTblptr_w (x : ProgAddr) : (s.setTblptr x).w = s.w := rfl
@[simp] theorem State.setTblptr_status (x : ProgAddr) : (s.setTblptr x).status = s.status := rfl
@[simp] theorem State.setTblptr_bsr (x : ProgAddr) : (s.setTblptr x).bsr = s.bsr := rfl
@[simp] theorem State.setTblptr_fsr (x : ProgAddr) : (s.setTblptr x).fsr = s.fsr := rfl
@[simp] theorem State.setTblptr_prodh (x : ProgAddr) : (s.setTblptr x).prodh = s.prodh := rfl
@[simp] theorem State.setTblptr_prodl (x : ProgAddr) : (s.setTblptr x).prodl = s.prodl := rfl
@[simp] theorem State.setTblptr_tblptr (x : ProgAddr) : (s.setTblptr x).tblptr = x := rfl
@[simp] theorem State.setTblptr_tblptr21 (x : ProgAddr) : (s.setTblptr x).tblptr21 = s.tblptr21 := rfl
@[simp] theorem State.setTblptr_tablat (x : ProgAddr) : (s.setTblptr x).tablat = s.tablat := rfl
@[simp] theorem State.setTblptr_pc (x : ProgAddr) : (s.setTblptr x).pc = s.pc := rfl
@[simp] theorem State.setTblptr_pclath (x : ProgAddr) : (s.setTblptr x).pclath = s.pclath := rfl
@[simp] theorem State.setTblptr_pclatu (x : ProgAddr) : (s.setTblptr x).pclatu = s.pclatu := rfl
@[simp] theorem State.setTblptr_stack (x : ProgAddr) : (s.setTblptr x).stack = s.stack := rfl
@[simp] theorem State.setTblptr_sp (x : ProgAddr) : (s.setTblptr x).sp = s.sp := rfl
@[simp] theorem State.setTblptr_stkful (x : ProgAddr) : (s.setTblptr x).stkful = s.stkful := rfl
@[simp] theorem State.setTblptr_stkunf (x : ProgAddr) : (s.setTblptr x).stkunf = s.stkunf := rfl
@[simp] theorem State.setTblptr_shadow (x : ProgAddr) : (s.setTblptr x).shadow = s.shadow := rfl
@[simp] theorem State.setTblptr_irq (x : ProgAddr) : (s.setTblptr x).irq = s.irq := rfl
@[simp] theorem State.setTblptr_rcon (x : ProgAddr) : (s.setTblptr x).rcon = s.rcon := rfl
@[simp] theorem State.setTblptr_wdt (x : ProgAddr) : (s.setTblptr x).wdt = s.wdt := rfl
@[simp] theorem State.setTblptr_sleeping (x : ProgAddr) : (s.setTblptr x).sleeping = s.sleeping := rfl
@[simp] theorem State.setTblptr_waking (x : ProgAddr) : (s.setTblptr x).waking = s.waking := rfl
@[simp] theorem State.setTblptr_ram (x : ProgAddr) : (s.setTblptr x).ram = s.ram := rfl
@[simp] theorem State.setTblptr_prog (x : ProgAddr) : (s.setTblptr x).prog = s.prog := rfl
@[simp] theorem State.setTblptr_holding (x : ProgAddr) : (s.setTblptr x).holding = s.holding := rfl
@[simp] theorem State.setTblptr_outputs (x : ProgAddr) : (s.setTblptr x).outputs = s.outputs := rfl
@[simp] theorem State.setTblptr_draws (x : ProgAddr) : (s.setTblptr x).draws = s.draws := rfl
@[simp] theorem State.setTblptr_inputs (x : ProgAddr) : (s.setTblptr x).inputs = s.inputs := rfl
@[simp] theorem State.setTblptr_setTblptr (x y : ProgAddr) : (s.setTblptr x).setTblptr y = s.setTblptr y := rfl

@[simp] theorem State.setTblptr21_w (x : Bool) : (s.setTblptr21 x).w = s.w := rfl
@[simp] theorem State.setTblptr21_status (x : Bool) : (s.setTblptr21 x).status = s.status := rfl
@[simp] theorem State.setTblptr21_bsr (x : Bool) : (s.setTblptr21 x).bsr = s.bsr := rfl
@[simp] theorem State.setTblptr21_fsr (x : Bool) : (s.setTblptr21 x).fsr = s.fsr := rfl
@[simp] theorem State.setTblptr21_prodh (x : Bool) : (s.setTblptr21 x).prodh = s.prodh := rfl
@[simp] theorem State.setTblptr21_prodl (x : Bool) : (s.setTblptr21 x).prodl = s.prodl := rfl
@[simp] theorem State.setTblptr21_tblptr (x : Bool) : (s.setTblptr21 x).tblptr = s.tblptr := rfl
@[simp] theorem State.setTblptr21_tblptr21 (x : Bool) : (s.setTblptr21 x).tblptr21 = x := rfl
@[simp] theorem State.setTblptr21_tablat (x : Bool) : (s.setTblptr21 x).tablat = s.tablat := rfl
@[simp] theorem State.setTblptr21_pc (x : Bool) : (s.setTblptr21 x).pc = s.pc := rfl
@[simp] theorem State.setTblptr21_pclath (x : Bool) : (s.setTblptr21 x).pclath = s.pclath := rfl
@[simp] theorem State.setTblptr21_pclatu (x : Bool) : (s.setTblptr21 x).pclatu = s.pclatu := rfl
@[simp] theorem State.setTblptr21_stack (x : Bool) : (s.setTblptr21 x).stack = s.stack := rfl
@[simp] theorem State.setTblptr21_sp (x : Bool) : (s.setTblptr21 x).sp = s.sp := rfl
@[simp] theorem State.setTblptr21_stkful (x : Bool) : (s.setTblptr21 x).stkful = s.stkful := rfl
@[simp] theorem State.setTblptr21_stkunf (x : Bool) : (s.setTblptr21 x).stkunf = s.stkunf := rfl
@[simp] theorem State.setTblptr21_shadow (x : Bool) : (s.setTblptr21 x).shadow = s.shadow := rfl
@[simp] theorem State.setTblptr21_irq (x : Bool) : (s.setTblptr21 x).irq = s.irq := rfl
@[simp] theorem State.setTblptr21_rcon (x : Bool) : (s.setTblptr21 x).rcon = s.rcon := rfl
@[simp] theorem State.setTblptr21_wdt (x : Bool) : (s.setTblptr21 x).wdt = s.wdt := rfl
@[simp] theorem State.setTblptr21_sleeping (x : Bool) : (s.setTblptr21 x).sleeping = s.sleeping := rfl
@[simp] theorem State.setTblptr21_waking (x : Bool) : (s.setTblptr21 x).waking = s.waking := rfl
@[simp] theorem State.setTblptr21_ram (x : Bool) : (s.setTblptr21 x).ram = s.ram := rfl
@[simp] theorem State.setTblptr21_prog (x : Bool) : (s.setTblptr21 x).prog = s.prog := rfl
@[simp] theorem State.setTblptr21_holding (x : Bool) : (s.setTblptr21 x).holding = s.holding := rfl
@[simp] theorem State.setTblptr21_outputs (x : Bool) : (s.setTblptr21 x).outputs = s.outputs := rfl
@[simp] theorem State.setTblptr21_draws (x : Bool) : (s.setTblptr21 x).draws = s.draws := rfl
@[simp] theorem State.setTblptr21_inputs (x : Bool) : (s.setTblptr21 x).inputs = s.inputs := rfl
@[simp] theorem State.setTblptr21_setTblptr21 (x y : Bool) : (s.setTblptr21 x).setTblptr21 y = s.setTblptr21 y := rfl

@[simp] theorem State.setTablat_w (x : Byte) : (s.setTablat x).w = s.w := rfl
@[simp] theorem State.setTablat_status (x : Byte) : (s.setTablat x).status = s.status := rfl
@[simp] theorem State.setTablat_bsr (x : Byte) : (s.setTablat x).bsr = s.bsr := rfl
@[simp] theorem State.setTablat_fsr (x : Byte) : (s.setTablat x).fsr = s.fsr := rfl
@[simp] theorem State.setTablat_prodh (x : Byte) : (s.setTablat x).prodh = s.prodh := rfl
@[simp] theorem State.setTablat_prodl (x : Byte) : (s.setTablat x).prodl = s.prodl := rfl
@[simp] theorem State.setTablat_tblptr (x : Byte) : (s.setTablat x).tblptr = s.tblptr := rfl
@[simp] theorem State.setTablat_tblptr21 (x : Byte) : (s.setTablat x).tblptr21 = s.tblptr21 := rfl
@[simp] theorem State.setTablat_tablat (x : Byte) : (s.setTablat x).tablat = x := rfl
@[simp] theorem State.setTablat_pc (x : Byte) : (s.setTablat x).pc = s.pc := rfl
@[simp] theorem State.setTablat_pclath (x : Byte) : (s.setTablat x).pclath = s.pclath := rfl
@[simp] theorem State.setTablat_pclatu (x : Byte) : (s.setTablat x).pclatu = s.pclatu := rfl
@[simp] theorem State.setTablat_stack (x : Byte) : (s.setTablat x).stack = s.stack := rfl
@[simp] theorem State.setTablat_sp (x : Byte) : (s.setTablat x).sp = s.sp := rfl
@[simp] theorem State.setTablat_stkful (x : Byte) : (s.setTablat x).stkful = s.stkful := rfl
@[simp] theorem State.setTablat_stkunf (x : Byte) : (s.setTablat x).stkunf = s.stkunf := rfl
@[simp] theorem State.setTablat_shadow (x : Byte) : (s.setTablat x).shadow = s.shadow := rfl
@[simp] theorem State.setTablat_irq (x : Byte) : (s.setTablat x).irq = s.irq := rfl
@[simp] theorem State.setTablat_rcon (x : Byte) : (s.setTablat x).rcon = s.rcon := rfl
@[simp] theorem State.setTablat_wdt (x : Byte) : (s.setTablat x).wdt = s.wdt := rfl
@[simp] theorem State.setTablat_sleeping (x : Byte) : (s.setTablat x).sleeping = s.sleeping := rfl
@[simp] theorem State.setTablat_waking (x : Byte) : (s.setTablat x).waking = s.waking := rfl
@[simp] theorem State.setTablat_ram (x : Byte) : (s.setTablat x).ram = s.ram := rfl
@[simp] theorem State.setTablat_prog (x : Byte) : (s.setTablat x).prog = s.prog := rfl
@[simp] theorem State.setTablat_holding (x : Byte) : (s.setTablat x).holding = s.holding := rfl
@[simp] theorem State.setTablat_outputs (x : Byte) : (s.setTablat x).outputs = s.outputs := rfl
@[simp] theorem State.setTablat_draws (x : Byte) : (s.setTablat x).draws = s.draws := rfl
@[simp] theorem State.setTablat_inputs (x : Byte) : (s.setTablat x).inputs = s.inputs := rfl
@[simp] theorem State.setTablat_setTablat (x y : Byte) : (s.setTablat x).setTablat y = s.setTablat y := rfl

@[simp] theorem State.setPc_w (x : ProgAddr) : (s.setPc x).w = s.w := rfl
@[simp] theorem State.setPc_status (x : ProgAddr) : (s.setPc x).status = s.status := rfl
@[simp] theorem State.setPc_bsr (x : ProgAddr) : (s.setPc x).bsr = s.bsr := rfl
@[simp] theorem State.setPc_fsr (x : ProgAddr) : (s.setPc x).fsr = s.fsr := rfl
@[simp] theorem State.setPc_prodh (x : ProgAddr) : (s.setPc x).prodh = s.prodh := rfl
@[simp] theorem State.setPc_prodl (x : ProgAddr) : (s.setPc x).prodl = s.prodl := rfl
@[simp] theorem State.setPc_tblptr (x : ProgAddr) : (s.setPc x).tblptr = s.tblptr := rfl
@[simp] theorem State.setPc_tblptr21 (x : ProgAddr) : (s.setPc x).tblptr21 = s.tblptr21 := rfl
@[simp] theorem State.setPc_tablat (x : ProgAddr) : (s.setPc x).tablat = s.tablat := rfl
@[simp] theorem State.setPc_pc (x : ProgAddr) : (s.setPc x).pc = x := rfl
@[simp] theorem State.setPc_pclath (x : ProgAddr) : (s.setPc x).pclath = s.pclath := rfl
@[simp] theorem State.setPc_pclatu (x : ProgAddr) : (s.setPc x).pclatu = s.pclatu := rfl
@[simp] theorem State.setPc_stack (x : ProgAddr) : (s.setPc x).stack = s.stack := rfl
@[simp] theorem State.setPc_sp (x : ProgAddr) : (s.setPc x).sp = s.sp := rfl
@[simp] theorem State.setPc_stkful (x : ProgAddr) : (s.setPc x).stkful = s.stkful := rfl
@[simp] theorem State.setPc_stkunf (x : ProgAddr) : (s.setPc x).stkunf = s.stkunf := rfl
@[simp] theorem State.setPc_shadow (x : ProgAddr) : (s.setPc x).shadow = s.shadow := rfl
@[simp] theorem State.setPc_irq (x : ProgAddr) : (s.setPc x).irq = s.irq := rfl
@[simp] theorem State.setPc_rcon (x : ProgAddr) : (s.setPc x).rcon = s.rcon := rfl
@[simp] theorem State.setPc_wdt (x : ProgAddr) : (s.setPc x).wdt = s.wdt := rfl
@[simp] theorem State.setPc_sleeping (x : ProgAddr) : (s.setPc x).sleeping = s.sleeping := rfl
@[simp] theorem State.setPc_waking (x : ProgAddr) : (s.setPc x).waking = s.waking := rfl
@[simp] theorem State.setPc_ram (x : ProgAddr) : (s.setPc x).ram = s.ram := rfl
@[simp] theorem State.setPc_prog (x : ProgAddr) : (s.setPc x).prog = s.prog := rfl
@[simp] theorem State.setPc_holding (x : ProgAddr) : (s.setPc x).holding = s.holding := rfl
@[simp] theorem State.setPc_outputs (x : ProgAddr) : (s.setPc x).outputs = s.outputs := rfl
@[simp] theorem State.setPc_draws (x : ProgAddr) : (s.setPc x).draws = s.draws := rfl
@[simp] theorem State.setPc_inputs (x : ProgAddr) : (s.setPc x).inputs = s.inputs := rfl
@[simp] theorem State.setPc_setPc (x y : ProgAddr) : (s.setPc x).setPc y = s.setPc y := rfl

@[simp] theorem State.setPclath_w (x : Byte) : (s.setPclath x).w = s.w := rfl
@[simp] theorem State.setPclath_status (x : Byte) : (s.setPclath x).status = s.status := rfl
@[simp] theorem State.setPclath_bsr (x : Byte) : (s.setPclath x).bsr = s.bsr := rfl
@[simp] theorem State.setPclath_fsr (x : Byte) : (s.setPclath x).fsr = s.fsr := rfl
@[simp] theorem State.setPclath_prodh (x : Byte) : (s.setPclath x).prodh = s.prodh := rfl
@[simp] theorem State.setPclath_prodl (x : Byte) : (s.setPclath x).prodl = s.prodl := rfl
@[simp] theorem State.setPclath_tblptr (x : Byte) : (s.setPclath x).tblptr = s.tblptr := rfl
@[simp] theorem State.setPclath_tblptr21 (x : Byte) : (s.setPclath x).tblptr21 = s.tblptr21 := rfl
@[simp] theorem State.setPclath_tablat (x : Byte) : (s.setPclath x).tablat = s.tablat := rfl
@[simp] theorem State.setPclath_pc (x : Byte) : (s.setPclath x).pc = s.pc := rfl
@[simp] theorem State.setPclath_pclath (x : Byte) : (s.setPclath x).pclath = x := rfl
@[simp] theorem State.setPclath_pclatu (x : Byte) : (s.setPclath x).pclatu = s.pclatu := rfl
@[simp] theorem State.setPclath_stack (x : Byte) : (s.setPclath x).stack = s.stack := rfl
@[simp] theorem State.setPclath_sp (x : Byte) : (s.setPclath x).sp = s.sp := rfl
@[simp] theorem State.setPclath_stkful (x : Byte) : (s.setPclath x).stkful = s.stkful := rfl
@[simp] theorem State.setPclath_stkunf (x : Byte) : (s.setPclath x).stkunf = s.stkunf := rfl
@[simp] theorem State.setPclath_shadow (x : Byte) : (s.setPclath x).shadow = s.shadow := rfl
@[simp] theorem State.setPclath_irq (x : Byte) : (s.setPclath x).irq = s.irq := rfl
@[simp] theorem State.setPclath_rcon (x : Byte) : (s.setPclath x).rcon = s.rcon := rfl
@[simp] theorem State.setPclath_wdt (x : Byte) : (s.setPclath x).wdt = s.wdt := rfl
@[simp] theorem State.setPclath_sleeping (x : Byte) : (s.setPclath x).sleeping = s.sleeping := rfl
@[simp] theorem State.setPclath_waking (x : Byte) : (s.setPclath x).waking = s.waking := rfl
@[simp] theorem State.setPclath_ram (x : Byte) : (s.setPclath x).ram = s.ram := rfl
@[simp] theorem State.setPclath_prog (x : Byte) : (s.setPclath x).prog = s.prog := rfl
@[simp] theorem State.setPclath_holding (x : Byte) : (s.setPclath x).holding = s.holding := rfl
@[simp] theorem State.setPclath_outputs (x : Byte) : (s.setPclath x).outputs = s.outputs := rfl
@[simp] theorem State.setPclath_draws (x : Byte) : (s.setPclath x).draws = s.draws := rfl
@[simp] theorem State.setPclath_inputs (x : Byte) : (s.setPclath x).inputs = s.inputs := rfl
@[simp] theorem State.setPclath_setPclath (x y : Byte) : (s.setPclath x).setPclath y = s.setPclath y := rfl

@[simp] theorem State.setPclatu_w (x : BitVec 5) : (s.setPclatu x).w = s.w := rfl
@[simp] theorem State.setPclatu_status (x : BitVec 5) : (s.setPclatu x).status = s.status := rfl
@[simp] theorem State.setPclatu_bsr (x : BitVec 5) : (s.setPclatu x).bsr = s.bsr := rfl
@[simp] theorem State.setPclatu_fsr (x : BitVec 5) : (s.setPclatu x).fsr = s.fsr := rfl
@[simp] theorem State.setPclatu_prodh (x : BitVec 5) : (s.setPclatu x).prodh = s.prodh := rfl
@[simp] theorem State.setPclatu_prodl (x : BitVec 5) : (s.setPclatu x).prodl = s.prodl := rfl
@[simp] theorem State.setPclatu_tblptr (x : BitVec 5) : (s.setPclatu x).tblptr = s.tblptr := rfl
@[simp] theorem State.setPclatu_tblptr21 (x : BitVec 5) : (s.setPclatu x).tblptr21 = s.tblptr21 := rfl
@[simp] theorem State.setPclatu_tablat (x : BitVec 5) : (s.setPclatu x).tablat = s.tablat := rfl
@[simp] theorem State.setPclatu_pc (x : BitVec 5) : (s.setPclatu x).pc = s.pc := rfl
@[simp] theorem State.setPclatu_pclath (x : BitVec 5) : (s.setPclatu x).pclath = s.pclath := rfl
@[simp] theorem State.setPclatu_pclatu (x : BitVec 5) : (s.setPclatu x).pclatu = x := rfl
@[simp] theorem State.setPclatu_stack (x : BitVec 5) : (s.setPclatu x).stack = s.stack := rfl
@[simp] theorem State.setPclatu_sp (x : BitVec 5) : (s.setPclatu x).sp = s.sp := rfl
@[simp] theorem State.setPclatu_stkful (x : BitVec 5) : (s.setPclatu x).stkful = s.stkful := rfl
@[simp] theorem State.setPclatu_stkunf (x : BitVec 5) : (s.setPclatu x).stkunf = s.stkunf := rfl
@[simp] theorem State.setPclatu_shadow (x : BitVec 5) : (s.setPclatu x).shadow = s.shadow := rfl
@[simp] theorem State.setPclatu_irq (x : BitVec 5) : (s.setPclatu x).irq = s.irq := rfl
@[simp] theorem State.setPclatu_rcon (x : BitVec 5) : (s.setPclatu x).rcon = s.rcon := rfl
@[simp] theorem State.setPclatu_wdt (x : BitVec 5) : (s.setPclatu x).wdt = s.wdt := rfl
@[simp] theorem State.setPclatu_sleeping (x : BitVec 5) : (s.setPclatu x).sleeping = s.sleeping := rfl
@[simp] theorem State.setPclatu_waking (x : BitVec 5) : (s.setPclatu x).waking = s.waking := rfl
@[simp] theorem State.setPclatu_ram (x : BitVec 5) : (s.setPclatu x).ram = s.ram := rfl
@[simp] theorem State.setPclatu_prog (x : BitVec 5) : (s.setPclatu x).prog = s.prog := rfl
@[simp] theorem State.setPclatu_holding (x : BitVec 5) : (s.setPclatu x).holding = s.holding := rfl
@[simp] theorem State.setPclatu_outputs (x : BitVec 5) : (s.setPclatu x).outputs = s.outputs := rfl
@[simp] theorem State.setPclatu_draws (x : BitVec 5) : (s.setPclatu x).draws = s.draws := rfl
@[simp] theorem State.setPclatu_inputs (x : BitVec 5) : (s.setPclatu x).inputs = s.inputs := rfl
@[simp] theorem State.setPclatu_setPclatu (x y : BitVec 5) : (s.setPclatu x).setPclatu y = s.setPclatu y := rfl

@[simp] theorem State.setStack_w (x : Vector ProgAddr Config.stackDepth) : (s.setStack x).w = s.w := rfl
@[simp] theorem State.setStack_status (x : Vector ProgAddr Config.stackDepth) : (s.setStack x).status = s.status := rfl
@[simp] theorem State.setStack_bsr (x : Vector ProgAddr Config.stackDepth) : (s.setStack x).bsr = s.bsr := rfl
@[simp] theorem State.setStack_fsr (x : Vector ProgAddr Config.stackDepth) : (s.setStack x).fsr = s.fsr := rfl
@[simp] theorem State.setStack_prodh (x : Vector ProgAddr Config.stackDepth) : (s.setStack x).prodh = s.prodh := rfl
@[simp] theorem State.setStack_prodl (x : Vector ProgAddr Config.stackDepth) : (s.setStack x).prodl = s.prodl := rfl
@[simp] theorem State.setStack_tblptr (x : Vector ProgAddr Config.stackDepth) : (s.setStack x).tblptr = s.tblptr := rfl
@[simp] theorem State.setStack_tblptr21 (x : Vector ProgAddr Config.stackDepth) : (s.setStack x).tblptr21 = s.tblptr21 := rfl
@[simp] theorem State.setStack_tablat (x : Vector ProgAddr Config.stackDepth) : (s.setStack x).tablat = s.tablat := rfl
@[simp] theorem State.setStack_pc (x : Vector ProgAddr Config.stackDepth) : (s.setStack x).pc = s.pc := rfl
@[simp] theorem State.setStack_pclath (x : Vector ProgAddr Config.stackDepth) : (s.setStack x).pclath = s.pclath := rfl
@[simp] theorem State.setStack_pclatu (x : Vector ProgAddr Config.stackDepth) : (s.setStack x).pclatu = s.pclatu := rfl
@[simp] theorem State.setStack_stack (x : Vector ProgAddr Config.stackDepth) : (s.setStack x).stack = x := rfl
@[simp] theorem State.setStack_sp (x : Vector ProgAddr Config.stackDepth) : (s.setStack x).sp = s.sp := rfl
@[simp] theorem State.setStack_stkful (x : Vector ProgAddr Config.stackDepth) : (s.setStack x).stkful = s.stkful := rfl
@[simp] theorem State.setStack_stkunf (x : Vector ProgAddr Config.stackDepth) : (s.setStack x).stkunf = s.stkunf := rfl
@[simp] theorem State.setStack_shadow (x : Vector ProgAddr Config.stackDepth) : (s.setStack x).shadow = s.shadow := rfl
@[simp] theorem State.setStack_irq (x : Vector ProgAddr Config.stackDepth) : (s.setStack x).irq = s.irq := rfl
@[simp] theorem State.setStack_rcon (x : Vector ProgAddr Config.stackDepth) : (s.setStack x).rcon = s.rcon := rfl
@[simp] theorem State.setStack_wdt (x : Vector ProgAddr Config.stackDepth) : (s.setStack x).wdt = s.wdt := rfl
@[simp] theorem State.setStack_sleeping (x : Vector ProgAddr Config.stackDepth) : (s.setStack x).sleeping = s.sleeping := rfl
@[simp] theorem State.setStack_waking (x : Vector ProgAddr Config.stackDepth) : (s.setStack x).waking = s.waking := rfl
@[simp] theorem State.setStack_ram (x : Vector ProgAddr Config.stackDepth) : (s.setStack x).ram = s.ram := rfl
@[simp] theorem State.setStack_prog (x : Vector ProgAddr Config.stackDepth) : (s.setStack x).prog = s.prog := rfl
@[simp] theorem State.setStack_holding (x : Vector ProgAddr Config.stackDepth) : (s.setStack x).holding = s.holding := rfl
@[simp] theorem State.setStack_outputs (x : Vector ProgAddr Config.stackDepth) : (s.setStack x).outputs = s.outputs := rfl
@[simp] theorem State.setStack_draws (x : Vector ProgAddr Config.stackDepth) : (s.setStack x).draws = s.draws := rfl
@[simp] theorem State.setStack_inputs (x : Vector ProgAddr Config.stackDepth) : (s.setStack x).inputs = s.inputs := rfl
@[simp] theorem State.setStack_setStack (x y : Vector ProgAddr Config.stackDepth) : (s.setStack x).setStack y = s.setStack y := rfl

@[simp] theorem State.setSp_w (x : BitVec 5) : (s.setSp x).w = s.w := rfl
@[simp] theorem State.setSp_status (x : BitVec 5) : (s.setSp x).status = s.status := rfl
@[simp] theorem State.setSp_bsr (x : BitVec 5) : (s.setSp x).bsr = s.bsr := rfl
@[simp] theorem State.setSp_fsr (x : BitVec 5) : (s.setSp x).fsr = s.fsr := rfl
@[simp] theorem State.setSp_prodh (x : BitVec 5) : (s.setSp x).prodh = s.prodh := rfl
@[simp] theorem State.setSp_prodl (x : BitVec 5) : (s.setSp x).prodl = s.prodl := rfl
@[simp] theorem State.setSp_tblptr (x : BitVec 5) : (s.setSp x).tblptr = s.tblptr := rfl
@[simp] theorem State.setSp_tblptr21 (x : BitVec 5) : (s.setSp x).tblptr21 = s.tblptr21 := rfl
@[simp] theorem State.setSp_tablat (x : BitVec 5) : (s.setSp x).tablat = s.tablat := rfl
@[simp] theorem State.setSp_pc (x : BitVec 5) : (s.setSp x).pc = s.pc := rfl
@[simp] theorem State.setSp_pclath (x : BitVec 5) : (s.setSp x).pclath = s.pclath := rfl
@[simp] theorem State.setSp_pclatu (x : BitVec 5) : (s.setSp x).pclatu = s.pclatu := rfl
@[simp] theorem State.setSp_stack (x : BitVec 5) : (s.setSp x).stack = s.stack := rfl
@[simp] theorem State.setSp_sp (x : BitVec 5) : (s.setSp x).sp = x := rfl
@[simp] theorem State.setSp_stkful (x : BitVec 5) : (s.setSp x).stkful = s.stkful := rfl
@[simp] theorem State.setSp_stkunf (x : BitVec 5) : (s.setSp x).stkunf = s.stkunf := rfl
@[simp] theorem State.setSp_shadow (x : BitVec 5) : (s.setSp x).shadow = s.shadow := rfl
@[simp] theorem State.setSp_irq (x : BitVec 5) : (s.setSp x).irq = s.irq := rfl
@[simp] theorem State.setSp_rcon (x : BitVec 5) : (s.setSp x).rcon = s.rcon := rfl
@[simp] theorem State.setSp_wdt (x : BitVec 5) : (s.setSp x).wdt = s.wdt := rfl
@[simp] theorem State.setSp_sleeping (x : BitVec 5) : (s.setSp x).sleeping = s.sleeping := rfl
@[simp] theorem State.setSp_waking (x : BitVec 5) : (s.setSp x).waking = s.waking := rfl
@[simp] theorem State.setSp_ram (x : BitVec 5) : (s.setSp x).ram = s.ram := rfl
@[simp] theorem State.setSp_prog (x : BitVec 5) : (s.setSp x).prog = s.prog := rfl
@[simp] theorem State.setSp_holding (x : BitVec 5) : (s.setSp x).holding = s.holding := rfl
@[simp] theorem State.setSp_outputs (x : BitVec 5) : (s.setSp x).outputs = s.outputs := rfl
@[simp] theorem State.setSp_draws (x : BitVec 5) : (s.setSp x).draws = s.draws := rfl
@[simp] theorem State.setSp_inputs (x : BitVec 5) : (s.setSp x).inputs = s.inputs := rfl
@[simp] theorem State.setSp_setSp (x y : BitVec 5) : (s.setSp x).setSp y = s.setSp y := rfl

@[simp] theorem State.setStkful_w (x : Bool) : (s.setStkful x).w = s.w := rfl
@[simp] theorem State.setStkful_status (x : Bool) : (s.setStkful x).status = s.status := rfl
@[simp] theorem State.setStkful_bsr (x : Bool) : (s.setStkful x).bsr = s.bsr := rfl
@[simp] theorem State.setStkful_fsr (x : Bool) : (s.setStkful x).fsr = s.fsr := rfl
@[simp] theorem State.setStkful_prodh (x : Bool) : (s.setStkful x).prodh = s.prodh := rfl
@[simp] theorem State.setStkful_prodl (x : Bool) : (s.setStkful x).prodl = s.prodl := rfl
@[simp] theorem State.setStkful_tblptr (x : Bool) : (s.setStkful x).tblptr = s.tblptr := rfl
@[simp] theorem State.setStkful_tblptr21 (x : Bool) : (s.setStkful x).tblptr21 = s.tblptr21 := rfl
@[simp] theorem State.setStkful_tablat (x : Bool) : (s.setStkful x).tablat = s.tablat := rfl
@[simp] theorem State.setStkful_pc (x : Bool) : (s.setStkful x).pc = s.pc := rfl
@[simp] theorem State.setStkful_pclath (x : Bool) : (s.setStkful x).pclath = s.pclath := rfl
@[simp] theorem State.setStkful_pclatu (x : Bool) : (s.setStkful x).pclatu = s.pclatu := rfl
@[simp] theorem State.setStkful_stack (x : Bool) : (s.setStkful x).stack = s.stack := rfl
@[simp] theorem State.setStkful_sp (x : Bool) : (s.setStkful x).sp = s.sp := rfl
@[simp] theorem State.setStkful_stkful (x : Bool) : (s.setStkful x).stkful = x := rfl
@[simp] theorem State.setStkful_stkunf (x : Bool) : (s.setStkful x).stkunf = s.stkunf := rfl
@[simp] theorem State.setStkful_shadow (x : Bool) : (s.setStkful x).shadow = s.shadow := rfl
@[simp] theorem State.setStkful_irq (x : Bool) : (s.setStkful x).irq = s.irq := rfl
@[simp] theorem State.setStkful_rcon (x : Bool) : (s.setStkful x).rcon = s.rcon := rfl
@[simp] theorem State.setStkful_wdt (x : Bool) : (s.setStkful x).wdt = s.wdt := rfl
@[simp] theorem State.setStkful_sleeping (x : Bool) : (s.setStkful x).sleeping = s.sleeping := rfl
@[simp] theorem State.setStkful_waking (x : Bool) : (s.setStkful x).waking = s.waking := rfl
@[simp] theorem State.setStkful_ram (x : Bool) : (s.setStkful x).ram = s.ram := rfl
@[simp] theorem State.setStkful_prog (x : Bool) : (s.setStkful x).prog = s.prog := rfl
@[simp] theorem State.setStkful_holding (x : Bool) : (s.setStkful x).holding = s.holding := rfl
@[simp] theorem State.setStkful_outputs (x : Bool) : (s.setStkful x).outputs = s.outputs := rfl
@[simp] theorem State.setStkful_draws (x : Bool) : (s.setStkful x).draws = s.draws := rfl
@[simp] theorem State.setStkful_inputs (x : Bool) : (s.setStkful x).inputs = s.inputs := rfl
@[simp] theorem State.setStkful_setStkful (x y : Bool) : (s.setStkful x).setStkful y = s.setStkful y := rfl

@[simp] theorem State.setStkunf_w (x : Bool) : (s.setStkunf x).w = s.w := rfl
@[simp] theorem State.setStkunf_status (x : Bool) : (s.setStkunf x).status = s.status := rfl
@[simp] theorem State.setStkunf_bsr (x : Bool) : (s.setStkunf x).bsr = s.bsr := rfl
@[simp] theorem State.setStkunf_fsr (x : Bool) : (s.setStkunf x).fsr = s.fsr := rfl
@[simp] theorem State.setStkunf_prodh (x : Bool) : (s.setStkunf x).prodh = s.prodh := rfl
@[simp] theorem State.setStkunf_prodl (x : Bool) : (s.setStkunf x).prodl = s.prodl := rfl
@[simp] theorem State.setStkunf_tblptr (x : Bool) : (s.setStkunf x).tblptr = s.tblptr := rfl
@[simp] theorem State.setStkunf_tblptr21 (x : Bool) : (s.setStkunf x).tblptr21 = s.tblptr21 := rfl
@[simp] theorem State.setStkunf_tablat (x : Bool) : (s.setStkunf x).tablat = s.tablat := rfl
@[simp] theorem State.setStkunf_pc (x : Bool) : (s.setStkunf x).pc = s.pc := rfl
@[simp] theorem State.setStkunf_pclath (x : Bool) : (s.setStkunf x).pclath = s.pclath := rfl
@[simp] theorem State.setStkunf_pclatu (x : Bool) : (s.setStkunf x).pclatu = s.pclatu := rfl
@[simp] theorem State.setStkunf_stack (x : Bool) : (s.setStkunf x).stack = s.stack := rfl
@[simp] theorem State.setStkunf_sp (x : Bool) : (s.setStkunf x).sp = s.sp := rfl
@[simp] theorem State.setStkunf_stkful (x : Bool) : (s.setStkunf x).stkful = s.stkful := rfl
@[simp] theorem State.setStkunf_stkunf (x : Bool) : (s.setStkunf x).stkunf = x := rfl
@[simp] theorem State.setStkunf_shadow (x : Bool) : (s.setStkunf x).shadow = s.shadow := rfl
@[simp] theorem State.setStkunf_irq (x : Bool) : (s.setStkunf x).irq = s.irq := rfl
@[simp] theorem State.setStkunf_rcon (x : Bool) : (s.setStkunf x).rcon = s.rcon := rfl
@[simp] theorem State.setStkunf_wdt (x : Bool) : (s.setStkunf x).wdt = s.wdt := rfl
@[simp] theorem State.setStkunf_sleeping (x : Bool) : (s.setStkunf x).sleeping = s.sleeping := rfl
@[simp] theorem State.setStkunf_waking (x : Bool) : (s.setStkunf x).waking = s.waking := rfl
@[simp] theorem State.setStkunf_ram (x : Bool) : (s.setStkunf x).ram = s.ram := rfl
@[simp] theorem State.setStkunf_prog (x : Bool) : (s.setStkunf x).prog = s.prog := rfl
@[simp] theorem State.setStkunf_holding (x : Bool) : (s.setStkunf x).holding = s.holding := rfl
@[simp] theorem State.setStkunf_outputs (x : Bool) : (s.setStkunf x).outputs = s.outputs := rfl
@[simp] theorem State.setStkunf_draws (x : Bool) : (s.setStkunf x).draws = s.draws := rfl
@[simp] theorem State.setStkunf_inputs (x : Bool) : (s.setStkunf x).inputs = s.inputs := rfl
@[simp] theorem State.setStkunf_setStkunf (x y : Bool) : (s.setStkunf x).setStkunf y = s.setStkunf y := rfl

@[simp] theorem State.setShadow_w (x : Shadow) : (s.setShadow x).w = s.w := rfl
@[simp] theorem State.setShadow_status (x : Shadow) : (s.setShadow x).status = s.status := rfl
@[simp] theorem State.setShadow_bsr (x : Shadow) : (s.setShadow x).bsr = s.bsr := rfl
@[simp] theorem State.setShadow_fsr (x : Shadow) : (s.setShadow x).fsr = s.fsr := rfl
@[simp] theorem State.setShadow_prodh (x : Shadow) : (s.setShadow x).prodh = s.prodh := rfl
@[simp] theorem State.setShadow_prodl (x : Shadow) : (s.setShadow x).prodl = s.prodl := rfl
@[simp] theorem State.setShadow_tblptr (x : Shadow) : (s.setShadow x).tblptr = s.tblptr := rfl
@[simp] theorem State.setShadow_tblptr21 (x : Shadow) : (s.setShadow x).tblptr21 = s.tblptr21 := rfl
@[simp] theorem State.setShadow_tablat (x : Shadow) : (s.setShadow x).tablat = s.tablat := rfl
@[simp] theorem State.setShadow_pc (x : Shadow) : (s.setShadow x).pc = s.pc := rfl
@[simp] theorem State.setShadow_pclath (x : Shadow) : (s.setShadow x).pclath = s.pclath := rfl
@[simp] theorem State.setShadow_pclatu (x : Shadow) : (s.setShadow x).pclatu = s.pclatu := rfl
@[simp] theorem State.setShadow_stack (x : Shadow) : (s.setShadow x).stack = s.stack := rfl
@[simp] theorem State.setShadow_sp (x : Shadow) : (s.setShadow x).sp = s.sp := rfl
@[simp] theorem State.setShadow_stkful (x : Shadow) : (s.setShadow x).stkful = s.stkful := rfl
@[simp] theorem State.setShadow_stkunf (x : Shadow) : (s.setShadow x).stkunf = s.stkunf := rfl
@[simp] theorem State.setShadow_shadow (x : Shadow) : (s.setShadow x).shadow = x := rfl
@[simp] theorem State.setShadow_irq (x : Shadow) : (s.setShadow x).irq = s.irq := rfl
@[simp] theorem State.setShadow_rcon (x : Shadow) : (s.setShadow x).rcon = s.rcon := rfl
@[simp] theorem State.setShadow_wdt (x : Shadow) : (s.setShadow x).wdt = s.wdt := rfl
@[simp] theorem State.setShadow_sleeping (x : Shadow) : (s.setShadow x).sleeping = s.sleeping := rfl
@[simp] theorem State.setShadow_waking (x : Shadow) : (s.setShadow x).waking = s.waking := rfl
@[simp] theorem State.setShadow_ram (x : Shadow) : (s.setShadow x).ram = s.ram := rfl
@[simp] theorem State.setShadow_prog (x : Shadow) : (s.setShadow x).prog = s.prog := rfl
@[simp] theorem State.setShadow_holding (x : Shadow) : (s.setShadow x).holding = s.holding := rfl
@[simp] theorem State.setShadow_outputs (x : Shadow) : (s.setShadow x).outputs = s.outputs := rfl
@[simp] theorem State.setShadow_draws (x : Shadow) : (s.setShadow x).draws = s.draws := rfl
@[simp] theorem State.setShadow_inputs (x : Shadow) : (s.setShadow x).inputs = s.inputs := rfl
@[simp] theorem State.setShadow_setShadow (x y : Shadow) : (s.setShadow x).setShadow y = s.setShadow y := rfl

@[simp] theorem State.setIrq_w (x : IrqRegs) : (s.setIrq x).w = s.w := rfl
@[simp] theorem State.setIrq_status (x : IrqRegs) : (s.setIrq x).status = s.status := rfl
@[simp] theorem State.setIrq_bsr (x : IrqRegs) : (s.setIrq x).bsr = s.bsr := rfl
@[simp] theorem State.setIrq_fsr (x : IrqRegs) : (s.setIrq x).fsr = s.fsr := rfl
@[simp] theorem State.setIrq_prodh (x : IrqRegs) : (s.setIrq x).prodh = s.prodh := rfl
@[simp] theorem State.setIrq_prodl (x : IrqRegs) : (s.setIrq x).prodl = s.prodl := rfl
@[simp] theorem State.setIrq_tblptr (x : IrqRegs) : (s.setIrq x).tblptr = s.tblptr := rfl
@[simp] theorem State.setIrq_tblptr21 (x : IrqRegs) : (s.setIrq x).tblptr21 = s.tblptr21 := rfl
@[simp] theorem State.setIrq_tablat (x : IrqRegs) : (s.setIrq x).tablat = s.tablat := rfl
@[simp] theorem State.setIrq_pc (x : IrqRegs) : (s.setIrq x).pc = s.pc := rfl
@[simp] theorem State.setIrq_pclath (x : IrqRegs) : (s.setIrq x).pclath = s.pclath := rfl
@[simp] theorem State.setIrq_pclatu (x : IrqRegs) : (s.setIrq x).pclatu = s.pclatu := rfl
@[simp] theorem State.setIrq_stack (x : IrqRegs) : (s.setIrq x).stack = s.stack := rfl
@[simp] theorem State.setIrq_sp (x : IrqRegs) : (s.setIrq x).sp = s.sp := rfl
@[simp] theorem State.setIrq_stkful (x : IrqRegs) : (s.setIrq x).stkful = s.stkful := rfl
@[simp] theorem State.setIrq_stkunf (x : IrqRegs) : (s.setIrq x).stkunf = s.stkunf := rfl
@[simp] theorem State.setIrq_shadow (x : IrqRegs) : (s.setIrq x).shadow = s.shadow := rfl
@[simp] theorem State.setIrq_irq (x : IrqRegs) : (s.setIrq x).irq = x := rfl
@[simp] theorem State.setIrq_rcon (x : IrqRegs) : (s.setIrq x).rcon = s.rcon := rfl
@[simp] theorem State.setIrq_wdt (x : IrqRegs) : (s.setIrq x).wdt = s.wdt := rfl
@[simp] theorem State.setIrq_sleeping (x : IrqRegs) : (s.setIrq x).sleeping = s.sleeping := rfl
@[simp] theorem State.setIrq_waking (x : IrqRegs) : (s.setIrq x).waking = s.waking := rfl
@[simp] theorem State.setIrq_ram (x : IrqRegs) : (s.setIrq x).ram = s.ram := rfl
@[simp] theorem State.setIrq_prog (x : IrqRegs) : (s.setIrq x).prog = s.prog := rfl
@[simp] theorem State.setIrq_holding (x : IrqRegs) : (s.setIrq x).holding = s.holding := rfl
@[simp] theorem State.setIrq_outputs (x : IrqRegs) : (s.setIrq x).outputs = s.outputs := rfl
@[simp] theorem State.setIrq_draws (x : IrqRegs) : (s.setIrq x).draws = s.draws := rfl
@[simp] theorem State.setIrq_inputs (x : IrqRegs) : (s.setIrq x).inputs = s.inputs := rfl
@[simp] theorem State.setIrq_setIrq (x y : IrqRegs) : (s.setIrq x).setIrq y = s.setIrq y := rfl

@[simp] theorem State.setRcon_w (x : Byte) : (s.setRcon x).w = s.w := rfl
@[simp] theorem State.setRcon_status (x : Byte) : (s.setRcon x).status = s.status := rfl
@[simp] theorem State.setRcon_bsr (x : Byte) : (s.setRcon x).bsr = s.bsr := rfl
@[simp] theorem State.setRcon_fsr (x : Byte) : (s.setRcon x).fsr = s.fsr := rfl
@[simp] theorem State.setRcon_prodh (x : Byte) : (s.setRcon x).prodh = s.prodh := rfl
@[simp] theorem State.setRcon_prodl (x : Byte) : (s.setRcon x).prodl = s.prodl := rfl
@[simp] theorem State.setRcon_tblptr (x : Byte) : (s.setRcon x).tblptr = s.tblptr := rfl
@[simp] theorem State.setRcon_tblptr21 (x : Byte) : (s.setRcon x).tblptr21 = s.tblptr21 := rfl
@[simp] theorem State.setRcon_tablat (x : Byte) : (s.setRcon x).tablat = s.tablat := rfl
@[simp] theorem State.setRcon_pc (x : Byte) : (s.setRcon x).pc = s.pc := rfl
@[simp] theorem State.setRcon_pclath (x : Byte) : (s.setRcon x).pclath = s.pclath := rfl
@[simp] theorem State.setRcon_pclatu (x : Byte) : (s.setRcon x).pclatu = s.pclatu := rfl
@[simp] theorem State.setRcon_stack (x : Byte) : (s.setRcon x).stack = s.stack := rfl
@[simp] theorem State.setRcon_sp (x : Byte) : (s.setRcon x).sp = s.sp := rfl
@[simp] theorem State.setRcon_stkful (x : Byte) : (s.setRcon x).stkful = s.stkful := rfl
@[simp] theorem State.setRcon_stkunf (x : Byte) : (s.setRcon x).stkunf = s.stkunf := rfl
@[simp] theorem State.setRcon_shadow (x : Byte) : (s.setRcon x).shadow = s.shadow := rfl
@[simp] theorem State.setRcon_irq (x : Byte) : (s.setRcon x).irq = s.irq := rfl
@[simp] theorem State.setRcon_rcon (x : Byte) : (s.setRcon x).rcon = x := rfl
@[simp] theorem State.setRcon_wdt (x : Byte) : (s.setRcon x).wdt = s.wdt := rfl
@[simp] theorem State.setRcon_sleeping (x : Byte) : (s.setRcon x).sleeping = s.sleeping := rfl
@[simp] theorem State.setRcon_waking (x : Byte) : (s.setRcon x).waking = s.waking := rfl
@[simp] theorem State.setRcon_ram (x : Byte) : (s.setRcon x).ram = s.ram := rfl
@[simp] theorem State.setRcon_prog (x : Byte) : (s.setRcon x).prog = s.prog := rfl
@[simp] theorem State.setRcon_holding (x : Byte) : (s.setRcon x).holding = s.holding := rfl
@[simp] theorem State.setRcon_outputs (x : Byte) : (s.setRcon x).outputs = s.outputs := rfl
@[simp] theorem State.setRcon_draws (x : Byte) : (s.setRcon x).draws = s.draws := rfl
@[simp] theorem State.setRcon_inputs (x : Byte) : (s.setRcon x).inputs = s.inputs := rfl
@[simp] theorem State.setRcon_setRcon (x y : Byte) : (s.setRcon x).setRcon y = s.setRcon y := rfl

@[simp] theorem State.setWdt_w (x : Wdt) : (s.setWdt x).w = s.w := rfl
@[simp] theorem State.setWdt_status (x : Wdt) : (s.setWdt x).status = s.status := rfl
@[simp] theorem State.setWdt_bsr (x : Wdt) : (s.setWdt x).bsr = s.bsr := rfl
@[simp] theorem State.setWdt_fsr (x : Wdt) : (s.setWdt x).fsr = s.fsr := rfl
@[simp] theorem State.setWdt_prodh (x : Wdt) : (s.setWdt x).prodh = s.prodh := rfl
@[simp] theorem State.setWdt_prodl (x : Wdt) : (s.setWdt x).prodl = s.prodl := rfl
@[simp] theorem State.setWdt_tblptr (x : Wdt) : (s.setWdt x).tblptr = s.tblptr := rfl
@[simp] theorem State.setWdt_tblptr21 (x : Wdt) : (s.setWdt x).tblptr21 = s.tblptr21 := rfl
@[simp] theorem State.setWdt_tablat (x : Wdt) : (s.setWdt x).tablat = s.tablat := rfl
@[simp] theorem State.setWdt_pc (x : Wdt) : (s.setWdt x).pc = s.pc := rfl
@[simp] theorem State.setWdt_pclath (x : Wdt) : (s.setWdt x).pclath = s.pclath := rfl
@[simp] theorem State.setWdt_pclatu (x : Wdt) : (s.setWdt x).pclatu = s.pclatu := rfl
@[simp] theorem State.setWdt_stack (x : Wdt) : (s.setWdt x).stack = s.stack := rfl
@[simp] theorem State.setWdt_sp (x : Wdt) : (s.setWdt x).sp = s.sp := rfl
@[simp] theorem State.setWdt_stkful (x : Wdt) : (s.setWdt x).stkful = s.stkful := rfl
@[simp] theorem State.setWdt_stkunf (x : Wdt) : (s.setWdt x).stkunf = s.stkunf := rfl
@[simp] theorem State.setWdt_shadow (x : Wdt) : (s.setWdt x).shadow = s.shadow := rfl
@[simp] theorem State.setWdt_irq (x : Wdt) : (s.setWdt x).irq = s.irq := rfl
@[simp] theorem State.setWdt_rcon (x : Wdt) : (s.setWdt x).rcon = s.rcon := rfl
@[simp] theorem State.setWdt_wdt (x : Wdt) : (s.setWdt x).wdt = x := rfl
@[simp] theorem State.setWdt_sleeping (x : Wdt) : (s.setWdt x).sleeping = s.sleeping := rfl
@[simp] theorem State.setWdt_waking (x : Wdt) : (s.setWdt x).waking = s.waking := rfl
@[simp] theorem State.setWdt_ram (x : Wdt) : (s.setWdt x).ram = s.ram := rfl
@[simp] theorem State.setWdt_prog (x : Wdt) : (s.setWdt x).prog = s.prog := rfl
@[simp] theorem State.setWdt_holding (x : Wdt) : (s.setWdt x).holding = s.holding := rfl
@[simp] theorem State.setWdt_outputs (x : Wdt) : (s.setWdt x).outputs = s.outputs := rfl
@[simp] theorem State.setWdt_draws (x : Wdt) : (s.setWdt x).draws = s.draws := rfl
@[simp] theorem State.setWdt_inputs (x : Wdt) : (s.setWdt x).inputs = s.inputs := rfl
@[simp] theorem State.setWdt_setWdt (x y : Wdt) : (s.setWdt x).setWdt y = s.setWdt y := rfl

@[simp] theorem State.setSleeping_w (x : Bool) : (s.setSleeping x).w = s.w := rfl
@[simp] theorem State.setSleeping_status (x : Bool) : (s.setSleeping x).status = s.status := rfl
@[simp] theorem State.setSleeping_bsr (x : Bool) : (s.setSleeping x).bsr = s.bsr := rfl
@[simp] theorem State.setSleeping_fsr (x : Bool) : (s.setSleeping x).fsr = s.fsr := rfl
@[simp] theorem State.setSleeping_prodh (x : Bool) : (s.setSleeping x).prodh = s.prodh := rfl
@[simp] theorem State.setSleeping_prodl (x : Bool) : (s.setSleeping x).prodl = s.prodl := rfl
@[simp] theorem State.setSleeping_tblptr (x : Bool) : (s.setSleeping x).tblptr = s.tblptr := rfl
@[simp] theorem State.setSleeping_tblptr21 (x : Bool) : (s.setSleeping x).tblptr21 = s.tblptr21 := rfl
@[simp] theorem State.setSleeping_tablat (x : Bool) : (s.setSleeping x).tablat = s.tablat := rfl
@[simp] theorem State.setSleeping_pc (x : Bool) : (s.setSleeping x).pc = s.pc := rfl
@[simp] theorem State.setSleeping_pclath (x : Bool) : (s.setSleeping x).pclath = s.pclath := rfl
@[simp] theorem State.setSleeping_pclatu (x : Bool) : (s.setSleeping x).pclatu = s.pclatu := rfl
@[simp] theorem State.setSleeping_stack (x : Bool) : (s.setSleeping x).stack = s.stack := rfl
@[simp] theorem State.setSleeping_sp (x : Bool) : (s.setSleeping x).sp = s.sp := rfl
@[simp] theorem State.setSleeping_stkful (x : Bool) : (s.setSleeping x).stkful = s.stkful := rfl
@[simp] theorem State.setSleeping_stkunf (x : Bool) : (s.setSleeping x).stkunf = s.stkunf := rfl
@[simp] theorem State.setSleeping_shadow (x : Bool) : (s.setSleeping x).shadow = s.shadow := rfl
@[simp] theorem State.setSleeping_irq (x : Bool) : (s.setSleeping x).irq = s.irq := rfl
@[simp] theorem State.setSleeping_rcon (x : Bool) : (s.setSleeping x).rcon = s.rcon := rfl
@[simp] theorem State.setSleeping_wdt (x : Bool) : (s.setSleeping x).wdt = s.wdt := rfl
@[simp] theorem State.setSleeping_sleeping (x : Bool) : (s.setSleeping x).sleeping = x := rfl
@[simp] theorem State.setSleeping_waking (x : Bool) : (s.setSleeping x).waking = s.waking := rfl
@[simp] theorem State.setSleeping_ram (x : Bool) : (s.setSleeping x).ram = s.ram := rfl
@[simp] theorem State.setSleeping_prog (x : Bool) : (s.setSleeping x).prog = s.prog := rfl
@[simp] theorem State.setSleeping_holding (x : Bool) : (s.setSleeping x).holding = s.holding := rfl
@[simp] theorem State.setSleeping_outputs (x : Bool) : (s.setSleeping x).outputs = s.outputs := rfl
@[simp] theorem State.setSleeping_draws (x : Bool) : (s.setSleeping x).draws = s.draws := rfl
@[simp] theorem State.setSleeping_inputs (x : Bool) : (s.setSleeping x).inputs = s.inputs := rfl
@[simp] theorem State.setSleeping_setSleeping (x y : Bool) : (s.setSleeping x).setSleeping y = s.setSleeping y := rfl

@[simp] theorem State.setWaking_w (x : Bool) : (s.setWaking x).w = s.w := rfl
@[simp] theorem State.setWaking_status (x : Bool) : (s.setWaking x).status = s.status := rfl
@[simp] theorem State.setWaking_bsr (x : Bool) : (s.setWaking x).bsr = s.bsr := rfl
@[simp] theorem State.setWaking_fsr (x : Bool) : (s.setWaking x).fsr = s.fsr := rfl
@[simp] theorem State.setWaking_prodh (x : Bool) : (s.setWaking x).prodh = s.prodh := rfl
@[simp] theorem State.setWaking_prodl (x : Bool) : (s.setWaking x).prodl = s.prodl := rfl
@[simp] theorem State.setWaking_tblptr (x : Bool) : (s.setWaking x).tblptr = s.tblptr := rfl
@[simp] theorem State.setWaking_tblptr21 (x : Bool) : (s.setWaking x).tblptr21 = s.tblptr21 := rfl
@[simp] theorem State.setWaking_tablat (x : Bool) : (s.setWaking x).tablat = s.tablat := rfl
@[simp] theorem State.setWaking_pc (x : Bool) : (s.setWaking x).pc = s.pc := rfl
@[simp] theorem State.setWaking_pclath (x : Bool) : (s.setWaking x).pclath = s.pclath := rfl
@[simp] theorem State.setWaking_pclatu (x : Bool) : (s.setWaking x).pclatu = s.pclatu := rfl
@[simp] theorem State.setWaking_stack (x : Bool) : (s.setWaking x).stack = s.stack := rfl
@[simp] theorem State.setWaking_sp (x : Bool) : (s.setWaking x).sp = s.sp := rfl
@[simp] theorem State.setWaking_stkful (x : Bool) : (s.setWaking x).stkful = s.stkful := rfl
@[simp] theorem State.setWaking_stkunf (x : Bool) : (s.setWaking x).stkunf = s.stkunf := rfl
@[simp] theorem State.setWaking_shadow (x : Bool) : (s.setWaking x).shadow = s.shadow := rfl
@[simp] theorem State.setWaking_irq (x : Bool) : (s.setWaking x).irq = s.irq := rfl
@[simp] theorem State.setWaking_rcon (x : Bool) : (s.setWaking x).rcon = s.rcon := rfl
@[simp] theorem State.setWaking_wdt (x : Bool) : (s.setWaking x).wdt = s.wdt := rfl
@[simp] theorem State.setWaking_sleeping (x : Bool) : (s.setWaking x).sleeping = s.sleeping := rfl
@[simp] theorem State.setWaking_waking (x : Bool) : (s.setWaking x).waking = x := rfl
@[simp] theorem State.setWaking_ram (x : Bool) : (s.setWaking x).ram = s.ram := rfl
@[simp] theorem State.setWaking_prog (x : Bool) : (s.setWaking x).prog = s.prog := rfl
@[simp] theorem State.setWaking_holding (x : Bool) : (s.setWaking x).holding = s.holding := rfl
@[simp] theorem State.setWaking_outputs (x : Bool) : (s.setWaking x).outputs = s.outputs := rfl
@[simp] theorem State.setWaking_draws (x : Bool) : (s.setWaking x).draws = s.draws := rfl
@[simp] theorem State.setWaking_inputs (x : Bool) : (s.setWaking x).inputs = s.inputs := rfl
@[simp] theorem State.setWaking_setWaking (x y : Bool) : (s.setWaking x).setWaking y = s.setWaking y := rfl

@[simp] theorem State.setRam_w (x : Memory) : (s.setRam x).w = s.w := rfl
@[simp] theorem State.setRam_status (x : Memory) : (s.setRam x).status = s.status := rfl
@[simp] theorem State.setRam_bsr (x : Memory) : (s.setRam x).bsr = s.bsr := rfl
@[simp] theorem State.setRam_fsr (x : Memory) : (s.setRam x).fsr = s.fsr := rfl
@[simp] theorem State.setRam_prodh (x : Memory) : (s.setRam x).prodh = s.prodh := rfl
@[simp] theorem State.setRam_prodl (x : Memory) : (s.setRam x).prodl = s.prodl := rfl
@[simp] theorem State.setRam_tblptr (x : Memory) : (s.setRam x).tblptr = s.tblptr := rfl
@[simp] theorem State.setRam_tblptr21 (x : Memory) : (s.setRam x).tblptr21 = s.tblptr21 := rfl
@[simp] theorem State.setRam_tablat (x : Memory) : (s.setRam x).tablat = s.tablat := rfl
@[simp] theorem State.setRam_pc (x : Memory) : (s.setRam x).pc = s.pc := rfl
@[simp] theorem State.setRam_pclath (x : Memory) : (s.setRam x).pclath = s.pclath := rfl
@[simp] theorem State.setRam_pclatu (x : Memory) : (s.setRam x).pclatu = s.pclatu := rfl
@[simp] theorem State.setRam_stack (x : Memory) : (s.setRam x).stack = s.stack := rfl
@[simp] theorem State.setRam_sp (x : Memory) : (s.setRam x).sp = s.sp := rfl
@[simp] theorem State.setRam_stkful (x : Memory) : (s.setRam x).stkful = s.stkful := rfl
@[simp] theorem State.setRam_stkunf (x : Memory) : (s.setRam x).stkunf = s.stkunf := rfl
@[simp] theorem State.setRam_shadow (x : Memory) : (s.setRam x).shadow = s.shadow := rfl
@[simp] theorem State.setRam_irq (x : Memory) : (s.setRam x).irq = s.irq := rfl
@[simp] theorem State.setRam_rcon (x : Memory) : (s.setRam x).rcon = s.rcon := rfl
@[simp] theorem State.setRam_wdt (x : Memory) : (s.setRam x).wdt = s.wdt := rfl
@[simp] theorem State.setRam_sleeping (x : Memory) : (s.setRam x).sleeping = s.sleeping := rfl
@[simp] theorem State.setRam_waking (x : Memory) : (s.setRam x).waking = s.waking := rfl
@[simp] theorem State.setRam_ram (x : Memory) : (s.setRam x).ram = x := rfl
@[simp] theorem State.setRam_prog (x : Memory) : (s.setRam x).prog = s.prog := rfl
@[simp] theorem State.setRam_holding (x : Memory) : (s.setRam x).holding = s.holding := rfl
@[simp] theorem State.setRam_outputs (x : Memory) : (s.setRam x).outputs = s.outputs := rfl
@[simp] theorem State.setRam_draws (x : Memory) : (s.setRam x).draws = s.draws := rfl
@[simp] theorem State.setRam_inputs (x : Memory) : (s.setRam x).inputs = s.inputs := rfl
@[simp] theorem State.setRam_setRam (x y : Memory) : (s.setRam x).setRam y = s.setRam y := rfl

@[simp] theorem State.setProg_w (x : Memory) : (s.setProg x).w = s.w := rfl
@[simp] theorem State.setProg_status (x : Memory) : (s.setProg x).status = s.status := rfl
@[simp] theorem State.setProg_bsr (x : Memory) : (s.setProg x).bsr = s.bsr := rfl
@[simp] theorem State.setProg_fsr (x : Memory) : (s.setProg x).fsr = s.fsr := rfl
@[simp] theorem State.setProg_prodh (x : Memory) : (s.setProg x).prodh = s.prodh := rfl
@[simp] theorem State.setProg_prodl (x : Memory) : (s.setProg x).prodl = s.prodl := rfl
@[simp] theorem State.setProg_tblptr (x : Memory) : (s.setProg x).tblptr = s.tblptr := rfl
@[simp] theorem State.setProg_tblptr21 (x : Memory) : (s.setProg x).tblptr21 = s.tblptr21 := rfl
@[simp] theorem State.setProg_tablat (x : Memory) : (s.setProg x).tablat = s.tablat := rfl
@[simp] theorem State.setProg_pc (x : Memory) : (s.setProg x).pc = s.pc := rfl
@[simp] theorem State.setProg_pclath (x : Memory) : (s.setProg x).pclath = s.pclath := rfl
@[simp] theorem State.setProg_pclatu (x : Memory) : (s.setProg x).pclatu = s.pclatu := rfl
@[simp] theorem State.setProg_stack (x : Memory) : (s.setProg x).stack = s.stack := rfl
@[simp] theorem State.setProg_sp (x : Memory) : (s.setProg x).sp = s.sp := rfl
@[simp] theorem State.setProg_stkful (x : Memory) : (s.setProg x).stkful = s.stkful := rfl
@[simp] theorem State.setProg_stkunf (x : Memory) : (s.setProg x).stkunf = s.stkunf := rfl
@[simp] theorem State.setProg_shadow (x : Memory) : (s.setProg x).shadow = s.shadow := rfl
@[simp] theorem State.setProg_irq (x : Memory) : (s.setProg x).irq = s.irq := rfl
@[simp] theorem State.setProg_rcon (x : Memory) : (s.setProg x).rcon = s.rcon := rfl
@[simp] theorem State.setProg_wdt (x : Memory) : (s.setProg x).wdt = s.wdt := rfl
@[simp] theorem State.setProg_sleeping (x : Memory) : (s.setProg x).sleeping = s.sleeping := rfl
@[simp] theorem State.setProg_waking (x : Memory) : (s.setProg x).waking = s.waking := rfl
@[simp] theorem State.setProg_ram (x : Memory) : (s.setProg x).ram = s.ram := rfl
@[simp] theorem State.setProg_prog (x : Memory) : (s.setProg x).prog = x := rfl
@[simp] theorem State.setProg_holding (x : Memory) : (s.setProg x).holding = s.holding := rfl
@[simp] theorem State.setProg_outputs (x : Memory) : (s.setProg x).outputs = s.outputs := rfl
@[simp] theorem State.setProg_draws (x : Memory) : (s.setProg x).draws = s.draws := rfl
@[simp] theorem State.setProg_inputs (x : Memory) : (s.setProg x).inputs = s.inputs := rfl
@[simp] theorem State.setProg_setProg (x y : Memory) : (s.setProg x).setProg y = s.setProg y := rfl

@[simp] theorem State.setHolding_w (x : Vector Byte Config.holdingBytes) : (s.setHolding x).w = s.w := rfl
@[simp] theorem State.setHolding_status (x : Vector Byte Config.holdingBytes) : (s.setHolding x).status = s.status := rfl
@[simp] theorem State.setHolding_bsr (x : Vector Byte Config.holdingBytes) : (s.setHolding x).bsr = s.bsr := rfl
@[simp] theorem State.setHolding_fsr (x : Vector Byte Config.holdingBytes) : (s.setHolding x).fsr = s.fsr := rfl
@[simp] theorem State.setHolding_prodh (x : Vector Byte Config.holdingBytes) : (s.setHolding x).prodh = s.prodh := rfl
@[simp] theorem State.setHolding_prodl (x : Vector Byte Config.holdingBytes) : (s.setHolding x).prodl = s.prodl := rfl
@[simp] theorem State.setHolding_tblptr (x : Vector Byte Config.holdingBytes) : (s.setHolding x).tblptr = s.tblptr := rfl
@[simp] theorem State.setHolding_tblptr21 (x : Vector Byte Config.holdingBytes) : (s.setHolding x).tblptr21 = s.tblptr21 := rfl
@[simp] theorem State.setHolding_tablat (x : Vector Byte Config.holdingBytes) : (s.setHolding x).tablat = s.tablat := rfl
@[simp] theorem State.setHolding_pc (x : Vector Byte Config.holdingBytes) : (s.setHolding x).pc = s.pc := rfl
@[simp] theorem State.setHolding_pclath (x : Vector Byte Config.holdingBytes) : (s.setHolding x).pclath = s.pclath := rfl
@[simp] theorem State.setHolding_pclatu (x : Vector Byte Config.holdingBytes) : (s.setHolding x).pclatu = s.pclatu := rfl
@[simp] theorem State.setHolding_stack (x : Vector Byte Config.holdingBytes) : (s.setHolding x).stack = s.stack := rfl
@[simp] theorem State.setHolding_sp (x : Vector Byte Config.holdingBytes) : (s.setHolding x).sp = s.sp := rfl
@[simp] theorem State.setHolding_stkful (x : Vector Byte Config.holdingBytes) : (s.setHolding x).stkful = s.stkful := rfl
@[simp] theorem State.setHolding_stkunf (x : Vector Byte Config.holdingBytes) : (s.setHolding x).stkunf = s.stkunf := rfl
@[simp] theorem State.setHolding_shadow (x : Vector Byte Config.holdingBytes) : (s.setHolding x).shadow = s.shadow := rfl
@[simp] theorem State.setHolding_irq (x : Vector Byte Config.holdingBytes) : (s.setHolding x).irq = s.irq := rfl
@[simp] theorem State.setHolding_rcon (x : Vector Byte Config.holdingBytes) : (s.setHolding x).rcon = s.rcon := rfl
@[simp] theorem State.setHolding_wdt (x : Vector Byte Config.holdingBytes) : (s.setHolding x).wdt = s.wdt := rfl
@[simp] theorem State.setHolding_sleeping (x : Vector Byte Config.holdingBytes) : (s.setHolding x).sleeping = s.sleeping := rfl
@[simp] theorem State.setHolding_waking (x : Vector Byte Config.holdingBytes) : (s.setHolding x).waking = s.waking := rfl
@[simp] theorem State.setHolding_ram (x : Vector Byte Config.holdingBytes) : (s.setHolding x).ram = s.ram := rfl
@[simp] theorem State.setHolding_prog (x : Vector Byte Config.holdingBytes) : (s.setHolding x).prog = s.prog := rfl
@[simp] theorem State.setHolding_holding (x : Vector Byte Config.holdingBytes) : (s.setHolding x).holding = x := rfl
@[simp] theorem State.setHolding_outputs (x : Vector Byte Config.holdingBytes) : (s.setHolding x).outputs = s.outputs := rfl
@[simp] theorem State.setHolding_draws (x : Vector Byte Config.holdingBytes) : (s.setHolding x).draws = s.draws := rfl
@[simp] theorem State.setHolding_inputs (x : Vector Byte Config.holdingBytes) : (s.setHolding x).inputs = s.inputs := rfl
@[simp] theorem State.setHolding_setHolding (x y : Vector Byte Config.holdingBytes) : (s.setHolding x).setHolding y = s.setHolding y := rfl

@[simp] theorem State.setOutputs_w (x : List (DataAddr × Byte)) : (s.setOutputs x).w = s.w := rfl
@[simp] theorem State.setOutputs_status (x : List (DataAddr × Byte)) : (s.setOutputs x).status = s.status := rfl
@[simp] theorem State.setOutputs_bsr (x : List (DataAddr × Byte)) : (s.setOutputs x).bsr = s.bsr := rfl
@[simp] theorem State.setOutputs_fsr (x : List (DataAddr × Byte)) : (s.setOutputs x).fsr = s.fsr := rfl
@[simp] theorem State.setOutputs_prodh (x : List (DataAddr × Byte)) : (s.setOutputs x).prodh = s.prodh := rfl
@[simp] theorem State.setOutputs_prodl (x : List (DataAddr × Byte)) : (s.setOutputs x).prodl = s.prodl := rfl
@[simp] theorem State.setOutputs_tblptr (x : List (DataAddr × Byte)) : (s.setOutputs x).tblptr = s.tblptr := rfl
@[simp] theorem State.setOutputs_tblptr21 (x : List (DataAddr × Byte)) : (s.setOutputs x).tblptr21 = s.tblptr21 := rfl
@[simp] theorem State.setOutputs_tablat (x : List (DataAddr × Byte)) : (s.setOutputs x).tablat = s.tablat := rfl
@[simp] theorem State.setOutputs_pc (x : List (DataAddr × Byte)) : (s.setOutputs x).pc = s.pc := rfl
@[simp] theorem State.setOutputs_pclath (x : List (DataAddr × Byte)) : (s.setOutputs x).pclath = s.pclath := rfl
@[simp] theorem State.setOutputs_pclatu (x : List (DataAddr × Byte)) : (s.setOutputs x).pclatu = s.pclatu := rfl
@[simp] theorem State.setOutputs_stack (x : List (DataAddr × Byte)) : (s.setOutputs x).stack = s.stack := rfl
@[simp] theorem State.setOutputs_sp (x : List (DataAddr × Byte)) : (s.setOutputs x).sp = s.sp := rfl
@[simp] theorem State.setOutputs_stkful (x : List (DataAddr × Byte)) : (s.setOutputs x).stkful = s.stkful := rfl
@[simp] theorem State.setOutputs_stkunf (x : List (DataAddr × Byte)) : (s.setOutputs x).stkunf = s.stkunf := rfl
@[simp] theorem State.setOutputs_shadow (x : List (DataAddr × Byte)) : (s.setOutputs x).shadow = s.shadow := rfl
@[simp] theorem State.setOutputs_irq (x : List (DataAddr × Byte)) : (s.setOutputs x).irq = s.irq := rfl
@[simp] theorem State.setOutputs_rcon (x : List (DataAddr × Byte)) : (s.setOutputs x).rcon = s.rcon := rfl
@[simp] theorem State.setOutputs_wdt (x : List (DataAddr × Byte)) : (s.setOutputs x).wdt = s.wdt := rfl
@[simp] theorem State.setOutputs_sleeping (x : List (DataAddr × Byte)) : (s.setOutputs x).sleeping = s.sleeping := rfl
@[simp] theorem State.setOutputs_waking (x : List (DataAddr × Byte)) : (s.setOutputs x).waking = s.waking := rfl
@[simp] theorem State.setOutputs_ram (x : List (DataAddr × Byte)) : (s.setOutputs x).ram = s.ram := rfl
@[simp] theorem State.setOutputs_prog (x : List (DataAddr × Byte)) : (s.setOutputs x).prog = s.prog := rfl
@[simp] theorem State.setOutputs_holding (x : List (DataAddr × Byte)) : (s.setOutputs x).holding = s.holding := rfl
@[simp] theorem State.setOutputs_outputs (x : List (DataAddr × Byte)) : (s.setOutputs x).outputs = x := rfl
@[simp] theorem State.setOutputs_draws (x : List (DataAddr × Byte)) : (s.setOutputs x).draws = s.draws := rfl
@[simp] theorem State.setOutputs_inputs (x : List (DataAddr × Byte)) : (s.setOutputs x).inputs = s.inputs := rfl
@[simp] theorem State.setOutputs_setOutputs (x y : List (DataAddr × Byte)) : (s.setOutputs x).setOutputs y = s.setOutputs y := rfl

@[simp] theorem State.setDraws_w (x : Nat) : (s.setDraws x).w = s.w := rfl
@[simp] theorem State.setDraws_status (x : Nat) : (s.setDraws x).status = s.status := rfl
@[simp] theorem State.setDraws_bsr (x : Nat) : (s.setDraws x).bsr = s.bsr := rfl
@[simp] theorem State.setDraws_fsr (x : Nat) : (s.setDraws x).fsr = s.fsr := rfl
@[simp] theorem State.setDraws_prodh (x : Nat) : (s.setDraws x).prodh = s.prodh := rfl
@[simp] theorem State.setDraws_prodl (x : Nat) : (s.setDraws x).prodl = s.prodl := rfl
@[simp] theorem State.setDraws_tblptr (x : Nat) : (s.setDraws x).tblptr = s.tblptr := rfl
@[simp] theorem State.setDraws_tblptr21 (x : Nat) : (s.setDraws x).tblptr21 = s.tblptr21 := rfl
@[simp] theorem State.setDraws_tablat (x : Nat) : (s.setDraws x).tablat = s.tablat := rfl
@[simp] theorem State.setDraws_pc (x : Nat) : (s.setDraws x).pc = s.pc := rfl
@[simp] theorem State.setDraws_pclath (x : Nat) : (s.setDraws x).pclath = s.pclath := rfl
@[simp] theorem State.setDraws_pclatu (x : Nat) : (s.setDraws x).pclatu = s.pclatu := rfl
@[simp] theorem State.setDraws_stack (x : Nat) : (s.setDraws x).stack = s.stack := rfl
@[simp] theorem State.setDraws_sp (x : Nat) : (s.setDraws x).sp = s.sp := rfl
@[simp] theorem State.setDraws_stkful (x : Nat) : (s.setDraws x).stkful = s.stkful := rfl
@[simp] theorem State.setDraws_stkunf (x : Nat) : (s.setDraws x).stkunf = s.stkunf := rfl
@[simp] theorem State.setDraws_shadow (x : Nat) : (s.setDraws x).shadow = s.shadow := rfl
@[simp] theorem State.setDraws_irq (x : Nat) : (s.setDraws x).irq = s.irq := rfl
@[simp] theorem State.setDraws_rcon (x : Nat) : (s.setDraws x).rcon = s.rcon := rfl
@[simp] theorem State.setDraws_wdt (x : Nat) : (s.setDraws x).wdt = s.wdt := rfl
@[simp] theorem State.setDraws_sleeping (x : Nat) : (s.setDraws x).sleeping = s.sleeping := rfl
@[simp] theorem State.setDraws_waking (x : Nat) : (s.setDraws x).waking = s.waking := rfl
@[simp] theorem State.setDraws_ram (x : Nat) : (s.setDraws x).ram = s.ram := rfl
@[simp] theorem State.setDraws_prog (x : Nat) : (s.setDraws x).prog = s.prog := rfl
@[simp] theorem State.setDraws_holding (x : Nat) : (s.setDraws x).holding = s.holding := rfl
@[simp] theorem State.setDraws_outputs (x : Nat) : (s.setDraws x).outputs = s.outputs := rfl
@[simp] theorem State.setDraws_draws (x : Nat) : (s.setDraws x).draws = x := rfl
@[simp] theorem State.setDraws_inputs (x : Nat) : (s.setDraws x).inputs = s.inputs := rfl
@[simp] theorem State.setDraws_setDraws (x y : Nat) : (s.setDraws x).setDraws y = s.setDraws y := rfl

@[simp] theorem State.setInputs_w (x : List Input) : (s.setInputs x).w = s.w := rfl
@[simp] theorem State.setInputs_status (x : List Input) : (s.setInputs x).status = s.status := rfl
@[simp] theorem State.setInputs_bsr (x : List Input) : (s.setInputs x).bsr = s.bsr := rfl
@[simp] theorem State.setInputs_fsr (x : List Input) : (s.setInputs x).fsr = s.fsr := rfl
@[simp] theorem State.setInputs_prodh (x : List Input) : (s.setInputs x).prodh = s.prodh := rfl
@[simp] theorem State.setInputs_prodl (x : List Input) : (s.setInputs x).prodl = s.prodl := rfl
@[simp] theorem State.setInputs_tblptr (x : List Input) : (s.setInputs x).tblptr = s.tblptr := rfl
@[simp] theorem State.setInputs_tblptr21 (x : List Input) : (s.setInputs x).tblptr21 = s.tblptr21 := rfl
@[simp] theorem State.setInputs_tablat (x : List Input) : (s.setInputs x).tablat = s.tablat := rfl
@[simp] theorem State.setInputs_pc (x : List Input) : (s.setInputs x).pc = s.pc := rfl
@[simp] theorem State.setInputs_pclath (x : List Input) : (s.setInputs x).pclath = s.pclath := rfl
@[simp] theorem State.setInputs_pclatu (x : List Input) : (s.setInputs x).pclatu = s.pclatu := rfl
@[simp] theorem State.setInputs_stack (x : List Input) : (s.setInputs x).stack = s.stack := rfl
@[simp] theorem State.setInputs_sp (x : List Input) : (s.setInputs x).sp = s.sp := rfl
@[simp] theorem State.setInputs_stkful (x : List Input) : (s.setInputs x).stkful = s.stkful := rfl
@[simp] theorem State.setInputs_stkunf (x : List Input) : (s.setInputs x).stkunf = s.stkunf := rfl
@[simp] theorem State.setInputs_shadow (x : List Input) : (s.setInputs x).shadow = s.shadow := rfl
@[simp] theorem State.setInputs_irq (x : List Input) : (s.setInputs x).irq = s.irq := rfl
@[simp] theorem State.setInputs_rcon (x : List Input) : (s.setInputs x).rcon = s.rcon := rfl
@[simp] theorem State.setInputs_wdt (x : List Input) : (s.setInputs x).wdt = s.wdt := rfl
@[simp] theorem State.setInputs_sleeping (x : List Input) : (s.setInputs x).sleeping = s.sleeping := rfl
@[simp] theorem State.setInputs_waking (x : List Input) : (s.setInputs x).waking = s.waking := rfl
@[simp] theorem State.setInputs_ram (x : List Input) : (s.setInputs x).ram = s.ram := rfl
@[simp] theorem State.setInputs_prog (x : List Input) : (s.setInputs x).prog = s.prog := rfl
@[simp] theorem State.setInputs_holding (x : List Input) : (s.setInputs x).holding = s.holding := rfl
@[simp] theorem State.setInputs_outputs (x : List Input) : (s.setInputs x).outputs = s.outputs := rfl
@[simp] theorem State.setInputs_draws (x : List Input) : (s.setInputs x).draws = s.draws := rfl
@[simp] theorem State.setInputs_inputs (x : List Input) : (s.setInputs x).inputs = x := rfl
@[simp] theorem State.setInputs_setInputs (x y : List Input) : (s.setInputs x).setInputs y = s.setInputs y := rfl

/-- Two states that agree in every field are one. -/
theorem State.eq_of_fields {s t : State}
    (h_w : s.w = t.w) (h_status : s.status = t.status) (h_bsr : s.bsr = t.bsr) (h_fsr : s.fsr = t.fsr)
    (h_prodh : s.prodh = t.prodh) (h_prodl : s.prodl = t.prodl) (h_tblptr : s.tblptr = t.tblptr)
    (h_tblptr21 : s.tblptr21 = t.tblptr21) (h_tablat : s.tablat = t.tablat) (h_pc : s.pc = t.pc)
    (h_pclath : s.pclath = t.pclath) (h_pclatu : s.pclatu = t.pclatu) (h_stack : s.stack = t.stack)
    (h_sp : s.sp = t.sp) (h_stkful : s.stkful = t.stkful) (h_stkunf : s.stkunf = t.stkunf) (h_shadow :
    s.shadow = t.shadow) (h_irq : s.irq = t.irq) (h_rcon : s.rcon = t.rcon) (h_wdt : s.wdt = t.wdt)
    (h_sleeping : s.sleeping = t.sleeping) (h_waking : s.waking = t.waking) (h_ram : s.ram = t.ram) (h_prog : s.prog = t.prog) (h_holding
    : s.holding = t.holding) (h_outputs : s.outputs = t.outputs) (h_draws : s.draws = t.draws) (h_inputs
    : s.inputs = t.inputs) : s = t := by
  cases s
  cases t
  simp only at *
  subst h_w h_status h_bsr h_fsr h_prodh h_prodl h_tblptr h_tblptr21 h_tablat h_pc h_pclath h_pclatu h_stack h_sp h_stkful h_stkunf h_shadow h_irq h_rcon h_wdt h_sleeping h_waking h_ram h_prog h_holding h_outputs h_draws h_inputs
  rfl

end Sys2Proof.Machine
end

