-- ==== Sys2Proof/Laws/Fields.lean ====
section
/-! SUPPORT. The fields an operation does not touch. For each operation one equation that names the fields it may change,
and from it one lemma per field it leaves alone, so that no proof unfolds an operation for such a field. -/

namespace Sys2Proof.Machine

@[simp] theorem advance_w (n : Nat) (s : State) : (advance n s).w = s.w := rfl
@[simp] theorem advance_status (n : Nat) (s : State) : (advance n s).status = s.status := rfl
@[simp] theorem advance_bsr (n : Nat) (s : State) : (advance n s).bsr = s.bsr := rfl
@[simp] theorem advance_fsr (n : Nat) (s : State) : (advance n s).fsr = s.fsr := rfl
@[simp] theorem advance_prodh (n : Nat) (s : State) : (advance n s).prodh = s.prodh := rfl
@[simp] theorem advance_prodl (n : Nat) (s : State) : (advance n s).prodl = s.prodl := rfl
@[simp] theorem advance_tblptr (n : Nat) (s : State) : (advance n s).tblptr = s.tblptr := rfl
@[simp] theorem advance_tblptr21 (n : Nat) (s : State) : (advance n s).tblptr21 = s.tblptr21 := rfl
@[simp] theorem advance_tablat (n : Nat) (s : State) : (advance n s).tablat = s.tablat := rfl
@[simp] theorem advance_pclath (n : Nat) (s : State) : (advance n s).pclath = s.pclath := rfl
@[simp] theorem advance_pclatu (n : Nat) (s : State) : (advance n s).pclatu = s.pclatu := rfl
@[simp] theorem advance_stack (n : Nat) (s : State) : (advance n s).stack = s.stack := rfl
@[simp] theorem advance_sp (n : Nat) (s : State) : (advance n s).sp = s.sp := rfl
@[simp] theorem advance_stkful (n : Nat) (s : State) : (advance n s).stkful = s.stkful := rfl
@[simp] theorem advance_stkunf (n : Nat) (s : State) : (advance n s).stkunf = s.stkunf := rfl
@[simp] theorem advance_shadow (n : Nat) (s : State) : (advance n s).shadow = s.shadow := rfl
@[simp] theorem advance_irq (n : Nat) (s : State) : (advance n s).irq = s.irq := rfl
@[simp] theorem advance_rcon (n : Nat) (s : State) : (advance n s).rcon = s.rcon := rfl
@[simp] theorem advance_wdt (n : Nat) (s : State) : (advance n s).wdt = s.wdt := rfl
@[simp] theorem advance_sleeping (n : Nat) (s : State) : (advance n s).sleeping = s.sleeping := rfl
@[simp] theorem advance_waking (n : Nat) (s : State) : (advance n s).waking = s.waking := rfl
@[simp] theorem advance_ram (n : Nat) (s : State) : (advance n s).ram = s.ram := rfl
@[simp] theorem advance_prog (n : Nat) (s : State) : (advance n s).prog = s.prog := rfl
@[simp] theorem advance_holding (n : Nat) (s : State) : (advance n s).holding = s.holding := rfl
@[simp] theorem advance_outputs (n : Nat) (s : State) : (advance n s).outputs = s.outputs := rfl
@[simp] theorem advance_draws (n : Nat) (s : State) : (advance n s).draws = s.draws := rfl
@[simp] theorem advance_inputs (n : Nat) (s : State) : (advance n s).inputs = s.inputs := rfl

@[simp] theorem setFlags_w (u : FlagUpdate) (s : State) : (setFlags u s).w = s.w := rfl
@[simp] theorem setFlags_bsr (u : FlagUpdate) (s : State) : (setFlags u s).bsr = s.bsr := rfl
@[simp] theorem setFlags_fsr (u : FlagUpdate) (s : State) : (setFlags u s).fsr = s.fsr := rfl
@[simp] theorem setFlags_prodh (u : FlagUpdate) (s : State) : (setFlags u s).prodh = s.prodh := rfl
@[simp] theorem setFlags_prodl (u : FlagUpdate) (s : State) : (setFlags u s).prodl = s.prodl := rfl
@[simp] theorem setFlags_tblptr (u : FlagUpdate) (s : State) : (setFlags u s).tblptr = s.tblptr := rfl
@[simp] theorem setFlags_tblptr21 (u : FlagUpdate) (s : State) : (setFlags u s).tblptr21 = s.tblptr21 := rfl
@[simp] theorem setFlags_tablat (u : FlagUpdate) (s : State) : (setFlags u s).tablat = s.tablat := rfl
@[simp] theorem setFlags_pc (u : FlagUpdate) (s : State) : (setFlags u s).pc = s.pc := rfl
@[simp] theorem setFlags_pclath (u : FlagUpdate) (s : State) : (setFlags u s).pclath = s.pclath := rfl
@[simp] theorem setFlags_pclatu (u : FlagUpdate) (s : State) : (setFlags u s).pclatu = s.pclatu := rfl
@[simp] theorem setFlags_stack (u : FlagUpdate) (s : State) : (setFlags u s).stack = s.stack := rfl
@[simp] theorem setFlags_sp (u : FlagUpdate) (s : State) : (setFlags u s).sp = s.sp := rfl
@[simp] theorem setFlags_stkful (u : FlagUpdate) (s : State) : (setFlags u s).stkful = s.stkful := rfl
@[simp] theorem setFlags_stkunf (u : FlagUpdate) (s : State) : (setFlags u s).stkunf = s.stkunf := rfl
@[simp] theorem setFlags_shadow (u : FlagUpdate) (s : State) : (setFlags u s).shadow = s.shadow := rfl
@[simp] theorem setFlags_irq (u : FlagUpdate) (s : State) : (setFlags u s).irq = s.irq := rfl
@[simp] theorem setFlags_rcon (u : FlagUpdate) (s : State) : (setFlags u s).rcon = s.rcon := rfl
@[simp] theorem setFlags_wdt (u : FlagUpdate) (s : State) : (setFlags u s).wdt = s.wdt := rfl
@[simp] theorem setFlags_sleeping (u : FlagUpdate) (s : State) : (setFlags u s).sleeping = s.sleeping := rfl
@[simp] theorem setFlags_waking (u : FlagUpdate) (s : State) : (setFlags u s).waking = s.waking := rfl
@[simp] theorem setFlags_ram (u : FlagUpdate) (s : State) : (setFlags u s).ram = s.ram := rfl
@[simp] theorem setFlags_prog (u : FlagUpdate) (s : State) : (setFlags u s).prog = s.prog := rfl
@[simp] theorem setFlags_holding (u : FlagUpdate) (s : State) : (setFlags u s).holding = s.holding := rfl
@[simp] theorem setFlags_outputs (u : FlagUpdate) (s : State) : (setFlags u s).outputs = s.outputs := rfl
@[simp] theorem setFlags_draws (u : FlagUpdate) (s : State) : (setFlags u s).draws = s.draws := rfl
@[simp] theorem setFlags_inputs (u : FlagUpdate) (s : State) : (setFlags u s).inputs = s.inputs := rfl

@[simp] theorem putFsr_w (n : FsrIx) (v : DataAddr) (s : State) : (putFsr n v s).w = s.w := rfl
@[simp] theorem putFsr_status (n : FsrIx) (v : DataAddr) (s : State) : (putFsr n v s).status = s.status := rfl
@[simp] theorem putFsr_bsr (n : FsrIx) (v : DataAddr) (s : State) : (putFsr n v s).bsr = s.bsr := rfl
@[simp] theorem putFsr_prodh (n : FsrIx) (v : DataAddr) (s : State) : (putFsr n v s).prodh = s.prodh := rfl
@[simp] theorem putFsr_prodl (n : FsrIx) (v : DataAddr) (s : State) : (putFsr n v s).prodl = s.prodl := rfl
@[simp] theorem putFsr_tblptr (n : FsrIx) (v : DataAddr) (s : State) : (putFsr n v s).tblptr = s.tblptr := rfl
@[simp] theorem putFsr_tblptr21 (n : FsrIx) (v : DataAddr) (s : State) : (putFsr n v s).tblptr21 = s.tblptr21 := rfl
@[simp] theorem putFsr_tablat (n : FsrIx) (v : DataAddr) (s : State) : (putFsr n v s).tablat = s.tablat := rfl
@[simp] theorem putFsr_pc (n : FsrIx) (v : DataAddr) (s : State) : (putFsr n v s).pc = s.pc := rfl
@[simp] theorem putFsr_pclath (n : FsrIx) (v : DataAddr) (s : State) : (putFsr n v s).pclath = s.pclath := rfl
@[simp] theorem putFsr_pclatu (n : FsrIx) (v : DataAddr) (s : State) : (putFsr n v s).pclatu = s.pclatu := rfl
@[simp] theorem putFsr_stack (n : FsrIx) (v : DataAddr) (s : State) : (putFsr n v s).stack = s.stack := rfl
@[simp] theorem putFsr_sp (n : FsrIx) (v : DataAddr) (s : State) : (putFsr n v s).sp = s.sp := rfl
@[simp] theorem putFsr_stkful (n : FsrIx) (v : DataAddr) (s : State) : (putFsr n v s).stkful = s.stkful := rfl
@[simp] theorem putFsr_stkunf (n : FsrIx) (v : DataAddr) (s : State) : (putFsr n v s).stkunf = s.stkunf := rfl
@[simp] theorem putFsr_shadow (n : FsrIx) (v : DataAddr) (s : State) : (putFsr n v s).shadow = s.shadow := rfl
@[simp] theorem putFsr_irq (n : FsrIx) (v : DataAddr) (s : State) : (putFsr n v s).irq = s.irq := rfl
@[simp] theorem putFsr_rcon (n : FsrIx) (v : DataAddr) (s : State) : (putFsr n v s).rcon = s.rcon := rfl
@[simp] theorem putFsr_wdt (n : FsrIx) (v : DataAddr) (s : State) : (putFsr n v s).wdt = s.wdt := rfl
@[simp] theorem putFsr_sleeping (n : FsrIx) (v : DataAddr) (s : State) : (putFsr n v s).sleeping = s.sleeping := rfl
@[simp] theorem putFsr_waking (n : FsrIx) (v : DataAddr) (s : State) : (putFsr n v s).waking = s.waking := rfl
@[simp] theorem putFsr_ram (n : FsrIx) (v : DataAddr) (s : State) : (putFsr n v s).ram = s.ram := rfl
@[simp] theorem putFsr_prog (n : FsrIx) (v : DataAddr) (s : State) : (putFsr n v s).prog = s.prog := rfl
@[simp] theorem putFsr_holding (n : FsrIx) (v : DataAddr) (s : State) : (putFsr n v s).holding = s.holding := rfl
@[simp] theorem putFsr_outputs (n : FsrIx) (v : DataAddr) (s : State) : (putFsr n v s).outputs = s.outputs := rfl
@[simp] theorem putFsr_draws (n : FsrIx) (v : DataAddr) (s : State) : (putFsr n v s).draws = s.draws := rfl
@[simp] theorem putFsr_inputs (n : FsrIx) (v : DataAddr) (s : State) : (putFsr n v s).inputs = s.inputs := rfl

@[simp] theorem ramWrite_w (a : DataAddr) (v : Byte) (s : State) : (ramWrite a v s).w = s.w := rfl
@[simp] theorem ramWrite_status (a : DataAddr) (v : Byte) (s : State) : (ramWrite a v s).status = s.status := rfl
@[simp] theorem ramWrite_bsr (a : DataAddr) (v : Byte) (s : State) : (ramWrite a v s).bsr = s.bsr := rfl
@[simp] theorem ramWrite_fsr (a : DataAddr) (v : Byte) (s : State) : (ramWrite a v s).fsr = s.fsr := rfl
@[simp] theorem ramWrite_prodh (a : DataAddr) (v : Byte) (s : State) : (ramWrite a v s).prodh = s.prodh := rfl
@[simp] theorem ramWrite_prodl (a : DataAddr) (v : Byte) (s : State) : (ramWrite a v s).prodl = s.prodl := rfl
@[simp] theorem ramWrite_tblptr (a : DataAddr) (v : Byte) (s : State) : (ramWrite a v s).tblptr = s.tblptr := rfl
@[simp] theorem ramWrite_tblptr21 (a : DataAddr) (v : Byte) (s : State) : (ramWrite a v s).tblptr21 = s.tblptr21 := rfl
@[simp] theorem ramWrite_tablat (a : DataAddr) (v : Byte) (s : State) : (ramWrite a v s).tablat = s.tablat := rfl
@[simp] theorem ramWrite_pc (a : DataAddr) (v : Byte) (s : State) : (ramWrite a v s).pc = s.pc := rfl
@[simp] theorem ramWrite_pclath (a : DataAddr) (v : Byte) (s : State) : (ramWrite a v s).pclath = s.pclath := rfl
@[simp] theorem ramWrite_pclatu (a : DataAddr) (v : Byte) (s : State) : (ramWrite a v s).pclatu = s.pclatu := rfl
@[simp] theorem ramWrite_stack (a : DataAddr) (v : Byte) (s : State) : (ramWrite a v s).stack = s.stack := rfl
@[simp] theorem ramWrite_sp (a : DataAddr) (v : Byte) (s : State) : (ramWrite a v s).sp = s.sp := rfl
@[simp] theorem ramWrite_stkful (a : DataAddr) (v : Byte) (s : State) : (ramWrite a v s).stkful = s.stkful := rfl
@[simp] theorem ramWrite_stkunf (a : DataAddr) (v : Byte) (s : State) : (ramWrite a v s).stkunf = s.stkunf := rfl
@[simp] theorem ramWrite_shadow (a : DataAddr) (v : Byte) (s : State) : (ramWrite a v s).shadow = s.shadow := rfl
@[simp] theorem ramWrite_irq (a : DataAddr) (v : Byte) (s : State) : (ramWrite a v s).irq = s.irq := rfl
@[simp] theorem ramWrite_rcon (a : DataAddr) (v : Byte) (s : State) : (ramWrite a v s).rcon = s.rcon := rfl
@[simp] theorem ramWrite_wdt (a : DataAddr) (v : Byte) (s : State) : (ramWrite a v s).wdt = s.wdt := rfl
@[simp] theorem ramWrite_sleeping (a : DataAddr) (v : Byte) (s : State) : (ramWrite a v s).sleeping = s.sleeping := rfl
@[simp] theorem ramWrite_waking (a : DataAddr) (v : Byte) (s : State) : (ramWrite a v s).waking = s.waking := rfl
@[simp] theorem ramWrite_prog (a : DataAddr) (v : Byte) (s : State) : (ramWrite a v s).prog = s.prog := rfl
@[simp] theorem ramWrite_holding (a : DataAddr) (v : Byte) (s : State) : (ramWrite a v s).holding = s.holding := rfl
@[simp] theorem ramWrite_outputs (a : DataAddr) (v : Byte) (s : State) : (ramWrite a v s).outputs = s.outputs := rfl
@[simp] theorem ramWrite_draws (a : DataAddr) (v : Byte) (s : State) : (ramWrite a v s).draws = s.draws := rfl
@[simp] theorem ramWrite_inputs (a : DataAddr) (v : Byte) (s : State) : (ramWrite a v s).inputs = s.inputs := rfl

@[simp] theorem setProduct_w (x y : Byte) (s : State) : (setProduct x y s).w = s.w := rfl
@[simp] theorem setProduct_status (x y : Byte) (s : State) : (setProduct x y s).status = s.status := rfl
@[simp] theorem setProduct_bsr (x y : Byte) (s : State) : (setProduct x y s).bsr = s.bsr := rfl
@[simp] theorem setProduct_fsr (x y : Byte) (s : State) : (setProduct x y s).fsr = s.fsr := rfl
@[simp] theorem setProduct_tblptr (x y : Byte) (s : State) : (setProduct x y s).tblptr = s.tblptr := rfl
@[simp] theorem setProduct_tblptr21 (x y : Byte) (s : State) : (setProduct x y s).tblptr21 = s.tblptr21 := rfl
@[simp] theorem setProduct_tablat (x y : Byte) (s : State) : (setProduct x y s).tablat = s.tablat := rfl
@[simp] theorem setProduct_pc (x y : Byte) (s : State) : (setProduct x y s).pc = s.pc := rfl
@[simp] theorem setProduct_pclath (x y : Byte) (s : State) : (setProduct x y s).pclath = s.pclath := rfl
@[simp] theorem setProduct_pclatu (x y : Byte) (s : State) : (setProduct x y s).pclatu = s.pclatu := rfl
@[simp] theorem setProduct_stack (x y : Byte) (s : State) : (setProduct x y s).stack = s.stack := rfl
@[simp] theorem setProduct_sp (x y : Byte) (s : State) : (setProduct x y s).sp = s.sp := rfl
@[simp] theorem setProduct_stkful (x y : Byte) (s : State) : (setProduct x y s).stkful = s.stkful := rfl
@[simp] theorem setProduct_stkunf (x y : Byte) (s : State) : (setProduct x y s).stkunf = s.stkunf := rfl
@[simp] theorem setProduct_shadow (x y : Byte) (s : State) : (setProduct x y s).shadow = s.shadow := rfl
@[simp] theorem setProduct_irq (x y : Byte) (s : State) : (setProduct x y s).irq = s.irq := rfl
@[simp] theorem setProduct_rcon (x y : Byte) (s : State) : (setProduct x y s).rcon = s.rcon := rfl
@[simp] theorem setProduct_wdt (x y : Byte) (s : State) : (setProduct x y s).wdt = s.wdt := rfl
@[simp] theorem setProduct_sleeping (x y : Byte) (s : State) : (setProduct x y s).sleeping = s.sleeping := rfl
@[simp] theorem setProduct_waking (x y : Byte) (s : State) : (setProduct x y s).waking = s.waking := rfl
@[simp] theorem setProduct_ram (x y : Byte) (s : State) : (setProduct x y s).ram = s.ram := rfl
@[simp] theorem setProduct_prog (x y : Byte) (s : State) : (setProduct x y s).prog = s.prog := rfl
@[simp] theorem setProduct_holding (x y : Byte) (s : State) : (setProduct x y s).holding = s.holding := rfl
@[simp] theorem setProduct_outputs (x y : Byte) (s : State) : (setProduct x y s).outputs = s.outputs := rfl
@[simp] theorem setProduct_draws (x y : Byte) (s : State) : (setProduct x y s).draws = s.draws := rfl
@[simp] theorem setProduct_inputs (x y : Byte) (s : State) : (setProduct x y s).inputs = s.inputs := rfl

@[simp] theorem saveShadow_w (s : State) : (saveShadow s).w = s.w := rfl
@[simp] theorem saveShadow_status (s : State) : (saveShadow s).status = s.status := rfl
@[simp] theorem saveShadow_bsr (s : State) : (saveShadow s).bsr = s.bsr := rfl
@[simp] theorem saveShadow_fsr (s : State) : (saveShadow s).fsr = s.fsr := rfl
@[simp] theorem saveShadow_prodh (s : State) : (saveShadow s).prodh = s.prodh := rfl
@[simp] theorem saveShadow_prodl (s : State) : (saveShadow s).prodl = s.prodl := rfl
@[simp] theorem saveShadow_tblptr (s : State) : (saveShadow s).tblptr = s.tblptr := rfl
@[simp] theorem saveShadow_tblptr21 (s : State) : (saveShadow s).tblptr21 = s.tblptr21 := rfl
@[simp] theorem saveShadow_tablat (s : State) : (saveShadow s).tablat = s.tablat := rfl
@[simp] theorem saveShadow_pc (s : State) : (saveShadow s).pc = s.pc := rfl
@[simp] theorem saveShadow_pclath (s : State) : (saveShadow s).pclath = s.pclath := rfl
@[simp] theorem saveShadow_pclatu (s : State) : (saveShadow s).pclatu = s.pclatu := rfl
@[simp] theorem saveShadow_stack (s : State) : (saveShadow s).stack = s.stack := rfl
@[simp] theorem saveShadow_sp (s : State) : (saveShadow s).sp = s.sp := rfl
@[simp] theorem saveShadow_stkful (s : State) : (saveShadow s).stkful = s.stkful := rfl
@[simp] theorem saveShadow_stkunf (s : State) : (saveShadow s).stkunf = s.stkunf := rfl
@[simp] theorem saveShadow_irq (s : State) : (saveShadow s).irq = s.irq := rfl
@[simp] theorem saveShadow_rcon (s : State) : (saveShadow s).rcon = s.rcon := rfl
@[simp] theorem saveShadow_wdt (s : State) : (saveShadow s).wdt = s.wdt := rfl
@[simp] theorem saveShadow_sleeping (s : State) : (saveShadow s).sleeping = s.sleeping := rfl
@[simp] theorem saveShadow_waking (s : State) : (saveShadow s).waking = s.waking := rfl
@[simp] theorem saveShadow_ram (s : State) : (saveShadow s).ram = s.ram := rfl
@[simp] theorem saveShadow_prog (s : State) : (saveShadow s).prog = s.prog := rfl
@[simp] theorem saveShadow_holding (s : State) : (saveShadow s).holding = s.holding := rfl
@[simp] theorem saveShadow_outputs (s : State) : (saveShadow s).outputs = s.outputs := rfl
@[simp] theorem saveShadow_draws (s : State) : (saveShadow s).draws = s.draws := rfl
@[simp] theorem saveShadow_inputs (s : State) : (saveShadow s).inputs = s.inputs := rfl

@[simp] theorem restoreShadow_fsr (s : State) : (restoreShadow s).fsr = s.fsr := rfl
@[simp] theorem restoreShadow_prodh (s : State) : (restoreShadow s).prodh = s.prodh := rfl
@[simp] theorem restoreShadow_prodl (s : State) : (restoreShadow s).prodl = s.prodl := rfl
@[simp] theorem restoreShadow_tblptr (s : State) : (restoreShadow s).tblptr = s.tblptr := rfl
@[simp] theorem restoreShadow_tblptr21 (s : State) : (restoreShadow s).tblptr21 = s.tblptr21 := rfl
@[simp] theorem restoreShadow_tablat (s : State) : (restoreShadow s).tablat = s.tablat := rfl
@[simp] theorem restoreShadow_pc (s : State) : (restoreShadow s).pc = s.pc := rfl
@[simp] theorem restoreShadow_pclath (s : State) : (restoreShadow s).pclath = s.pclath := rfl
@[simp] theorem restoreShadow_pclatu (s : State) : (restoreShadow s).pclatu = s.pclatu := rfl
@[simp] theorem restoreShadow_stack (s : State) : (restoreShadow s).stack = s.stack := rfl
@[simp] theorem restoreShadow_sp (s : State) : (restoreShadow s).sp = s.sp := rfl
@[simp] theorem restoreShadow_stkful (s : State) : (restoreShadow s).stkful = s.stkful := rfl
@[simp] theorem restoreShadow_stkunf (s : State) : (restoreShadow s).stkunf = s.stkunf := rfl
@[simp] theorem restoreShadow_shadow (s : State) : (restoreShadow s).shadow = s.shadow := rfl
@[simp] theorem restoreShadow_irq (s : State) : (restoreShadow s).irq = s.irq := rfl
@[simp] theorem restoreShadow_rcon (s : State) : (restoreShadow s).rcon = s.rcon := rfl
@[simp] theorem restoreShadow_wdt (s : State) : (restoreShadow s).wdt = s.wdt := rfl
@[simp] theorem restoreShadow_sleeping (s : State) : (restoreShadow s).sleeping = s.sleeping := rfl
@[simp] theorem restoreShadow_waking (s : State) : (restoreShadow s).waking = s.waking := rfl
@[simp] theorem restoreShadow_ram (s : State) : (restoreShadow s).ram = s.ram := rfl
@[simp] theorem restoreShadow_prog (s : State) : (restoreShadow s).prog = s.prog := rfl
@[simp] theorem restoreShadow_holding (s : State) : (restoreShadow s).holding = s.holding := rfl
@[simp] theorem restoreShadow_outputs (s : State) : (restoreShadow s).outputs = s.outputs := rfl
@[simp] theorem restoreShadow_draws (s : State) : (restoreShadow s).draws = s.draws := rfl
@[simp] theorem restoreShadow_inputs (s : State) : (restoreShadow s).inputs = s.inputs := rfl

@[simp] theorem enableOnReturn_w (s : State) : (enableOnReturn s).w = s.w := rfl
@[simp] theorem enableOnReturn_status (s : State) : (enableOnReturn s).status = s.status := rfl
@[simp] theorem enableOnReturn_bsr (s : State) : (enableOnReturn s).bsr = s.bsr := rfl
@[simp] theorem enableOnReturn_fsr (s : State) : (enableOnReturn s).fsr = s.fsr := rfl
@[simp] theorem enableOnReturn_prodh (s : State) : (enableOnReturn s).prodh = s.prodh := rfl
@[simp] theorem enableOnReturn_prodl (s : State) : (enableOnReturn s).prodl = s.prodl := rfl
@[simp] theorem enableOnReturn_tblptr (s : State) : (enableOnReturn s).tblptr = s.tblptr := rfl
@[simp] theorem enableOnReturn_tblptr21 (s : State) : (enableOnReturn s).tblptr21 = s.tblptr21 := rfl
@[simp] theorem enableOnReturn_tablat (s : State) : (enableOnReturn s).tablat = s.tablat := rfl
@[simp] theorem enableOnReturn_pc (s : State) : (enableOnReturn s).pc = s.pc := rfl
@[simp] theorem enableOnReturn_pclath (s : State) : (enableOnReturn s).pclath = s.pclath := rfl
@[simp] theorem enableOnReturn_pclatu (s : State) : (enableOnReturn s).pclatu = s.pclatu := rfl
@[simp] theorem enableOnReturn_stack (s : State) : (enableOnReturn s).stack = s.stack := rfl
@[simp] theorem enableOnReturn_sp (s : State) : (enableOnReturn s).sp = s.sp := rfl
@[simp] theorem enableOnReturn_stkful (s : State) : (enableOnReturn s).stkful = s.stkful := rfl
@[simp] theorem enableOnReturn_stkunf (s : State) : (enableOnReturn s).stkunf = s.stkunf := rfl
@[simp] theorem enableOnReturn_shadow (s : State) : (enableOnReturn s).shadow = s.shadow := rfl
@[simp] theorem enableOnReturn_rcon (s : State) : (enableOnReturn s).rcon = s.rcon := rfl
@[simp] theorem enableOnReturn_wdt (s : State) : (enableOnReturn s).wdt = s.wdt := rfl
@[simp] theorem enableOnReturn_sleeping (s : State) : (enableOnReturn s).sleeping = s.sleeping := rfl
@[simp] theorem enableOnReturn_waking (s : State) : (enableOnReturn s).waking = s.waking := rfl
@[simp] theorem enableOnReturn_ram (s : State) : (enableOnReturn s).ram = s.ram := rfl
@[simp] theorem enableOnReturn_prog (s : State) : (enableOnReturn s).prog = s.prog := rfl
@[simp] theorem enableOnReturn_holding (s : State) : (enableOnReturn s).holding = s.holding := rfl
@[simp] theorem enableOnReturn_outputs (s : State) : (enableOnReturn s).outputs = s.outputs := rfl
@[simp] theorem enableOnReturn_draws (s : State) : (enableOnReturn s).draws = s.draws := rfl
@[simp] theorem enableOnReturn_inputs (s : State) : (enableOnReturn s).inputs = s.inputs := rfl

@[simp] theorem setToPd_w (x y : Bool) (s : State) : (setToPd x y s).w = s.w := rfl
@[simp] theorem setToPd_status (x y : Bool) (s : State) : (setToPd x y s).status = s.status := rfl
@[simp] theorem setToPd_bsr (x y : Bool) (s : State) : (setToPd x y s).bsr = s.bsr := rfl
@[simp] theorem setToPd_fsr (x y : Bool) (s : State) : (setToPd x y s).fsr = s.fsr := rfl
@[simp] theorem setToPd_prodh (x y : Bool) (s : State) : (setToPd x y s).prodh = s.prodh := rfl
@[simp] theorem setToPd_prodl (x y : Bool) (s : State) : (setToPd x y s).prodl = s.prodl := rfl
@[simp] theorem setToPd_tblptr (x y : Bool) (s : State) : (setToPd x y s).tblptr = s.tblptr := rfl
@[simp] theorem setToPd_tblptr21 (x y : Bool) (s : State) : (setToPd x y s).tblptr21 = s.tblptr21 := rfl
@[simp] theorem setToPd_tablat (x y : Bool) (s : State) : (setToPd x y s).tablat = s.tablat := rfl
@[simp] theorem setToPd_pc (x y : Bool) (s : State) : (setToPd x y s).pc = s.pc := rfl
@[simp] theorem setToPd_pclath (x y : Bool) (s : State) : (setToPd x y s).pclath = s.pclath := rfl
@[simp] theorem setToPd_pclatu (x y : Bool) (s : State) : (setToPd x y s).pclatu = s.pclatu := rfl
@[simp] theorem setToPd_stack (x y : Bool) (s : State) : (setToPd x y s).stack = s.stack := rfl
@[simp] theorem setToPd_sp (x y : Bool) (s : State) : (setToPd x y s).sp = s.sp := rfl
@[simp] theorem setToPd_stkful (x y : Bool) (s : State) : (setToPd x y s).stkful = s.stkful := rfl
@[simp] theorem setToPd_stkunf (x y : Bool) (s : State) : (setToPd x y s).stkunf = s.stkunf := rfl
@[simp] theorem setToPd_shadow (x y : Bool) (s : State) : (setToPd x y s).shadow = s.shadow := rfl
@[simp] theorem setToPd_irq (x y : Bool) (s : State) : (setToPd x y s).irq = s.irq := rfl
@[simp] theorem setToPd_wdt (x y : Bool) (s : State) : (setToPd x y s).wdt = s.wdt := rfl
@[simp] theorem setToPd_sleeping (x y : Bool) (s : State) : (setToPd x y s).sleeping = s.sleeping := rfl
@[simp] theorem setToPd_waking (x y : Bool) (s : State) : (setToPd x y s).waking = s.waking := rfl
@[simp] theorem setToPd_ram (x y : Bool) (s : State) : (setToPd x y s).ram = s.ram := rfl
@[simp] theorem setToPd_prog (x y : Bool) (s : State) : (setToPd x y s).prog = s.prog := rfl
@[simp] theorem setToPd_holding (x y : Bool) (s : State) : (setToPd x y s).holding = s.holding := rfl
@[simp] theorem setToPd_outputs (x y : Bool) (s : State) : (setToPd x y s).outputs = s.outputs := rfl
@[simp] theorem setToPd_draws (x y : Bool) (s : State) : (setToPd x y s).draws = s.draws := rfl
@[simp] theorem setToPd_inputs (x y : Bool) (s : State) : (setToPd x y s).inputs = s.inputs := rfl

@[simp] theorem clearWdt_w (s : State) : (clearWdt s).w = s.w := rfl
@[simp] theorem clearWdt_status (s : State) : (clearWdt s).status = s.status := rfl
@[simp] theorem clearWdt_bsr (s : State) : (clearWdt s).bsr = s.bsr := rfl
@[simp] theorem clearWdt_fsr (s : State) : (clearWdt s).fsr = s.fsr := rfl
@[simp] theorem clearWdt_prodh (s : State) : (clearWdt s).prodh = s.prodh := rfl
@[simp] theorem clearWdt_prodl (s : State) : (clearWdt s).prodl = s.prodl := rfl
@[simp] theorem clearWdt_tblptr (s : State) : (clearWdt s).tblptr = s.tblptr := rfl
@[simp] theorem clearWdt_tblptr21 (s : State) : (clearWdt s).tblptr21 = s.tblptr21 := rfl
@[simp] theorem clearWdt_tablat (s : State) : (clearWdt s).tablat = s.tablat := rfl
@[simp] theorem clearWdt_pc (s : State) : (clearWdt s).pc = s.pc := rfl
@[simp] theorem clearWdt_pclath (s : State) : (clearWdt s).pclath = s.pclath := rfl
@[simp] theorem clearWdt_pclatu (s : State) : (clearWdt s).pclatu = s.pclatu := rfl
@[simp] theorem clearWdt_stack (s : State) : (clearWdt s).stack = s.stack := rfl
@[simp] theorem clearWdt_sp (s : State) : (clearWdt s).sp = s.sp := rfl
@[simp] theorem clearWdt_stkful (s : State) : (clearWdt s).stkful = s.stkful := rfl
@[simp] theorem clearWdt_stkunf (s : State) : (clearWdt s).stkunf = s.stkunf := rfl
@[simp] theorem clearWdt_shadow (s : State) : (clearWdt s).shadow = s.shadow := rfl
@[simp] theorem clearWdt_irq (s : State) : (clearWdt s).irq = s.irq := rfl
@[simp] theorem clearWdt_rcon (s : State) : (clearWdt s).rcon = s.rcon := rfl
@[simp] theorem clearWdt_sleeping (s : State) : (clearWdt s).sleeping = s.sleeping := rfl
@[simp] theorem clearWdt_waking (s : State) : (clearWdt s).waking = s.waking := rfl
@[simp] theorem clearWdt_ram (s : State) : (clearWdt s).ram = s.ram := rfl
@[simp] theorem clearWdt_prog (s : State) : (clearWdt s).prog = s.prog := rfl
@[simp] theorem clearWdt_holding (s : State) : (clearWdt s).holding = s.holding := rfl
@[simp] theorem clearWdt_outputs (s : State) : (clearWdt s).outputs = s.outputs := rfl
@[simp] theorem clearWdt_draws (s : State) : (clearWdt s).draws = s.draws := rfl
@[simp] theorem clearWdt_inputs (s : State) : (clearWdt s).inputs = s.inputs := rfl

theorem setStackEntry_eq (n : BitVec 5) (v : ProgAddr) (s : State) :
    setStackEntry n v s = { s with
      stack := (setStackEntry n v s).stack } := by unfold setStackEntry; split <;> rfl
@[simp] theorem setStackEntry_w (n : BitVec 5) (v : ProgAddr) (s : State) : (setStackEntry n v s).w = s.w := (congrArg State.w (setStackEntry_eq n v s)).trans rfl
@[simp] theorem setStackEntry_status (n : BitVec 5) (v : ProgAddr) (s : State) : (setStackEntry n v s).status = s.status := (congrArg State.status (setStackEntry_eq n v s)).trans rfl
@[simp] theorem setStackEntry_bsr (n : BitVec 5) (v : ProgAddr) (s : State) : (setStackEntry n v s).bsr = s.bsr := (congrArg State.bsr (setStackEntry_eq n v s)).trans rfl
@[simp] theorem setStackEntry_fsr (n : BitVec 5) (v : ProgAddr) (s : State) : (setStackEntry n v s).fsr = s.fsr := (congrArg State.fsr (setStackEntry_eq n v s)).trans rfl
@[simp] theorem setStackEntry_prodh (n : BitVec 5) (v : ProgAddr) (s : State) : (setStackEntry n v s).prodh = s.prodh := (congrArg State.prodh (setStackEntry_eq n v s)).trans rfl
@[simp] theorem setStackEntry_prodl (n : BitVec 5) (v : ProgAddr) (s : State) : (setStackEntry n v s).prodl = s.prodl := (congrArg State.prodl (setStackEntry_eq n v s)).trans rfl
@[simp] theorem setStackEntry_tblptr (n : BitVec 5) (v : ProgAddr) (s : State) : (setStackEntry n v s).tblptr = s.tblptr := (congrArg State.tblptr (setStackEntry_eq n v s)).trans rfl
@[simp] theorem setStackEntry_tblptr21 (n : BitVec 5) (v : ProgAddr) (s : State) : (setStackEntry n v s).tblptr21 = s.tblptr21 := (congrArg State.tblptr21 (setStackEntry_eq n v s)).trans rfl
@[simp] theorem setStackEntry_tablat (n : BitVec 5) (v : ProgAddr) (s : State) : (setStackEntry n v s).tablat = s.tablat := (congrArg State.tablat (setStackEntry_eq n v s)).trans rfl
@[simp] theorem setStackEntry_pc (n : BitVec 5) (v : ProgAddr) (s : State) : (setStackEntry n v s).pc = s.pc := (congrArg State.pc (setStackEntry_eq n v s)).trans rfl
@[simp] theorem setStackEntry_pclath (n : BitVec 5) (v : ProgAddr) (s : State) : (setStackEntry n v s).pclath = s.pclath := (congrArg State.pclath (setStackEntry_eq n v s)).trans rfl
@[simp] theorem setStackEntry_pclatu (n : BitVec 5) (v : ProgAddr) (s : State) : (setStackEntry n v s).pclatu = s.pclatu := (congrArg State.pclatu (setStackEntry_eq n v s)).trans rfl
@[simp] theorem setStackEntry_sp (n : BitVec 5) (v : ProgAddr) (s : State) : (setStackEntry n v s).sp = s.sp := (congrArg State.sp (setStackEntry_eq n v s)).trans rfl
@[simp] theorem setStackEntry_stkful (n : BitVec 5) (v : ProgAddr) (s : State) : (setStackEntry n v s).stkful = s.stkful := (congrArg State.stkful (setStackEntry_eq n v s)).trans rfl
@[simp] theorem setStackEntry_stkunf (n : BitVec 5) (v : ProgAddr) (s : State) : (setStackEntry n v s).stkunf = s.stkunf := (congrArg State.stkunf (setStackEntry_eq n v s)).trans rfl
@[simp] theorem setStackEntry_shadow (n : BitVec 5) (v : ProgAddr) (s : State) : (setStackEntry n v s).shadow = s.shadow := (congrArg State.shadow (setStackEntry_eq n v s)).trans rfl
@[simp] theorem setStackEntry_irq (n : BitVec 5) (v : ProgAddr) (s : State) : (setStackEntry n v s).irq = s.irq := (congrArg State.irq (setStackEntry_eq n v s)).trans rfl
@[simp] theorem setStackEntry_rcon (n : BitVec 5) (v : ProgAddr) (s : State) : (setStackEntry n v s).rcon = s.rcon := (congrArg State.rcon (setStackEntry_eq n v s)).trans rfl
@[simp] theorem setStackEntry_wdt (n : BitVec 5) (v : ProgAddr) (s : State) : (setStackEntry n v s).wdt = s.wdt := (congrArg State.wdt (setStackEntry_eq n v s)).trans rfl
@[simp] theorem setStackEntry_sleeping (n : BitVec 5) (v : ProgAddr) (s : State) : (setStackEntry n v s).sleeping = s.sleeping := (congrArg State.sleeping (setStackEntry_eq n v s)).trans rfl
@[simp] theorem setStackEntry_waking (n : BitVec 5) (v : ProgAddr) (s : State) : (setStackEntry n v s).waking = s.waking := (congrArg State.waking (setStackEntry_eq n v s)).trans rfl
@[simp] theorem setStackEntry_ram (n : BitVec 5) (v : ProgAddr) (s : State) : (setStackEntry n v s).ram = s.ram := (congrArg State.ram (setStackEntry_eq n v s)).trans rfl
@[simp] theorem setStackEntry_prog (n : BitVec 5) (v : ProgAddr) (s : State) : (setStackEntry n v s).prog = s.prog := (congrArg State.prog (setStackEntry_eq n v s)).trans rfl
@[simp] theorem setStackEntry_holding (n : BitVec 5) (v : ProgAddr) (s : State) : (setStackEntry n v s).holding = s.holding := (congrArg State.holding (setStackEntry_eq n v s)).trans rfl
@[simp] theorem setStackEntry_outputs (n : BitVec 5) (v : ProgAddr) (s : State) : (setStackEntry n v s).outputs = s.outputs := (congrArg State.outputs (setStackEntry_eq n v s)).trans rfl
@[simp] theorem setStackEntry_draws (n : BitVec 5) (v : ProgAddr) (s : State) : (setStackEntry n v s).draws = s.draws := (congrArg State.draws (setStackEntry_eq n v s)).trans rfl
@[simp] theorem setStackEntry_inputs (n : BitVec 5) (v : ProgAddr) (s : State) : (setStackEntry n v s).inputs = s.inputs := (congrArg State.inputs (setStackEntry_eq n v s)).trans rfl

theorem preUpdate_eq (raw : DataAddr) (s : State) :
    preUpdate raw s = { s with
      fsr := (preUpdate raw s).fsr } := by unfold preUpdate; split <;> rfl
@[simp] theorem preUpdate_w (raw : DataAddr) (s : State) : (preUpdate raw s).w = s.w := (congrArg State.w (preUpdate_eq raw s)).trans rfl
@[simp] theorem preUpdate_status (raw : DataAddr) (s : State) : (preUpdate raw s).status = s.status := (congrArg State.status (preUpdate_eq raw s)).trans rfl
@[simp] theorem preUpdate_bsr (raw : DataAddr) (s : State) : (preUpdate raw s).bsr = s.bsr := (congrArg State.bsr (preUpdate_eq raw s)).trans rfl
@[simp] theorem preUpdate_prodh (raw : DataAddr) (s : State) : (preUpdate raw s).prodh = s.prodh := (congrArg State.prodh (preUpdate_eq raw s)).trans rfl
@[simp] theorem preUpdate_prodl (raw : DataAddr) (s : State) : (preUpdate raw s).prodl = s.prodl := (congrArg State.prodl (preUpdate_eq raw s)).trans rfl
@[simp] theorem preUpdate_tblptr (raw : DataAddr) (s : State) : (preUpdate raw s).tblptr = s.tblptr := (congrArg State.tblptr (preUpdate_eq raw s)).trans rfl
@[simp] theorem preUpdate_tblptr21 (raw : DataAddr) (s : State) : (preUpdate raw s).tblptr21 = s.tblptr21 := (congrArg State.tblptr21 (preUpdate_eq raw s)).trans rfl
@[simp] theorem preUpdate_tablat (raw : DataAddr) (s : State) : (preUpdate raw s).tablat = s.tablat := (congrArg State.tablat (preUpdate_eq raw s)).trans rfl
@[simp] theorem preUpdate_pc (raw : DataAddr) (s : State) : (preUpdate raw s).pc = s.pc := (congrArg State.pc (preUpdate_eq raw s)).trans rfl
@[simp] theorem preUpdate_pclath (raw : DataAddr) (s : State) : (preUpdate raw s).pclath = s.pclath := (congrArg State.pclath (preUpdate_eq raw s)).trans rfl
@[simp] theorem preUpdate_pclatu (raw : DataAddr) (s : State) : (preUpdate raw s).pclatu = s.pclatu := (congrArg State.pclatu (preUpdate_eq raw s)).trans rfl
@[simp] theorem preUpdate_stack (raw : DataAddr) (s : State) : (preUpdate raw s).stack = s.stack := (congrArg State.stack (preUpdate_eq raw s)).trans rfl
@[simp] theorem preUpdate_sp (raw : DataAddr) (s : State) : (preUpdate raw s).sp = s.sp := (congrArg State.sp (preUpdate_eq raw s)).trans rfl
@[simp] theorem preUpdate_stkful (raw : DataAddr) (s : State) : (preUpdate raw s).stkful = s.stkful := (congrArg State.stkful (preUpdate_eq raw s)).trans rfl
@[simp] theorem preUpdate_stkunf (raw : DataAddr) (s : State) : (preUpdate raw s).stkunf = s.stkunf := (congrArg State.stkunf (preUpdate_eq raw s)).trans rfl
@[simp] theorem preUpdate_shadow (raw : DataAddr) (s : State) : (preUpdate raw s).shadow = s.shadow := (congrArg State.shadow (preUpdate_eq raw s)).trans rfl
@[simp] theorem preUpdate_irq (raw : DataAddr) (s : State) : (preUpdate raw s).irq = s.irq := (congrArg State.irq (preUpdate_eq raw s)).trans rfl
@[simp] theorem preUpdate_rcon (raw : DataAddr) (s : State) : (preUpdate raw s).rcon = s.rcon := (congrArg State.rcon (preUpdate_eq raw s)).trans rfl
@[simp] theorem preUpdate_wdt (raw : DataAddr) (s : State) : (preUpdate raw s).wdt = s.wdt := (congrArg State.wdt (preUpdate_eq raw s)).trans rfl
@[simp] theorem preUpdate_sleeping (raw : DataAddr) (s : State) : (preUpdate raw s).sleeping = s.sleeping := (congrArg State.sleeping (preUpdate_eq raw s)).trans rfl
@[simp] theorem preUpdate_waking (raw : DataAddr) (s : State) : (preUpdate raw s).waking = s.waking := (congrArg State.waking (preUpdate_eq raw s)).trans rfl
@[simp] theorem preUpdate_ram (raw : DataAddr) (s : State) : (preUpdate raw s).ram = s.ram := (congrArg State.ram (preUpdate_eq raw s)).trans rfl
@[simp] theorem preUpdate_prog (raw : DataAddr) (s : State) : (preUpdate raw s).prog = s.prog := (congrArg State.prog (preUpdate_eq raw s)).trans rfl
@[simp] theorem preUpdate_holding (raw : DataAddr) (s : State) : (preUpdate raw s).holding = s.holding := (congrArg State.holding (preUpdate_eq raw s)).trans rfl
@[simp] theorem preUpdate_outputs (raw : DataAddr) (s : State) : (preUpdate raw s).outputs = s.outputs := (congrArg State.outputs (preUpdate_eq raw s)).trans rfl
@[simp] theorem preUpdate_draws (raw : DataAddr) (s : State) : (preUpdate raw s).draws = s.draws := (congrArg State.draws (preUpdate_eq raw s)).trans rfl
@[simp] theorem preUpdate_inputs (raw : DataAddr) (s : State) : (preUpdate raw s).inputs = s.inputs := (congrArg State.inputs (preUpdate_eq raw s)).trans rfl

theorem postUpdate_eq (raw : DataAddr) (s : State) :
    postUpdate raw s = { s with
      fsr := (postUpdate raw s).fsr } := by unfold postUpdate; split <;> rfl
@[simp] theorem postUpdate_w (raw : DataAddr) (s : State) : (postUpdate raw s).w = s.w := (congrArg State.w (postUpdate_eq raw s)).trans rfl
@[simp] theorem postUpdate_status (raw : DataAddr) (s : State) : (postUpdate raw s).status = s.status := (congrArg State.status (postUpdate_eq raw s)).trans rfl
@[simp] theorem postUpdate_bsr (raw : DataAddr) (s : State) : (postUpdate raw s).bsr = s.bsr := (congrArg State.bsr (postUpdate_eq raw s)).trans rfl
@[simp] theorem postUpdate_prodh (raw : DataAddr) (s : State) : (postUpdate raw s).prodh = s.prodh := (congrArg State.prodh (postUpdate_eq raw s)).trans rfl
@[simp] theorem postUpdate_prodl (raw : DataAddr) (s : State) : (postUpdate raw s).prodl = s.prodl := (congrArg State.prodl (postUpdate_eq raw s)).trans rfl
@[simp] theorem postUpdate_tblptr (raw : DataAddr) (s : State) : (postUpdate raw s).tblptr = s.tblptr := (congrArg State.tblptr (postUpdate_eq raw s)).trans rfl
@[simp] theorem postUpdate_tblptr21 (raw : DataAddr) (s : State) : (postUpdate raw s).tblptr21 = s.tblptr21 := (congrArg State.tblptr21 (postUpdate_eq raw s)).trans rfl
@[simp] theorem postUpdate_tablat (raw : DataAddr) (s : State) : (postUpdate raw s).tablat = s.tablat := (congrArg State.tablat (postUpdate_eq raw s)).trans rfl
@[simp] theorem postUpdate_pc (raw : DataAddr) (s : State) : (postUpdate raw s).pc = s.pc := (congrArg State.pc (postUpdate_eq raw s)).trans rfl
@[simp] theorem postUpdate_pclath (raw : DataAddr) (s : State) : (postUpdate raw s).pclath = s.pclath := (congrArg State.pclath (postUpdate_eq raw s)).trans rfl
@[simp] theorem postUpdate_pclatu (raw : DataAddr) (s : State) : (postUpdate raw s).pclatu = s.pclatu := (congrArg State.pclatu (postUpdate_eq raw s)).trans rfl
@[simp] theorem postUpdate_stack (raw : DataAddr) (s : State) : (postUpdate raw s).stack = s.stack := (congrArg State.stack (postUpdate_eq raw s)).trans rfl
@[simp] theorem postUpdate_sp (raw : DataAddr) (s : State) : (postUpdate raw s).sp = s.sp := (congrArg State.sp (postUpdate_eq raw s)).trans rfl
@[simp] theorem postUpdate_stkful (raw : DataAddr) (s : State) : (postUpdate raw s).stkful = s.stkful := (congrArg State.stkful (postUpdate_eq raw s)).trans rfl
@[simp] theorem postUpdate_stkunf (raw : DataAddr) (s : State) : (postUpdate raw s).stkunf = s.stkunf := (congrArg State.stkunf (postUpdate_eq raw s)).trans rfl
@[simp] theorem postUpdate_shadow (raw : DataAddr) (s : State) : (postUpdate raw s).shadow = s.shadow := (congrArg State.shadow (postUpdate_eq raw s)).trans rfl
@[simp] theorem postUpdate_irq (raw : DataAddr) (s : State) : (postUpdate raw s).irq = s.irq := (congrArg State.irq (postUpdate_eq raw s)).trans rfl
@[simp] theorem postUpdate_rcon (raw : DataAddr) (s : State) : (postUpdate raw s).rcon = s.rcon := (congrArg State.rcon (postUpdate_eq raw s)).trans rfl
@[simp] theorem postUpdate_wdt (raw : DataAddr) (s : State) : (postUpdate raw s).wdt = s.wdt := (congrArg State.wdt (postUpdate_eq raw s)).trans rfl
@[simp] theorem postUpdate_sleeping (raw : DataAddr) (s : State) : (postUpdate raw s).sleeping = s.sleeping := (congrArg State.sleeping (postUpdate_eq raw s)).trans rfl
@[simp] theorem postUpdate_waking (raw : DataAddr) (s : State) : (postUpdate raw s).waking = s.waking := (congrArg State.waking (postUpdate_eq raw s)).trans rfl
@[simp] theorem postUpdate_ram (raw : DataAddr) (s : State) : (postUpdate raw s).ram = s.ram := (congrArg State.ram (postUpdate_eq raw s)).trans rfl
@[simp] theorem postUpdate_prog (raw : DataAddr) (s : State) : (postUpdate raw s).prog = s.prog := (congrArg State.prog (postUpdate_eq raw s)).trans rfl
@[simp] theorem postUpdate_holding (raw : DataAddr) (s : State) : (postUpdate raw s).holding = s.holding := (congrArg State.holding (postUpdate_eq raw s)).trans rfl
@[simp] theorem postUpdate_outputs (raw : DataAddr) (s : State) : (postUpdate raw s).outputs = s.outputs := (congrArg State.outputs (postUpdate_eq raw s)).trans rfl
@[simp] theorem postUpdate_draws (raw : DataAddr) (s : State) : (postUpdate raw s).draws = s.draws := (congrArg State.draws (postUpdate_eq raw s)).trans rfl
@[simp] theorem postUpdate_inputs (raw : DataAddr) (s : State) : (postUpdate raw s).inputs = s.inputs := (congrArg State.inputs (postUpdate_eq raw s)).trans rfl

theorem accessState_eq (n : Nat) (raw : DataAddr) (s : State) :
    accessState n raw s = { s with
      pc := (accessState n raw s).pc
      fsr := (accessState n raw s).fsr } := by unfold accessState; rw [preUpdate_eq]; rfl
@[simp] theorem accessState_w (n : Nat) (raw : DataAddr) (s : State) : (accessState n raw s).w = s.w := (congrArg State.w (accessState_eq n raw s)).trans rfl
@[simp] theorem accessState_status (n : Nat) (raw : DataAddr) (s : State) : (accessState n raw s).status = s.status := (congrArg State.status (accessState_eq n raw s)).trans rfl
@[simp] theorem accessState_bsr (n : Nat) (raw : DataAddr) (s : State) : (accessState n raw s).bsr = s.bsr := (congrArg State.bsr (accessState_eq n raw s)).trans rfl
@[simp] theorem accessState_prodh (n : Nat) (raw : DataAddr) (s : State) : (accessState n raw s).prodh = s.prodh := (congrArg State.prodh (accessState_eq n raw s)).trans rfl
@[simp] theorem accessState_prodl (n : Nat) (raw : DataAddr) (s : State) : (accessState n raw s).prodl = s.prodl := (congrArg State.prodl (accessState_eq n raw s)).trans rfl
@[simp] theorem accessState_tblptr (n : Nat) (raw : DataAddr) (s : State) : (accessState n raw s).tblptr = s.tblptr := (congrArg State.tblptr (accessState_eq n raw s)).trans rfl
@[simp] theorem accessState_tblptr21 (n : Nat) (raw : DataAddr) (s : State) : (accessState n raw s).tblptr21 = s.tblptr21 := (congrArg State.tblptr21 (accessState_eq n raw s)).trans rfl
@[simp] theorem accessState_tablat (n : Nat) (raw : DataAddr) (s : State) : (accessState n raw s).tablat = s.tablat := (congrArg State.tablat (accessState_eq n raw s)).trans rfl
@[simp] theorem accessState_pclath (n : Nat) (raw : DataAddr) (s : State) : (accessState n raw s).pclath = s.pclath := (congrArg State.pclath (accessState_eq n raw s)).trans rfl
@[simp] theorem accessState_pclatu (n : Nat) (raw : DataAddr) (s : State) : (accessState n raw s).pclatu = s.pclatu := (congrArg State.pclatu (accessState_eq n raw s)).trans rfl
@[simp] theorem accessState_stack (n : Nat) (raw : DataAddr) (s : State) : (accessState n raw s).stack = s.stack := (congrArg State.stack (accessState_eq n raw s)).trans rfl
@[simp] theorem accessState_sp (n : Nat) (raw : DataAddr) (s : State) : (accessState n raw s).sp = s.sp := (congrArg State.sp (accessState_eq n raw s)).trans rfl
@[simp] theorem accessState_stkful (n : Nat) (raw : DataAddr) (s : State) : (accessState n raw s).stkful = s.stkful := (congrArg State.stkful (accessState_eq n raw s)).trans rfl
@[simp] theorem accessState_stkunf (n : Nat) (raw : DataAddr) (s : State) : (accessState n raw s).stkunf = s.stkunf := (congrArg State.stkunf (accessState_eq n raw s)).trans rfl
@[simp] theorem accessState_shadow (n : Nat) (raw : DataAddr) (s : State) : (accessState n raw s).shadow = s.shadow := (congrArg State.shadow (accessState_eq n raw s)).trans rfl
@[simp] theorem accessState_irq (n : Nat) (raw : DataAddr) (s : State) : (accessState n raw s).irq = s.irq := (congrArg State.irq (accessState_eq n raw s)).trans rfl
@[simp] theorem accessState_rcon (n : Nat) (raw : DataAddr) (s : State) : (accessState n raw s).rcon = s.rcon := (congrArg State.rcon (accessState_eq n raw s)).trans rfl
@[simp] theorem accessState_wdt (n : Nat) (raw : DataAddr) (s : State) : (accessState n raw s).wdt = s.wdt := (congrArg State.wdt (accessState_eq n raw s)).trans rfl
@[simp] theorem accessState_sleeping (n : Nat) (raw : DataAddr) (s : State) : (accessState n raw s).sleeping = s.sleeping := (congrArg State.sleeping (accessState_eq n raw s)).trans rfl
@[simp] theorem accessState_waking (n : Nat) (raw : DataAddr) (s : State) : (accessState n raw s).waking = s.waking := (congrArg State.waking (accessState_eq n raw s)).trans rfl
@[simp] theorem accessState_ram (n : Nat) (raw : DataAddr) (s : State) : (accessState n raw s).ram = s.ram := (congrArg State.ram (accessState_eq n raw s)).trans rfl
@[simp] theorem accessState_prog (n : Nat) (raw : DataAddr) (s : State) : (accessState n raw s).prog = s.prog := (congrArg State.prog (accessState_eq n raw s)).trans rfl
@[simp] theorem accessState_holding (n : Nat) (raw : DataAddr) (s : State) : (accessState n raw s).holding = s.holding := (congrArg State.holding (accessState_eq n raw s)).trans rfl
@[simp] theorem accessState_outputs (n : Nat) (raw : DataAddr) (s : State) : (accessState n raw s).outputs = s.outputs := (congrArg State.outputs (accessState_eq n raw s)).trans rfl
@[simp] theorem accessState_draws (n : Nat) (raw : DataAddr) (s : State) : (accessState n raw s).draws = s.draws := (congrArg State.draws (accessState_eq n raw s)).trans rfl
@[simp] theorem accessState_inputs (n : Nat) (raw : DataAddr) (s : State) : (accessState n raw s).inputs = s.inputs := (congrArg State.inputs (accessState_eq n raw s)).trans rfl

theorem regReadEffect_eq (r : CoreReg) (s : State) :
    regReadEffect r s = { s with
      pclath := (regReadEffect r s).pclath
      pclatu := (regReadEffect r s).pclatu } := by cases r <;> rfl
@[simp] theorem regReadEffect_w (r : CoreReg) (s : State) : (regReadEffect r s).w = s.w := (congrArg State.w (regReadEffect_eq r s)).trans rfl
@[simp] theorem regReadEffect_status (r : CoreReg) (s : State) : (regReadEffect r s).status = s.status := (congrArg State.status (regReadEffect_eq r s)).trans rfl
@[simp] theorem regReadEffect_bsr (r : CoreReg) (s : State) : (regReadEffect r s).bsr = s.bsr := (congrArg State.bsr (regReadEffect_eq r s)).trans rfl
@[simp] theorem regReadEffect_fsr (r : CoreReg) (s : State) : (regReadEffect r s).fsr = s.fsr := (congrArg State.fsr (regReadEffect_eq r s)).trans rfl
@[simp] theorem regReadEffect_prodh (r : CoreReg) (s : State) : (regReadEffect r s).prodh = s.prodh := (congrArg State.prodh (regReadEffect_eq r s)).trans rfl
@[simp] theorem regReadEffect_prodl (r : CoreReg) (s : State) : (regReadEffect r s).prodl = s.prodl := (congrArg State.prodl (regReadEffect_eq r s)).trans rfl
@[simp] theorem regReadEffect_tblptr (r : CoreReg) (s : State) : (regReadEffect r s).tblptr = s.tblptr := (congrArg State.tblptr (regReadEffect_eq r s)).trans rfl
@[simp] theorem regReadEffect_tblptr21 (r : CoreReg) (s : State) : (regReadEffect r s).tblptr21 = s.tblptr21 := (congrArg State.tblptr21 (regReadEffect_eq r s)).trans rfl
@[simp] theorem regReadEffect_tablat (r : CoreReg) (s : State) : (regReadEffect r s).tablat = s.tablat := (congrArg State.tablat (regReadEffect_eq r s)).trans rfl
@[simp] theorem regReadEffect_pc (r : CoreReg) (s : State) : (regReadEffect r s).pc = s.pc := (congrArg State.pc (regReadEffect_eq r s)).trans rfl
@[simp] theorem regReadEffect_stack (r : CoreReg) (s : State) : (regReadEffect r s).stack = s.stack := (congrArg State.stack (regReadEffect_eq r s)).trans rfl
@[simp] theorem regReadEffect_sp (r : CoreReg) (s : State) : (regReadEffect r s).sp = s.sp := (congrArg State.sp (regReadEffect_eq r s)).trans rfl
@[simp] theorem regReadEffect_stkful (r : CoreReg) (s : State) : (regReadEffect r s).stkful = s.stkful := (congrArg State.stkful (regReadEffect_eq r s)).trans rfl
@[simp] theorem regReadEffect_stkunf (r : CoreReg) (s : State) : (regReadEffect r s).stkunf = s.stkunf := (congrArg State.stkunf (regReadEffect_eq r s)).trans rfl
@[simp] theorem regReadEffect_shadow (r : CoreReg) (s : State) : (regReadEffect r s).shadow = s.shadow := (congrArg State.shadow (regReadEffect_eq r s)).trans rfl
@[simp] theorem regReadEffect_irq (r : CoreReg) (s : State) : (regReadEffect r s).irq = s.irq := (congrArg State.irq (regReadEffect_eq r s)).trans rfl
@[simp] theorem regReadEffect_rcon (r : CoreReg) (s : State) : (regReadEffect r s).rcon = s.rcon := (congrArg State.rcon (regReadEffect_eq r s)).trans rfl
@[simp] theorem regReadEffect_wdt (r : CoreReg) (s : State) : (regReadEffect r s).wdt = s.wdt := (congrArg State.wdt (regReadEffect_eq r s)).trans rfl
@[simp] theorem regReadEffect_sleeping (r : CoreReg) (s : State) : (regReadEffect r s).sleeping = s.sleeping := (congrArg State.sleeping (regReadEffect_eq r s)).trans rfl
@[simp] theorem regReadEffect_waking (r : CoreReg) (s : State) : (regReadEffect r s).waking = s.waking := (congrArg State.waking (regReadEffect_eq r s)).trans rfl
@[simp] theorem regReadEffect_ram (r : CoreReg) (s : State) : (regReadEffect r s).ram = s.ram := (congrArg State.ram (regReadEffect_eq r s)).trans rfl
@[simp] theorem regReadEffect_prog (r : CoreReg) (s : State) : (regReadEffect r s).prog = s.prog := (congrArg State.prog (regReadEffect_eq r s)).trans rfl
@[simp] theorem regReadEffect_holding (r : CoreReg) (s : State) : (regReadEffect r s).holding = s.holding := (congrArg State.holding (regReadEffect_eq r s)).trans rfl
@[simp] theorem regReadEffect_outputs (r : CoreReg) (s : State) : (regReadEffect r s).outputs = s.outputs := (congrArg State.outputs (regReadEffect_eq r s)).trans rfl
@[simp] theorem regReadEffect_draws (r : CoreReg) (s : State) : (regReadEffect r s).draws = s.draws := (congrArg State.draws (regReadEffect_eq r s)).trans rfl
@[simp] theorem regReadEffect_inputs (r : CoreReg) (s : State) : (regReadEffect r s).inputs = s.inputs := (congrArg State.inputs (regReadEffect_eq r s)).trans rfl

theorem deviceReadEffect_eq (a : DataAddr) (s : State) :
    deviceReadEffect a s = { s with
      draws := (deviceReadEffect a s).draws
      irq := (deviceReadEffect a s).irq } := by unfold deviceReadEffect; split <;> rfl
@[simp] theorem deviceReadEffect_w (a : DataAddr) (s : State) : (deviceReadEffect a s).w = s.w := (congrArg State.w (deviceReadEffect_eq a s)).trans rfl
@[simp] theorem deviceReadEffect_status (a : DataAddr) (s : State) : (deviceReadEffect a s).status = s.status := (congrArg State.status (deviceReadEffect_eq a s)).trans rfl
@[simp] theorem deviceReadEffect_bsr (a : DataAddr) (s : State) : (deviceReadEffect a s).bsr = s.bsr := (congrArg State.bsr (deviceReadEffect_eq a s)).trans rfl
@[simp] theorem deviceReadEffect_fsr (a : DataAddr) (s : State) : (deviceReadEffect a s).fsr = s.fsr := (congrArg State.fsr (deviceReadEffect_eq a s)).trans rfl
@[simp] theorem deviceReadEffect_prodh (a : DataAddr) (s : State) : (deviceReadEffect a s).prodh = s.prodh := (congrArg State.prodh (deviceReadEffect_eq a s)).trans rfl
@[simp] theorem deviceReadEffect_prodl (a : DataAddr) (s : State) : (deviceReadEffect a s).prodl = s.prodl := (congrArg State.prodl (deviceReadEffect_eq a s)).trans rfl
@[simp] theorem deviceReadEffect_tblptr (a : DataAddr) (s : State) : (deviceReadEffect a s).tblptr = s.tblptr := (congrArg State.tblptr (deviceReadEffect_eq a s)).trans rfl
@[simp] theorem deviceReadEffect_tblptr21 (a : DataAddr) (s : State) : (deviceReadEffect a s).tblptr21 = s.tblptr21 := (congrArg State.tblptr21 (deviceReadEffect_eq a s)).trans rfl
@[simp] theorem deviceReadEffect_tablat (a : DataAddr) (s : State) : (deviceReadEffect a s).tablat = s.tablat := (congrArg State.tablat (deviceReadEffect_eq a s)).trans rfl
@[simp] theorem deviceReadEffect_pc (a : DataAddr) (s : State) : (deviceReadEffect a s).pc = s.pc := (congrArg State.pc (deviceReadEffect_eq a s)).trans rfl
@[simp] theorem deviceReadEffect_pclath (a : DataAddr) (s : State) : (deviceReadEffect a s).pclath = s.pclath := (congrArg State.pclath (deviceReadEffect_eq a s)).trans rfl
@[simp] theorem deviceReadEffect_pclatu (a : DataAddr) (s : State) : (deviceReadEffect a s).pclatu = s.pclatu := (congrArg State.pclatu (deviceReadEffect_eq a s)).trans rfl
@[simp] theorem deviceReadEffect_stack (a : DataAddr) (s : State) : (deviceReadEffect a s).stack = s.stack := (congrArg State.stack (deviceReadEffect_eq a s)).trans rfl
@[simp] theorem deviceReadEffect_sp (a : DataAddr) (s : State) : (deviceReadEffect a s).sp = s.sp := (congrArg State.sp (deviceReadEffect_eq a s)).trans rfl
@[simp] theorem deviceReadEffect_stkful (a : DataAddr) (s : State) : (deviceReadEffect a s).stkful = s.stkful := (congrArg State.stkful (deviceReadEffect_eq a s)).trans rfl
@[simp] theorem deviceReadEffect_stkunf (a : DataAddr) (s : State) : (deviceReadEffect a s).stkunf = s.stkunf := (congrArg State.stkunf (deviceReadEffect_eq a s)).trans rfl
@[simp] theorem deviceReadEffect_shadow (a : DataAddr) (s : State) : (deviceReadEffect a s).shadow = s.shadow := (congrArg State.shadow (deviceReadEffect_eq a s)).trans rfl
@[simp] theorem deviceReadEffect_rcon (a : DataAddr) (s : State) : (deviceReadEffect a s).rcon = s.rcon := (congrArg State.rcon (deviceReadEffect_eq a s)).trans rfl
@[simp] theorem deviceReadEffect_wdt (a : DataAddr) (s : State) : (deviceReadEffect a s).wdt = s.wdt := (congrArg State.wdt (deviceReadEffect_eq a s)).trans rfl
@[simp] theorem deviceReadEffect_sleeping (a : DataAddr) (s : State) : (deviceReadEffect a s).sleeping = s.sleeping := (congrArg State.sleeping (deviceReadEffect_eq a s)).trans rfl
@[simp] theorem deviceReadEffect_waking (a : DataAddr) (s : State) : (deviceReadEffect a s).waking = s.waking := (congrArg State.waking (deviceReadEffect_eq a s)).trans rfl
@[simp] theorem deviceReadEffect_ram (a : DataAddr) (s : State) : (deviceReadEffect a s).ram = s.ram := (congrArg State.ram (deviceReadEffect_eq a s)).trans rfl
@[simp] theorem deviceReadEffect_prog (a : DataAddr) (s : State) : (deviceReadEffect a s).prog = s.prog := (congrArg State.prog (deviceReadEffect_eq a s)).trans rfl
@[simp] theorem deviceReadEffect_holding (a : DataAddr) (s : State) : (deviceReadEffect a s).holding = s.holding := (congrArg State.holding (deviceReadEffect_eq a s)).trans rfl
@[simp] theorem deviceReadEffect_outputs (a : DataAddr) (s : State) : (deviceReadEffect a s).outputs = s.outputs := (congrArg State.outputs (deviceReadEffect_eq a s)).trans rfl
@[simp] theorem deviceReadEffect_inputs (a : DataAddr) (s : State) : (deviceReadEffect a s).inputs = s.inputs := (congrArg State.inputs (deviceReadEffect_eq a s)).trans rfl

theorem readEffect_eq (a : DataAddr) (s : State) :
    readEffect a s = { s with
      pclath := (readEffect a s).pclath
      pclatu := (readEffect a s).pclatu
      draws := (readEffect a s).draws
      irq := (readEffect a s).irq } := by
  unfold readEffect
  split <;> first | rfl | (rw [regReadEffect_eq]) | (rw [deviceReadEffect_eq])
@[simp] theorem readEffect_w (a : DataAddr) (s : State) : (readEffect a s).w = s.w := (congrArg State.w (readEffect_eq a s)).trans rfl
@[simp] theorem readEffect_status (a : DataAddr) (s : State) : (readEffect a s).status = s.status := (congrArg State.status (readEffect_eq a s)).trans rfl
@[simp] theorem readEffect_bsr (a : DataAddr) (s : State) : (readEffect a s).bsr = s.bsr := (congrArg State.bsr (readEffect_eq a s)).trans rfl
@[simp] theorem readEffect_fsr (a : DataAddr) (s : State) : (readEffect a s).fsr = s.fsr := (congrArg State.fsr (readEffect_eq a s)).trans rfl
@[simp] theorem readEffect_prodh (a : DataAddr) (s : State) : (readEffect a s).prodh = s.prodh := (congrArg State.prodh (readEffect_eq a s)).trans rfl
@[simp] theorem readEffect_prodl (a : DataAddr) (s : State) : (readEffect a s).prodl = s.prodl := (congrArg State.prodl (readEffect_eq a s)).trans rfl
@[simp] theorem readEffect_tblptr (a : DataAddr) (s : State) : (readEffect a s).tblptr = s.tblptr := (congrArg State.tblptr (readEffect_eq a s)).trans rfl
@[simp] theorem readEffect_tblptr21 (a : DataAddr) (s : State) : (readEffect a s).tblptr21 = s.tblptr21 := (congrArg State.tblptr21 (readEffect_eq a s)).trans rfl
@[simp] theorem readEffect_tablat (a : DataAddr) (s : State) : (readEffect a s).tablat = s.tablat := (congrArg State.tablat (readEffect_eq a s)).trans rfl
@[simp] theorem readEffect_pc (a : DataAddr) (s : State) : (readEffect a s).pc = s.pc := (congrArg State.pc (readEffect_eq a s)).trans rfl
@[simp] theorem readEffect_stack (a : DataAddr) (s : State) : (readEffect a s).stack = s.stack := (congrArg State.stack (readEffect_eq a s)).trans rfl
@[simp] theorem readEffect_sp (a : DataAddr) (s : State) : (readEffect a s).sp = s.sp := (congrArg State.sp (readEffect_eq a s)).trans rfl
@[simp] theorem readEffect_stkful (a : DataAddr) (s : State) : (readEffect a s).stkful = s.stkful := (congrArg State.stkful (readEffect_eq a s)).trans rfl
@[simp] theorem readEffect_stkunf (a : DataAddr) (s : State) : (readEffect a s).stkunf = s.stkunf := (congrArg State.stkunf (readEffect_eq a s)).trans rfl
@[simp] theorem readEffect_shadow (a : DataAddr) (s : State) : (readEffect a s).shadow = s.shadow := (congrArg State.shadow (readEffect_eq a s)).trans rfl
@[simp] theorem readEffect_rcon (a : DataAddr) (s : State) : (readEffect a s).rcon = s.rcon := (congrArg State.rcon (readEffect_eq a s)).trans rfl
@[simp] theorem readEffect_wdt (a : DataAddr) (s : State) : (readEffect a s).wdt = s.wdt := (congrArg State.wdt (readEffect_eq a s)).trans rfl
@[simp] theorem readEffect_sleeping (a : DataAddr) (s : State) : (readEffect a s).sleeping = s.sleeping := (congrArg State.sleeping (readEffect_eq a s)).trans rfl
@[simp] theorem readEffect_waking (a : DataAddr) (s : State) : (readEffect a s).waking = s.waking := (congrArg State.waking (readEffect_eq a s)).trans rfl
@[simp] theorem readEffect_ram (a : DataAddr) (s : State) : (readEffect a s).ram = s.ram := (congrArg State.ram (readEffect_eq a s)).trans rfl
@[simp] theorem readEffect_prog (a : DataAddr) (s : State) : (readEffect a s).prog = s.prog := (congrArg State.prog (readEffect_eq a s)).trans rfl
@[simp] theorem readEffect_holding (a : DataAddr) (s : State) : (readEffect a s).holding = s.holding := (congrArg State.holding (readEffect_eq a s)).trans rfl
@[simp] theorem readEffect_outputs (a : DataAddr) (s : State) : (readEffect a s).outputs = s.outputs := (congrArg State.outputs (readEffect_eq a s)).trans rfl
@[simp] theorem readEffect_inputs (a : DataAddr) (s : State) : (readEffect a s).inputs = s.inputs := (congrArg State.inputs (readEffect_eq a s)).trans rfl

theorem regWrite_eq (r : CoreReg) (v : Byte) (s : State) :
    regWrite r v s = { s with
      w := (regWrite r v s).w
      status := (regWrite r v s).status
      bsr := (regWrite r v s).bsr
      fsr := (regWrite r v s).fsr
      prodh := (regWrite r v s).prodh
      prodl := (regWrite r v s).prodl
      tblptr := (regWrite r v s).tblptr
      tblptr21 := (regWrite r v s).tblptr21
      tablat := (regWrite r v s).tablat
      pc := (regWrite r v s).pc
      pclath := (regWrite r v s).pclath
      pclatu := (regWrite r v s).pclatu
      stack := (regWrite r v s).stack
      sp := (regWrite r v s).sp
      stkful := (regWrite r v s).stkful
      stkunf := (regWrite r v s).stkunf
      irq := (regWrite r v s).irq
      rcon := (regWrite r v s).rcon
      wdt := (regWrite r v s).wdt } := by
  cases r <;> first | rfl | (simp only [regWrite]; rw [setStackEntry_eq])
@[simp] theorem regWrite_shadow (r : CoreReg) (v : Byte) (s : State) : (regWrite r v s).shadow = s.shadow := (congrArg State.shadow (regWrite_eq r v s)).trans rfl
@[simp] theorem regWrite_sleeping (r : CoreReg) (v : Byte) (s : State) : (regWrite r v s).sleeping = s.sleeping := (congrArg State.sleeping (regWrite_eq r v s)).trans rfl
@[simp] theorem regWrite_waking (r : CoreReg) (v : Byte) (s : State) : (regWrite r v s).waking = s.waking := (congrArg State.waking (regWrite_eq r v s)).trans rfl
@[simp] theorem regWrite_ram (r : CoreReg) (v : Byte) (s : State) : (regWrite r v s).ram = s.ram := (congrArg State.ram (regWrite_eq r v s)).trans rfl
@[simp] theorem regWrite_prog (r : CoreReg) (v : Byte) (s : State) : (regWrite r v s).prog = s.prog := (congrArg State.prog (regWrite_eq r v s)).trans rfl
@[simp] theorem regWrite_holding (r : CoreReg) (v : Byte) (s : State) : (regWrite r v s).holding = s.holding := (congrArg State.holding (regWrite_eq r v s)).trans rfl
@[simp] theorem regWrite_outputs (r : CoreReg) (v : Byte) (s : State) : (regWrite r v s).outputs = s.outputs := (congrArg State.outputs (regWrite_eq r v s)).trans rfl
@[simp] theorem regWrite_draws (r : CoreReg) (v : Byte) (s : State) : (regWrite r v s).draws = s.draws := (congrArg State.draws (regWrite_eq r v s)).trans rfl
@[simp] theorem regWrite_inputs (r : CoreReg) (v : Byte) (s : State) : (regWrite r v s).inputs = s.inputs := (congrArg State.inputs (regWrite_eq r v s)).trans rfl

theorem writeEffect_eq (a : DataAddr) (v : Byte) (s : State) :
    writeEffect a v s = { s with
      w := (writeEffect a v s).w
      status := (writeEffect a v s).status
      bsr := (writeEffect a v s).bsr
      fsr := (writeEffect a v s).fsr
      prodh := (writeEffect a v s).prodh
      prodl := (writeEffect a v s).prodl
      tblptr := (writeEffect a v s).tblptr
      tblptr21 := (writeEffect a v s).tblptr21
      tablat := (writeEffect a v s).tablat
      pc := (writeEffect a v s).pc
      pclath := (writeEffect a v s).pclath
      pclatu := (writeEffect a v s).pclatu
      stack := (writeEffect a v s).stack
      sp := (writeEffect a v s).sp
      stkful := (writeEffect a v s).stkful
      stkunf := (writeEffect a v s).stkunf
      irq := (writeEffect a v s).irq
      rcon := (writeEffect a v s).rcon
      wdt := (writeEffect a v s).wdt
      ram := (writeEffect a v s).ram
      outputs := (writeEffect a v s).outputs } := by
  unfold writeEffect
  split <;> first | rfl | (rw [regWrite_eq])
@[simp] theorem writeEffect_shadow (a : DataAddr) (v : Byte) (s : State) : (writeEffect a v s).shadow = s.shadow := (congrArg State.shadow (writeEffect_eq a v s)).trans rfl
@[simp] theorem writeEffect_sleeping (a : DataAddr) (v : Byte) (s : State) : (writeEffect a v s).sleeping = s.sleeping := (congrArg State.sleeping (writeEffect_eq a v s)).trans rfl
@[simp] theorem writeEffect_waking (a : DataAddr) (v : Byte) (s : State) : (writeEffect a v s).waking = s.waking := (congrArg State.waking (writeEffect_eq a v s)).trans rfl
@[simp] theorem writeEffect_prog (a : DataAddr) (v : Byte) (s : State) : (writeEffect a v s).prog = s.prog := (congrArg State.prog (writeEffect_eq a v s)).trans rfl
@[simp] theorem writeEffect_holding (a : DataAddr) (v : Byte) (s : State) : (writeEffect a v s).holding = s.holding := (congrArg State.holding (writeEffect_eq a v s)).trans rfl
@[simp] theorem writeEffect_draws (a : DataAddr) (v : Byte) (s : State) : (writeEffect a v s).draws = s.draws := (congrArg State.draws (writeEffect_eq a v s)).trans rfl
@[simp] theorem writeEffect_inputs (a : DataAddr) (v : Byte) (s : State) : (writeEffect a v s).inputs = s.inputs := (congrArg State.inputs (writeEffect_eq a v s)).trans rfl

theorem destEffect_eq (d : Bool) (a : DataAddr) (v : Byte) (s : State) :
    destEffect d a v s = { s with
      w := (destEffect d a v s).w
      status := (destEffect d a v s).status
      bsr := (destEffect d a v s).bsr
      fsr := (destEffect d a v s).fsr
      prodh := (destEffect d a v s).prodh
      prodl := (destEffect d a v s).prodl
      tblptr := (destEffect d a v s).tblptr
      tblptr21 := (destEffect d a v s).tblptr21
      tablat := (destEffect d a v s).tablat
      pc := (destEffect d a v s).pc
      pclath := (destEffect d a v s).pclath
      pclatu := (destEffect d a v s).pclatu
      stack := (destEffect d a v s).stack
      sp := (destEffect d a v s).sp
      stkful := (destEffect d a v s).stkful
      stkunf := (destEffect d a v s).stkunf
      irq := (destEffect d a v s).irq
      rcon := (destEffect d a v s).rcon
      wdt := (destEffect d a v s).wdt
      ram := (destEffect d a v s).ram
      outputs := (destEffect d a v s).outputs } := by
  unfold destEffect
  split <;> first | rfl | (rw [writeEffect_eq])
@[simp] theorem destEffect_shadow (d : Bool) (a : DataAddr) (v : Byte) (s : State) : (destEffect d a v s).shadow = s.shadow := (congrArg State.shadow (destEffect_eq d a v s)).trans rfl
@[simp] theorem destEffect_sleeping (d : Bool) (a : DataAddr) (v : Byte) (s : State) : (destEffect d a v s).sleeping = s.sleeping := (congrArg State.sleeping (destEffect_eq d a v s)).trans rfl
@[simp] theorem destEffect_waking (d : Bool) (a : DataAddr) (v : Byte) (s : State) : (destEffect d a v s).waking = s.waking := (congrArg State.waking (destEffect_eq d a v s)).trans rfl
@[simp] theorem destEffect_prog (d : Bool) (a : DataAddr) (v : Byte) (s : State) : (destEffect d a v s).prog = s.prog := (congrArg State.prog (destEffect_eq d a v s)).trans rfl
@[simp] theorem destEffect_holding (d : Bool) (a : DataAddr) (v : Byte) (s : State) : (destEffect d a v s).holding = s.holding := (congrArg State.holding (destEffect_eq d a v s)).trans rfl
@[simp] theorem destEffect_draws (d : Bool) (a : DataAddr) (v : Byte) (s : State) : (destEffect d a v s).draws = s.draws := (congrArg State.draws (destEffect_eq d a v s)).trans rfl
@[simp] theorem destEffect_inputs (d : Bool) (a : DataAddr) (v : Byte) (s : State) : (destEffect d a v s).inputs = s.inputs := (congrArg State.inputs (destEffect_eq d a v s)).trans rfl

theorem afterRead_eq (f : Byte) (a : Bool) (s : State) :
    afterRead f a s = { s with
      pc := (afterRead f a s).pc
      fsr := (afterRead f a s).fsr
      pclath := (afterRead f a s).pclath
      pclatu := (afterRead f a s).pclatu
      draws := (afterRead f a s).draws
      irq := (afterRead f a s).irq } := by unfold afterRead; rw [readEffect_eq, accessState_eq]
@[simp] theorem afterRead_w (f : Byte) (a : Bool) (s : State) : (afterRead f a s).w = s.w := (congrArg State.w (afterRead_eq f a s)).trans rfl
@[simp] theorem afterRead_status (f : Byte) (a : Bool) (s : State) : (afterRead f a s).status = s.status := (congrArg State.status (afterRead_eq f a s)).trans rfl
@[simp] theorem afterRead_bsr (f : Byte) (a : Bool) (s : State) : (afterRead f a s).bsr = s.bsr := (congrArg State.bsr (afterRead_eq f a s)).trans rfl
@[simp] theorem afterRead_prodh (f : Byte) (a : Bool) (s : State) : (afterRead f a s).prodh = s.prodh := (congrArg State.prodh (afterRead_eq f a s)).trans rfl
@[simp] theorem afterRead_prodl (f : Byte) (a : Bool) (s : State) : (afterRead f a s).prodl = s.prodl := (congrArg State.prodl (afterRead_eq f a s)).trans rfl
@[simp] theorem afterRead_tblptr (f : Byte) (a : Bool) (s : State) : (afterRead f a s).tblptr = s.tblptr := (congrArg State.tblptr (afterRead_eq f a s)).trans rfl
@[simp] theorem afterRead_tblptr21 (f : Byte) (a : Bool) (s : State) : (afterRead f a s).tblptr21 = s.tblptr21 := (congrArg State.tblptr21 (afterRead_eq f a s)).trans rfl
@[simp] theorem afterRead_tablat (f : Byte) (a : Bool) (s : State) : (afterRead f a s).tablat = s.tablat := (congrArg State.tablat (afterRead_eq f a s)).trans rfl
@[simp] theorem afterRead_stack (f : Byte) (a : Bool) (s : State) : (afterRead f a s).stack = s.stack := (congrArg State.stack (afterRead_eq f a s)).trans rfl
@[simp] theorem afterRead_sp (f : Byte) (a : Bool) (s : State) : (afterRead f a s).sp = s.sp := (congrArg State.sp (afterRead_eq f a s)).trans rfl
@[simp] theorem afterRead_stkful (f : Byte) (a : Bool) (s : State) : (afterRead f a s).stkful = s.stkful := (congrArg State.stkful (afterRead_eq f a s)).trans rfl
@[simp] theorem afterRead_stkunf (f : Byte) (a : Bool) (s : State) : (afterRead f a s).stkunf = s.stkunf := (congrArg State.stkunf (afterRead_eq f a s)).trans rfl
@[simp] theorem afterRead_shadow (f : Byte) (a : Bool) (s : State) : (afterRead f a s).shadow = s.shadow := (congrArg State.shadow (afterRead_eq f a s)).trans rfl
@[simp] theorem afterRead_rcon (f : Byte) (a : Bool) (s : State) : (afterRead f a s).rcon = s.rcon := (congrArg State.rcon (afterRead_eq f a s)).trans rfl
@[simp] theorem afterRead_wdt (f : Byte) (a : Bool) (s : State) : (afterRead f a s).wdt = s.wdt := (congrArg State.wdt (afterRead_eq f a s)).trans rfl
@[simp] theorem afterRead_sleeping (f : Byte) (a : Bool) (s : State) : (afterRead f a s).sleeping = s.sleeping := (congrArg State.sleeping (afterRead_eq f a s)).trans rfl
@[simp] theorem afterRead_waking (f : Byte) (a : Bool) (s : State) : (afterRead f a s).waking = s.waking := (congrArg State.waking (afterRead_eq f a s)).trans rfl
@[simp] theorem afterRead_ram (f : Byte) (a : Bool) (s : State) : (afterRead f a s).ram = s.ram := (congrArg State.ram (afterRead_eq f a s)).trans rfl
@[simp] theorem afterRead_prog (f : Byte) (a : Bool) (s : State) : (afterRead f a s).prog = s.prog := (congrArg State.prog (afterRead_eq f a s)).trans rfl
@[simp] theorem afterRead_holding (f : Byte) (a : Bool) (s : State) : (afterRead f a s).holding = s.holding := (congrArg State.holding (afterRead_eq f a s)).trans rfl
@[simp] theorem afterRead_outputs (f : Byte) (a : Bool) (s : State) : (afterRead f a s).outputs = s.outputs := (congrArg State.outputs (afterRead_eq f a s)).trans rfl
@[simp] theorem afterRead_inputs (f : Byte) (a : Bool) (s : State) : (afterRead f a s).inputs = s.inputs := (congrArg State.inputs (afterRead_eq f a s)).trans rfl

theorem readNext_eq (f : Byte) (a : Bool) (s : State) :
    readNext f a s = { s with
      pc := (readNext f a s).pc
      fsr := (readNext f a s).fsr
      pclath := (readNext f a s).pclath
      pclatu := (readNext f a s).pclatu
      draws := (readNext f a s).draws
      irq := (readNext f a s).irq } := by unfold readNext; rw [postUpdate_eq, afterRead_eq]
@[simp] theorem readNext_w (f : Byte) (a : Bool) (s : State) : (readNext f a s).w = s.w := (congrArg State.w (readNext_eq f a s)).trans rfl
@[simp] theorem readNext_status (f : Byte) (a : Bool) (s : State) : (readNext f a s).status = s.status := (congrArg State.status (readNext_eq f a s)).trans rfl
@[simp] theorem readNext_bsr (f : Byte) (a : Bool) (s : State) : (readNext f a s).bsr = s.bsr := (congrArg State.bsr (readNext_eq f a s)).trans rfl
@[simp] theorem readNext_prodh (f : Byte) (a : Bool) (s : State) : (readNext f a s).prodh = s.prodh := (congrArg State.prodh (readNext_eq f a s)).trans rfl
@[simp] theorem readNext_prodl (f : Byte) (a : Bool) (s : State) : (readNext f a s).prodl = s.prodl := (congrArg State.prodl (readNext_eq f a s)).trans rfl
@[simp] theorem readNext_tblptr (f : Byte) (a : Bool) (s : State) : (readNext f a s).tblptr = s.tblptr := (congrArg State.tblptr (readNext_eq f a s)).trans rfl
@[simp] theorem readNext_tblptr21 (f : Byte) (a : Bool) (s : State) : (readNext f a s).tblptr21 = s.tblptr21 := (congrArg State.tblptr21 (readNext_eq f a s)).trans rfl
@[simp] theorem readNext_tablat (f : Byte) (a : Bool) (s : State) : (readNext f a s).tablat = s.tablat := (congrArg State.tablat (readNext_eq f a s)).trans rfl
@[simp] theorem readNext_stack (f : Byte) (a : Bool) (s : State) : (readNext f a s).stack = s.stack := (congrArg State.stack (readNext_eq f a s)).trans rfl
@[simp] theorem readNext_sp (f : Byte) (a : Bool) (s : State) : (readNext f a s).sp = s.sp := (congrArg State.sp (readNext_eq f a s)).trans rfl
@[simp] theorem readNext_stkful (f : Byte) (a : Bool) (s : State) : (readNext f a s).stkful = s.stkful := (congrArg State.stkful (readNext_eq f a s)).trans rfl
@[simp] theorem readNext_stkunf (f : Byte) (a : Bool) (s : State) : (readNext f a s).stkunf = s.stkunf := (congrArg State.stkunf (readNext_eq f a s)).trans rfl
@[simp] theorem readNext_shadow (f : Byte) (a : Bool) (s : State) : (readNext f a s).shadow = s.shadow := (congrArg State.shadow (readNext_eq f a s)).trans rfl
@[simp] theorem readNext_rcon (f : Byte) (a : Bool) (s : State) : (readNext f a s).rcon = s.rcon := (congrArg State.rcon (readNext_eq f a s)).trans rfl
@[simp] theorem readNext_wdt (f : Byte) (a : Bool) (s : State) : (readNext f a s).wdt = s.wdt := (congrArg State.wdt (readNext_eq f a s)).trans rfl
@[simp] theorem readNext_sleeping (f : Byte) (a : Bool) (s : State) : (readNext f a s).sleeping = s.sleeping := (congrArg State.sleeping (readNext_eq f a s)).trans rfl
@[simp] theorem readNext_waking (f : Byte) (a : Bool) (s : State) : (readNext f a s).waking = s.waking := (congrArg State.waking (readNext_eq f a s)).trans rfl
@[simp] theorem readNext_ram (f : Byte) (a : Bool) (s : State) : (readNext f a s).ram = s.ram := (congrArg State.ram (readNext_eq f a s)).trans rfl
@[simp] theorem readNext_prog (f : Byte) (a : Bool) (s : State) : (readNext f a s).prog = s.prog := (congrArg State.prog (readNext_eq f a s)).trans rfl
@[simp] theorem readNext_holding (f : Byte) (a : Bool) (s : State) : (readNext f a s).holding = s.holding := (congrArg State.holding (readNext_eq f a s)).trans rfl
@[simp] theorem readNext_outputs (f : Byte) (a : Bool) (s : State) : (readNext f a s).outputs = s.outputs := (congrArg State.outputs (readNext_eq f a s)).trans rfl
@[simp] theorem readNext_inputs (f : Byte) (a : Bool) (s : State) : (readNext f a s).inputs = s.inputs := (congrArg State.inputs (readNext_eq f a s)).trans rfl

theorem wakeUp_eq (s : State) :
    wakeUp s = { s with
      sleeping := (wakeUp s).sleeping
      waking := (wakeUp s).waking } := by unfold wakeUp; split <;> rfl
@[simp] theorem wakeUp_w (s : State) : (wakeUp s).w = s.w := (congrArg State.w (wakeUp_eq s)).trans rfl
@[simp] theorem wakeUp_status (s : State) : (wakeUp s).status = s.status := (congrArg State.status (wakeUp_eq s)).trans rfl
@[simp] theorem wakeUp_bsr (s : State) : (wakeUp s).bsr = s.bsr := (congrArg State.bsr (wakeUp_eq s)).trans rfl
@[simp] theorem wakeUp_fsr (s : State) : (wakeUp s).fsr = s.fsr := (congrArg State.fsr (wakeUp_eq s)).trans rfl
@[simp] theorem wakeUp_prodh (s : State) : (wakeUp s).prodh = s.prodh := (congrArg State.prodh (wakeUp_eq s)).trans rfl
@[simp] theorem wakeUp_prodl (s : State) : (wakeUp s).prodl = s.prodl := (congrArg State.prodl (wakeUp_eq s)).trans rfl
@[simp] theorem wakeUp_tblptr (s : State) : (wakeUp s).tblptr = s.tblptr := (congrArg State.tblptr (wakeUp_eq s)).trans rfl
@[simp] theorem wakeUp_tblptr21 (s : State) : (wakeUp s).tblptr21 = s.tblptr21 := (congrArg State.tblptr21 (wakeUp_eq s)).trans rfl
@[simp] theorem wakeUp_tablat (s : State) : (wakeUp s).tablat = s.tablat := (congrArg State.tablat (wakeUp_eq s)).trans rfl
@[simp] theorem wakeUp_pc (s : State) : (wakeUp s).pc = s.pc := (congrArg State.pc (wakeUp_eq s)).trans rfl
@[simp] theorem wakeUp_pclath (s : State) : (wakeUp s).pclath = s.pclath := (congrArg State.pclath (wakeUp_eq s)).trans rfl
@[simp] theorem wakeUp_pclatu (s : State) : (wakeUp s).pclatu = s.pclatu := (congrArg State.pclatu (wakeUp_eq s)).trans rfl
@[simp] theorem wakeUp_stack (s : State) : (wakeUp s).stack = s.stack := (congrArg State.stack (wakeUp_eq s)).trans rfl
@[simp] theorem wakeUp_sp (s : State) : (wakeUp s).sp = s.sp := (congrArg State.sp (wakeUp_eq s)).trans rfl
@[simp] theorem wakeUp_stkful (s : State) : (wakeUp s).stkful = s.stkful := (congrArg State.stkful (wakeUp_eq s)).trans rfl
@[simp] theorem wakeUp_stkunf (s : State) : (wakeUp s).stkunf = s.stkunf := (congrArg State.stkunf (wakeUp_eq s)).trans rfl
@[simp] theorem wakeUp_shadow (s : State) : (wakeUp s).shadow = s.shadow := (congrArg State.shadow (wakeUp_eq s)).trans rfl
@[simp] theorem wakeUp_irq (s : State) : (wakeUp s).irq = s.irq := (congrArg State.irq (wakeUp_eq s)).trans rfl
@[simp] theorem wakeUp_rcon (s : State) : (wakeUp s).rcon = s.rcon := (congrArg State.rcon (wakeUp_eq s)).trans rfl
@[simp] theorem wakeUp_wdt (s : State) : (wakeUp s).wdt = s.wdt := (congrArg State.wdt (wakeUp_eq s)).trans rfl
@[simp] theorem wakeUp_ram (s : State) : (wakeUp s).ram = s.ram := (congrArg State.ram (wakeUp_eq s)).trans rfl
@[simp] theorem wakeUp_prog (s : State) : (wakeUp s).prog = s.prog := (congrArg State.prog (wakeUp_eq s)).trans rfl
@[simp] theorem wakeUp_holding (s : State) : (wakeUp s).holding = s.holding := (congrArg State.holding (wakeUp_eq s)).trans rfl
@[simp] theorem wakeUp_outputs (s : State) : (wakeUp s).outputs = s.outputs := (congrArg State.outputs (wakeUp_eq s)).trans rfl
@[simp] theorem wakeUp_draws (s : State) : (wakeUp s).draws = s.draws := (congrArg State.draws (wakeUp_eq s)).trans rfl
@[simp] theorem wakeUp_inputs (s : State) : (wakeUp s).inputs = s.inputs := (congrArg State.inputs (wakeUp_eq s)).trans rfl

theorem stayAwakeForEntry_eq (s : State) :
    stayAwakeForEntry s = { s with
      sleeping := (stayAwakeForEntry s).sleeping } := by unfold stayAwakeForEntry; split <;> rfl
@[simp] theorem stayAwakeForEntry_w (s : State) : (stayAwakeForEntry s).w = s.w := (congrArg State.w (stayAwakeForEntry_eq s)).trans rfl
@[simp] theorem stayAwakeForEntry_status (s : State) : (stayAwakeForEntry s).status = s.status := (congrArg State.status (stayAwakeForEntry_eq s)).trans rfl
@[simp] theorem stayAwakeForEntry_bsr (s : State) : (stayAwakeForEntry s).bsr = s.bsr := (congrArg State.bsr (stayAwakeForEntry_eq s)).trans rfl
@[simp] theorem stayAwakeForEntry_fsr (s : State) : (stayAwakeForEntry s).fsr = s.fsr := (congrArg State.fsr (stayAwakeForEntry_eq s)).trans rfl
@[simp] theorem stayAwakeForEntry_prodh (s : State) : (stayAwakeForEntry s).prodh = s.prodh := (congrArg State.prodh (stayAwakeForEntry_eq s)).trans rfl
@[simp] theorem stayAwakeForEntry_prodl (s : State) : (stayAwakeForEntry s).prodl = s.prodl := (congrArg State.prodl (stayAwakeForEntry_eq s)).trans rfl
@[simp] theorem stayAwakeForEntry_tblptr (s : State) : (stayAwakeForEntry s).tblptr = s.tblptr := (congrArg State.tblptr (stayAwakeForEntry_eq s)).trans rfl
@[simp] theorem stayAwakeForEntry_tblptr21 (s : State) : (stayAwakeForEntry s).tblptr21 = s.tblptr21 := (congrArg State.tblptr21 (stayAwakeForEntry_eq s)).trans rfl
@[simp] theorem stayAwakeForEntry_tablat (s : State) : (stayAwakeForEntry s).tablat = s.tablat := (congrArg State.tablat (stayAwakeForEntry_eq s)).trans rfl
@[simp] theorem stayAwakeForEntry_pc (s : State) : (stayAwakeForEntry s).pc = s.pc := (congrArg State.pc (stayAwakeForEntry_eq s)).trans rfl
@[simp] theorem stayAwakeForEntry_pclath (s : State) : (stayAwakeForEntry s).pclath = s.pclath := (congrArg State.pclath (stayAwakeForEntry_eq s)).trans rfl
@[simp] theorem stayAwakeForEntry_pclatu (s : State) : (stayAwakeForEntry s).pclatu = s.pclatu := (congrArg State.pclatu (stayAwakeForEntry_eq s)).trans rfl
@[simp] theorem stayAwakeForEntry_stack (s : State) : (stayAwakeForEntry s).stack = s.stack := (congrArg State.stack (stayAwakeForEntry_eq s)).trans rfl
@[simp] theorem stayAwakeForEntry_sp (s : State) : (stayAwakeForEntry s).sp = s.sp := (congrArg State.sp (stayAwakeForEntry_eq s)).trans rfl
@[simp] theorem stayAwakeForEntry_stkful (s : State) : (stayAwakeForEntry s).stkful = s.stkful := (congrArg State.stkful (stayAwakeForEntry_eq s)).trans rfl
@[simp] theorem stayAwakeForEntry_stkunf (s : State) : (stayAwakeForEntry s).stkunf = s.stkunf := (congrArg State.stkunf (stayAwakeForEntry_eq s)).trans rfl
@[simp] theorem stayAwakeForEntry_shadow (s : State) : (stayAwakeForEntry s).shadow = s.shadow := (congrArg State.shadow (stayAwakeForEntry_eq s)).trans rfl
@[simp] theorem stayAwakeForEntry_irq (s : State) : (stayAwakeForEntry s).irq = s.irq := (congrArg State.irq (stayAwakeForEntry_eq s)).trans rfl
@[simp] theorem stayAwakeForEntry_rcon (s : State) : (stayAwakeForEntry s).rcon = s.rcon := (congrArg State.rcon (stayAwakeForEntry_eq s)).trans rfl
@[simp] theorem stayAwakeForEntry_wdt (s : State) : (stayAwakeForEntry s).wdt = s.wdt := (congrArg State.wdt (stayAwakeForEntry_eq s)).trans rfl
@[simp] theorem stayAwakeForEntry_waking (s : State) : (stayAwakeForEntry s).waking = s.waking := (congrArg State.waking (stayAwakeForEntry_eq s)).trans rfl
@[simp] theorem stayAwakeForEntry_ram (s : State) : (stayAwakeForEntry s).ram = s.ram := (congrArg State.ram (stayAwakeForEntry_eq s)).trans rfl
@[simp] theorem stayAwakeForEntry_prog (s : State) : (stayAwakeForEntry s).prog = s.prog := (congrArg State.prog (stayAwakeForEntry_eq s)).trans rfl
@[simp] theorem stayAwakeForEntry_holding (s : State) : (stayAwakeForEntry s).holding = s.holding := (congrArg State.holding (stayAwakeForEntry_eq s)).trans rfl
@[simp] theorem stayAwakeForEntry_outputs (s : State) : (stayAwakeForEntry s).outputs = s.outputs := (congrArg State.outputs (stayAwakeForEntry_eq s)).trans rfl
@[simp] theorem stayAwakeForEntry_draws (s : State) : (stayAwakeForEntry s).draws = s.draws := (congrArg State.draws (stayAwakeForEntry_eq s)).trans rfl
@[simp] theorem stayAwakeForEntry_inputs (s : State) : (stayAwakeForEntry s).inputs = s.inputs := (congrArg State.inputs (stayAwakeForEntry_eq s)).trans rfl

end Sys2Proof.Machine
end

