-- ==== Sys2Proof/Laws/Memory.lean ====
section
/-! SUPPORT. The laws of memory: what a read gives after a write, and that every operation keeps the canonical form. -/

namespace Sys2Proof.Machine

theorem Memory.lookup_none_of_lt {m : Memory} {a : Nat} (h : ∀ c ∈ m, a < c.1) : Memory.lookup m a = none := by
  induction m with
  | nil => rfl
  | cons c m ih =>
    obtain ⟨k, x⟩ := c
    have hk : a < k := h (k, x) (List.mem_cons_self ..)
    have : Memory.lookup m a = none := ih fun d hd => h d (List.mem_cons_of_mem _ hd)
    simp [Memory.lookup, this, Nat.ne_of_gt hk]

theorem Memory.mem_insert {m : Memory} {a : Nat} {v : Byte} {c : Host.Cell} (h : c ∈ Memory.insert m a v) :
    c = (a, v) ∨ c ∈ m := by
  induction m with
  | nil => simpa [Memory.insert] using h
  | cons d m ih =>
    obtain ⟨k, x⟩ := d
    simp only [Memory.insert] at h
    split at h
    · simpa using h
    · split at h
      · rcases List.mem_cons.1 h with h | h
        · exact .inl h
        · exact .inr (List.mem_cons_of_mem _ h)
      · rcases List.mem_cons.1 h with h | h
        · exact .inr (h ▸ List.mem_cons_self ..)
        · exact (ih h).imp id (List.mem_cons_of_mem _)

theorem Memory.lookup_insert (m : Memory) (a b : Nat) (v : Byte) (h : (m.map Prod.fst).Pairwise (· < ·)) :
    Memory.lookup (Memory.insert m a v) b = if b = a then some v else Memory.lookup m b := by
  induction m with
  | nil => simp [Memory.insert, Memory.lookup, eq_comm]
  | cons d m ih =>
    obtain ⟨k, x⟩ := d
    have hm := (List.pairwise_cons.1 h).2
    simp only [Memory.insert]
    split
    · simp only [Memory.lookup, eq_comm]
    · split
      · rename_i _ e
        subst e
        simp only [Memory.lookup, eq_comm]
        split <;> simp_all
      · rename_i h1 h2
        simp only [Memory.lookup, ih hm]
        by_cases e : k = b
        · subst e
          simp [show k ≠ a from fun h => h2 h.symm]
        · simp [e]

theorem Memory.lookup_erase (m : Memory) (a b : Nat) :
    Memory.lookup (Memory.erase m a) b = if b = a then none else Memory.lookup m b := by
  induction m with
  | nil => simp [Memory.erase, Memory.lookup]
  | cons d m ih =>
    obtain ⟨k, x⟩ := d
    unfold Memory.erase at ih ⊢
    by_cases hk : k = a
    · subst hk
      simp only [List.filter_cons, bne_self_eq_false, Bool.false_eq_true, if_false, ih, Memory.lookup]
      by_cases e : b = k
      · simp [e]
      · simp [e, Ne.symm e]
    · simp only [List.filter_cons, bne_iff_ne, ne_eq, hk, not_false_eq_true, if_true, Memory.lookup, ih]
      by_cases e : k = b
      · subst e
        simp [hk]
      · simp [e]

/-- WHAT A READ GIVES AFTER A WRITE: the byte written, at the address written; elsewhere what it gave before. -/
theorem Memory.read_write (u : Option Byte) (m : Memory) (a b : Nat) (v : Byte)
    (h : (m.map Prod.fst).Pairwise (· < ·)) :
    Memory.read u (Memory.write u m a v) b = if b = a then some v else Memory.read u m b := by
  unfold Memory.read Memory.write
  by_cases hu : u = some v
  · rw [if_pos hu, Memory.lookup_erase]
    by_cases e : b = a <;> simp [e, hu]
  · rw [if_neg hu, Memory.lookup_insert m a b v h]
    by_cases e : b = a <;> simp [e]

/-- A read of another address gives what it gave, in the canonical form or not. -/
theorem Memory.lookup_insert_ne (m : Memory) (a b : Nat) (v : Byte) (hb : b ≠ a) :
    Memory.lookup (Memory.insert m a v) b = Memory.lookup m b := by
  induction m with
  | nil => simp [Memory.insert, Memory.lookup, Ne.symm hb]
  | cons d m ih =>
    obtain ⟨k, x⟩ := d
    simp only [Memory.insert]
    split
    · simp only [Memory.lookup, if_neg (Ne.symm hb)]
    · split
      · rename_i _ e
        subst e
        simp only [Memory.lookup, if_neg (Ne.symm hb)]
      · simp only [Memory.lookup, ih]

theorem Memory.read_write_ne (u : Option Byte) (m : Memory) (a b : Nat) (v : Byte) (hb : b ≠ a) :
    Memory.read u (Memory.write u m a v) b = Memory.read u m b := by
  unfold Memory.read Memory.write
  by_cases hu : u = some v
  · rw [if_pos hu, Memory.lookup_erase, if_neg hb]
  · rw [if_neg hu, Memory.lookup_insert_ne m a b v hb]

/-- A read of the address written gives the byte written, in the canonical form or not. -/
theorem Memory.lookup_insert_self (m : Memory) (a : Nat) (v : Byte) :
    Memory.lookup (Memory.insert m a v) a = some v := by
  induction m with
  | nil => simp [Memory.insert, Memory.lookup]
  | cons d m ih =>
    obtain ⟨k, x⟩ := d
    simp only [Memory.insert]
    split
    · simp [Memory.lookup]
    · split
      · simp [Memory.lookup]
      · rename_i h1 h2
        simp only [Memory.lookup, ih, if_neg (fun h : k = a => h2 h.symm)]

theorem Memory.read_write_self (u : Option Byte) (m : Memory) (a : Nat) (v : Byte) :
    Memory.read u (Memory.write u m a v) a = some v := by
  unfold Memory.read Memory.write
  by_cases hu : u = some v
  · rw [if_pos hu, Memory.lookup_erase]
    simp [hu]
  · rw [if_neg hu, Memory.lookup_insert_self]

theorem Memory.insert_pairwise (m : Memory) (a : Nat) (v : Byte) (h : (m.map Prod.fst).Pairwise (· < ·)) :
    ((Memory.insert m a v).map Prod.fst).Pairwise (· < ·) := by
  induction m with
  | nil => simp [Memory.insert]
  | cons d m ih =>
    obtain ⟨k, x⟩ := d
    have hk := (List.pairwise_cons.1 h).1
    have hm := (List.pairwise_cons.1 h).2
    simp only [Memory.insert]
    split
    · rename_i hak
      refine List.pairwise_cons.2 ⟨fun b hb => ?_, h⟩
      rcases List.mem_cons.1 hb with e | e
      · exact e ▸ hak
      · exact Nat.lt_trans hak (hk b e)
    · split
      · rename_i _ e
        subst e
        exact List.pairwise_cons.2 ⟨hk, hm⟩
      · rename_i h1 h2
        refine List.pairwise_cons.2 ⟨fun b hb => ?_, ih hm⟩
        obtain ⟨c, hc, rfl⟩ := List.mem_map.1 hb
        rcases Memory.mem_insert hc with e | e
        · subst e
          show k < a
          omega
        · exact hk c.1 (List.mem_map.2 ⟨c, e, rfl⟩)

/-- EVERY WRITE KEEPS THE CANONICAL FORM. -/
theorem Memory.wf_write {u : Option Byte} {bound : Nat} {m : Memory} (a : Nat) (v : Byte) (ha : a < bound)
    (h : Memory.wf u bound m) : Memory.wf u bound (Memory.write u m a v) := by
  unfold Memory.write
  split
  · refine ⟨List.Pairwise.sublist (List.Sublist.map _ List.filter_sublist) h.1, fun c hc => ?_⟩
    exact h.2 c (List.mem_filter.1 hc).1
  · rename_i hu
    refine ⟨Memory.insert_pairwise m a v h.1, fun c hc => ?_⟩
    rcases Memory.mem_insert hc with rfl | e
    · exact ⟨fun e => hu e.symm, ha⟩
    · exact h.2 c e

/-- An empty memory is in canonical form. -/
theorem Memory.wf_nil (u : Option Byte) (bound : Nat) : Memory.wf u bound [] :=
  ⟨List.Pairwise.nil, fun _ h => nomatch h⟩

/-- Reset memory is in canonical form. -/
theorem reset_ram_wf : Memory.wf ramUnlisted Config.ramBytes State.reset.ram := Memory.wf_nil _ _

theorem reset_prog_wf : Memory.wf progUnlisted Config.progBytes State.reset.prog := Memory.wf_nil _ _

theorem ramByte_ramWrite (a b : DataAddr) (v : Byte) (s : State) :
    ramByte b (ramWrite a v s) = if b = a then some v else ramByte b s := by
  unfold ramByte ramWrite
  by_cases e : b = a
  · subst e
    simp [State.setRam, Memory.read_write_self]
  · rw [if_neg e]
    exact Memory.read_write_ne _ _ _ _ _ fun h => e (BitVec.eq_of_toNat_eq h)

theorem place_ram_iff (a : DataAddr) : place a = .ram ↔ a.toNat < 1536 := by
  have key : ∀ p ∈ sfrMap, p.2 ≠ .ram := by decide
  unfold place
  constructor
  · intro h
    split at h
    · assumption
    · exfalso
      cases hl : sfrMap.lookup a.toNat with
      | none => simp [hl] at h
      | some p =>
        rw [hl] at h
        have : (a.toNat, p) ∈ sfrMap := by
          clear h key
          revert hl
          generalize sfrMap = m
          intro hl
          induction m with
          | nil => simp at hl
          | cons d m ih =>
            obtain ⟨k, x⟩ := d
            rw [List.lookup_cons] at hl
            split at hl
            · rename_i e
              have e' : a.toNat = k := by simpa using e
              have e'' : x = p := by simpa using hl
              subst e' e''
              exact List.mem_cons_self ..
            · exact List.mem_cons_of_mem _ (ih hl)
        exact key _ this (by simpa using h)
  · intro h
    rw [if_pos (show a.toNat < Config.ramBytes from h)]

theorem ramWrite_wf {s : State} (a : DataAddr) (v : Byte) (ha : place a = .ram)
    (h : Memory.wf ramUnlisted Config.ramBytes s.ram) :
    Memory.wf ramUnlisted Config.ramBytes (ramWrite a v s).ram :=
  Memory.wf_write a.toNat v ((place_ram_iff a).1 ha) h

theorem progLoad_wf {s : State} (a : ProgAddr) (v : Byte) (h : Memory.wf progUnlisted Config.progBytes s.prog) :
    Memory.wf progUnlisted Config.progBytes (progLoad a v s).prog := by
  unfold progLoad
  split
  · exact Memory.wf_write a.toNat v (by assumption) h
  · exact h

theorem progLoadBytes_wf (bs : List Byte) (a : ProgAddr) (s : State)
    (h : Memory.wf progUnlisted Config.progBytes s.prog) :
    Memory.wf progUnlisted Config.progBytes (progLoadBytes a bs s).prog := by
  induction bs generalizing a s with
  | nil => exact h
  | cons b bs ih => exact ih _ _ (progLoad_wf a b h)

/-- The program bytes of implemented addresses always have a value (20_memory.md R92). -/
theorem progRead_isSome (a : ProgAddr) (s : State) (h : a.toNat < Config.progBytes) : (progRead a s).isSome = true := by
  unfold progRead Memory.read
  rw [if_pos h]
  cases Memory.lookup s.prog a.toNat <;> rfl

theorem progRead_none (a : ProgAddr) (s : State) (h : Config.progBytes ≤ a.toNat) : progRead a s = none := by
  unfold progRead
  rw [if_neg (by omega)]

theorem progRead_congr (a : ProgAddr) {s t : State} (h : t.prog = s.prog) : progRead a t = progRead a s := by
  unfold progRead
  rw [h]

end Sys2Proof.Machine
end

