-- ==== Sys2Proof/Laws/Ops.lean ====
section
/-! SUPPORT. One lemma per shared operation that says once everything it can do: when it answers a next state, and which.
A proof about an instruction cites these and unfolds no operation. -/

namespace Sys2Proof.Machine

/-! ### Sequencing -/

@[simp] theorem andThen_next {α β : Type} (a : α) (k : α → Res β) : andThen (.next a) k = k a := rfl
@[simp] theorem andThen_fault {α β : Type} (e : Fault) (k : α → Res β) : andThen (.fault e : Res α) k = .fault e := rfl
@[simp] theorem andThen_refused {α β : Type} (e : Refusal) (k : α → Res β) :
    andThen (.refused e : Res α) k = .refused e := rfl

/-- A sequence answers a next state exactly where both parts do. -/
theorem andThen_next_iff {α β : Type} {r : Res α} {k : α → Res β} {b : β} :
    andThen r k = .next b ↔ ∃ a, r = .next a ∧ k a = .next b := by
  cases r <;> simp [andThen]

/-! ### Stack -/

theorem push_next_iff {v : ProgAddr} {s t : State} :
    push v s = .next t ↔
      s.sp.toNat < Config.stackDepth ∧ t = setStackEntry (s.sp + 1#5) v (s.setSp (s.sp + 1#5)) := by
  unfold push
  split <;> rename_i h
  · simp [h, eq_comm]
  · simp [h]

theorem pop_next_iff {s : State} {p : ProgAddr × State} :
    pop s = .next p ↔ s.sp ≠ 0#5 ∧ p = (tos s, s.setSp (s.sp - 1#5)) := by
  unfold pop
  split <;> rename_i h
  · simp [h]
  · simp [h, eq_comm]

theorem stackEntry_congr (n : BitVec 5) {s t : State} (h : t.stack = s.stack) : stackEntry n t = stackEntry n s := by
  unfold stackEntry
  rw [h]

/-- What the stack holds after an entry is written: it, and every other entry as before. -/
theorem stackEntry_setStackEntry (n m : BitVec 5) (v : ProgAddr) (s : State) (hn : n ≠ 0#5) :
    stackEntry m (setStackEntry n v s) = if m = n then v else stackEntry m s := by
  have hn0 : n.toNat ≠ 0 := fun h => hn (BitVec.eq_of_toNat_eq h)
  have hlt : n.toNat - 1 < Config.stackDepth := by
    have := n.isLt
    show n.toNat - 1 < 31
    omega
  unfold stackEntry setStackEntry
  rw [if_neg hn]
  by_cases hm : m = n
  · subst hm
    simp only [State.setStack_stack, if_neg hn, if_true]
    rw [Vector.getElem?_setIfInBounds_self_of_lt (h := hlt)]
    rfl
  · rw [if_neg hm]
    by_cases h0 : m = 0#5
    · rw [if_pos h0, if_pos h0]
    · rw [if_neg h0, if_neg h0, State.setStack_stack, Vector.getElem?_setIfInBounds_ne]
      intro h
      have hm0 : m.toNat ≠ 0 := fun h => h0 (BitVec.eq_of_toNat_eq h)
      exact hm (BitVec.eq_of_toNat_eq (by omega))

/-- Setting one entry of the return stack leaves the others, whichever it is (10_state.md R35). -/
theorem stackEntry_setStackEntry_of_ne {n m : BitVec 5} (h : n ≠ m) (v : ProgAddr) (s : State) :
    stackEntry n (setStackEntry m v s) = stackEntry n s := by
  by_cases h0 : m = 0#5
  · unfold setStackEntry
    rw [if_pos h0]
  · rw [stackEntry_setStackEntry _ _ _ _ h0, if_neg h]

theorem sp_succ_ne_zero (s : State) (h : s.sp.toNat < Config.stackDepth) : s.sp + 1#5 ≠ 0#5 := by
  intro e
  have := congrArg BitVec.toNat e
  simp at this
  change s.sp.toNat < 31 at h
  omega

theorem sp_succ_toNat (s : State) (h : s.sp.toNat < Config.stackDepth) : (s.sp + 1#5).toNat = s.sp.toNat + 1 := by
  change s.sp.toNat < 31 at h
  simp
  omega

/-- A push that has room, in full (10_state.md R36). -/
theorem push_spec (v : ProgAddr) (s : State) (h : s.sp.toNat < Config.stackDepth) :
    ∃ t, push v s = .next t ∧ Pushed v s t ∧ t = { s with sp := t.sp, stack := t.stack } := by
  refine ⟨_, push_next_iff.2 ⟨h, rfl⟩, ⟨?_, ?_, ?_⟩, ?_⟩
  · simp [sp_succ_toNat s h]
  · rw [setStackEntry_sp, State.setSp_sp, stackEntry_setStackEntry _ _ _ _ (sp_succ_ne_zero s h), if_pos rfl]
  · intro n hn
    rw [setStackEntry_sp, State.setSp_sp] at hn
    rw [stackEntry_setStackEntry _ _ _ _ (sp_succ_ne_zero s h), if_neg hn]
    rfl
  · rw [setStackEntry_eq]
    rfl

/-! ### Data reads and writes -/

theorem ramByte_congr (a : DataAddr) {s t : State} (h : t.ram = s.ram) : ramByte a t = ramByte a s := by
  unfold ramByte
  rw [h]

/-- A data read gives a value exactly where the address is readable (20_memory.md R86). -/
theorem dataRead_next_iff {a : DataAddr} {s : State} {p : Byte × State} :
    dataRead a s = .next p ↔ Readable a s ∧ p = (readValue a s, readEffect a s) := by
  have e : (Host.Outcome.next (readValue a s, readEffect a s) : Res (Byte × State)) = .next p ↔
      p = (readValue a s, readEffect a s) := ⟨fun h => by cases h; rfl, fun h => by rw [h]⟩
  unfold dataRead Readable
  cases h : place a <;> simp only [e] <;> simp
  by_cases hr : (ramByte a s).isSome = true
  · simp only [hr, if_true, e, true_and]
  · simp [hr]

theorem dataReadDiscard_next_iff {a : DataAddr} {s t : State} :
    dataReadDiscard a s = .next t ↔ place a ≠ .unimplemented ∧ t = readEffect a s := by
  unfold dataReadDiscard
  cases h : place a <;> simp [eq_comm]

/-- A data write is made exactly where the address takes one (20_memory.md R87). -/
theorem dataWrite_next_iff {a : DataAddr} {v : Byte} {s t : State} :
    dataWrite a v s = .next t ↔ Writable a ∧ t = writeEffect a v s := by
  unfold dataWrite Writable
  cases h : place a <;> simp [eq_comm]

theorem dest_next_iff {d : Bool} {a : DataAddr} {v : Byte} {s t : State} :
    dest d a v s = .next t ↔ (d = true → Writable a) ∧ t = destEffect d a v s := by
  unfold dest destEffect
  cases d
  · simp [eq_comm]
  · simp [dataWrite_next_iff]

/-! ### File operands -/

@[simp] theorem rawAddr_advance (f : Byte) (a : Bool) (n : Nat) (s : State) :
    rawAddr f a (advance n s) = rawAddr f a s := rfl

@[simp] theorem resolve_advance (raw : DataAddr) (n : Nat) (s : State) : resolve raw (advance n s) = resolve raw s := by
  unfold resolve
  split <;> rfl

theorem fileOperand_next_iff {f : Byte} {a : Bool} {s : State} {o : DataAddr × State} :
    fileOperand f a (advance 2 s) = .next o ↔
      OperandOk f a s ∧ o = (effAddr f a s, accessState 2 (rawAddr f a s) s) := by
  unfold fileOperand OperandOk effAddr accessState
  simp only [rawAddr_advance, resolve_advance]
  split <;> rename_i h
  · simp [h]
  · simp [h, eq_comm]

theorem readable_accessState {a : DataAddr} {n : Nat} {raw : DataAddr} {s : State} :
    Readable a (accessState n raw s) ↔ Readable a s := by
  unfold Readable
  rw [ramByte_congr a (accessState_ram n raw s)]

/-! ### Skips -/

/-- A skip that is taken passes over an assigned word's instruction (41_byte_skip.md R201). -/
theorem skip_next_iff {s t : State} :
    skip s = .next t ↔ ∃ n, ((fetch16 s.pc s).bind skippedBytes) = some n ∧ t = advance n s := by
  unfold skip
  cases hf : fetch16 s.pc s with
  | none => simp
  | some w =>
    cases hs : skippedBytes w with
    | none => simp [hs]
    | some n => simp [hs, eq_comm]

theorem fetch16_congr (a : ProgAddr) {s t : State} (h : t.prog = s.prog) : fetch16 a t = fetch16 a s := by
  unfold fetch16
  rw [progRead_congr a h, progRead_congr _ h]

theorem fetchBytes_congr (n : Nat) (a : ProgAddr) {s t : State} (h : t.prog = s.prog) :
    fetchBytes n a t = fetchBytes n a s := by
  induction n generalizing a with
  | zero => rfl
  | succ n ih =>
    unfold fetchBytes
    rw [progRead_congr a h, ih]

theorem skipIf_next_iff {p : Bool} {s t : State} :
    skipIf p s = .next t ↔
      (p = true ∧ ∃ n, ((fetch16 s.pc s).bind skippedBytes) = some n ∧ t = advance n s) ∨ (p = false ∧ t = s) := by
  unfold skipIf
  cases p
  · simp [eq_comm]
  · simp [skip_next_iff]

theorem advance_eq_skipped (n : Nat) (s : State) : advance n s = skipped n s := by
  unfold advance skipped
  congr 1
  apply BitVec.eq_of_toNat_eq
  simp

@[simp] theorem skipped_zero (s : State) : skipped 0 s = s := by
  unfold skipped State.setPc
  simp

end Sys2Proof.Machine
end

