-- ==== Sys2Proof/Laws/Operands.lean ====
section
/-! SUPPORT. One lemma per execution pattern: when it answers a next state, and which. -/

namespace Sys2Proof.Machine

/-- The byte operations (40_byte_oriented.md R161): where the operand can be read and the result stored, and nowhere
else. -/
theorem byteOp_next_iff {op : ByteFn} {f : Byte} {d a : Bool} {s t : State} :
    byteOp op f d a s = .next t ↔ CanRead f a s ∧ CanStore d f a s ∧
      t = byteNext f d a (op (operandValue f a s) s.w s.status).1 (op (operandValue f a s) s.w s.status).2 s := by
  unfold byteOp
  simp only [andThen_next_iff, fileOperand_next_iff, dataRead_next_iff, dest_next_iff]
  constructor
  · rintro ⟨_, ⟨ho, rfl⟩, _, ⟨hr, rfl⟩, _, ⟨hd, rfl⟩, ht⟩
    refine ⟨⟨ho, readable_accessState.1 hr⟩, hd, ?_⟩
    cases ht
    simp only [readEffect_w, readEffect_status, accessState_w, accessState_status]
    rfl
  · rintro ⟨⟨ho, hr⟩, hd, rfl⟩
    refine ⟨_, ⟨ho, rfl⟩, _, ⟨readable_accessState.2 hr, rfl⟩, _, ⟨hd, rfl⟩, ?_⟩
    simp only [readEffect_w, readEffect_status, accessState_w, accessState_status]
    rfl

theorem byteOp_ready {op : ByteFn} {f : Byte} {d a : Bool} {s : State} (hr : CanRead f a s) (hd : CanStore d f a s) :
    byteOp op f d a s =
      .next (byteNext f d a (op (operandValue f a s) s.w s.status).1 (op (operandValue f a s) s.w s.status).2 s) :=
  byteOp_next_iff.2 ⟨hr, hd, rfl⟩

/-- CLRF and SETF (40_byte_oriented.md R167, R181). -/
theorem constOp_next_iff {v : Byte} {u : FlagUpdate} {f : Byte} {a : Bool} {s t : State} :
    constOp v u f a s = .next t ↔ OperandOk f a s ∧ Writable (effAddr f a s) ∧ t = byteNext f true a v u s := by
  unfold constOp
  simp only [andThen_next_iff, fileOperand_next_iff, dataReadDiscard_next_iff, dataWrite_next_iff]
  constructor
  · rintro ⟨_, ⟨ho, rfl⟩, _, ⟨_, rfl⟩, _, ⟨hw, rfl⟩, ht⟩
    exact ⟨ho, hw, by cases ht; rfl⟩
  · rintro ⟨ho, hw, rfl⟩
    exact ⟨_, ⟨ho, rfl⟩, _, ⟨hw.1, rfl⟩, _, ⟨hw, rfl⟩, rfl⟩

/-- BCF, BSF and BTG (42_bit_oriented.md R221). -/
theorem bitOp_next_iff {op : Byte → Byte → Byte} {f : Byte} {b : BitVec 3} {a : Bool} {s t : State} :
    bitOp op f b a s = .next t ↔ CanRead f a s ∧ Writable (effAddr f a s) ∧
      t = byteNext f true a (op (operandValue f a s) (1#8 <<< b.toNat)) noFlags s := by
  unfold bitOp
  simp only [andThen_next_iff, fileOperand_next_iff, dataRead_next_iff, dataWrite_next_iff]
  constructor
  · rintro ⟨_, ⟨ho, rfl⟩, _, ⟨hr, rfl⟩, _, ⟨hw, rfl⟩, ht⟩
    exact ⟨⟨ho, readable_accessState.1 hr⟩, hw, by cases ht; rfl⟩
  · rintro ⟨⟨ho, hr⟩, hw, rfl⟩
    exact ⟨_, ⟨ho, rfl⟩, _, ⟨readable_accessState.2 hr, rfl⟩, _, ⟨hw, rfl⟩, rfl⟩

@[simp] theorem accessState_pc (n : Nat) (raw : DataAddr) (s : State) :
    (accessState n raw s).pc = s.pc + BitVec.ofNat 21 n := by
  unfold accessState
  simp only [preUpdate_pc]
  rfl

@[simp] theorem afterRead_pc (f : Byte) (a : Bool) (s : State) : (afterRead f a s).pc = s.pc + 2#21 := by
  unfold afterRead
  simp only [readEffect_pc, accessState_pc]

@[simp] theorem readNext_pc (f : Byte) (a : Bool) (s : State) : (readNext f a s).pc = s.pc + 2#21 := by
  unfold readNext
  simp only [postUpdate_pc, afterRead_pc]

theorem nextIs_readNext {f : Byte} {a : Bool} {s : State} {n : Nat} :
    ((fetch16 (readNext f a s).pc (readNext f a s)).bind skippedBytes) = some n ↔ NextIs n s := by
  rw [readNext_pc, fetch16_congr _ (readNext_prog f a s)]

/-- The skips that only test (41_byte_skip.md R203 to R205, R210; 42_bit_oriented.md R224, R225). -/
theorem testSkip_next_iff {cond : Byte → Byte → Bool} {f : Byte} {a : Bool} {s t : State} :
    testSkip cond f a s = .next t ↔ CanRead f a s ∧
      ((cond (operandValue f a s) s.w = true ∧ ∃ n, NextIs n s ∧ t = skipped n (readNext f a s)) ∨
        (cond (operandValue f a s) s.w = false ∧ t = readNext f a s)) := by
  unfold testSkip
  simp only [andThen_next_iff, fileOperand_next_iff, dataRead_next_iff, skipIf_next_iff]
  constructor
  · rintro ⟨_, ⟨ho, rfl⟩, _, ⟨hr, rfl⟩, h⟩
    refine ⟨⟨ho, readable_accessState.1 hr⟩, ?_⟩
    simp only [readEffect_w, accessState_w, advance_eq_skipped] at h
    refine h.imp ?_ id
    rintro ⟨hc, n, hn, rfl⟩
    exact ⟨hc, n, nextIs_readNext.1 hn, rfl⟩
  · rintro ⟨⟨ho, hr⟩, h⟩
    refine ⟨_, ⟨ho, rfl⟩, _, ⟨readable_accessState.2 hr, rfl⟩, ?_⟩
    simp only [readEffect_w, accessState_w, advance_eq_skipped]
    refine h.imp ?_ id
    rintro ⟨hc, n, hn, rfl⟩
    exact ⟨hc, n, nextIs_readNext.2 hn, rfl⟩

theorem setFlags_noFlags (s : State) : setFlags noFlags s = s := rfl

theorem byteNext_noFlags (f : Byte) (d a : Bool) (r : Byte) (s : State) :
    byteNext f d a r noFlags s = postUpdate (rawAddr f a s) (destEffect d (effAddr f a s) r (afterRead f a s)) := rfl

@[simp] theorem byteNext_prog (f : Byte) (d a : Bool) (r : Byte) (u : FlagUpdate) (s : State) :
    (byteNext f d a r u s).prog = s.prog := by
  unfold byteNext
  simp

/-- Only a write to PCL moves PC besides the advance. -/
theorem regWrite_pc {r : CoreReg} (h : r ≠ .pcl) (v : Byte) (s : State) : (regWrite r v s).pc = s.pc := by
  cases r <;> first | rfl | exact absurd rfl h | simp [regWrite]

theorem place_pcl_iff (a : DataAddr) : place a = .reg .pcl ↔ a = pclAddr := by
  constructor
  · intro h
    unfold place at h
    split at h
    · cases h
    · have key : ∀ p ∈ sfrMap, p.2 = .reg .pcl → p.1 = 0xFF9 := by decide
      cases hl : sfrMap.lookup a.toNat with
      | none => simp [hl] at h
      | some p =>
        have hp : p = .reg .pcl := by simpa [hl] using h
        subst hp
        have hm : (a.toNat, Place.reg .pcl) ∈ sfrMap := by
          clear h key
          revert hl
          generalize sfrMap = m
          intro hl
          induction m with
          | nil => simp at hl
          | cons d m ih =>
            obtain ⟨k, x⟩ := d
            rw [List.lookup_cons] at hl
            split at hl
            · rename_i e
              have e' : a.toNat = k := by simpa using e
              have e'' : x = .reg .pcl := by simpa using hl
              subst e' e''
              exact List.mem_cons_self ..
            · exact List.mem_cons_of_mem _ (ih hl)
        exact BitVec.eq_of_toNat_eq (key _ hm rfl)
  · rintro rfl
    decide

theorem writeEffect_pc {a : DataAddr} (h : a ≠ pclAddr) (v : Byte) (s : State) : (writeEffect a v s).pc = s.pc := by
  unfold writeEffect
  split
  · rfl
  · rename_i r e
    exact regWrite_pc (fun hr => h ((place_pcl_iff a).1 (hr ▸ e))) v s
  all_goals rfl

theorem destEffect_pc {d : Bool} {a : DataAddr} (h : d = true → a ≠ pclAddr) (v : Byte) (s : State) :
    (destEffect d a v s).pc = s.pc := by
  unfold destEffect
  cases d
  · rfl
  · exact writeEffect_pc (h rfl) v s

theorem byteNext_pc {f : Byte} {d a : Bool} {s : State} (h : d = true → effAddr f a s ≠ pclAddr) (r : Byte)
    (u : FlagUpdate) : (byteNext f d a r u s).pc = s.pc + 2#21 := by
  unfold byteNext
  simp only [postUpdate_pc, setFlags_pc, destEffect_pc h, afterRead_pc]

/-- Where PC points does not matter to an FSR update. -/
theorem postUpdate_setPc (raw : DataAddr) (p : ProgAddr) (s : State) :
    postUpdate raw (s.setPc p) = (postUpdate raw s).setPc p := by
  unfold postUpdate
  split <;> rfl

/-- The skips that count (41_byte_skip.md R206 to R209). -/
theorem countSkip_next_iff {delta : Byte} {cond : Byte → Bool} {f : Byte} {d a : Bool} {s t : State} :
    countSkip delta cond f d a s = .next t ↔ CanRead f a s ∧ CanStore d f a s ∧
      ((cond (operandValue f a s + delta) = false ∧ t = byteNext f d a (operandValue f a s + delta) noFlags s) ∨
        (cond (operandValue f a s + delta) = true ∧
          ∃ n, NextIs n s ∧ t = afterSkip n s (byteNext f d a (operandValue f a s + delta) noFlags s))) := by
  have htaken : ∀ u, skip ((byteNext f d a (operandValue f a s + delta) noFlags s).setPc (s.pc + 2#21)) = .next u ↔
      ∃ n, NextIs n s ∧ u = afterSkip n s (byteNext f d a (operandValue f a s + delta) noFlags s) := by
    intro u
    simp only [skip_next_iff, State.setPc_pc, advance_eq_skipped]
    rw [fetch16_congr (s := s) _ (by simp)]
    rfl
  unfold countSkip
  simp only [andThen_next_iff, fileOperand_next_iff, dataRead_next_iff, dest_next_iff, postUpdate_setPc]
  constructor
  · rintro ⟨_, ⟨ho, rfl⟩, _, ⟨hr, rfl⟩, _, ⟨hd, rfl⟩, h⟩
    refine ⟨⟨ho, readable_accessState.1 hr⟩, hd, ?_⟩
    split at h
    · rename_i hc
      exact .inr ⟨hc, (htaken t).1 h⟩
    · rename_i hc
      cases h
      exact .inl ⟨Bool.eq_false_iff.2 hc, rfl⟩
  · rintro ⟨⟨ho, hr⟩, hd, h⟩
    refine ⟨_, ⟨ho, rfl⟩, _, ⟨readable_accessState.2 hr, rfl⟩, _, ⟨hd, rfl⟩, ?_⟩
    rcases h with ⟨hc, rfl⟩ | ⟨hc, h⟩
    · exact if_neg (Bool.eq_false_iff.1 hc)
    · exact (if_pos hc).trans ((htaken t).2 h)

/-- MOVWF (40_byte_oriented.md R174). -/
theorem execMovwf_next_iff {f : Byte} {a : Bool} {s t : State} :
    execMovwf f a s = .next t ↔ OperandOk f a s ∧ Writable (effAddr f a s) ∧ t = storeNext f a s.w s := by
  unfold execMovwf
  simp only [andThen_next_iff, fileOperand_next_iff, dataWrite_next_iff]
  constructor
  · rintro ⟨_, ⟨ho, rfl⟩, _, ⟨hw, rfl⟩, ht⟩
    refine ⟨ho, hw, ?_⟩
    cases ht
    simp only [accessState_w]
    rfl
  · rintro ⟨ho, hw, rfl⟩
    refine ⟨_, ⟨ho, rfl⟩, _, ⟨hw, rfl⟩, ?_⟩
    simp only [accessState_w]
    rfl

/-- MULWF (40_byte_oriented.md R175). -/
theorem execMulwf_next_iff {f : Byte} {a : Bool} {s t : State} :
    execMulwf f a s = .next t ↔ CanRead f a s ∧
      t = postUpdate (rawAddr f a s) (setProduct s.w (operandValue f a s) (afterRead f a s)) := by
  unfold execMulwf
  simp only [andThen_next_iff, fileOperand_next_iff, dataRead_next_iff]
  constructor
  · rintro ⟨_, ⟨ho, rfl⟩, _, ⟨hr, rfl⟩, ht⟩
    refine ⟨⟨ho, readable_accessState.1 hr⟩, ?_⟩
    cases ht
    simp only [readEffect_w, accessState_w]
    rfl
  · rintro ⟨⟨ho, hr⟩, rfl⟩
    refine ⟨_, ⟨ho, rfl⟩, _, ⟨readable_accessState.2 hr, rfl⟩, ?_⟩
    simp only [readEffect_w, accessState_w]
    rfl

/-- MOVFF (40_byte_oriented.md R172). -/
theorem execMovff_next_iff {fs fd : DataAddr} {s t : State} :
    execMovff fs fd s = .next t ↔
      (movffForbids fs = false ∧ movffForbids fd = false) ∧
      (touchesOwnFsr fs [resolve fs (advance 4 s), resolve fd (preUpdate fs (advance 4 s))] = false ∧
        touchesOwnFsr fd [resolve fs (advance 4 s), resolve fd (preUpdate fs (advance 4 s))] = false) ∧
      Readable (resolve fs (advance 4 s)) s ∧ Writable (resolve fd (preUpdate fs (advance 4 s))) ∧
      t = postUpdate fd (postUpdate fs (writeEffect (resolve fd (preUpdate fs (advance 4 s)))
        (readValue (resolve fs (advance 4 s)) (preUpdate fd (preUpdate fs (advance 4 s))))
        (readEffect (resolve fs (advance 4 s)) (preUpdate fd (preUpdate fs (advance 4 s)))))) := by
  have hread : ∀ x, Readable x (preUpdate fd (preUpdate fs (advance 4 s))) ↔ Readable x s := by
    intro x
    unfold Readable
    rw [ramByte_congr x (show (preUpdate fd (preUpdate fs (advance 4 s))).ram = s.ram by simp)]
  unfold execMovff
  split <;> rename_i h1
  · simp only [Bool.or_eq_true] at h1
    constructor
    · intro h
      cases h
    · rintro ⟨⟨ha, hb⟩, _⟩
      simp [ha, hb] at h1
  · simp only [Bool.or_eq_true, not_or, Bool.not_eq_true] at h1
    dsimp only
    split <;> rename_i h2
    · simp only [Bool.or_eq_true] at h2
      constructor
      · intro h
        cases h
      · rintro ⟨_, ⟨ha, hb⟩, _⟩
        rcases h2 with h2 | h2
        · exact absurd (ha.symm.trans h2) (by decide)
        · exact absurd (hb.symm.trans h2) (by decide)
    · simp only [Bool.or_eq_true, not_or, Bool.not_eq_true] at h2
      simp only [andThen_next_iff, dataRead_next_iff, dataWrite_next_iff]
      constructor
      · rintro ⟨_, ⟨hr, rfl⟩, _, ⟨hw, rfl⟩, ht⟩
        exact ⟨h1, h2, (hread _).1 hr, hw, by cases ht; rfl⟩
      · rintro ⟨_, _, hr, hw, rfl⟩
        exact ⟨_, ⟨(hread _).2 hr, rfl⟩, _, ⟨hw, rfl⟩, rfl⟩

/-- The table reads (46_table.md section 2). -/
theorem tableRead_next_iff {m : TableMode} {s t : State} :
    tableRead m s = .next t ↔ s.tblptr21 = false ∧ ∃ v, progRead (tableAddr m s) s = some v ∧
      t = ((advance 2 s).setTablat v).setTblptr (tableNext m s) := by
  unfold tableRead
  split <;> rename_i h
  · simp [h]
  · cases hp : progRead (tableAddr m s) s with
    | none => simp
    | some v => simp [h, eq_comm]

/-- The table writes (46_table.md R306). -/
theorem tableWrite_next_iff {m : TableMode} {s t : State} :
    tableWrite m s = .next t ↔ s.tblptr21 = false ∧
      t = ((advance 2 s).setHolding (s.holding.setIfInBounds (holdingIndex (tableAddr m s)) s.tablat)).setTblptr
        (tableNext m s) := by
  unfold tableWrite
  split <;> rename_i h
  · simp [h]
  · simp [h, eq_comm]

/-- The returns (43_control_flow.md R239). -/
theorem returnFromCall_next_iff {s t : State} :
    returnFromCall s = .next t ↔ s.sp ≠ 0#5 ∧ t = (s.setSp (s.sp - 1#5)).setPc (evenAddr (tos s)) := by
  unfold returnFromCall
  simp only [andThen_next_iff, pop_next_iff]
  constructor
  · rintro ⟨_, ⟨h, rfl⟩, ht⟩
    exact ⟨h, by cases ht; rfl⟩
  · rintro ⟨h, rfl⟩
    exact ⟨_, ⟨h, rfl⟩, rfl⟩

/-- Interrupt entry (60_exceptions.md R333). -/
theorem interruptEntry_next_iff {level : Level} {s t : State} :
    interruptEntry level s = .next t ↔ s.sp.toNat < Config.stackDepth ∧
      t = ((((saveShadow (setStackEntry (s.sp + 1#5) s.pc (s.setSp (s.sp + 1#5)))).setIrq
        { s.irq with intcon := s.irq.intcon &&& (match level with | .high => 0x7F#8 | .low => 0xBF#8) }).setPc
        (match level with | .high => Config.hiVector | .low => Config.loVector)).setSleeping false) := by
  unfold interruptEntry
  simp only [andThen_next_iff, push_next_iff]
  constructor
  · rintro ⟨_, ⟨h, rfl⟩, ht⟩
    refine ⟨h, ?_⟩
    cases level <;> cases ht <;> simp
  · rintro ⟨h, rfl⟩
    refine ⟨_, ⟨h, rfl⟩, ?_⟩
    cases level <;> simp

end Sys2Proof.Machine
end

