-- ==== Sys2Proof/Laws/Registers.lean ====
section
/-! SUPPORT. Registers in the data space: where each stands, and what a write of one leaves in the others. -/

namespace Sys2Proof.Machine

/-- What stands at an address of the map is an entry of the map (10_state.md R60). -/
theorem mem_sfrMap_of_place {x : DataAddr} {p : Place} (h : place x = p) (hr : p ≠ .ram) (hu : p ≠ .unimplemented) :
    (x.toNat, p) ∈ sfrMap := by
  unfold place at h
  split at h
  · exact absurd h.symm hr
  · cases hl : sfrMap.lookup x.toNat with
    | none =>
      rw [hl] at h
      exact absurd h.symm hu
    | some q =>
      have hq : q = p := by simpa [hl] using h
      subst hq
      clear h
      revert hl
      generalize sfrMap = m
      intro hl
      induction m with
      | nil => simp at hl
      | cons d m ih =>
        obtain ⟨k, y⟩ := d
        rw [List.lookup_cons] at hl
        split at hl
        · rename_i e
          have e' : x.toNat = k := by simpa using e
          have e'' : y = q := by simpa using hl
          subst e' e''
          exact List.mem_cons_self ..
        · exact List.mem_cons_of_mem _ (ih hl)

theorem writeEffect_ram {a : DataAddr} (h : place a = .ram) (v : Byte) (s : State) :
    writeEffect a v s = ramWrite a v s := by
  unfold writeEffect
  rw [h]

theorem readEffect_of_ram {a : DataAddr} (h : place a = .ram) (s : State) : readEffect a s = s := by
  unfold readEffect
  rw [h]

theorem writeEffect_reg {a : DataAddr} {r : CoreReg} (h : place a = .reg r) (v : Byte) (s : State) :
    writeEffect a v s = regWrite r v s := by
  unfold writeEffect
  rw [h]

theorem Fsrs.get_put (n k : FsrIx) (v : DataAddr) (r : Fsrs) : (r.put k v).get n = if n = k then v else r.get n := by
  cases n <;> cases k <;> rfl

theorem getFsr_putFsr (n k : FsrIx) (v : DataAddr) (s : State) :
    getFsr n (putFsr k v s) = if n = k then v else getFsr n s := Fsrs.get_put n k v s.fsr

/-- Only an indirect operand through an FSR changes that FSR before the access (20_memory.md R89). -/
theorem preUpdate_get {raw : DataAddr} {s : State} {n : FsrIx} (h : ∀ m, place raw ≠ .indirect n m) :
    (preUpdate raw s).fsr.get n = s.fsr.get n := by
  unfold preUpdate
  split
  · rename_i k e
    show (s.fsr.put k _).get n = _
    rw [Fsrs.get_put, if_neg]
    rintro rfl
    exact h _ e
  · rfl

/-- Only an indirect operand through an FSR changes that FSR after the accesses (20_memory.md R89). -/
theorem postUpdate_get {raw : DataAddr} {s : State} {n : FsrIx} (h : ∀ m, place raw ≠ .indirect n m) :
    (postUpdate raw s).fsr.get n = s.fsr.get n := by
  unfold postUpdate
  split
  · rename_i k e
    show (s.fsr.put k _).get n = _
    rw [Fsrs.get_put, if_neg]
    rintro rfl
    exact h _ e
  · rename_i k e
    show (s.fsr.put k _).get n = _
    rw [Fsrs.get_put, if_neg]
    rintro rfl
    exact h _ e
  · rfl

/-! ### The bytes of TOS, TBLPTR and an FSR -/

theorem tos_setStackEntry (v : ProgAddr) (s : State) :
    tos (setStackEntry s.sp v s) = if s.sp = 0#5 then 0#21 else v := by
  unfold tos
  rw [setStackEntry_sp]
  by_cases h : s.sp = 0#5
  · rw [if_pos h]
    unfold stackEntry
    rw [if_pos h]
  · rw [if_neg h, stackEntry_setStackEntry _ _ _ _ h, if_pos rfl]

theorem tos_of_empty {s : State} (h : s.sp = 0#5) : tos s = 0#21 := by
  unfold tos stackEntry
  rw [if_pos h]

/-- A field of TOS that an update leaves alone reads as before, also with the stack empty. -/
theorem tos_field (k n : Nat) {s : State} {v : ProgAddr} (h : v.extractLsb' k n = (tos s).extractLsb' k n) :
    (tos (setStackEntry s.sp v s)).extractLsb' k n = (tos s).extractLsb' k n := by
  rw [tos_setStackEntry]
  split
  · rename_i h
    rw [tos_of_empty h]
  · exact h

theorem upper_upper (v : Byte) (t : ProgAddr) :
    (v.extractLsb' 0 5 ++ t.extractLsb' 0 16 : BitVec 21).extractLsb' 16 5 = v.extractLsb' 0 5 := by
  ext i hi
  simp only [BitVec.getElem_extractLsb']
  rw [BitVec.getLsbD_append]
  interval_cases i <;> simp

theorem upper_high (v : Byte) (t : ProgAddr) :
    (v.extractLsb' 0 5 ++ t.extractLsb' 0 16 : BitVec 21).extractLsb' 8 8 = t.extractLsb' 8 8 := by
  ext i hi
  simp only [BitVec.getElem_extractLsb']
  rw [BitVec.getLsbD_append]
  interval_cases i <;> simp

theorem upper_low (v : Byte) (t : ProgAddr) :
    (v.extractLsb' 0 5 ++ t.extractLsb' 0 16 : BitVec 21).extractLsb' 0 8 = t.extractLsb' 0 8 := by
  ext i hi
  simp only [BitVec.getElem_extractLsb']
  rw [BitVec.getLsbD_append]
  interval_cases i <;> simp

theorem high_upper (v : Byte) (t : ProgAddr) :
    (t.extractLsb' 16 5 ++ v ++ t.extractLsb' 0 8 : BitVec 21).extractLsb' 16 5 = t.extractLsb' 16 5 := by
  ext i hi
  simp only [BitVec.getElem_extractLsb']
  rw [BitVec.getLsbD_append, BitVec.getLsbD_append]
  interval_cases i <;> simp

theorem high_high (v : Byte) (t : ProgAddr) :
    (t.extractLsb' 16 5 ++ v ++ t.extractLsb' 0 8 : BitVec 21).extractLsb' 8 8 = v := by
  ext i hi
  simp only [BitVec.getElem_extractLsb']
  rw [BitVec.getLsbD_append, BitVec.getLsbD_append]
  interval_cases i <;> simp

theorem high_low (v : Byte) (t : ProgAddr) :
    (t.extractLsb' 16 5 ++ v ++ t.extractLsb' 0 8 : BitVec 21).extractLsb' 0 8 = t.extractLsb' 0 8 := by
  ext i hi
  simp only [BitVec.getElem_extractLsb']
  rw [BitVec.getLsbD_append, BitVec.getLsbD_append]
  interval_cases i <;> simp

theorem low_upper (v : Byte) (t : ProgAddr) :
    (t.extractLsb' 8 13 ++ v : BitVec 21).extractLsb' 16 5 = t.extractLsb' 16 5 := by
  ext i hi
  simp only [BitVec.getElem_extractLsb']
  rw [BitVec.getLsbD_append]
  interval_cases i <;> simp

theorem low_high (v : Byte) (t : ProgAddr) :
    (t.extractLsb' 8 13 ++ v : BitVec 21).extractLsb' 8 8 = t.extractLsb' 8 8 := by
  ext i hi
  simp only [BitVec.getElem_extractLsb']
  rw [BitVec.getLsbD_append]
  interval_cases i <;> simp

theorem low_low (v : Byte) (t : ProgAddr) : (t.extractLsb' 8 13 ++ v : BitVec 21).extractLsb' 0 8 = v := by
  ext i hi
  simp only [BitVec.getElem_extractLsb']
  rw [BitVec.getLsbD_append]
  interval_cases i <;> simp

theorem fsrh_low (v : Byte) (t : DataAddr) :
    (v.extractLsb' 0 4 ++ t.extractLsb' 0 8 : BitVec 12).extractLsb' 0 8 = t.extractLsb' 0 8 := by
  ext i hi
  simp only [BitVec.getElem_extractLsb']
  rw [BitVec.getLsbD_append]
  interval_cases i <;> simp

theorem fsrh_high (v : Byte) (t : DataAddr) :
    (v.extractLsb' 0 4 ++ t.extractLsb' 0 8 : BitVec 12).extractLsb' 8 4 = v.extractLsb' 0 4 := by
  ext i hi
  simp only [BitVec.getElem_extractLsb']
  rw [BitVec.getLsbD_append]
  interval_cases i <;> simp

theorem fsrl_high (v : Byte) (t : DataAddr) :
    (t.extractLsb' 8 4 ++ v : BitVec 12).extractLsb' 8 4 = t.extractLsb' 8 4 := by
  ext i hi
  simp only [BitVec.getElem_extractLsb']
  rw [BitVec.getLsbD_append]
  interval_cases i <;> simp

theorem fsrl_low (v : Byte) (t : DataAddr) : (t.extractLsb' 8 4 ++ v : BitVec 12).extractLsb' 0 8 = v := by
  ext i hi
  simp only [BitVec.getElem_extractLsb']
  rw [BitVec.getLsbD_append]
  interval_cases i <;> simp

/-! ### A write of one register and the value of another -/

theorem regValue_write_tos (q r : CoreReg) (v : Byte) (s : State) (hr : r = .tosu ∨ r = .tosh ∨ r = .tosl) (h0 : q ≠ r)
    (h1 : q ≠ .pcl) : regValue q (regWrite r v s) = regValue q s := by
  have hs : ∀ x, regValue .stkptr (setStackEntry s.sp x s) = regValue .stkptr s := by
    intro x
    simp [regValue, stkptrByte]
  have hh : ∀ x n, regValue (.fsrh n) (setStackEntry s.sp x s) = regValue (.fsrh n) s := by
    intro x n
    simp [regValue, getFsr]
  have hl : ∀ x n, regValue (.fsrl n) (setStackEntry s.sp x s) = regValue (.fsrl n) s := by
    intro x n
    simp [regValue, getFsr]
  rcases hr with rfl | rfl | rfl
  · cases q
    case tosu => exact absurd rfl h0
    case tosh =>
      simp only [regValue, regWrite]
      exact tos_field _ _ (upper_high _ _)
    case tosl =>
      simp only [regValue, regWrite]
      exact tos_field _ _ (upper_low _ _)
    case stkptr => exact hs _
    case fsrh n => exact hh _ n
    case fsrl n => exact hl _ n
    case pcl => exact absurd rfl h1
    all_goals simp [regValue, regWrite]
  · cases q
    case tosh => exact absurd rfl h0
    case tosu =>
      simp only [regValue, regWrite]
      rw [tos_field _ _ (high_upper _ _)]
    case tosl =>
      simp only [regValue, regWrite]
      exact tos_field _ _ (high_low _ _)
    case stkptr => exact hs _
    case fsrh n => exact hh _ n
    case fsrl n => exact hl _ n
    case pcl => exact absurd rfl h1
    all_goals simp [regValue, regWrite]
  · cases q
    case tosl => exact absurd rfl h0
    case tosu =>
      simp only [regValue, regWrite]
      rw [tos_field _ _ (low_upper _ _)]
    case tosh =>
      simp only [regValue, regWrite]
      exact tos_field _ _ (low_high _ _)
    case stkptr => exact hs _
    case fsrh n => exact hh _ n
    case fsrl n => exact hl _ n
    case pcl => exact absurd rfl h1
    all_goals simp [regValue, regWrite]

theorem regValue_write_fsr (q r : CoreReg) (n : FsrIx) (v : Byte) (s : State) (hr : r = .fsrh n ∨ r = .fsrl n)
    (h0 : q ≠ r) : regValue q (regWrite r v s) = regValue q s := by
  cases q
  case fsrh m =>
    rcases hr with rfl | rfl
    · simp only [regValue, regWrite, getFsr_putFsr]
      rw [if_neg]
      rintro rfl
      exact h0 rfl
    · simp only [regValue, regWrite, getFsr_putFsr]
      split
      · subst m
        rw [fsrl_high]
      · rfl
  case fsrl m =>
    rcases hr with rfl | rfl
    · simp only [regValue, regWrite, getFsr_putFsr]
      split
      · subst m
        rw [fsrh_low]
      · rfl
    · simp only [regValue, regWrite, getFsr_putFsr]
      rw [if_neg]
      rintro rfl
      exact h0 rfl
  all_goals (rcases hr with rfl | rfl <;> rfl)

/-- A write of one register of the core leaves the value of every other, but for TOS where STKPTR is written
(10_state.md R61). -/
theorem regValue_regWrite_of_ne (q r : CoreReg) (v : Byte) (s : State) (h0 : q ≠ r) (h1 : q ≠ .pcl)
    (h2 : r = .stkptr → q ≠ .tosu ∧ q ≠ .tosh ∧ q ≠ .tosl) : regValue q (regWrite r v s) = regValue q s := by
  by_cases hr : r = .tosu ∨ r = .tosh ∨ r = .tosl
  · exact regValue_write_tos q r v s hr h0 h1
  · by_cases hf : ∃ n, r = .fsrh n ∨ r = .fsrl n
    · obtain ⟨n, hf⟩ := hf
      exact regValue_write_fsr q r n v s hf h0
    · simp only [not_or, not_exists] at hr hf
      cases r
      case tosu => exact absurd rfl hr.1
      case tosh => exact absurd rfl hr.2.1
      case tosl => exact absurd rfl hr.2.2
      case fsrh n => exact absurd rfl (hf n).1
      case fsrl n => exact absurd rfl (hf n).2
      case stkptr =>
        obtain ⟨a, b, c⟩ := h2 rfl
        cases q <;> first | rfl | exact absurd rfl h0 | exact absurd rfl a | exact absurd rfl b | exact absurd rfl c
      case pcl => cases q <;> first | rfl | exact absurd rfl h0
      case tblptru =>
        cases q
        case tblptrh =>
          simp only [regValue, regWrite]
          exact upper_high _ _
        case tblptrl =>
          simp only [regValue, regWrite]
          exact upper_low _ _
        all_goals first | rfl | exact absurd rfl h0
      case tblptrh =>
        cases q
        case tblptru =>
          simp only [regValue, regWrite, State.setTblptr_tblptr, State.setTblptr_tblptr21]
          rw [high_upper]
        case tblptrl =>
          simp only [regValue, regWrite]
          exact high_low _ _
        all_goals first | rfl | exact absurd rfl h0
      case tblptrl =>
        cases q
        case tblptru =>
          simp only [regValue, regWrite, State.setTblptr_tblptr, State.setTblptr_tblptr21]
          rw [low_upper]
        case tblptrh =>
          simp only [regValue, regWrite]
          exact low_high _ _
        all_goals first | rfl | exact absurd rfl h0
      all_goals (cases q <;> first | exact absurd rfl h0 | exact absurd rfl h1 | rfl)

/-- A write of TOSU, TOSH or TOSL changes the entry SP names and no other; a write of another register changes none
(10_state.md R35, R38). -/
theorem stackEntry_regWrite {r : CoreReg} {n : BitVec 5} {s : State}
    (h : n ≠ s.sp ∨ (r ≠ .tosu ∧ r ≠ .tosh ∧ r ≠ .tosl)) (v : Byte) :
    stackEntry n (regWrite r v s) = stackEntry n s := by
  cases r
  case tosu => exact stackEntry_setStackEntry_of_ne (h.resolve_right fun c => c.1 rfl) _ _
  case tosh => exact stackEntry_setStackEntry_of_ne (h.resolve_right fun c => c.2.1 rfl) _ _
  case tosl => exact stackEntry_setStackEntry_of_ne (h.resolve_right fun c => c.2.2 rfl) _ _
  all_goals rfl

end Sys2Proof.Machine
end

