-- ==== Sys2Proof/Laws/Step.lean ====
section
/-! SUPPORT. What a step of the machine can be, said once for each of its parts. -/

namespace Sys2Proof.Machine

/-- What wakes a sleeping core (60_exceptions.md R348). -/
theorem wakes_iff {s : State} : wakes s = true ↔ WakingSource s := by
  have all : ∀ i : Source, i ∈ allSources := by intro i; cases i <;> decide
  simp only [wakes, List.any_eq_true, all, true_and, Bool.and_eq_true, WakingSource]
  refine exists_congr fun i => and_congr_right fun _ => ?_
  unfold ipen giel
  cases i.peripheral <;> simp

/-- A core that is awake is woken by nothing. -/
@[simp] theorem wakeUp_of_awake {s : State} (h : s.sleeping = false) : wakeUp s = s := by
  simp only [wakeUp, h, Bool.false_and, Bool.false_eq_true, if_false]

/-- What waking up can do (60_exceptions.md R348). -/
theorem wakeUp_cases (s : State) :
    (s.sleeping = true ∧ wakes s = true ∧ wakeUp s = (s.setSleeping false).setWaking true) ∨
      ((s.sleeping = false ∨ wakes s = false) ∧ wakeUp s = s) := by
  unfold wakeUp
  cases s.sleeping <;> cases wakes s <;> simp

theorem step_of_no_input {s : State} (h : s.inputs = []) : step s = boundary (wakeUp s) := by
  simp only [step, h]

theorem step_of_input {s : State} {e : Input} {rest : List Input} (h : s.inputs = e :: rest) :
    step s = event e (wakeUp (s.setInputs rest)) := by
  simp only [step, h]

/-- The instruction step (30_encoding.md R124). -/
theorem runInstr_next_iff {s t : State} : runInstr s = .next t ↔ ∃ i, fetch s = .next i ∧ exec i s = .next t :=
  andThen_next_iff

/-- The instruction after SLEEP (60_exceptions.md R348). -/
theorem afterSleep_next_iff {s t : State} :
    afterSleep s = .next t ↔ ∃ u, runInstr (s.setWaking false) = .next u ∧ t = stayAwakeForEntry u := by
  simp only [afterSleep, andThen_next_iff, Host.Outcome.next.injEq]
  simp [eq_comm]

/-- The core's step without an interrupt entry (60_exceptions.md R334). -/
theorem core1_next_iff {s t : State} :
    core1 s = .next t ↔ (s.sleeping = true ∧ t = s) ∨ (s.sleeping = false ∧ s.waking = true ∧ afterSleep s = .next t) ∨
      (s.sleeping = false ∧ s.waking = false ∧ runInstr s = .next t) := by
  unfold core1
  cases s.sleeping <;> cases s.waking <;> simp [eq_comm]

/-- An entry is made awake, with no wake-up under way, at the level requested (60_exceptions.md R335, R348). -/
theorem takenLevel_some_iff {s : State} {level : Level} :
    takenLevel s = some level ↔ s.sleeping = false ∧ s.waking = false ∧ requestedLevel s = some level := by
  unfold takenLevel
  cases s.sleeping <;> cases s.waking <;> simp

/-- The core's step (60_exceptions.md R335). -/
theorem boundary_next_iff {s t : State} :
    boundary s = .next t ↔ (∃ level, takenLevel s = some level ∧ interruptEntry level s = .next t) ∨
      (takenLevel s = none ∧ core1 s = .next t) := by
  unfold boundary
  cases takenLevel s <;> simp

/-- Where nothing comes before the instruction at PC, the step is that instruction's. -/
theorem step_of_instrNext {s : State} (h : InstrNext s) : step s = runInstr s := by
  obtain ⟨hs, hw, hi, hr⟩ := h
  simp [step_of_no_input hi, boundary, takenLevel, core1, hs, hw, hr]

end Sys2Proof.Machine
end

