-- ==== Sys2Proof/Tests/Slice0.lean ====
section
/-! SUPPORT. Tests: the check of well-formedness, one word written out from 30_encoding.md R130 for every constructor of Instr,
single steps whose expected values are those of the vectors of 95_test_vectors.md (named in each comment), and for every
obligation with hypotheses a state that meets them. -/

namespace Sys2Proof.Tests

open Sys2Proof Sys2Proof.Machine

/-! ### Well-formedness -/

/-- The one check of WellFormed.lean: an LFSR with the reserved ff = 3 is refused, those with 0, 1 and 2 are not (R136). -/
theorem test_wf_lfsr :
    (Instr.lfsr 3#2 0x3AB#12).wf = false ∧ (Instr.lfsr 0#2 0x3AB#12).wf = true ∧
    (Instr.lfsr 1#2 0x3AB#12).wf = true ∧ (Instr.lfsr 2#2 0x3AB#12).wf = true := by decide

/-! ### Decoding: a word for every constructor -/

/-- The decoder reads instruction `i` from the word, or the two words, `w`. -/
abbrev Reads (nbits w : Nat) (i : Instr) : Prop := decodeTableWord nbits w = some i

/-- R130: the byte-oriented rows, with operands f = 20h, d and a as in the words of 95_test_vectors.md. -/
theorem test_decode_byte :
    Reads 16 0x2620 (.addwf 0x20#8 true false) ∧
    Reads 16 0x2120 (.addwfc 0x20#8 false true) ∧
    Reads 16 0x1620 (.andwf 0x20#8 true false) ∧
    Reads 16 0x6B20 (.clrf 0x20#8 true) ∧
    Reads 16 0x1C20 (.comf 0x20#8 false false) ∧
    Reads 16 0x0620 (.decf 0x20#8 true false) ∧
    Reads 16 0x2A20 (.incf 0x20#8 true false) ∧
    Reads 16 0x1120 (.iorwf 0x20#8 false true) ∧
    Reads 16 0x5220 (.movf 0x20#8 true false) ∧
    Reads 16 0x6EA7 (.movwf 0xA7#8 false) ∧
    Reads 16 0x0320 (.mulwf 0x20#8 true) ∧
    Reads 16 0x6C20 (.negf 0x20#8 false) ∧
    Reads 16 0x3620 (.rlcf 0x20#8 true false) ∧
    Reads 16 0x4620 (.rlncf 0x20#8 true false) ∧
    Reads 16 0x3220 (.rrcf 0x20#8 true false) ∧
    Reads 16 0x4020 (.rrncf 0x20#8 false false) ∧
    Reads 16 0x6920 (.setf 0x20#8 true) ∧
    Reads 16 0x5620 (.subfwb 0x20#8 true false) ∧
    Reads 16 0x5E20 (.subwf 0x20#8 true false) ∧
    Reads 16 0x5A20 (.subwfb 0x20#8 true false) ∧
    Reads 16 0x3A20 (.swapf 0x20#8 true false) ∧
    Reads 16 0x1920 (.xorwf 0x20#8 false true) := by decide

/-- R130: the byte skips. -/
theorem test_decode_skip :
    Reads 16 0x6220 (.cpfseq 0x20#8 false) ∧
    Reads 16 0x6420 (.cpfsgt 0x20#8 false) ∧
    Reads 16 0x6120 (.cpfslt 0x20#8 true) ∧
    Reads 16 0x2F20 (.decfsz 0x20#8 true true) ∧
    Reads 16 0x4E20 (.dcfsnz 0x20#8 true false) ∧
    Reads 16 0x3E20 (.incfsz 0x20#8 true false) ∧
    Reads 16 0x4A20 (.infsnz 0x20#8 true false) ∧
    Reads 16 0x6720 (.tstfsz 0x20#8 true) := by decide

/-- R130: the bit-oriented rows. -/
theorem test_decode_bit :
    Reads 16 0x9E20 (.bcf 0x20#8 7#3 false) ∧
    Reads 16 0x8F20 (.bsf 0x20#8 7#3 true) ∧
    Reads 16 0xB220 (.btfsc 0x20#8 1#3 false) ∧
    Reads 16 0xA220 (.btfss 0x20#8 1#3 false) ∧
    Reads 16 0x7882 (.btg 0x82#8 4#3 false) := by decide

/-- R130: the control-flow rows of one word. -/
theorem test_decode_flow :
    Reads 16 0xE205 (.bc 5#8) ∧
    Reads 16 0xE67F (.bn 0x7F#8) ∧
    Reads 16 0xE3FD (.bnc 0xFD#8) ∧
    Reads 16 0xE7FB (.bnn 0xFB#8) ∧
    Reads 16 0xE5FC (.bnov 0xFC#8) ∧
    Reads 16 0xE180 (.bnz 0x80#8) ∧
    Reads 16 0xE4FE (.bov 0xFE#8) ∧
    Reads 16 0xE0FF (.bz 0xFF#8) ∧
    Reads 16 0xD3FF (.bra 0x3FF#11) ∧
    Reads 16 0xDC00 (.rcall 0x400#11) ∧
    Reads 16 0x0012 (.ret false) ∧
    Reads 16 0x0013 (.ret true) ∧
    Reads 16 0x0C42 (.retlw 0x42#8) ∧
    Reads 16 0x0010 (.retfie false) ∧
    Reads 16 0x0011 (.retfie true) ∧
    Reads 16 0x0005 (.push) ∧
    Reads 16 0x0006 (.pop) := by decide

/-- R130: the system-control rows. -/
theorem test_decode_system :
    Reads 16 0x0000 (.nop) ∧
    Reads 16 0xF123 (.nopx 0x123#12) ∧
    Reads 16 0x0004 (.clrwdt) ∧
    Reads 16 0x0007 (.daw) ∧
    Reads 16 0x00FF (.reset) ∧
    Reads 16 0x0003 (.sleep) := by decide

/-- R130: the literal rows of one word. -/
theorem test_decode_literal :
    Reads 16 0x0F15 (.addlw 0x15#8) ∧
    Reads 16 0x0B5F (.andlw 0x5F#8) ∧
    Reads 16 0x0935 (.iorlw 0x35#8) ∧
    Reads 16 0x0105 (.movlb 5#4) ∧
    Reads 16 0x0E5A (.movlw 0x5A#8) ∧
    Reads 16 0x0DC4 (.mullw 0xC4#8) ∧
    Reads 16 0x0802 (.sublw 0x02#8) ∧
    Reads 16 0x0AAF (.xorlw 0xAF#8) := by decide

/-- R130: the table rows. -/
theorem test_decode_table :
    Reads 16 0x0008 (.tblrd) ∧
    Reads 16 0x0009 (.tblrdPostInc) ∧
    Reads 16 0x000A (.tblrdPostDec) ∧
    Reads 16 0x000B (.tblrdPreInc) ∧
    Reads 16 0x000C (.tblwt) ∧
    Reads 16 0x000D (.tblwtPostInc) ∧
    Reads 16 0x000E (.tblwtPostDec) ∧
    Reads 16 0x000F (.tblwtPreInc) := by decide

/-- R130, R126: the rows of two words; the second word is the high half of the number. -/
theorem test_decode_two_words :
    Reads 32 0xF321C020 (.movff 0x020#12 0x321#12) ∧ Reads 32 0xF012ED34 (.call 0x01234#20 true) ∧
    Reads 32 0xF012EC34 (.call 0x01234#20 false) ∧ Reads 32 0xF008EF00 (.goto 0x00800#20) ∧
    Reads 32 0xF0ABEE23 (.lfsr 2#2 0x3AB#12) := by decide

/-- V49, V129, V157, V159 to V161, V185, V186: words that are no instruction. -/
theorem test_decode_refused :
    ([0x0001, 0x0002, 0x0014, 0x00FE, 0x0110, 0x0115, 0x01F0, 0x01FF, 0xE800, 0xEBFF, 0xEE40, 0xEEFF, 0x0321C020, 0x0008EF00,
      0xF0ABEE33, 0xF1ABEE23, 0x00ABEE23] : List Nat).all (fun w => (decodeTableWord 32 w).isNone) = true := by decide

/-! ### Single steps -/

/-- A machine with the words at PC. -/
def load (ws : List Nat) (s : State) : State :=
  progLoadBytes s.pc ((ws.map (BitVec.ofNat 16)).flatMap bytesOfWord) s

/-- One step with the words at PC; `none` where it stops. -/
def run (ws : List Nat) (s : State) : Option State :=
  match step (load ws s) with
  | .next t => some t
  | _ => none

/-- W, the byte at 020h and STATUS given; the rest as after power-on. -/
def file (w v status : Byte) : State :=
  { State.reset with w := w, ram := [(0x20, v)], status := Flags.ofByte status }

/-- W, the byte at 020h, STATUS. -/
def view (t : State) : Byte × Option Byte × Byte := (t.w, ramByte 0x020#12 t, t.status.toByte)

/-- The step from `file` gives W, the byte at 020h and STATUS. -/
abbrev Gives (word : Nat) (w v status w' v' status' : Byte) : Prop :=
  (run [word] (file w v status)).map view = some (w', some v', status')

/-- S1, V3. -/
theorem test_addwf :
    Gives 0x2420 0x17#8 0xC2#8 0x00#8 0xD9#8 0xC2#8 0x10#8 ∧
    Gives 0x2620 0x80#8 0x80#8 0x00#8 0x80#8 0x00#8 0x0D#8 := by decide

/-- S2 as corrected, V5. -/
theorem test_addwfc :
    Gives 0x2120 0x4D#8 0x02#8 0x01#8 0x50#8 0x02#8 0x02#8 ∧
    Gives 0x2220 0xFF#8 0x00#8 0x01#8 0xFF#8 0x00#8 0x07#8 := by decide

/-- S3, V7, with the other flags set before. -/
theorem test_andwf :
    Gives 0x1420 0x17#8 0xC2#8 0x1F#8 0x02#8 0xC2#8 0x0B#8 ∧
    Gives 0x1620 0xF0#8 0x0F#8 0x1F#8 0xF0#8 0x00#8 0x0F#8 := by decide

/-- S4, V39. -/
theorem test_clrf :
    Gives 0x6B20 0x00#8 0x5A#8 0x00#8 0x00#8 0x00#8 0x04#8 ∧
    Gives 0x6A20 0x00#8 0x5A#8 0x10#8 0x00#8 0x00#8 0x14#8 := by decide

/-- S5 as corrected, V8. -/
theorem test_comf :
    Gives 0x1C20 0x13#8 0x13#8 0x00#8 0xEC#8 0x13#8 0x10#8 ∧
    Gives 0x1E20 0x00#8 0xFF#8 0x00#8 0x00#8 0x00#8 0x04#8 := by decide

/-- S6, V11. -/
theorem test_decf :
    Gives 0x0620 0x00#8 0x01#8 0x00#8 0x00#8 0x00#8 0x07#8 ∧
    Gives 0x0620 0x00#8 0x80#8 0x00#8 0x00#8 0x7F#8 0x09#8 := by decide

/-- S7, V14. -/
theorem test_incf :
    Gives 0x2A20 0x00#8 0xFF#8 0x00#8 0x00#8 0x00#8 0x07#8 ∧
    Gives 0x2A20 0x00#8 0x7F#8 0x00#8 0x00#8 0x80#8 0x1A#8 := by decide

/-- S8, V17. -/
theorem test_iorwf :
    Gives 0x1120 0x91#8 0x13#8 0x0B#8 0x93#8 0x13#8 0x1B#8 ∧
    Gives 0x1220 0x00#8 0x00#8 0x00#8 0x00#8 0x00#8 0x04#8 := by decide

/-- S9, V18. -/
theorem test_movf :
    Gives 0x5020 0xFF#8 0x22#8 0x00#8 0x22#8 0x22#8 0x00#8 ∧
    Gives 0x5220 0x55#8 0x80#8 0x00#8 0x55#8 0x80#8 0x10#8 := by decide

/-- S11, V44. -/
theorem test_movwf :
    Gives 0x6E20 0x4F#8 0xFF#8 0x1F#8 0x4F#8 0x4F#8 0x1F#8 ∧
    Gives 0x6E20 0xC4#8 0x5A#8 0x00#8 0xC4#8 0xC4#8 0x00#8 := by decide

/-- S13, V41. -/
theorem test_negf :
    Gives 0x6D20 0x00#8 0x3A#8 0x00#8 0x00#8 0xC6#8 0x10#8 ∧
    Gives 0x6C20 0x00#8 0x00#8 0x00#8 0x00#8 0x00#8 0x07#8 := by decide

/-- S14, V21. -/
theorem test_rlcf :
    Gives 0x3420 0x00#8 0xE6#8 0x00#8 0xCC#8 0xE6#8 0x11#8 ∧
    Gives 0x3620 0x00#8 0x80#8 0x01#8 0x00#8 0x01#8 0x01#8 := by decide

/-- S15, V23, with C set before. -/
theorem test_rlncf :
    Gives 0x4620 0x00#8 0xAB#8 0x01#8 0x00#8 0x57#8 0x01#8 ∧
    Gives 0x4620 0x00#8 0x80#8 0x01#8 0x00#8 0x01#8 0x01#8 := by decide

/-- S16, V25. -/
theorem test_rrcf :
    Gives 0x3020 0x00#8 0xE6#8 0x00#8 0x73#8 0xE6#8 0x00#8 ∧
    Gives 0x3220 0x00#8 0x01#8 0x01#8 0x00#8 0x80#8 0x11#8 := by decide

/-- S17 as corrected, S18. -/
theorem test_rrncf :
    Gives 0x4220 0x00#8 0xD7#8 0x00#8 0x00#8 0xEB#8 0x10#8 ∧
    Gives 0x4020 0x00#8 0xD7#8 0x01#8 0xEB#8 0xD7#8 0x11#8 := by decide

/-- S19, V40. -/
theorem test_setf :
    Gives 0x6920 0x00#8 0x5A#8 0x1F#8 0x00#8 0xFF#8 0x1F#8 ∧
    Gives 0x6820 0x00#8 0x5A#8 0x00#8 0x00#8 0xFF#8 0x00#8 := by decide

/-- S20, S22. -/
theorem test_subfwb :
    Gives 0x5620 0x02#8 0x03#8 0x01#8 0x02#8 0xFF#8 0x10#8 ∧
    Gives 0x5620 0x02#8 0x01#8 0x00#8 0x02#8 0x00#8 0x07#8 := by decide

/-- S23, V29. -/
theorem test_subwf :
    Gives 0x5E20 0x02#8 0x03#8 0x00#8 0x02#8 0x01#8 0x03#8 ∧
    Gives 0x5E20 0x01#8 0x80#8 0x00#8 0x01#8 0x7F#8 0x09#8 := by decide

/-- S26, V32. -/
theorem test_subwfb :
    Gives 0x5A20 0x0D#8 0x19#8 0x01#8 0x0D#8 0x0C#8 0x01#8 ∧
    Gives 0x5A20 0x00#8 0x00#8 0x00#8 0x00#8 0xFF#8 0x10#8 := by decide

/-- S29, V34. -/
theorem test_swapf :
    Gives 0x3A20 0x00#8 0x53#8 0x1F#8 0x00#8 0x35#8 0x1F#8 ∧
    Gives 0x3A20 0x00#8 0xA5#8 0x00#8 0x00#8 0x5A#8 0x00#8 := by decide

/-- S30 as corrected, V35. -/
theorem test_xorwf :
    Gives 0x1920 0xB5#8 0xAF#8 0x00#8 0x1A#8 0xAF#8 0x00#8 ∧
    Gives 0x1A20 0xFF#8 0xFF#8 0x00#8 0xFF#8 0x00#8 0x04#8 := by decide

/-- S39, V93. -/
theorem test_bcf :
    Gives 0x9E20 0x00#8 0xC7#8 0x00#8 0x00#8 0x47#8 0x00#8 ∧
    Gives 0x9020 0x00#8 0xFF#8 0x1F#8 0x00#8 0xFE#8 0x1F#8 := by decide

/-- S40, V94. -/
theorem test_bsf :
    Gives 0x8F20 0x00#8 0x0A#8 0x00#8 0x00#8 0x8A#8 0x00#8 ∧
    Gives 0x8020 0x00#8 0x00#8 0x1F#8 0x00#8 0x01#8 0x1F#8 := by decide

/-- V92, V99: BTG, and BSF on STATUS itself. -/
theorem test_btg :
    Gives 0x7820 0x00#8 0x75#8 0x00#8 0x00#8 0x65#8 0x00#8 ∧ Gives 0x80D8 0x00#8 0x75#8 0x00#8 0x00#8 0x75#8 0x01#8 := by decide

/-- S12, V46: PRODH:PRODL of MULWF. -/
theorem test_mulwf :
    (run [0x0320] (file 0xC4#8 0xB5#8 0x00#8)).map (fun t => (t.prodh, t.prodl, view t))
      = some (0x8A#8, 0x94#8, 0xC4#8, some 0xB5#8, 0x00#8) ∧
    (run [0x0220] (file 0xFF#8 0xFF#8 0x00#8)).map (fun t => (t.prodh, t.prodl)) = some (0xFE#8, 0x01#8) := by decide

/-- V47, V48: MOVFF between two bytes of RAM, and from WREG to BSR. -/
theorem test_movff :
    (run [0xC020, 0xF321] (file 0x00#8 0x33#8 0x00#8)).map (fun t => (ramByte 0x321#12 t, t.pc)) = some (some 0x33#8, 4#21) ∧
    (run [0xCFE8, 0xFFE0] (file 0x35#8 0x00#8 0x00#8)).map (fun t => t.bsr) = some 5#4 := by decide

/-- V228: MOVFF POSTINC0,POSTINC1. -/
theorem test_movff_indirect :
    (run [0xCFEE, 0xFFE6] { State.reset with fsr := ⟨0x050#12, 0x060#12, 0#12⟩, ram := [(0x50, 0x77#8)] }).map
      (fun t => (ramByte 0x060#12 t, t.fsr)) = some (some 0x77#8, ⟨0x051#12, 0x061#12, 0#12⟩) := by decide

/-- V221, V223, V224: MOVWF through POSTINC0, PREINC0 and PLUSW0. -/
theorem test_indirect :
    (run [0x6EEE] { State.reset with w := 0x11#8, fsr := ⟨0x1FF#12, 0#12, 0#12⟩ }).map
      (fun t => (ramByte 0x1FF#12 t, t.fsr.fsr0)) = some (some 0x11#8, 0x200#12) ∧
    (run [0x6EEC] { State.reset with w := 0x11#8, fsr := ⟨0x1FF#12, 0#12, 0#12⟩ }).map
      (fun t => (ramByte 0x200#12 t, t.fsr.fsr0)) = some (some 0x11#8, 0x200#12) ∧
    (run [0x6EEB] { State.reset with w := 0xFF#8, fsr := ⟨0x100#12, 0#12, 0#12⟩ }).map
      (fun t => (ramByte 0x0FF#12 t, t.fsr.fsr0)) = some (some 0xFF#8, 0x100#12) := by decide

/-- V226: INCF POSTINC1,1,0 updates the pointer once. -/
theorem test_indirect_once :
    (run [0x2AE6] { State.reset with fsr := ⟨0#12, 0x050#12, 0#12⟩, ram := [(0x50, 0xFF#8)] }).map
      (fun t => (ramByte 0x050#12 t, t.fsr.fsr1, t.status.toByte)) = some (some 0x00#8, 0x051#12, 0x07#8) := by decide

/-- S43, V211: a write of a peripheral register is an output event. -/
theorem test_device_write :
    (run [0x6E80] (file 0xA7#8 0x00#8 0x00#8)).map (fun t => t.outputs) = some [(0xF80#12, 0xA7#8)] := by decide

/-- A skip instruction at 000100h with the words after it; the byte at 020h and PC after it. -/
def skipFrom (ws : List Nat) (w v : Byte) : Option (Option Byte × ProgAddr) :=
  (run ws { file w v 0x01#8 with pc := 0x100#21 }).map fun t => (ramByte 0x020#12 t, t.pc)

/-- V60, V63. -/
theorem test_decfsz :
    skipFrom [0x2E20, 0x0000] 0x00#8 0x01#8 = some (some 0x00#8, 0x104#21) ∧
    skipFrom [0x2E20, 0xEF00, 0xF000] 0x00#8 0x01#8 = some (some 0x00#8, 0x106#21) := by decide

/-- V64, V65. -/
theorem test_dcfsnz :
    skipFrom [0x4E20, 0x0000] 0x00#8 0x01#8 = some (some 0x00#8, 0x102#21) ∧
    skipFrom [0x4E20, 0x0000] 0x00#8 0x02#8 = some (some 0x01#8, 0x104#21) := by decide

/-- V66, V67. -/
theorem test_incfsz :
    skipFrom [0x3E20, 0x0000] 0x00#8 0xFF#8 = some (some 0x00#8, 0x104#21) ∧
    skipFrom [0x3E20, 0x0000] 0x00#8 0x00#8 = some (some 0x01#8, 0x102#21) := by decide

/-- V68, V69. -/
theorem test_infsnz :
    skipFrom [0x4A20, 0x0000] 0x00#8 0xFF#8 = some (some 0x00#8, 0x102#21) ∧
    skipFrom [0x4A20, 0xC123, 0xF000] 0x00#8 0x00#8 = some (some 0x01#8, 0x106#21) := by decide

/-- R201, R207, R209 with PCL as the destination: the skip, taken after the write, gives the next PC (log 9). -/
theorem test_count_skip_pcl :
    skipFrom [0x4AF9, 0x0000] 0x00#8 0x00#8 = some (some 0x00#8, 0x104#21) ∧
    skipFrom [0x4EF9, 0xEF00, 0xF000] 0x00#8 0x00#8 = some (some 0x00#8, 0x106#21) := by decide

/-- V70, V71. -/
theorem test_cpfslt :
    skipFrom [0x6020, 0x0000] 0x80#8 0x7F#8 = some (some 0x7F#8, 0x104#21) ∧
    skipFrom [0x6020, 0x0000] 0x7F#8 0x80#8 = some (some 0x80#8, 0x102#21) := by decide

/-- V74, V75. -/
theorem test_cpfseq :
    skipFrom [0x6220, 0x0000] 0x80#8 0x80#8 = some (some 0x80#8, 0x104#21) ∧
    skipFrom [0x6220, 0x0000] 0x80#8 0x7F#8 = some (some 0x7F#8, 0x102#21) := by decide

/-- V76, V77. -/
theorem test_cpfsgt :
    skipFrom [0x6420, 0x0000] 0x7F#8 0x80#8 = some (some 0x80#8, 0x104#21) ∧
    skipFrom [0x6420, 0x0000] 0x80#8 0x7F#8 = some (some 0x7F#8, 0x102#21) := by decide

/-- V80, V83. -/
theorem test_tstfsz :
    skipFrom [0x6620, 0x0000] 0x00#8 0x00#8 = some (some 0x00#8, 0x104#21) ∧
    skipFrom [0x6620, 0x0001] 0x00#8 0x05#8 = some (some 0x05#8, 0x102#21) := by decide

/-- V95, V96. -/
theorem test_btfsc :
    skipFrom [0xB220, 0xEF00, 0xF000] 0x00#8 0x00#8 = some (some 0x00#8, 0x106#21) ∧
    skipFrom [0xB220, 0x0000] 0x00#8 0x02#8 = some (some 0x02#8, 0x102#21) := by decide

/-- V97, V98. -/
theorem test_btfss :
    skipFrom [0xA220, 0xEF00, 0xF000] 0x00#8 0x00#8 = some (some 0x00#8, 0x102#21) ∧
    skipFrom [0xA220, 0xEF00, 0xF000] 0x00#8 0x02#8 = some (some 0x02#8, 0x106#21) := by decide

/-- PC after one step from 001000h with STATUS given. -/
def branchFrom (word : Nat) (status : Byte) : Option ProgAddr :=
  (run [word] { State.reset with pc := 0x1000#21, status := Flags.ofByte status }).map fun t => t.pc

/-- S44 to S51, V110 to V118: each conditional branch taken, and with its flag the other way. -/
theorem test_branches :
    branchFrom 0xE205 0x01#8 = some 0x100C#21 ∧ branchFrom 0xE205 0x1E#8 = some 0x1002#21 ∧
    branchFrom 0xE0FF 0x04#8 = some 0x1000#21 ∧ branchFrom 0xE0FF 0x1B#8 = some 0x1002#21 ∧
    branchFrom 0xE180 0x1B#8 = some 0x0F02#21 ∧ branchFrom 0xE180 0x04#8 = some 0x1002#21 ∧
    branchFrom 0xE67F 0x10#8 = some 0x1100#21 ∧ branchFrom 0xE67F 0x0F#8 = some 0x1002#21 ∧
    branchFrom 0xE4FE 0x08#8 = some 0x0FFE#21 ∧ branchFrom 0xE4FE 0x17#8 = some 0x1002#21 ∧
    branchFrom 0xE3FD 0x1E#8 = some 0x0FFC#21 ∧ branchFrom 0xE3FD 0x01#8 = some 0x1002#21 ∧
    branchFrom 0xE5FC 0x17#8 = some 0x0FFA#21 ∧ branchFrom 0xE5FC 0x08#8 = some 0x1002#21 ∧
    branchFrom 0xE7FB 0x0F#8 = some 0x0FF8#21 ∧ branchFrom 0xE7FB 0x10#8 = some 0x1002#21 := by decide

/-- V121, V122, V123: BRA forward, backward and round the end of the address space. -/
theorem test_bra :
    branchFrom 0xD3FF 0x00#8 = some 0x1800#21 ∧ branchFrom 0xD400 0x00#8 = some 0x0802#21 ∧
    (run [0xD400] { State.reset with pc := 0x10#21 }).map (fun t => t.pc) = some 0x1FF812#21 := by decide

/-- A machine at an address with return addresses on the stack, the lowest entry first. -/
def withStack (pc : ProgAddr) (sp : BitVec 5) (e1 e2 : ProgAddr) : State :=
  { State.reset with
    pc := pc, sp := sp, stack := (State.reset.stack.setIfInBounds 0 e1).setIfInBounds 1 e2, w := 0x11#8, bsr := 3#4
    status := Flags.ofByte 0x01#8, shadow := ⟨0x22#8, Flags.ofByte 0x04#8, 5#4⟩ }

/-- PC, SP and TOS. -/
def viewStack (t : State) : ProgAddr × BitVec 5 × ProgAddr := (t.pc, t.sp, tos t)

/-- V125, V126, S57 and V134: RCALL, CALL fast with its shadow copies, PUSH. -/
theorem test_calls :
    (run [0xD805] (withStack 0x1000#21 0#5 0#21 0#21)).map viewStack = some (0x100C#21, 1#5, 0x1002#21) ∧
    (run [0xED34, 0xF012] (withStack 0x200#21 0#5 0#21 0#21)).map (fun t => (viewStack t, t.shadow)) =
      some ((0x2468#21, 1#5, 0x204#21), ⟨0x11#8, Flags.ofByte 0x01#8, 3#4⟩) ∧
    (run [0x0005] (withStack 0x124#21 1#5 0x345A#21 0#21)).map (fun t => (viewStack t, stackEntry 1#5 t)) =
      some ((0x126#21, 2#5, 0x126#21), 0x345A#21) := by decide

/-- V127, V128: CALL without the fast bit leaves the shadow registers; GOTO leaves the stack. -/
theorem test_goto :
    (run [0xEC34, 0xF012] (withStack 0x200#21 0#5 0#21 0#21)).map (fun t => (viewStack t, t.shadow)) =
      some ((0x2468#21, 1#5, 0x204#21), ⟨0x22#8, Flags.ofByte 0x04#8, 5#4⟩) ∧
    (run [0xEF00, 0xF008] (withStack 0x200#21 1#5 0x345A#21 0#21)).map viewStack =
      some (0x1000#21, 1#5, 0x345A#21) := by decide

/-- V130 to V132, S56 and V135: the returns and POP. -/
theorem test_returns :
    (run [0x0012] (withStack 0x300#21 1#5 0x204#21 0#21)).map (fun t => (t.pc, t.sp, t.w)) =
      some (0x204#21, 0#5, 0x11#8) ∧
    (run [0x0013] (withStack 0x300#21 1#5 0x204#21 0#21)).map (fun t => (t.pc, t.sp, t.w, t.status.toByte, t.bsr)) =
      some (0x204#21, 0#5, 0x22#8, 0x04#8, 5#4) ∧
    (run [0x0C42] (withStack 0x300#21 1#5 0x204#21 0#21)).map (fun t => (t.pc, t.sp, t.w)) =
      some (0x204#21, 0#5, 0x42#8) ∧
    (run [0x0006] (withStack 0x124#21 2#5 0x14332#21 0x31A2#21)).map viewStack =
      some (0x126#21, 1#5, 0x14332#21) := by decide

/-- V137, V138: which enable RETFIE sets. -/
theorem test_retfie :
    (run [0x0010] (withStack 0x008#21 1#5 0x204#21 0#21)).map (fun t => (t.pc, t.sp, t.irq.intcon)) =
      some (0x204#21, 0#5, 0x80#8) ∧
    (run [0x0010] { withStack 0x008#21 1#5 0x204#21 0#21 with irq := { State.reset.irq with intcon := 0x80#8 } }).map
      (fun t => (t.pc, t.sp, t.irq.intcon)) = some (0x204#21, 0#5, 0xC0#8) := by decide

/-- W and STATUS after a literal instruction, W and STATUS before it given. -/
def literal (word : Nat) (w status : Byte) : Option (Byte × Byte) :=
  (run [word] (file w 0x00#8 status)).map fun t => (t.w, t.status.toByte)

/-- S66, V151; S67; S68; S71. -/
theorem test_literals :
    literal 0x0F15 0x10#8 0x1F#8 = some (0x25#8, 0x00#8) ∧ literal 0x0F01 0x7F#8 0x00#8 = some (0x80#8, 0x1A#8) ∧
    literal 0x0B5F 0xA3#8 0x00#8 = some (0x03#8, 0x00#8) ∧ literal 0x0935 0x9A#8 0x0B#8 = some (0xBF#8, 0x1B#8) ∧
    literal 0x0E5A 0x00#8 0x1F#8 = some (0x5A#8, 0x1F#8) := by decide

/-- S74, V153; S76, V152. -/
theorem test_literals_sub_xor :
    literal 0x0802 0x02#8 0x00#8 = some (0x00#8, 0x07#8) ∧ literal 0x0800 0x80#8 0x00#8 = some (0x80#8, 0x1A#8) ∧
    literal 0x0AAF 0xB5#8 0x00#8 = some (0x1A#8, 0x00#8) ∧ literal 0x0AB5 0xB5#8 0x00#8 = some (0x00#8, 0x04#8) := by decide

/-- S69, S70, S72: LFSR, MOVLB, MULLW. -/
theorem test_pointer_literals :
    (run [0xEE23, 0xF0AB] State.reset).map (fun t => (t.fsr, t.pc)) = some (⟨0#12, 0#12, 0x3AB#12⟩, 4#21) ∧
    (run [0x0105] State.reset).map (fun t => t.bsr) = some 5#4 ∧
    (run [0x0DC4] (file 0xE2#8 0x00#8 0x1F#8)).map (fun t => (t.w, t.prodh, t.prodl, t.status.toByte)) =
      some (0xE2#8, 0xAD#8, 0x08#8, 0x1F#8) := by decide

/-- S63, S64, V176, V178: DAW. -/
theorem test_daw :
    literal 0x0007 0xA5#8 0x00#8 = some (0x05#8, 0x01#8) ∧ literal 0x0007 0xCE#8 0x00#8 = some (0x34#8, 0x01#8) ∧
    literal 0x0007 0xB3#8 0x02#8 = some (0x19#8, 0x03#8) ∧ literal 0x0007 0x66#8 0x03#8 = some (0xCC#8, 0x03#8) := by decide

/-- S55, V180, V181: NOP in both encodings. -/
theorem test_nop :
    (run [0x0000] State.reset).map (fun t => (t.pc, t.w)) = some (2#21, 0x00#8) ∧
    (run [0xF123] State.reset).map (fun t => (t.pc, t.w)) = some (2#21, 0x00#8) := by decide

/-- V182, V183: CLRWDT and SLEEP; RCON before them has TO = PD = 0, as after a watchdog wake-up. -/
theorem test_clrwdt_sleep :
    (run [0x0004] { State.reset with rcon := 0x10#8, wdt := ⟨3, 5, true⟩ }).map (fun t => (t.rcon, t.wdt, t.sleeping)) =
      some (0x1C#8, ⟨0, 0, true⟩, false) ∧
    (run [0x0003] { State.reset with rcon := 0x10#8, wdt := ⟨3, 5, true⟩ }).map (fun t => (t.rcon, t.wdt, t.sleeping)) =
      some (0x18#8, ⟨0, 0, true⟩, true) := by decide

/-- V184, T2: RESET. -/
theorem test_reset :
    (run [0x00FF] { withStack 0x40#21 2#5 0x10#21 0x20#21 with
        ram := [(0x20, 0x77#8)], tblptr := 0x1234#21, irq := { State.reset.irq with intcon := 0x80#8 } }).map
      (fun t => (view t, t.pc, t.bsr, t.sp, t.tblptr, t.irq.intcon, t.rcon)) =
      some ((0x11#8, some 0x77#8, 0x01#8), 0#21, 0#4, 0#5, 0#21, 0x00#8, 0x0C#8) := by decide

/-- TABLAT, TBLPTR and two holding latches after a table instruction at 000000h; TBLPTR is 002357h before it, and the bytes at
002357h and 002358h are 12h and 78h. -/
def table (word : Nat) (tablat : Byte) : Option (List Nat) :=
  (run [word] { State.reset with tablat := tablat, tblptr := 0x2357#21, prog := [(0x2357, 0x12#8), (0x2358, 0x78#8)] }).map
    fun t => [t.tablat.toNat, t.tblptr.toNat, t.holding[0].toNat, t.holding[7].toNat]

/-- V190 to V193. -/
theorem test_tblrd :
    table 0x0008 0xAA#8 = some [0x12, 0x2357, 0x00, 0x00] ∧
    table 0x0009 0xAA#8 = some [0x12, 0x2358, 0x00, 0x00] ∧
    table 0x000A 0xAA#8 = some [0x12, 0x2356, 0x00, 0x00] ∧
    table 0x000B 0xAA#8 = some [0x78, 0x2358, 0x00, 0x00] := by decide

/-- V194 to V197. -/
theorem test_tblwt :
    table 0x000C 0x55#8 = some [0x55, 0x2357, 0x00, 0x55] ∧
    table 0x000D 0x55#8 = some [0x55, 0x2358, 0x00, 0x55] ∧
    table 0x000E 0x55#8 = some [0x55, 0x2356, 0x00, 0x55] ∧
    table 0x000F 0x55#8 = some [0x55, 0x2358, 0x55, 0x00] := by decide

/-- The main program of T3 at 000028h, with TMR0 enabled. -/
def beforeEntry : State :=
  { State.reset with
    pc := 0x28#21, w := 0x01#8, status := Flags.ofByte 0x10#8, irq := { State.reset.irq with intcon := 0xA0#8 }
    inputs := [.raiseFlag .tmr0] }

/-- T3: the flag of TMR0 rises in a step of its own. -/
theorem test_raise_flag :
    (run [0x0F01] beforeEntry).map (fun t => (t.irq.intcon, t.pc)) = some (0xA4#8, 0x28#21) := by decide

/-- T3: the entry of the next step. -/
theorem test_interrupt_entry :
    (run [0x0F01] { beforeEntry with irq := { State.reset.irq with intcon := 0xA4#8 }, inputs := [] }).map
      (fun t => (viewStack t, t.shadow, t.irq.intcon)) =
      some ((0x08#21, 1#5, 0x28#21), ⟨0x01#8, Flags.ofByte 0x10#8, 0#4⟩, 0x24#8) := by decide

/-- R332, R346: an entry with events of the environment still to come after it. -/
theorem test_event_after_entry :
    (run [0x0F01] { beforeEntry with
        irq := { State.reset.irq with intcon := 0xA4#8 }, inputs := [.proceed, .raiseFlag .int0, .wdtTimeout] }).map
      (fun t => (t.pc, t.inputs)) = some (0x08#21, [.raiseFlag .int0, .wdtTimeout]) := by decide

/-- T4: with both levels requested the high one is taken; INT1 (low) and TMR0 (high). -/
theorem test_interrupt_priority :
    (run [0x0000] { State.reset with
        pc := 0x100#21, rcon := 0x9C#8, irq := { State.reset.irq with intcon := 0xE4#8, intcon3 := 0x89#8 } }).map
      (fun t => (viewStack t, t.irq.intcon)) = some ((0x08#21, 1#5, 0x100#21), 0x64#8) ∧
    (run [0x0000] { State.reset with
        pc := 0x100#21, rcon := 0x9C#8, irq := { State.reset.irq with intcon := 0xE0#8, intcon3 := 0x89#8 } }).map
      (fun t => (viewStack t, t.irq.intcon)) = some ((0x18#21, 1#5, 0x100#21), 0xA0#8) := by decide

/-- R373, R370: a brown-out keeps W, RAM and PRODL, and records itself in BOR with POR as it was. -/
theorem test_brown_out :
    (run [] { State.reset with w := 0x5A#8, prodl := 0x21#8, ram := [(0x20, 0x77#8)], rcon := 0x13#8, pc := 0x28#21
                               inputs := [.brownOutReset] }).map (fun t => (t.w, t.prodl, ramByte 0x020#12 t, t.rcon, t.pc)) =
      some (0x5A#8, 0x21#8, some 0x77#8, 0x1E#8, 0x00#21) := by decide

/-- R348: asleep an enabled flag ends the sleep, also with GIE 0, one that PEIE masks does not; a time-out ends it too. -/
theorem test_wake_up :
    (run [0x0E5A] { beforeEntry with sleeping := true, irq := { State.reset.irq with intcon := 0x10#8 }
                                     inputs := [.raiseFlag .int0] }).map (fun t => (t.sleeping, t.pc, t.w)) =
      some (false, 0x28#21, 0x01#8) ∧
    (run [0x0E5A] { beforeEntry with sleeping := true, irq := { State.reset.irq with intcon := 0x80#8, pie1 := 0x01#8 }
                                     inputs := [.raiseFlag .tmr1] }).map (fun t => (t.sleeping, t.irq.pir1)) =
      some (true, 0x01#8) ∧
    (run [0x0E5A] { beforeEntry with sleeping := true, rcon := 0x18#8, wdt := ⟨0, 0, true⟩
                                     inputs := [.wdtTimeout] }).map (fun t => (t.sleeping, t.rcon, t.pc)) =
      some (false, 0x10#8, 0x28#21) := by decide

/-- R348, D18: after a wake-up by a time-out, with a request standing, MOVLW 5Ah after SLEEP runs and no entry is made. -/
theorem test_instruction_after_sleep :
    (run [0x0E5A] { beforeEntry with waking := true, irq := { State.reset.irq with intcon := 0xA4#8 }, inputs := [] }).map
      (fun t => (t.pc, t.w, t.sp, t.waking)) = some (0x2A#21, 0x5A#8, 0#5, false) := by decide

/-- How a step stops, if it does. -/
def stops (ws : List Nat) (s : State) : Option (Fault ⊕ Refusal) :=
  match step (load ws s) with
  | .next _ => none
  | .fault e => some (.inl e)
  | .refused e => some (.inr e)

/-- V50, V51, V82, V101, V133, V136: stops of the instructions. -/
theorem test_stops :
    stops [0xCFF9, 0xF020] State.reset = some (.inr .movffRestricted) ∧
    stops [0xC020, 0xFFFD] (file 0#8 1#8 0#8) = some (.inr .movffRestricted) ∧
    stops [0x6620, 0x0001] (file 0#8 0#8 0#8) = some (.inr .skipOverUnassigned) ∧
    stops [0x4AF9, 0x0001] State.reset = some (.inr .skipOverUnassigned) ∧
    stops [0x8020] State.reset = some (.inl .readOfUnwritten) ∧ stops [0x0012] State.reset = some (.inl .stackUnderflow) ∧
    stops [0x0005] { State.reset with sp := 31#5 } = some (.inl .stackOverflow) := by decide

/-- V199, V201, V202, V215, V229, V232, and V49, V185, V186 in the fetch. -/
theorem test_stops_addresses :
    stops [0x0009] { State.reset with tblptr := 0x1FFFFF#21 } = some (.inr .unimplementedProgram) ∧
    stops [0x000C] { State.reset with tblptr21 := true } = some (.inr .configSpace) ∧
    stops [0x6EA7] State.reset = some (.inr .flashProgramming) ∧
    stops [0x6F00] { State.reset with bsr := 6#4 } = some (.inr .unimplementedData) ∧
    stops [0x6EEF] { State.reset with fsr := ⟨0x700#12, 0#12, 0#12⟩ } = some (.inr .unimplementedData) ∧
    stops [0xCFEE, 0xFFE9] State.reset = some (.inr .indirectSelfReference) ∧
    stops [0xC020, 0x0321] State.reset = some (.inr .badSecondWord) ∧
    stops [0x00FE] State.reset = some (.inr .unassignedOpcode) ∧ stops [0x01FF] State.reset = some (.inr .reservedForm) := by decide

/-! ### States that meet the hypotheses of the obligations -/

/-- A machine with data: W = 05h, BSR = 5, bytes at 000h, 05Fh and at the top of RAM, C set, a return address on the stack. -/
def sample : State :=
  { State.reset with
    w := 0x05#8, bsr := 5#4, status := Flags.ofByte 0x01#8, fsr := ⟨0x5FF#12, 0xFFF#12, 0x000#12⟩
    ram := [(0x000, 0x05#8), (0x05F, 0x00#8), (0x5FF, 0xFF#8)], sp := 1#5, stack := State.reset.stack.setIfInBounds 0 0x204#21 }

/-- `sample` with words at PC. -/
abbrev sampleWith (ws : List Nat) : State := load ws sample

/-- DecodeEncode: a well-formed instruction with a checked field. -/
theorem witness_DecodeEncode : (Instr.lfsr 2#2 0xFFF#12).wf = true := by decide

/-- EncodeDecode: bytes that decode, with one byte left over. -/
theorem witness_EncodeDecode :
    decode [0x23#8, 0xEE#8, 0xAB#8, 0xF0#8, 0x99#8] = .ok (.lfsr 2#2 0x3AB#12, [0x99#8]) := by rfl

/-- UnassignedWords: both ends of each of the five ranges are words of no row, the words next to them are words of one. -/
theorem witness_UnassignedWords :
    ([0x0001#16, 0x0002#16, 0x0014#16, 0x00FE#16, 0x0110#16, 0x01FF#16, 0xE800#16, 0xEBFF#16, 0xEE40#16, 0xEEFF#16]
      : List Word).all (fun w => (rowOf w).isNone) = true ∧
    ([0x0000#16, 0x0003#16, 0x0013#16, 0x00FF#16, 0x010F#16, 0x0200#16, 0xE7FF#16, 0xEC00#16, 0xEE3F#16, 0xEF00#16]
      : List Word).all (fun w => (rowOf w).isSome) = true := by decide

/-- SkipLength: instructions of two words and of one. -/
theorem witness_SkipLength :
    encode (.movff 0x123#12 0xFFF#12) = [0xC123#16, 0xFFFF#16] ∧ encode (.tblrd) = [0x0008#16] := by decide

/-- StepRunsInstruction: ADDWF at PC, with nothing before it. -/
theorem witness_StepRunsInstruction :
    InstrNext (sampleWith [0x2600]) ∧ (Instr.addwf 0#8 true false).wf = true ∧
    InstrAtPc (.addwf 0#8 true false) (sampleWith [0x2600]) := by decide

/-- StepRunsInstruction, first clause: the bytes at PC decode. -/
theorem witness_StepRunsInstruction_bytes :
    decode (fetchBytes 4 0#21 (sampleWith [0x2600])) = .ok (.addwf 0#8 true false, [0xFF#8, 0xFF#8]) := by rfl

/-- StepRefusesUndecodable: the first address past the program memory; an unassigned word and the two ends of the reserved
form; a second word past the program memory; one just below F000h; LFSR with the first and the last reserved number of an
FSR, and with a second word just above F0FFh. -/
theorem witness_StepRefusesUndecodable :
    InstrNext { sample with pc := 0x8000#21 } ∧ Config.progBytes ≤ (0x8000#21).toNat ∧
    InstrNext (sampleWith [0x0001]) ∧ fetch16 0#21 (sampleWith [0x0001]) = some 0x0001#16 ∧
    fetch16 0#21 (sampleWith [0x0110]) = some 0x0110#16 ∧ fetch16 0#21 (sampleWith [0x01FF]) = some 0x01FF#16 ∧
    (let s := load [0xEE00] { sample with pc := 0x7FFE#21 }
     InstrNext s ∧ fetch16 s.pc s = some 0xEE00#16 ∧ isTwoWord 0xEE00#16 = true ∧ fetch16 (s.pc + 2#21) s = none) ∧
    fetch16 0#21 (sampleWith [0xC020, 0xEFFF]) = some 0xC020#16 ∧ isTwoWord 0xC020#16 = true ∧
    fetch16 2#21 (sampleWith [0xC020, 0xEFFF]) = some 0xEFFF#16 ∧
    fetch16 0#21 (sampleWith [0xEE30, 0xF000]) = some 0xEE30#16 ∧ isTwoWord 0xEE30#16 = true ∧
    fetch16 2#21 (sampleWith [0xEE30, 0xF000]) = some 0xF000#16 ∧ isTwoWord 0xEE3F#16 = true ∧
    fetch16 2#21 (sampleWith [0xEE00, 0xF100]) = some 0xF100#16 := by decide

/-- StepRefusesUndecodable: at those boundaries the step is refused, and at their neighbours LFSR runs. -/
theorem test_lfsr_reserved :
    stops [0xEE30, 0xF000] State.reset = some (.inr .reservedForm) ∧
    stops [0xEE3F, 0xF0FF] State.reset = some (.inr .reservedForm) ∧
    stops [0xEE00, 0xF100] State.reset = some (.inr .reservedForm) ∧ stops [0xEE2F, 0xF0FF] State.reset = none ∧
    stops [0xEE00] { State.reset with pc := 0x7FFE#21 } = some (.inr .unimplementedProgram) := by decide

/-- StepOrder: a requested interrupt of each level with no event listed and behind `proceed`, and each event, awake and asleep. -/
theorem witness_StepOrder :
    requestedLevel { sample with irq := { sample.irq with intcon := 0xA4#8 } } = some .high ∧
    requestedLevel { sample with rcon := 0x9C#8, irq := { sample.irq with intcon := 0xE4#8, intcon2 := 0xF1#8 } } =
      some .low ∧
    sample.sleeping = false ∧ sample.waking = false ∧ sample.inputs = [] ∧ { sample with inputs := [.proceed] }.inputs = .proceed :: [] ∧
    { sample with sleeping := true, inputs := [.raiseFlag .tmr2] }.inputs = .raiseFlag .tmr2 :: [] ∧
    { sample with sleeping := true, inputs := [.mclrReset, .proceed] }.inputs = .mclrReset :: [.proceed] ∧
    { sample with inputs := [.powerOnReset] }.inputs = .powerOnReset :: [] ∧
    { sample with inputs := [.brownOutReset] }.inputs = .brownOutReset :: [] ∧
    { sample with inputs := [.usartBuffers true false] }.inputs = .usartBuffers true false :: [] ∧
    { sample with wdt := ⟨0, 0, true⟩, inputs := [.wdtClock 1 2] }.inputs = .wdtClock 1 2 :: [] := by decide

/-- StepOrder: an instruction behind a delay, and behind `proceed` with nothing requested. -/
theorem witness_StepOrder_delay :
    decode (fetchBytes 4 0#21 { sampleWith [0x0000] with inputs := [.delayInterrupt] }) = .ok (.nop, [0xFF#8, 0xFF#8]) ∧
    requestedLevel { sampleWith [0x0000] with inputs := [.proceed] } = none ∧
    decode (fetchBytes 4 0#21 { sampleWith [0x0000] with inputs := [.proceed] }) = .ok (.nop, [0xFF#8, 0xFF#8]) :=
  ⟨rfl, by decide, rfl⟩

/-- StepKeepsInv: a state in the invariant from which a step is made; it writes RAM. -/
theorem witness_StepKeepsInv : (sampleWith [0x2600]).Inv ∧ (run [0x2600] sample).isSome = true := by decide

/-- StepKeepsInv: the same of a sleeping machine. -/
theorem witness_StepKeepsInv_asleep :
    { sample with sleeping := true, rcon := 0x18#8 }.Inv ∧
    (run [] { sample with sleeping := true, rcon := 0x18#8 }).isSome = true := by decide

/-- ProgramMemoryFixed: a step that a table write makes. -/
theorem witness_ProgramMemoryFixed : ∃ t, step (sampleWith [0x000D]) = .next t := ⟨_, rfl⟩

/-- InterruptsStayOff: GIE is 0 and an instruction that stores to INTCON2 runs. -/
theorem witness_InterruptsStayOff :
    sample.irq.intcon.getLsbD 7 = false ∧ (∀ fast, Instr.movwf 0xF1#8 false ≠ .retfie fast) ∧
    writeTarget (.movwf 0xF1#8 false) sample ≠ some 0xFF2#12 ∧ ∃ t, exec (.movwf 0xF1#8 false) sample = .next t :=
  ⟨by decide, by simp, by decide, _, rfl⟩

/-- MemoryFrame: a store through PREINC1, whose pointer goes round from FFFh to 000h. -/
theorem witness_MemoryFrame :
    writeTarget (.movwf 0xE4#8 false) sample = some 0x000#12 ∧ ∃ t, exec (.movwf 0xE4#8 false) sample = .next t :=
  ⟨by decide, _, rfl⟩

/-- AddToFile, SubtractFromFile, LogicOnFile, RotateFile, BitWrites, Products (MULWF): the top byte of RAM through BSR, 000h by
the access bank, WREG, and a peripheral register; the destination f and W. -/
theorem witness_operands :
    CanRead 0xFF#8 true sample ∧ CanStore true 0xFF#8 true sample ∧ CanStore false 0xFF#8 true sample ∧
    effAddr 0xFF#8 true sample = 0x5FF#12 ∧ CanRead 0x00#8 false sample ∧ CanStore true 0x00#8 false sample ∧
    CanRead 0xE8#8 false sample ∧ CanStore true 0xE8#8 false sample ∧ Writable (effAddr 0xE8#8 false sample) ∧
    CanRead 0x80#8 false sample ∧ CanStore true 0x80#8 false sample := by decide

/-- StoreToFile: a byte of RAM that nothing has written, and the last one. -/
theorem witness_StoreToFile :
    OperandOk 0x7F#8 false sample ∧ Writable (effAddr 0x7F#8 false sample) ∧ ramByte 0x07F#12 sample = none ∧
    OperandOk 0xFF#8 true sample ∧ Writable (effAddr 0xFF#8 true sample) := by decide

/-- MovffCopies: WREG to POSTINC0 (whose pointer is at the top of RAM), which is not barred; PCL and TOSL are. -/
theorem witness_MovffCopies :
    let s1 := preUpdate 0xFE8#12 (advance 4 sample)
    let source := resolve 0xFE8#12 (advance 4 sample)
    let target := resolve 0xFEE#12 s1
    ¬ ((0xFE8#12 = 0xFF9#12 ∨ 0xFE8#12 = 0xFFF#12 ∨ 0xFE8#12 = 0xFFE#12 ∨ 0xFE8#12 = 0xFFD#12)) ∧
    ¬ ((0xFEE#12 = 0xFF9#12 ∨ 0xFEE#12 = 0xFFF#12 ∨ 0xFEE#12 = 0xFFE#12 ∨ 0xFEE#12 = 0xFFD#12)) ∧
    touchesOwnFsr 0xFE8#12 [source, target] = false ∧ touchesOwnFsr 0xFEE#12 [source, target] = false ∧
    Readable source sample ∧ Writable target ∧ target = 0x5FF#12 := by decide

/-- MovffCopies, first clause: both ends of the barred addresses are refused as source and as destination. -/
theorem witness_MovffCopies_barred :
    exec (.movff 0xFF9#12 0x000#12) sample = .refused .movffRestricted ∧
    exec (.movff 0x000#12 0xFFF#12) sample = .refused .movffRestricted := ⟨rfl, rfl⟩

/-- MovffRamToRam: from the first byte of RAM to the last. -/
theorem witness_MovffRamToRam :
    place 0x000#12 = .ram ∧ place 0x5FF#12 = .ram ∧ ramByte 0x000#12 sample = some 0x05#8 := by decide

/-- TestSkips: the byte at 000h equals W; the next instruction has one word, or two. -/
theorem witness_TestSkips :
    CanRead 0x00#8 false (sampleWith [0x6200, 0x0000]) ∧ operandValue 0x00#8 false (sampleWith [0x6200, 0x0000]) = 0x05#8 ∧
    NextIs 2 (sampleWith [0x6200, 0x0000]) ∧ NextIs 4 (sampleWith [0x6200, 0xEF00, 0xF000]) ∧
    CanRead 0x5F#8 false (sampleWith [0x6200, 0x0000]) ∧
    (operandValue 0x5F#8 false (sampleWith [0x6200, 0x0000])).toNat = 0 ∧
    operandValue 0xFF#8 true (sampleWith [0x6200, 0x0000]) = 0xFF#8 := by decide

/-- CountSkips: a count that comes to 0 by INCFSZ, with a one-word instruction next, and one that does not. -/
theorem witness_CountSkips :
    CanRead 0xFF#8 true (sampleWith [0x3FFF, 0x0000]) ∧ CanStore true 0xFF#8 true (sampleWith [0x3FFF, 0x0000]) ∧
    BitVec.ofNat 8 ((operandValue 0xFF#8 true (sampleWith [0x3FFF, 0x0000])).toNat + 1) = 0#8 ∧
    NextIs 2 (sampleWith [0x3FFF, 0x0000]) ∧ CanRead 0x5F#8 false sample ∧ CanStore true 0x5F#8 false sample ∧
    BitVec.ofNat 8 ((operandValue 0x5F#8 false sample).toNat + 1) ≠ 0#8 := by decide

/-- CountSkips: the destination is PCL, the count does not come to 0, and the next instruction has two words. -/
theorem witness_CountSkips_pcl :
    let s := sampleWith [0x4AF9, 0xEF00, 0xF000]
    CanRead 0xF9#8 false s ∧ CanStore true 0xF9#8 false s ∧ effAddr 0xF9#8 false s = pclAddr ∧
    BitVec.ofNat 8 ((operandValue 0xF9#8 false s).toNat + 1) ≠ 0#8 ∧ NextIs 4 s := by decide

/-- FrameNoFileWrite: MULWF of a byte of RAM; MOVF of PCL. -/
theorem witness_FrameNoFileWrite :
    (Instr.mulwf 0x00#8 false ∈ quietInstrs 0x00#8 0#3 false ∧ ∃ t, exec (.mulwf 0x00#8 false) sample = .next t) ∧
    (Instr.movf 0xF9#8 false false ∈ quietInstrs 0xF9#8 0#3 false ∧ place (effAddr 0xF9#8 false sample) = .reg .pcl ∧
      ∃ t, exec (.movf 0xF9#8 false false) sample = .next t) :=
  ⟨⟨by decide, _, rfl⟩, by decide, by decide, _, rfl⟩

/-- FrameRamWrite: INCF of the last byte of RAM, by address and through POSTINC0. -/
theorem witness_FrameRamWrite :
    (Instr.incf 0xFF#8 true true ∈ writerInstrs 0xFF#8 0#3 true ∧ place (effAddr 0xFF#8 true sample) = .ram ∧
      ∃ t, exec (.incf 0xFF#8 true true) sample = .next t) ∧
    (Instr.incf 0xEE#8 true false ∈ writerInstrs 0xEE#8 0#3 false ∧ place (effAddr 0xEE#8 false sample) = .ram ∧
      ∃ t, exec (.incf 0xEE#8 true false) sample = .next t) :=
  ⟨⟨by decide, by decide, _, rfl⟩, by decide, by decide, _, rfl⟩

/-- FrameRegisterWrite: BSF of STKPTR, MOVWF to PCL, and SETF of TOSL, whose entry is the one SP names and no other. -/
theorem witness_FrameRegisterWrite :
    (Instr.bsf 0xFC#8 0#3 false ∈ writerInstrs 0xFC#8 0#3 false ∧ place (effAddr 0xFC#8 false sample) = .reg .stkptr ∧
      ∃ t, exec (.bsf 0xFC#8 0#3 false) sample = .next t) ∧
    (Instr.movwf 0xF9#8 false ∈ writerInstrs 0xF9#8 0#3 false ∧ place (effAddr 0xF9#8 false sample) = .reg .pcl ∧
      ∃ t, exec (.movwf 0xF9#8 false) sample = .next t) ∧
    (Instr.setf 0xFD#8 false ∈ writerInstrs 0xFD#8 0#3 false ∧ place (effAddr 0xFD#8 false sample) = .reg .tosl ∧
      2#5 ≠ sample.sp ∧ ∃ t, exec (.setf 0xFD#8 false) sample = .next t) :=
  ⟨⟨by decide, by decide, _, rfl⟩, ⟨by decide, by decide, _, rfl⟩, by decide, by decide, by decide, _, rfl⟩

/-- FlagFrame: RLCF of the last byte of RAM; with d = 0 also of STATUS; MOVFF to INTCON2. -/
theorem witness_FlagFrame :
    (place (effAddr 0xFF#8 true sample) ≠ .reg .status ∧ ∃ t, exec (.rlcf 0xFF#8 true true) sample = .next t) ∧
    (place (effAddr 0xD8#8 false sample) = .reg .status ∧ ∃ t, exec (.rlcf 0xD8#8 false false) sample = .next t) ∧
    (writeTarget (.movff 0x000#12 0xFF1#12) sample ≠ some 0xFD8#12 ∧
      ∃ t, exec (.movff 0x000#12 0xFF1#12) sample = .next t) :=
  ⟨⟨by decide, _, rfl⟩, ⟨by decide, _, rfl⟩, by decide, _, rfl⟩

/-- RamReadAfterWrite, DataAddresses: the ends of RAM and of the registers, and both sides of a gap of the table. -/
theorem witness_DataAddresses :
    place 0x000#12 = .ram ∧ place 0x5FF#12 = .ram ∧ place 0x600#12 = .unimplemented ∧ place 0xF7F#12 = .unimplemented ∧
    place 0xFFF#12 = .reg .tosu ∧ place 0xF9D#12 = .reg .pie1 ∧ place 0xF80#12 = .device ∧ place 0xFA6#12 = .device ∧
    place 0xFA5#12 = .unimplemented ∧ place 0xFA3#12 = .unimplemented ∧ place 0xFA2#12 = .reg .ipr2 := by decide

/-- RegisterReadBack: a stack with an entry, and an empty one. -/
theorem witness_RegisterReadBack : sample.sp ≠ 0#5 ∧ State.reset.sp = 0#5 := by decide

/-- PeripheralAccess: PORTA and PORTB, EECON2. -/
theorem witness_PeripheralAccess :
    place 0xF80#12 = .device ∧ 0xF80#12 ≠ portbAddr ∧ place portbAddr = .device ∧ place 0xFA7#12 = .eecon2 := by decide

/-- IndirectAddressing: the five ways through FSR0 at the top of RAM (PREINC through FSR1 at FFFh, PLUSW with W = 05h through
FSR2 at 000h), each at a target inside RAM. -/
theorem witness_IndirectAddressing :
    place (rawAddr 0xEF#8 false sample) = .indirect .f0 .indf ∧ place (rawAddr 0xEE#8 false sample) = .indirect .f0 .postInc ∧
    place (rawAddr 0xED#8 false sample) = .indirect .f0 .postDec ∧ (sample.fsr.get .f0).toNat = 0x5FF ∧
    place (rawAddr 0xE4#8 false sample) = .indirect .f1 .preInc ∧ ((sample.fsr.get .f1).toNat + 1) % 4096 = 0 ∧
    place (rawAddr 0xDB#8 false sample) = .indirect .f2 .plusW ∧
    ((((sample.fsr.get .f2).toNat : Int) + sample.w.toInt) % 4096).toNat = 5 := by decide

/-- DataStops: an FSR that points at its own low byte; the first address after RAM; a byte nothing has written; EECON2. -/
theorem witness_DataStops :
    ¬ OperandOk 0xEF#8 false { sample with fsr := ⟨0xFE9#12, 0#12, 0#12⟩ } ∧
    (OperandOk 0x00#8 true { sample with bsr := 6#4 } ∧
      place (effAddr 0x00#8 true { sample with bsr := 6#4 }) = .unimplemented) ∧
    (OperandOk 0x7F#8 false sample ∧ place (effAddr 0x7F#8 false sample) = .ram ∧
      ramByte (effAddr 0x7F#8 false sample) sample = none) ∧
    (OperandOk 0xA7#8 false sample ∧ place (effAddr 0xA7#8 false sample) = .eecon2) := by decide

/-- DataStops, the clause of MOVFF: INDF0 with its own FSR0L as target; a source after RAM and one nothing has written; a
readable source with a target after RAM, and with EECON2. -/
theorem witness_DataStops_movff :
    touchesOwnFsr 0xFEF#12 [resolve 0xFEF#12 (advance 4 sample), resolve 0xFE9#12 (preUpdate 0xFEF#12 (advance 4 sample))] =
      true ∧
    (let free := fun (fs fd : DataAddr) =>
        let l := [resolve fs (advance 4 sample), resolve fd (preUpdate fs (advance 4 sample))]
        touchesOwnFsr fs l = false ∧ touchesOwnFsr fd l = false
     (free 0x600#12 0x000#12 ∧ place (resolve 0x600#12 (advance 4 sample)) = .unimplemented) ∧
      (free 0x001#12 0x000#12 ∧ resolve 0x001#12 (advance 4 sample) = 0x001#12 ∧ place 0x001#12 = .ram ∧
        ramByte 0x001#12 sample = none) ∧
      (free 0x000#12 0x600#12 ∧ Readable (resolve 0x000#12 (advance 4 sample)) sample ∧
        place (resolve 0x600#12 (preUpdate 0x000#12 (advance 4 sample))) = .unimplemented) ∧
      (free 0x000#12 0xFA7#12 ∧ place (resolve 0xFA7#12 (preUpdate 0x000#12 (advance 4 sample))) = .eecon2)) := by decide

/-- MOVFF at those places (R86, R87, R306). -/
theorem test_movff_stops :
    stops [0xC600, 0xF000] sample = some (.inr .unimplementedData) ∧
    stops [0xC001, 0xF000] sample = some (.inl .readOfUnwritten) ∧
    stops [0xC000, 0xF600] sample = some (.inr .unimplementedData) ∧
    stops [0xC000, 0xFFA7] sample = some (.inr .flashProgramming) := by decide

/-- Calls and InterruptEntry: a stack with room for one more entry. -/
theorem witness_Calls : ({ sample with sp := 30#5 }.sp).toNat < Config.stackDepth := by decide

/-- Returns and ReturnFromInterrupt: a stack of one entry. -/
theorem witness_Returns : sample.sp ≠ 0#5 := by decide

/-- StackStops: the full stack and the empty one. -/
theorem witness_StackStops : { sample with sp := 31#5 }.sp = 31#5 ∧ { sample with sp := 0#5 }.sp = 0#5 := by decide

/-- CallThenReturn: from a stack with one free entry. -/
theorem witness_CallThenReturn :
    { sample with sp := 30#5 }.pc.getLsbD 0 = false ∧
    ∃ t u, exec (.call 0x01234#20 true) { sample with sp := 30#5 } = .next t ∧ exec (.ret true) t = .next u :=
  ⟨by decide, _, _, rfl, rfl⟩

/-- BcdAddition: 99 + 99. -/
theorem witness_BcdAddition :
    (0x99#8).toNat = 99 / 10 * 16 + 99 % 10 ∧
    ∃ t u, exec (.addlw 0x99#8) { sample with w := 0x99#8 } = .next t ∧ exec .daw t = .next u :=
  ⟨by decide, _, _, rfl, rfl⟩

/-- TableReads and TableWrites: TBLPTR at the last implemented byte, before it, and at the top of the address space, from which
the incremented pointer is 0. -/
theorem witness_TableReads :
    sample.tblptr21 = false ∧ (0x7FFF#21).toNat < Config.progBytes ∧
    ((0x7FFE#21).toNat + 1) % 2097152 < Config.progBytes ∧ ((0x1FFFFF#21).toNat + 1) % 2097152 < Config.progBytes := by decide

/-- TableAndSkipStops: the table instructions. -/
theorem witness_TableAndSkipStops_table :
    { sample with tblptr21 := true }.tblptr21 = true ∧ Config.progBytes ≤ (0x8000#21).toNat ∧
    Config.progBytes ≤ ((0x7FFF#21).toNat + 1) % 2097152 := by decide

/-- TableAndSkipStops: the skips, with a byte that is 0, at the last word of the program memory and before words that are
unassigned or reserved; and bytes for which the other skips are taken. -/
theorem witness_TableAndSkipStops_skip :
    CanRead 0x5F#8 false { sample with pc := 0x7FFE#21 } ∧
    operandValue 0x5F#8 false { sample with pc := 0x7FFE#21 } = 0#8 ∧
    fetch16 0x8000#21 { sample with pc := 0x7FFE#21 } = none ∧
    fetch16 2#21 (sampleWith [0x665F, 0x0001]) = some 0x0001#16 ∧ (rowOf 0x0001#16).isNone = true ∧
    fetch16 2#21 (sampleWith [0x665F, 0xEE30]) = some 0xEE30#16 ∧
    fetch16 2#21 (sampleWith [0x665F, 0xEE3F]) = some 0xEE3F#16 ∧
    CanRead 0x00#8 false sample ∧ operandValue 0x00#8 false sample = sample.w ∧
    CanRead 0xFF#8 true sample ∧ CanStore true 0xFF#8 true sample ∧ operandValue 0xFF#8 true sample = 255#8 ∧
    (operandValue 0xFF#8 true sample).getLsbD 7 = true := by decide

/-- TableAndSkipStops: DECFSZ of a byte that is 1. -/
theorem witness_TableAndSkipStops_decfsz :
    let s := { sampleWith [0x2E00, 0x0001] with ram := [(0x000, 0x01#8)] }
    CanRead 0x00#8 false s ∧ CanStore true 0x00#8 false s ∧ operandValue 0x00#8 false s = 1#8 ∧
    fetch16 2#21 s = some 0x0001#16 := by decide

/-- RetfieUndoesEntry: an entry of the high level and its return. -/
theorem witness_RetfieUndoesEntry :
    let s := { sample with irq := { sample.irq with intcon := 0xA4#8 } }
    s.pc.getLsbD 0 = false ∧ s.sleeping = false ∧ requestedLevel s = some .high ∧
    ∃ t u, interruptEntry .high s = .next t ∧ exec (.retfie true) t = .next u :=
  ⟨by decide, by decide, by decide, _, _, rfl, rfl⟩

/-- RetfieUndoesEntry: one of the low level. -/
theorem witness_RetfieUndoesEntry_low :
    let s := { sample with rcon := 0x9C#8, irq := { sample.irq with intcon := 0xE4#8, intcon2 := 0xF1#8 } }
    requestedLevel s = some .low ∧ ∃ t u, interruptEntry .low s = .next t ∧ exec (.retfie true) t = .next u :=
  ⟨by decide, _, _, rfl, rfl⟩

/-- RequestPriority: both settings of IPEN. -/
theorem witness_RequestPriority :
    sample.rcon.getLsbD 7 = false ∧ { sample with rcon := 0x9C#8 }.rcon.getLsbD 7 = true := by decide

/-- RaiseFlagSetsOne: TMR0 awake, and INT0 asleep. -/
theorem witness_RaiseFlagSetsOne :
    { sample with inputs := [.raiseFlag .tmr0] }.inputs = .raiseFlag .tmr0 :: [] ∧ Source.tmr0.canRaise false = true ∧
    Source.int0.canRaise true = true := by decide

/-- Asleep with a peripheral source that PEIE masks. -/
def asleepMasked : State := { sample with sleeping := true, irq := { sample.irq with pir1 := 0x01#8, pie1 := 0x01#8 } }

/-- Asleep with INT0 requesting and GIE 1, MOVLW after SLEEP. -/
def asleepRequested : State :=
  { sampleWith [0x0E5A] with sleeping := true, irq := { sample.irq with intcon := 0x92#8 } }

/-- SleepAndWake and WatchdogTimeout: no source wakes the first of the two. -/
theorem witness_SleepAndWake_stays :
    asleepMasked.sleeping = true ∧ asleepMasked.inputs = [] ∧ ¬ WakingSource asleepMasked :=
  ⟨by decide, by decide, fun ⟨i, h, g⟩ => by revert h g; cases i <;> decide⟩

/-- SleepAndWake and WatchdogTimeout: a source wakes the second; the instruction after SLEEP runs. -/
theorem witness_SleepAndWake_wakes :
    asleepRequested.sleeping = true ∧ asleepRequested.inputs = [] ∧ WakingSource asleepRequested ∧
    (Instr.movlw 0x5A#8).wf = true ∧ InstrAtPc (.movlw 0x5A#8) asleepRequested ∧
    ∃ t, exec (.movlw 0x5A#8) { asleepRequested with inputs := [], sleeping := false, waking := false } = .next t :=
  ⟨by decide, by decide, ⟨.int0, by decide, by decide⟩, by decide, by decide, _, rfl⟩

/-- SleepAndWake, last clause: awake after a time-out, with SLEEP again after SLEEP and a request standing. -/
theorem witness_SleepAndWake_waking :
    let s := { sampleWith [0x0003] with waking := true, irq := { sample.irq with intcon := 0x92#8 } }
    s.sleeping = false ∧ s.waking = true ∧ s.inputs = [] ∧ Instr.sleep.wf = true ∧ InstrAtPc .sleep s ∧
    ∃ t, exec .sleep { s with inputs := [], sleeping := false, waking := false } = .next t :=
  ⟨by decide, by decide, by decide, by decide, by decide, _, rfl⟩

/-- WatchdogTimeout: not running; running awake; asleep the states of SleepAndWake. -/
theorem witness_WatchdogTimeout :
    (Config.wdtEnabled = false ∧ sample.wdt.swdten = false) ∧
    ({ sample with wdt := ⟨0, 0, true⟩ }.wdt.swdten = true ∧ sample.sleeping = false) ∧
    { sample with inputs := [.wdtTimeout] }.inputs = .wdtTimeout :: [] ∧
    { asleepMasked with wdt := ⟨0, 0, true⟩ }.wdt.swdten = true := by decide

/-- EndOfRun: BRA $ and GOTO $. -/
theorem witness_EndOfRun :
    InstrNext (sampleWith [0xD7FF]) ∧ fetchBytes 2 0#21 (sampleWith [0xD7FF]) = [0xFF#8, 0xD7#8] ∧
    InstrNext (sampleWith [0xEF00, 0xF000]) ∧ InstrAtPc (.goto 0#20) (sampleWith [0xEF00, 0xF000]) := by decide

end Sys2Proof.Tests
end

section
/-! The reasoning rules about the data space that the statements on memory need: what a write leaves unchanged in RAM,
the operands that are no indirect address, and where the entries of the map stand. -/

namespace Sys2Proof.Machine

/-! ### Writes and RAM -/

/-- A write to anything but RAM leaves RAM alone (20_memory.md R87). -/
theorem writeEffect_keeps_ram {a : DataAddr} (h : place a ≠ .ram) (v : Byte) (s : State) :
    (writeEffect a v s).ram = s.ram := by
  unfold writeEffect
  split
  case h_1 hp => exact absurd hp h
  case h_2 r _ => exact regWrite_ram r v s
  all_goals rfl

theorem ramByte_writeEffect_of_ne {a b : DataAddr} (h : b ≠ a) (v : Byte) (s : State) :
    ramByte b (writeEffect a v s) = ramByte b s := by
  by_cases hp : place a = .ram
  · rw [writeEffect_ram hp, ramByte_ramWrite, if_neg h]
  · exact ramByte_congr b (writeEffect_keeps_ram hp v s)

/-! ### Operands that are no indirect address -/

theorem place_ram_direct {a : DataAddr} (h : place a = .ram) (n : FsrIx) (m : IndirectMode) :
    place a ≠ .indirect n m := by
  rw [h]
  exact Place.noConfusion

theorem resolve_of_direct {raw : DataAddr} (h : ∀ n m, place raw ≠ .indirect n m) (s : State) :
    resolve raw s = raw := by
  unfold resolve
  split
  case h_6 => rfl
  all_goals exact absurd (by assumption) (h _ _)

theorem preUpdate_of_direct {raw : DataAddr} (h : ∀ n m, place raw ≠ .indirect n m) (s : State) :
    preUpdate raw s = s := by
  unfold preUpdate
  split
  case h_1 hp => exact absurd hp (h _ _)
  case h_2 => rfl

theorem postUpdate_of_direct {raw : DataAddr} (h : ∀ n m, place raw ≠ .indirect n m) (s : State) :
    postUpdate raw s = s := by
  unfold postUpdate
  split
  case h_3 => rfl
  all_goals exact absurd (by assumption) (h _ _)

theorem touchesOwnFsr_of_direct {raw : DataAddr} (h : ∀ n m, place raw ≠ .indirect n m) (addrs : List DataAddr) :
    touchesOwnFsr raw addrs = false := by
  unfold touchesOwnFsr
  split
  case h_1 hp => exact absurd hp (h _ _)
  case h_2 => rfl

/-- Where PC points does not matter to an FSR update. -/
theorem preUpdate_advance (raw : DataAddr) (n : Nat) (s : State) :
    preUpdate raw (advance n s) = advance n (preUpdate raw s) := by
  unfold preUpdate
  split <;> rfl

/-! ### The map -/

/-- What stands at an address depends on its number only, so that a table of numbers can be checked entry by entry. -/
theorem place_of_toNat {x : DataAddr} {n : Nat} (h : x.toNat = n) : place x = place (BitVec.ofNat 12 n) := by
  rw [← h, BitVec.ofNat_toNat, BitVec.setWidth_eq]

/-- A table of addresses whose entries all stand where it says holds of every address. -/
theorem place_of_table {α : Type} {table : List (Nat × α)} {what : α → Place}
    (h : ∀ c ∈ table, place (BitVec.ofNat 12 c.1) = what c.2) (x : DataAddr) :
    ∀ c ∈ table, x.toNat = c.1 → place x = what c.2 :=
  fun c hc hx => (place_of_toNat hx).trans (h c hc)

theorem place_of_mem {numbers : List Nat} {p : Place} (h : ∀ n ∈ numbers, place (BitVec.ofNat 12 n) = p)
    {x : DataAddr} (hx : x.toNat ∈ numbers) : place x = p :=
  (place_of_toNat rfl).trans (h _ hx)

/-- The map begins at F80h (10_state.md R60). -/
theorem sfrMap_from_f80 : ∀ p ∈ sfrMap, 0xF80 ≤ p.1 := by decide

/-- An entry of the map is the first with what stands there, but for the peripheral registers. -/
theorem sfrMap_find : ∀ p ∈ sfrMap, p.2 ≠ .device → sfrMap.find? (fun q => q.2 == p.2) = some p := by decide

/-- Nothing stands between RAM and the map (20_memory.md R81). -/
theorem place_between {x : DataAddr} (hlo : 0x600 ≤ x.toNat) (hhi : x.toNat < 0xF80) : place x = .unimplemented := by
  by_contra hu
  have hram : place x ≠ .ram := fun h => absurd ((place_ram_iff x).1 h) (by omega)
  have hmap : 0xF80 ≤ x.toNat := sfrMap_from_f80 _ (mem_sfrMap_of_place rfl hram hu)
  omega

/-- A register of the core stands at one address: the first of the map that holds it. -/
theorem addr_eq_of_place_reg {x y : DataAddr} {r : CoreReg} (hx : place x = .reg r) (hy : place y = .reg r) :
    x = y := by
  have first {z : DataAddr} (hz : place z = .reg r) :
      sfrMap.find? (fun q => q.2 == .reg r) = some (z.toNat, .reg r) :=
    sfrMap_find _ (mem_sfrMap_of_place hz Place.noConfusion Place.noConfusion) Place.noConfusion
  have hxy : x.toNat = y.toNat := congrArg Prod.fst (Option.some.inj ((first hx).symm.trans (first hy)))
  exact BitVec.eq_of_toNat_eq hxy

/-! ### Raw addresses -/

/-- The bank and the offset make the address: bank · 256 + offset (20_memory.md R82). -/
theorem bank_append_toNat (bank : BitVec 4) (f : Byte) :
    (bank ++ f : BitVec 12).toNat = bank.toNat * 256 + f.toNat := by
  rw [BitVec.toNat_append, ← Nat.shiftLeft_add_eq_or_of_lt f.isLt, Nat.shiftLeft_eq]

theorem rawAddr_banked_toNat (f : Byte) (s : State) : (rawAddr f true s).toNat = s.bsr.toNat * 256 + f.toNat :=
  bank_append_toNat s.bsr f

theorem rawAddr_access_toNat (f : Byte) (s : State) :
    (rawAddr f false s).toNat = if f.toNat < 128 then f.toNat else 0xF00 + f.toNat := by
  by_cases h : f.toNat < 128
  · have hraw : rawAddr f false s = (0x0#4 ++ f : BitVec 12) := if_pos h
    rw [hraw, bank_append_toNat, if_pos h]
    simp
  · have hraw : rawAddr f false s = (0xF#4 ++ f : BitVec 12) := if_neg h
    rw [hraw, bank_append_toNat, if_neg h]
    simp

/-- Settles O36: the raw addresses by the bank they name, the gap and the uniqueness of registers by what the map holds,
and each row of the table by evaluating `place` at its number. -/
theorem dataAddresses : Obligations.DataAddresses := by
  intro f s x y r
  exact ⟨rawAddr_banked_toNat f s, rawAddr_access_toNat f s, place_ram_iff x,
    fun ⟨hlo, hhi⟩ => place_between hlo hhi, addr_eq_of_place_reg,
    place_of_table (what := .reg) (by decide) x,
    place_of_table (what := fun i : FsrIx × IndirectMode => .indirect i.1 i.2) (by decide) x,
    place_of_mem (by decide), fun hx => place_of_toNat hx, place_of_mem (by decide)⟩

end Sys2Proof.Machine
end

section
/-! Reads and writes of RAM, and MOVFF. -/

namespace Sys2Proof.Machine

theorem readValue_of_ramByte {a : DataAddr} {v : Byte} {s : State} (hp : place a = .ram) (hv : ramByte a s = some v) :
    readValue a s = v := by
  simp [readValue, hp, hv]

/-- A written byte of RAM is readable, and reading it changes nothing (20_memory.md R86). -/
theorem dataRead_of_ramByte {a : DataAddr} {v : Byte} {s : State} (hp : place a = .ram) (hv : ramByte a s = some v) :
    dataRead a s = .next (v, s) := by
  refine dataRead_next_iff.2 ⟨⟨by simp [hp], fun _ => by simp [hv]⟩, ?_⟩
  rw [readValue_of_ramByte hp hv, readEffect_of_ram hp]

theorem writable_of_ram {a : DataAddr} (hp : place a = .ram) : Writable a := by simp [Writable, hp]

theorem ramByte_ramWrite_self (a : DataAddr) (v : Byte) (s : State) : ramByte a (ramWrite a v s) = some v := by
  rw [ramByte_ramWrite, if_pos rfl]

/-- Settles O32: the state after the write is `ramWrite a v s`. -/
theorem ramReadAfterWrite : Obligations.RamReadAfterWrite := by
  intro a b v s hp
  have hself := ramByte_ramWrite_self a v s
  refine ⟨ramWrite a v s, dataWrite_next_iff.2 ⟨writable_of_ram hp, (writeEffect_ram hp v s).symm⟩, rfl,
    dataRead_of_ramByte hp hself, hself, fun hb => ?_⟩
  rw [ramByte_ramWrite, if_neg hb]

/-- The four addresses MOVFF must not name (40_byte_oriented.md R172). -/
theorem movffForbids_iff (x : DataAddr) :
    movffForbids x = true ↔ x = 0xFF9#12 ∨ x = 0xFFF#12 ∨ x = 0xFFE#12 ∨ x = 0xFFD#12 := by
  simp [movffForbids, pclAddr, or_assoc]

theorem movffForbids_of_ram {a : DataAddr} (hp : place a = .ram) : movffForbids a = false := by
  have hlt := (place_ram_iff a).1 hp
  rw [Bool.eq_false_iff, ne_eq, movffForbids_iff]
  rintro (rfl | rfl | rfl | rfl) <;> exact absurd hlt (by decide)

theorem execMovff_forbidden {fs fd : DataAddr} (h : movffForbids fs = true ∨ movffForbids fd = true) (s : State) :
    execMovff fs fd s = .refused .movffRestricted := by
  unfold execMovff
  rw [if_pos (by simpa using h)]

/-- Settles O23: the refusal by the first test of MOVFF, the copy by `execMovff_next_iff`. -/
theorem movffCopies : Obligations.MovffCopies := by
  intro fs fd s s1 source target barred
  refine ⟨fun h => execMovff_forbidden (h.imp (movffForbids_iff fs).2 (movffForbids_iff fd).2) s, ?_⟩
  intro hs hd hos hod hr hw
  have allowed {x : DataAddr} (hx : ¬ barred x) : movffForbids x = false :=
    Bool.eq_false_iff.2 fun h => hx ((movffForbids_iff x).1 h)
  exact execMovff_next_iff.2 ⟨⟨allowed hs, allowed hd⟩, ⟨hos, hod⟩, hr, hw, rfl⟩

/-- MOVFF from a written byte of RAM to RAM stores that byte and moves PC past its two words. -/
theorem execMovff_ram {fs fd : DataAddr} {s : State} {v : Byte} (hs : place fs = .ram) (hd : place fd = .ram)
    (hv : ramByte fs s = some v) : execMovff fs fd s = .next (ramWrite fd v (advance 4 s)) := by
  have ds := place_ram_direct hs
  have dd := place_ram_direct hd
  have hread : readValue fs (advance 4 s) = v := readValue_of_ramByte hs hv
  rw [execMovff_next_iff]
  simp only [resolve_of_direct ds, resolve_of_direct dd, preUpdate_of_direct ds, preUpdate_of_direct dd,
    postUpdate_of_direct ds, postUpdate_of_direct dd, touchesOwnFsr_of_direct ds, touchesOwnFsr_of_direct dd,
    readEffect_of_ram hs, writeEffect_ram hd, hread]
  exact ⟨⟨movffForbids_of_ram hs, movffForbids_of_ram hd⟩, ⟨trivial, trivial⟩,
    ⟨by simp [hs], fun _ => by simp [hv]⟩, writable_of_ram hd, trivial⟩

/-- Settles O24: two operands in RAM are their own addresses, so that the copy is one write of RAM. -/
theorem movffRamToRam : Obligations.MovffRamToRam := by
  intro fs fd s v hs hd hv
  refine ⟨_, execMovff_ram hs hd hv, rfl, ramByte_ramWrite_self fd v _, fun a ha => ?_⟩
  rw [ramByte_ramWrite, if_neg ha]
  rfl

end Sys2Proof.Machine
end

section
/-! What an instruction and a step leave unchanged in the two memories. The patterns of Machine/Operands.lean are gone
through once each; every instruction is one of them. -/

namespace Sys2Proof.Machine

/-- Between `s` and `t` no byte of RAM has changed but the one at `target`, and no byte of program memory. -/
structure KeepsMemoryBut (target : Option DataAddr) (s t : State) : Prop where
  ram : ∀ a, target ≠ some a → ramByte a t = ramByte a s
  prog : t.prog = s.prog

variable {s t : State}

theorem keepsMemoryBut_of_eq {target : Option DataAddr} (hram : t.ram = s.ram) (hprog : t.prog = s.prog) :
    KeepsMemoryBut target s t :=
  ⟨fun a _ => ramByte_congr a hram, hprog⟩

/-- An operation that answers a state with both memories as they were. -/
theorem next_keepsMemory {target : Option DataAddr} {u : State} (h : (.next u : Res State) = .next t)
    (hram : u.ram = s.ram) (hprog : u.prog = s.prog) : KeepsMemoryBut target s t := by
  cases h
  exact keepsMemoryBut_of_eq hram hprog

theorem KeepsMemoryBut.trans {target : Option DataAddr} {u : State} (hsu : KeepsMemoryBut target s u)
    (hut : KeepsMemoryBut target u t) : KeepsMemoryBut target s t :=
  ⟨fun a ha => (hut.ram a ha).trans (hsu.ram a ha), hut.prog.trans hsu.prog⟩

/-- Two operations one after the other change what either may change. -/
theorem andThen_keepsMemory {target : Option DataAddr} {r : Res State} {k : State → Res State}
    (h : andThen r k = .next t) (hr : ∀ u, r = .next u → KeepsMemoryBut target s u)
    (hk : ∀ u, k u = .next t → KeepsMemoryBut target u t) : KeepsMemoryBut target s t := by
  obtain ⟨u, hu, hut⟩ := andThen_next_iff.1 h
  exact (hr u hu).trans (hk u hut)

/-! ### The instructions with a file operand -/

/-- The data address that `dest(d, addr, v)` stores to (40_byte_oriented.md R162). -/
theorem ramByte_destEffect {d : Bool} {a b : DataAddr} (h : (if d then some a else none) ≠ some b) (v : Byte)
    (s : State) : ramByte b (destEffect d a v s) = ramByte b s := by
  cases d with
  | false => exact ramByte_congr b rfl
  | true => exact ramByte_writeEffect_of_ne (fun e => h (congrArg some e.symm)) v s

theorem byteNext_keepsMemory (f : Byte) (d a : Bool) (r : Byte) (u : FlagUpdate) (s : State) :
    KeepsMemoryBut (if d then some (effAddr f a s) else none) s (byteNext f d a r u s) where
  ram b hb := by
    unfold byteNext
    rw [ramByte_congr b (postUpdate_ram _ _), ramByte_congr b (setFlags_ram _ _), ramByte_destEffect hb,
      ramByte_congr b (afterRead_ram f a s)]
  prog := byteNext_prog f d a r u s

theorem byteOp_keepsMemory {op : ByteFn} {f : Byte} {d a : Bool} (h : byteOp op f d a s = .next t) :
    KeepsMemoryBut (if d then some (effAddr f a s) else none) s t := by
  obtain ⟨_, _, rfl⟩ := byteOp_next_iff.1 h
  exact byteNext_keepsMemory ..

theorem constOp_keepsMemory {v : Byte} {u : FlagUpdate} {f : Byte} {a : Bool} (h : constOp v u f a s = .next t) :
    KeepsMemoryBut (some (effAddr f a s)) s t := by
  obtain ⟨_, _, rfl⟩ := constOp_next_iff.1 h
  exact byteNext_keepsMemory f true a _ _ s

theorem bitOp_keepsMemory {op : Byte → Byte → Byte} {f : Byte} {b : BitVec 3} {a : Bool}
    (h : bitOp op f b a s = .next t) : KeepsMemoryBut (some (effAddr f a s)) s t := by
  obtain ⟨_, _, rfl⟩ := bitOp_next_iff.1 h
  exact byteNext_keepsMemory f true a _ _ s

@[simp] theorem afterSkip_ram (n : Nat) (s t : State) : (afterSkip n s t).ram = t.ram := rfl
@[simp] theorem afterSkip_prog (n : Nat) (s t : State) : (afterSkip n s t).prog = t.prog := rfl

/-- A taken skip moves PC only (41_byte_skip.md R201). -/
theorem countSkip_keepsMemory {delta : Byte} {cond : Byte → Bool} {f : Byte} {d a : Bool}
    (h : countSkip delta cond f d a s = .next t) : KeepsMemoryBut (if d then some (effAddr f a s) else none) s t := by
  obtain ⟨_, _, ⟨_, rfl⟩ | ⟨_, n, _, rfl⟩⟩ := countSkip_next_iff.1 h
  · exact byteNext_keepsMemory ..
  · exact (byteNext_keepsMemory f d a _ noFlags s).trans
      (keepsMemoryBut_of_eq (afterSkip_ram n s _) (afterSkip_prog n s _))

theorem testSkip_keepsMemory {cond : Byte → Byte → Bool} {f : Byte} {a : Bool} {target : Option DataAddr}
    (h : testSkip cond f a s = .next t) : KeepsMemoryBut target s t := by
  obtain ⟨_, ⟨_, n, _, rfl⟩ | ⟨_, rfl⟩⟩ := testSkip_next_iff.1 h
  all_goals exact keepsMemoryBut_of_eq (readNext_ram f a s) (readNext_prog f a s)

theorem execMovwf_keepsMemory {f : Byte} {a : Bool} (h : execMovwf f a s = .next t) :
    KeepsMemoryBut (some (effAddr f a s)) s t := by
  obtain ⟨_, _, rfl⟩ := execMovwf_next_iff.1 h
  refine ⟨fun b hb => ?_, by simp [storeNext]⟩
  unfold storeNext
  rw [ramByte_congr b (postUpdate_ram _ _), ramByte_writeEffect_of_ne fun e => hb (congrArg some e.symm)]
  exact ramByte_congr b (accessState_ram ..)

theorem execMulwf_keepsMemory {f : Byte} {a : Bool} {target : Option DataAddr} (h : execMulwf f a s = .next t) :
    KeepsMemoryBut target s t := by
  obtain ⟨_, rfl⟩ := execMulwf_next_iff.1 h
  exact keepsMemoryBut_of_eq (by simp) (by simp)

theorem execMovff_keepsMemory {fs fd : DataAddr} (h : execMovff fs fd s = .next t) :
    KeepsMemoryBut (some (resolve fd (preUpdate fs s))) s t := by
  obtain ⟨_, _, _, _, rfl⟩ := execMovff_next_iff.1 h
  rw [← resolve_advance fd 4 (preUpdate fs s), ← preUpdate_advance]
  refine ⟨fun b hb => ?_, by simp⟩
  rw [ramByte_congr b (postUpdate_ram _ _), ramByte_congr b (postUpdate_ram _ _),
    ramByte_writeEffect_of_ne fun e => hb (congrArg some e.symm)]
  exact ramByte_congr b (by simp)

/-! ### The other instructions store to no data address -/

/-- The return stack is no data memory (10_state.md R36). The state `u` of the push has PC moved. -/
theorem push_keepsMemory {v : ProgAddr} {target : Option DataAddr} {u : State} (h : push v u = .next t)
    (hram : u.ram = s.ram) (hprog : u.prog = s.prog) : KeepsMemoryBut target s t := by
  obtain ⟨_, rfl⟩ := push_next_iff.1 h
  exact keepsMemoryBut_of_eq (by simpa using hram) (by simpa using hprog)

theorem returnFromCall_keepsMemory {target : Option DataAddr} {u : State} (h : returnFromCall u = .next t)
    (hram : u.ram = s.ram) (hprog : u.prog = s.prog) : KeepsMemoryBut target s t := by
  obtain ⟨_, rfl⟩ := returnFromCall_next_iff.1 h
  exact keepsMemoryBut_of_eq hram hprog

theorem execRcall_keepsMemory {n : BitVec 11} {target : Option DataAddr} (h : execRcall n s = .next t) :
    KeepsMemoryBut target s t :=
  andThen_keepsMemory h (fun _ hpush => push_keepsMemory hpush rfl rfl) fun _ hjump => next_keepsMemory hjump rfl rfl

theorem execCall_keepsMemory {k : BitVec 20} {fast : Bool} {target : Option DataAddr}
    (h : execCall k fast s = .next t) : KeepsMemoryBut target s t :=
  andThen_keepsMemory h (fun _ hpush => push_keepsMemory hpush rfl rfl) fun _ hjump =>
    next_keepsMemory hjump (by cases fast <;> rfl) (by cases fast <;> rfl)

theorem execReturn_keepsMemory {fast : Bool} {target : Option DataAddr} (h : execReturn fast s = .next t) :
    KeepsMemoryBut target s t :=
  andThen_keepsMemory h (fun _ hpop => returnFromCall_keepsMemory hpop rfl rfl) fun _ hrestore =>
    next_keepsMemory hrestore (by cases fast <;> rfl) (by cases fast <;> rfl)

theorem execRetfie_keepsMemory {fast : Bool} {target : Option DataAddr} (h : execRetfie fast s = .next t) :
    KeepsMemoryBut target s t :=
  andThen_keepsMemory h (fun _ hpop => returnFromCall_keepsMemory hpop rfl rfl) fun _ hrestore =>
    next_keepsMemory hrestore (by cases fast <;> rfl) (by cases fast <;> rfl)

theorem execPop_keepsMemory {target : Option DataAddr} (h : execPop s = .next t) : KeepsMemoryBut target s t := by
  obtain ⟨p, hpop, ht⟩ := andThen_next_iff.1 h
  obtain ⟨_, rfl⟩ := pop_next_iff.1 hpop
  exact next_keepsMemory ht rfl rfl

theorem branchIf_keepsMemory {cond : Bool} {n : BitVec 8} {target : Option DataAddr}
    (h : branchIf cond n s = .next t) : KeepsMemoryBut target s t :=
  next_keepsMemory h (by cases cond <;> rfl) (by cases cond <;> rfl)

theorem execLfsr_keepsMemory {ff : BitVec 2} {k : BitVec 12} {target : Option DataAddr}
    (h : execLfsr ff k s = .next t) : KeepsMemoryBut target s t := by
  unfold execLfsr at h
  split at h
  · exact next_keepsMemory h rfl rfl
  · cases h

theorem tableRead_keepsMemory {m : TableMode} {target : Option DataAddr} (h : tableRead m s = .next t) :
    KeepsMemoryBut target s t := by
  obtain ⟨_, _, _, rfl⟩ := tableRead_next_iff.1 h
  exact keepsMemoryBut_of_eq (by simp) (by simp)

/-- A table write goes to a holding latch, not to program memory (46_table.md R306, decision D20). -/
theorem tableWrite_keepsMemory {m : TableMode} {target : Option DataAddr} (h : tableWrite m s = .next t) :
    KeepsMemoryBut target s t := by
  obtain ⟨_, rfl⟩ := tableWrite_next_iff.1 h
  exact keepsMemoryBut_of_eq (by simp) (by simp)

/-! ### Every instruction -/

/-- Every instruction changes at most the byte of RAM at its `writeTarget`: each is one of the patterns above. -/
theorem exec_keepsMemory {i : Instr} (h : exec i s = .next t) : KeepsMemoryBut (writeTarget i s) s t := by
  cases i <;> dsimp only [exec] at h
  case addwf | addwfc | andwf | comf | decf | incf | iorwf | movf | rlcf | rlncf | rrcf | rrncf | subfwb | subwf
      | subwfb | swapf | xorwf | negf => exact byteOp_keepsMemory h
  case clrf | setf => exact constOp_keepsMemory h
  case bcf | bsf | btg => exact bitOp_keepsMemory h
  case decfsz | dcfsnz | incfsz | infsnz => exact countSkip_keepsMemory h
  case cpfseq | cpfsgt | cpfslt | tstfsz | btfsc | btfss => exact testSkip_keepsMemory h
  case movwf => exact execMovwf_keepsMemory h
  case mulwf => exact execMulwf_keepsMemory h
  case movff => exact execMovff_keepsMemory h
  case bc | bn | bnc | bnn | bnov | bnz | bov | bz => exact branchIf_keepsMemory h
  case rcall => exact execRcall_keepsMemory h
  case call => exact execCall_keepsMemory h
  case ret => exact execReturn_keepsMemory h
  case retlw => exact returnFromCall_keepsMemory h rfl rfl
  case retfie => exact execRetfie_keepsMemory h
  case push => exact push_keepsMemory h rfl rfl
  case pop => exact execPop_keepsMemory h
  case lfsr => exact execLfsr_keepsMemory h
  case tblrd | tblrdPostInc | tblrdPostDec | tblrdPreInc => exact tableRead_keepsMemory h
  case tblwt | tblwtPostInc | tblwtPostDec | tblwtPreInc => exact tableWrite_keepsMemory h
  case addlw | andlw | iorlw | movlw | sublw | xorlw | mullw | movlb | bra | goto | nop | nopx | daw | reset =>
    exact next_keepsMemory h rfl rfl
  case clrwdt | sleep => exact next_keepsMemory h (by simp) (by simp)

/-- Settles O13: `exec_keepsMemory`, read byte by byte. -/
theorem memoryFrame : Obligations.MemoryFrame := by
  intro i s t h
  have hmem := exec_keepsMemory h
  exact ⟨hmem.ram, fun a => progRead_congr a hmem.prog⟩

/-! ### Every step -/

theorem resetStep_prog (cause : ResetCause) (s : State) : (resetStep cause s).prog = s.prog := by
  cases cause <;> rfl

theorem raiseFlag_prog (src : Source) (s : State) : (raiseFlag src s).prog = s.prog := by
  unfold raiseFlag
  rw [wakeUp_prog]
  split <;> rfl

theorem wdtClock_prog (counter scaler : Nat) (s : State) : (wdtClock counter scaler s).prog = s.prog := by
  unfold wdtClock
  split <;> rfl

theorem wdtTimeout_prog (s : State) : (wdtTimeout s).prog = s.prog := by
  unfold wdtTimeout
  split
  · rfl
  · split <;> rfl

theorem runInstr_prog (h : runInstr s = .next t) : t.prog = s.prog := by
  obtain ⟨i, _, hexec⟩ := runInstr_next_iff.1 h
  exact (exec_keepsMemory hexec).prog

theorem core1_prog (h : core1 s = .next t) : t.prog = s.prog := by
  obtain ⟨_, rfl⟩ | ⟨_, _, hafter⟩ | ⟨_, _, hrun⟩ := core1_next_iff.1 h
  · rfl
  · obtain ⟨u, hu, rfl⟩ := afterSleep_next_iff.1 hafter
    rw [stayAwakeForEntry_prog, runInstr_prog hu, State.setWaking_prog]
  · exact runInstr_prog hrun

theorem interruptEntry_prog {level : Level} (h : interruptEntry level s = .next t) : t.prog = s.prog := by
  obtain ⟨_, rfl⟩ := interruptEntry_next_iff.1 h
  simp

theorem boundary_prog (h : boundary s = .next t) : t.prog = s.prog := by
  obtain ⟨_, _, hentry⟩ | ⟨_, hcore⟩ := boundary_next_iff.1 h
  · exact interruptEntry_prog hentry
  · exact core1_prog hcore

theorem event_prog {e : Input} (h : event e s = .next t) : t.prog = s.prog := by
  cases e
  case delayInterrupt => exact core1_prog h
  case proceed => exact boundary_prog h
  all_goals cases h
  case raiseFlag src => exact raiseFlag_prog src s
  case usartBuffers => exact wakeUp_prog _
  case wdtClock counter scaler => exact wdtClock_prog counter scaler s
  case wdtTimeout => exact wdtTimeout_prog s
  all_goals exact resetStep_prog _ s

theorem step_prog (h : step s = .next t) : t.prog = s.prog := by
  cases hin : s.inputs with
  | nil =>
    rw [step_of_no_input hin] at h
    exact (boundary_prog h).trans (wakeUp_prog s)
  | cons e rest =>
    rw [step_of_input hin] at h
    exact (event_prog h).trans (wakeUp_prog _)

/-- Settles O11: no step touches the field that holds program memory. -/
theorem programMemoryFixed : Obligations.ProgramMemoryFixed :=
  fun _ _ h a => progRead_congr a (step_prog h)

end Sys2Proof.Machine
end

section
/-! The encoding table as a partition of the first words: each row is a range of words, no two rows meet, and a walk from
row to row covers what lies between the words of no row. -/

namespace Sys2Proof

/-- How many first words belong to a row. -/
def Row.size (r : Row) : Nat := 2 ^ 16 - r.mask.toNat

/-- Every row fixes the high bits of its first words, the opcode, and leaves the `k` low bits to the operands. -/
theorem rows_fix_high_bits : ∀ r ∈ rows, ∃ k < 13, r.mask = BitVec.allOnes 16 <<< k ∧ 2 ^ k ∣ r.pattern.toNat := by
  decide

theorem and_allOnes_shiftLeft {n : Nat} (w : BitVec n) (k : Nat) : w &&& BitVec.allOnes n <<< k = (w >>> k) <<< k := by
  ext i hi
  by_cases h : i < k
  · simp [h]
  · simp [h, show k + (i - k) = i by omega, BitVec.getLsbD_eq_getElem hi]

theorem toNat_and_high (w : Word) (k : Nat) :
    (w &&& BitVec.allOnes 16 <<< k).toNat = w.toNat / 2 ^ k * 2 ^ k := by
  have hle := Nat.div_mul_le_self w.toNat (2 ^ k)
  have hlt := w.isLt
  rw [and_allOnes_shiftLeft, BitVec.toNat_shiftLeft, BitVec.toNat_ushiftRight, Nat.shiftLeft_eq,
    Nat.shiftRight_eq_div_pow, Nat.mod_eq_of_lt (by omega)]

/-- The first words of a row are the range of `size` words from its pattern on. -/
theorem Row.hits_iff_range {r : Row} (hr : r ∈ rows) (w : Word) :
    r.hits w = true ↔ r.pattern.toNat ≤ w.toNat ∧ w.toNat < r.pattern.toNat + r.size := by
  obtain ⟨k, hk, hmask, q, hq⟩ := rows_fix_high_bits r hr
  have hsize : r.size = 2 ^ k := by
    unfold Row.size
    rw [hmask]
    interval_cases k <;> rfl
  have hpos := Nat.two_pow_pos k
  rw [Row.hits, beq_iff_eq, ← BitVec.toNat_inj, hmask, toNat_and_high, hsize, hq, mul_comm (2 ^ k),
    Nat.mul_right_cancel_iff hpos, Nat.div_eq_iff hpos]
  omega

/-- The rows are disjoint (30_encoding.md R124). -/
theorem rows_disjoint : rows.Pairwise fun r r' =>
    r.pattern.toNat + r.size ≤ r'.pattern.toNat ∨ r'.pattern.toNat + r'.size ≤ r.pattern.toNat := by
  decide

/-- What `find?` answers where at most one element can be meant. -/
theorem find?_eq_some_of_pairwise {α : Type} {p : α → Bool} {l : List α}
    (hl : l.Pairwise fun x y => ¬ (p x = true ∧ p y = true)) {a : α} (ha : a ∈ l) (hp : p a = true) :
    l.find? p = some a := by
  induction hl with
  | nil => cases ha
  | cons hx _ ih =>
    obtain rfl | ha := List.mem_cons.1 ha
    · rw [List.find?_cons_of_pos hp]
    · rw [List.find?_cons_of_neg fun h => hx a ha ⟨h, hp⟩, ih ha]

/-- The row of a first word is the one that the word hits, whichever place of the table it has. -/
theorem rowOf_eq_some_iff {r : Row} {w : Word} : rowOf w = some r ↔ r ∈ rows ∧ r.hits w = true := by
  refine ⟨fun h => ⟨List.mem_of_find?_eq_some h, List.find?_some (p := fun x : Row => x.hits w) h⟩, fun ⟨hr, hw⟩ => ?_⟩
  refine find?_eq_some_of_pairwise (rows_disjoint.imp_of_mem fun {r r'} hr hr' hsep ⟨h, h'⟩ => ?_) hr hw
  rw [Row.hits_iff_range hr] at h
  rw [Row.hits_iff_range hr'] at h'
  omega

/-- Where a walk from row to row through the table gets from the word numbered `a`, in at most `fuel` rows. -/
def endOfRun : Nat → Nat → Nat
  | 0, a => a
  | fuel + 1, a =>
    match rows.find? (fun r => r.pattern.toNat == a) with
    | none => a
    | some r => endOfRun fuel (a + r.size)

/-- Every word that the walk passes belongs to a row. -/
theorem rowOf_ne_none_of_run {w : Word} (fuel : Nat) {a : Nat} (ha : a ≤ w.toNat) (hw : w.toNat < endOfRun fuel a) :
    rowOf w ≠ none := by
  induction fuel generalizing a with
  | zero => exact absurd hw (Nat.not_lt.2 ha)
  | succ fuel ih =>
    unfold endOfRun at hw
    split at hw
    next => exact absurd hw (Nat.not_lt.2 ha)
    next r hr =>
      have hmem := List.mem_of_find?_eq_some hr
      have hstart : r.pattern.toNat = a := by simpa using List.find?_some hr
      by_cases hin : w.toNat < a + r.size
      · rw [rowOf_eq_some_iff.2 ⟨hmem, (Row.hits_iff_range hmem w).2 (by omega)⟩]
        exact Option.some_ne_none r
      · exact ih (Nat.le_of_not_lt hin) hw

/-- The first words of no row: the five ranges of 30_encoding.md R134. -/
def unassignedRanges : List (Nat × Nat) :=
  [(0x0001, 0x0002), (0x0014, 0x00FE), (0x0110, 0x01FF), (0xE800, 0xEBFF), (0xEE40, 0xEEFF)]

/-- No row reaches into one of the ranges. -/
theorem rows_avoid_unassignedRanges : ∀ r ∈ rows, ∀ u ∈ unassignedRanges,
    r.pattern.toNat + r.size ≤ u.1 ∨ u.2 < r.pattern.toNat := by
  decide

theorem rowOf_eq_none_of_unassigned {w : Word} {u : Nat × Nat} (hu : u ∈ unassignedRanges)
    (hw : u.1 ≤ w.toNat ∧ w.toNat ≤ u.2) : rowOf w = none := by
  rw [Option.eq_none_iff_forall_ne_some]
  intro r hrow
  obtain ⟨hr, hhit⟩ := rowOf_eq_some_iff.1 hrow
  rw [Row.hits_iff_range hr] at hhit
  have := rows_avoid_unassignedRanges r hr u hu
  omega

/-- The words of no row are those of the five ranges: the walks from 0000h and from the word after each range get to the
next one. -/
theorem rowOf_eq_none_iff (w : Word) : rowOf w = none ↔ ∃ u ∈ unassignedRanges, u.1 ≤ w.toNat ∧ w.toNat ≤ u.2 := by
  refine ⟨fun hnone => ?_, fun ⟨u, hu, hw⟩ => rowOf_eq_none_of_unassigned hu hw⟩
  have outside {a : Nat} (b : Nat) (hrun : endOfRun rows.length a = b) : ¬ (a ≤ w.toNat ∧ w.toNat < b) := by
    subst hrun
    exact fun ⟨ha, hw⟩ => rowOf_ne_none_of_run rows.length ha hw hnone
  have h0 := outside (a := 0x0000) 0x0001 (by decide)
  have h1 := outside (a := 0x0003) 0x0014 (by decide)
  have h2 := outside (a := 0x00FF) 0x0110 (by decide)
  have h3 := outside (a := 0x0200) 0xE800 (by decide)
  have h4 := outside (a := 0xEC00) 0xEE40 (by decide)
  have h5 := outside (a := 0xEF00) 0x10000 (by decide)
  have hlt := w.isLt
  simp only [unassignedRanges, List.mem_cons, List.not_mem_nil, or_false, exists_eq_or_imp, exists_eq_left]
  omega

/-- The name that a word of no row is rejected under, by its range (decisions D2, D3). -/
theorem rejectFirst_eq (w : Word) (h : rowOf w = none) :
    rejectFirst w = if 0x0110 ≤ w.toNat ∧ w.toNat ≤ 0x01FF then .reservedForm else .unassigned := by
  have hhigh : (w &&& 0xFF00#16 == 0x0100#16) = true ↔ w.toNat / 256 = 1 := by
    rw [beq_iff_eq, ← BitVec.toNat_inj, show 0xFF00#16 = BitVec.allOnes 16 <<< 8 from rfl, toNat_and_high]
    show w.toNat / 256 * 256 = 256 ↔ _
    omega
  rw [rowOf_eq_none_iff] at h
  simp only [unassignedRanges, List.mem_cons, List.not_mem_nil, or_false, exists_eq_or_imp, exists_eq_left] at h
  unfold rejectFirst
  refine if_congr (hhigh.trans ?_) rfl rfl
  omega

/-- Settles O4: the ranges by `rowOf_eq_none_iff`, the names by `rejectFirst_eq`. -/
theorem unassignedWords : Obligations.UnassignedWords := by
  refine fun w w2 => ⟨?_, fun h => ?_⟩
  · rw [rowOf_eq_none_iff]
    simp [unassignedRanges]
  · rw [decodeWords, h, ← rejectFirst_eq w h]

end Sys2Proof
end

section
/-! Decoding as a relation: which words a row of the encoding table reads as which instruction. -/

namespace Sys2Proof

/-- A row reads words as an instruction: the first word hits the row, and its build makes the instruction of them. -/
inductive Row.Reads : Row → List Word → Instr → Prop
  | one {mask pattern : Word} {k : Word → Instr} {w : Word} (hits : w &&& mask = pattern) :
      Reads ⟨mask, pattern, .one k⟩ [w] (k w)
  | two {mask pattern : Word} {k : Word → Word → Except Undecodable Instr} {w w2 : Word} {i : Instr}
      (hits : w &&& mask = pattern) (ok : k w w2 = .ok i) : Reads ⟨mask, pattern, .two k⟩ [w, w2] i

/-- Whether a row reads two words. -/
def Build.isTwo : Build → Bool
  | .one _ => false
  | .two _ => true

/-- The four tests of `isTwoWord` are those of the rows that read two words (30_encoding.md R128). -/
theorem isTwoWord_eq_any (w : Word) : isTwoWord w = rows.any fun r => r.build.isTwo && r.hits w := by
  have hrows : rows.filter (fun r => r.build.isTwo) =
      [⟨0xF000#16, 0xC000#16, .two decodeMovff⟩, ⟨0xFE00#16, 0xEC00#16, .two decodeCall⟩,
       ⟨0xFF00#16, 0xEF00#16, .two decodeGoto⟩, ⟨0xFFC0#16, 0xEE00#16, .two decodeLfsr⟩] := rfl
  rw [← List.any_filter, hrows]
  simp [isTwoWord, Row.hits, Bool.or_assoc]

theorem isTwoWord_of_rowOf {w : Word} {r : Row} (h : rowOf w = some r) : isTwoWord w = r.build.isTwo := by
  rw [isTwoWord_eq_any, Bool.eq_iff_iff, List.any_eq_true]
  constructor
  · rintro ⟨r', hr', htwo⟩
    rw [Bool.and_eq_true] at htwo
    obtain rfl : r = r' := Option.some.inj (h.symm.trans (rowOf_eq_some_iff.2 ⟨hr', htwo.2⟩))
    exact htwo.1
  · intro htwo
    obtain ⟨hr, hw⟩ := rowOf_eq_some_iff.1 h
    exact ⟨r, hr, by rw [htwo, hw, Bool.and_true]⟩

/-- What is made of a first word and the word after it, a row has read: from both, or from the first alone. -/
theorem exists_reads_of_decodeWords {w w2 : Word} {i : Instr} (h : decodeWords w w2 = .ok i) :
    ∃ r ∈ rows, r.Reads (if isTwoWord w then [w, w2] else [w]) i := by
  unfold decodeWords at h
  split at h
  · cases h
  next r hrow =>
    obtain ⟨hr, hhit⟩ := rowOf_eq_some_iff.1 hrow
    refine ⟨r, hr, ?_⟩
    rw [isTwoWord_of_rowOf hrow]
    obtain ⟨mask, pattern, k | k⟩ := r
    · cases h
      exact .one (beq_iff_eq.1 hhit)
    · exact .two (beq_iff_eq.1 hhit) h

/-- The two bytes of a word, made of them. -/
@[simp] theorem bytesOfWord_wordOf (low high : Byte) : bytesOfWord (wordOf low high) = [low, high] := by
  simp only [bytesOfWord, wordOf, List.cons.injEq, and_true]
  exact ⟨BitVec.extractLsb'_append_eq_right, BitVec.extractLsb'_append_eq_left⟩

/-- Whatever decodes, a row has read from its front. -/
theorem exists_reads_of_decode {bytes rest : List Byte} {i : Instr} (h : decode bytes = .ok (i, rest)) :
    ∃ r ∈ rows, ∃ ws, r.Reads ws i ∧ bytes = ws.flatMap bytesOfWord ++ rest := by
  have read {w w2 : Word} {tail : List Byte}
      (hdec : ((decodeWords w w2).map fun j => (j, tail)) = .ok (i, rest)) :
      tail = rest ∧ ∃ r ∈ rows, r.Reads (if isTwoWord w then [w, w2] else [w]) i := by
    cases hwords : decodeWords w w2 with
    | error e => rw [hwords] at hdec; cases hdec
    | ok j =>
      rw [hwords] at hdec
      cases hdec
      exact ⟨rfl, exists_reads_of_decodeWords hwords⟩
  unfold decode at h
  split at h
  next b0 b1 tail =>
    split at h
    next htwo =>
      split at h
      next b2 b3 tail' =>
        obtain ⟨rfl, r, hr, hreads⟩ := read h
        rw [if_pos htwo] at hreads
        exact ⟨r, hr, _, hreads, by simp⟩
      next => cases h
    next hone =>
      obtain ⟨rfl, r, hr, hreads⟩ := read h
      rw [if_neg hone] at hreads
      exact ⟨r, hr, _, hreads, by simp⟩
  next => cases h

/-- What a row reads, decodes, whatever follows it. -/
theorem decode_of_reads {r : Row} (hr : r ∈ rows) {ws : List Word} {i : Instr} (h : r.Reads ws i) (rest : List Byte) :
    decode (ws.flatMap bytesOfWord ++ rest) = .ok (i, rest) := by
  cases h with
  | @one _ _ _ w hits =>
    have hrow := rowOf_eq_some_iff.2 ⟨hr, beq_iff_eq.2 hits⟩
    rw [List.flatMap_singleton, decode_one w rest (isTwoWord_of_rowOf hrow), decodeWords, hrow]
    rfl
  | @two _ _ _ w w2 _ hits ok =>
    have hrow := rowOf_eq_some_iff.2 ⟨hr, beq_iff_eq.2 hits⟩
    rw [List.flatMap_cons, List.flatMap_singleton, decode_two w w2 rest (isTwoWord_of_rowOf hrow), decodeWords, hrow]
    simp only [ok]
    rfl

end Sys2Proof
end

section
/-! The instruction formats of 30_encoding.md R121: the fields of a word that fields have made, and the word that the
fields of a word make. -/

namespace Sys2Proof

/-! ### Opcodes -/

/-- The test of a row whose opcode is `op` compares the high bits of the word with `op` (30_encoding.md R124). -/
theorem and_opcode_iff {n k : Nat} (w : BitVec (n + k)) (op : BitVec n) :
    w &&& (BitVec.allOnes n ++ 0#k) = op ++ 0#k ↔ w.extractLsb' k n = op := by
  have hw : w &&& (BitVec.allOnes n ++ 0#k) = w.extractLsb' k n ++ 0#k := by
    conv_lhs =>
      rw [← BitVec.extractLsb'_append_extractLsb' (x := w), BitVec.and_append, BitVec.and_allOnes, BitVec.and_zero]
  rw [hw, BitVec.append_left_inj]

/-- A word that hits a row has the row's bits wherever the mask is all ones. -/
theorem extractLsb'_of_hits {k n : Nat} {w mask pattern : Word} (hits : w &&& mask = pattern)
    (hmask : mask.extractLsb' k n = BitVec.allOnes n) : w.extractLsb' k n = pattern.extractLsb' k n := by
  rw [← hits, BitVec.extractLsb'_and, hmask, BitVec.and_allOnes]

theorem ofBool_bitAt (i : Nat) (w : Word) : BitVec.ofBool (bitAt i w) = w.extractLsb' i 1 := by
  ext j hj
  simp [bitAt, show j = 0 by omega]

/-! ### Format BYTE_FDA -/

section
variable (op : BitVec 6) (f : Byte) (d a : Bool)

theorem opcode_fda : (op ++ BitVec.ofBool d ++ BitVec.ofBool a ++ f : Word).extractLsb' 10 6 = op := by
  rw [BitVec.extractLsb'_append_eq_of_le (by decide), BitVec.extractLsb'_append_eq_of_le (by decide)]
  exact BitVec.extractLsb'_append_eq_left

theorem fieldF_fda : fieldF (op ++ BitVec.ofBool d ++ BitVec.ofBool a ++ f) = f :=
  BitVec.extractLsb'_append_eq_right

theorem bitAt_nine_fda : bitAt 9 (op ++ BitVec.ofBool d ++ BitVec.ofBool a ++ f) = d := by
  rw [bitAt, BitVec.getLsbD_append, BitVec.getLsbD_append, BitVec.getLsbD_append]
  simp

theorem bitAt_eight_fda : bitAt 8 (op ++ BitVec.ofBool d ++ BitVec.ofBool a ++ f) = a := by
  rw [bitAt, BitVec.getLsbD_append, BitVec.getLsbD_append]
  simp

end

theorem encodeFda_fields (w : Word) : encodeFda (w.extractLsb' 10 6) (fieldF w) (bitAt 9 w) (bitAt 8 w) = [w] := by
  rw [encodeFda, ofBool_bitAt, ofBool_bitAt, fieldF, BitVec.extractLsb'_append_extractLsb'_eq_extractLsb' (by rfl),
    BitVec.extractLsb'_append_extractLsb'_eq_extractLsb' (by rfl),
    BitVec.extractLsb'_append_extractLsb'_eq_extractLsb' (by rfl)]
  exact congrArg ([·]) BitVec.extractLsb'_eq_self

/-! ### Format BYTE_FA, which the first word of CALL has too -/

section
variable (op : BitVec 7) (f : Byte) (a : Bool)

theorem opcode_fa : (op ++ BitVec.ofBool a ++ f : Word).extractLsb' 9 7 = op := by
  rw [BitVec.extractLsb'_append_eq_of_le (by decide)]
  exact BitVec.extractLsb'_append_eq_left

theorem fieldF_fa : fieldF (op ++ BitVec.ofBool a ++ f) = f :=
  BitVec.extractLsb'_append_eq_right

theorem bitAt_eight_fa : bitAt 8 (op ++ BitVec.ofBool a ++ f) = a := by
  rw [bitAt, BitVec.getLsbD_append, BitVec.getLsbD_append]
  simp

end

theorem encodeFa_fields (w : Word) : encodeFa (w.extractLsb' 9 7) (fieldF w) (bitAt 8 w) = [w] := by
  rw [encodeFa, ofBool_bitAt, fieldF, BitVec.extractLsb'_append_extractLsb'_eq_extractLsb' (by rfl),
    BitVec.extractLsb'_append_extractLsb'_eq_extractLsb' (by rfl)]
  exact congrArg ([·]) BitVec.extractLsb'_eq_self

/-! ### Format BIT -/

section
variable (op : BitVec 4) (f : Byte) (b : BitVec 3) (a : Bool)

theorem opcode_bit : (op ++ b ++ BitVec.ofBool a ++ f : Word).extractLsb' 12 4 = op := by
  rw [BitVec.extractLsb'_append_eq_of_le (by decide), BitVec.extractLsb'_append_eq_of_le (by decide)]
  exact BitVec.extractLsb'_append_eq_left

theorem fieldF_bit : fieldF (op ++ b ++ BitVec.ofBool a ++ f) = f :=
  BitVec.extractLsb'_append_eq_right

theorem fieldB_bit : fieldB (op ++ b ++ BitVec.ofBool a ++ f) = b := by
  rw [fieldB, BitVec.extractLsb'_append_eq_of_le (by decide), BitVec.extractLsb'_append_eq_of_le (by decide)]
  exact BitVec.extractLsb'_append_eq_right

theorem bitAt_eight_bit : bitAt 8 (op ++ b ++ BitVec.ofBool a ++ f) = a := by
  rw [bitAt, BitVec.getLsbD_append, BitVec.getLsbD_append]
  simp

end

theorem encodeBit_fields (w : Word) : encodeBit (w.extractLsb' 12 4) (fieldF w) (fieldB w) (bitAt 8 w) = [w] := by
  rw [encodeBit, ofBool_bitAt, fieldF, fieldB, BitVec.extractLsb'_append_extractLsb'_eq_extractLsb' (by rfl),
    BitVec.extractLsb'_append_extractLsb'_eq_extractLsb' (by rfl),
    BitVec.extractLsb'_append_extractLsb'_eq_extractLsb' (by rfl)]
  exact congrArg ([·]) BitVec.extractLsb'_eq_self

/-! ### Format RET_S -/

theorem bitAt_zero_s (op : BitVec 15) (s : Bool) : bitAt 0 (op ++ BitVec.ofBool s) = s := by
  rw [bitAt, BitVec.getLsbD_append]
  simp

theorem encodeS_fields (w : Word) : encodeS (w.extractLsb' 1 15) (bitAt 0 w) = [w] := by
  rw [encodeS, ofBool_bitAt]
  exact congrArg ([·]) BitVec.extractLsb'_append_extractLsb'

/-! ### The first word of LFSR -/

section
variable (op : BitVec 10) (ff : BitVec 2) (k : BitVec 4)

theorem opcode_lfsr : (op ++ ff ++ k : Word).extractLsb' 6 10 = op := by
  rw [BitVec.extractLsb'_append_eq_of_le (by decide)]
  exact BitVec.extractLsb'_append_eq_left

theorem fieldFf_lfsr : (op ++ ff ++ k : Word).extractLsb' 4 2 = ff := by
  rw [BitVec.extractLsb'_append_eq_of_le (by decide)]
  exact BitVec.extractLsb'_append_eq_right

theorem fieldK_lfsr : (op ++ ff ++ k : Word).extractLsb' 0 4 = k :=
  BitVec.extractLsb'_append_eq_right

end

theorem fields_lfsr (w : Word) : w.extractLsb' 6 10 ++ w.extractLsb' 4 2 ++ w.extractLsb' 0 4 = w := by
  rw [BitVec.extractLsb'_append_extractLsb'_eq_extractLsb' (by rfl)]
  exact BitVec.extractLsb'_append_extractLsb'

/-! ### The second word -/

theorem isSecondWord_iff (w : Word) : isSecondWord w = true ↔ w.extractLsb' 12 4 = 0xF#4 := beq_iff_eq

@[simp] theorem isSecondWord_secondWord (x : BitVec 12) : isSecondWord (secondWord x) = true :=
  (isSecondWord_iff _).2 BitVec.extractLsb'_append_eq_left

@[simp] theorem extractLsb'_secondWord (x : BitVec 12) : (secondWord x).extractLsb' 0 12 = x :=
  BitVec.extractLsb'_append_eq_right

theorem secondWord_extractLsb' {w : Word} (h : isSecondWord w = true) : secondWord (w.extractLsb' 0 12) = w := by
  rw [secondWord, ← (isSecondWord_iff w).1 h]
  exact BitVec.extractLsb'_append_extractLsb'

/-- The second word of LFSR holds 8 bits of the literal under four bits that are 0 (30_encoding.md R123, R136). -/
theorem extractLsb'_secondWord_high (x : BitVec 4) (y : Byte) : (secondWord (x ++ y)).extractLsb' 8 4 = x := by
  rw [secondWord, BitVec.extractLsb'_append_eq_of_add_le (by decide)]
  exact BitVec.extractLsb'_append_eq_left

theorem extractLsb'_secondWord_low (x : BitVec 4) (y : Byte) : (secondWord (x ++ y)).extractLsb' 0 8 = y := by
  rw [secondWord, BitVec.extractLsb'_append_eq_of_add_le (by decide)]
  exact BitVec.extractLsb'_append_eq_right

/-! ### The literal of CALL and GOTO -/

theorem literal20_halves {w w2 : Word} {k : BitVec 20} (hlow : w.extractLsb' 0 8 = k.extractLsb' 0 8)
    (hhigh : w2.extractLsb' 0 12 = k.extractLsb' 8 12) : literal20 w w2 = k := by
  rw [literal20, hlow, hhigh]
  exact BitVec.extractLsb'_append_extractLsb'

@[simp] theorem literal20_low (w w2 : Word) : (literal20 w w2).extractLsb' 0 8 = w.extractLsb' 0 8 :=
  BitVec.extractLsb'_append_eq_right

@[simp] theorem literal20_high (w w2 : Word) : (literal20 w w2).extractLsb' 8 12 = w2.extractLsb' 0 12 :=
  BitVec.extractLsb'_append_eq_left

/-! ### The decoders of two words -/

theorem decodeMovff_eq_ok_iff {w w2 : Word} {i : Instr} : decodeMovff w w2 = .ok i ↔
    isSecondWord w2 = true ∧ i = .movff (w.extractLsb' 0 12) (w2.extractLsb' 0 12) := by
  unfold decodeMovff
  cases isSecondWord w2 <;> simp [eq_comm]

theorem decodeCall_eq_ok_iff {w w2 : Word} {i : Instr} : decodeCall w w2 = .ok i ↔
    isSecondWord w2 = true ∧ i = .call (literal20 w w2) (bitAt 8 w) := by
  unfold decodeCall
  cases isSecondWord w2 <;> simp [eq_comm]

theorem decodeGoto_eq_ok_iff {w w2 : Word} {i : Instr} : decodeGoto w w2 = .ok i ↔
    isSecondWord w2 = true ∧ i = .goto (literal20 w w2) := by
  unfold decodeGoto
  cases isSecondWord w2 <;> simp [eq_comm]

/-- LFSR is read where neither of its fields has a reserved value (30_encoding.md R136). -/
theorem decodeLfsr_eq_ok_iff {w w2 : Word} {i : Instr} : decodeLfsr w w2 = .ok i ↔
    isSecondWord w2 = true ∧ (w2.extractLsb' 8 4 = 0#4 ∧ w.extractLsb' 4 2 ≠ 3#2) ∧
      i = .lfsr (w.extractLsb' 4 2) (w.extractLsb' 0 4 ++ w2.extractLsb' 0 8) := by
  unfold decodeLfsr
  cases isSecondWord w2
  · simp
  · by_cases hhigh : w2.extractLsb' 8 4 = 0#4 <;> by_cases hff : w.extractLsb' 4 2 = 3#2 <;>
      simp [hhigh, hff, eq_comm (a := i)]

end Sys2Proof
end

section
/-! Whatever a row reads, the encoder writes back: the rows of the table one by one, each by the lemma of its format. That a
row's constructor has the row's opcode in `encode` is the lemma's last hypothesis; it is computed for each row. -/

namespace Sys2Proof

/-- Whatever the row reads is well-formed, and its encoding is the words that were read. -/
def Row.Reencodes (r : Row) : Prop := ∀ ws i, r.Reads ws i → i.wf = true ∧ encode i = ws

namespace Row.Reencodes

variable {mask pattern : Word}

theorem one {g : Word → Instr} (h : ∀ w, w &&& mask = pattern → (g w).wf = true ∧ encode (g w) = [w]) :
    Row.Reencodes ⟨mask, pattern, .one g⟩ := by
  intro ws i hreads
  cases hreads with
  | one hits => exact h _ hits

theorem two {g : Word → Word → Except Undecodable Instr}
    (h : ∀ w w2 i, w &&& mask = pattern → g w w2 = .ok i → i.wf = true ∧ encode i = [w, w2]) :
    Row.Reencodes ⟨mask, pattern, .two g⟩ := by
  intro ws i hreads
  cases hreads with
  | two hits ok => exact h _ _ _ hits ok

/-! ### The formats of one word -/

theorem fda {g : Byte → Bool → Bool → Instr}
    (hg : ∀ f d a, (g f d a).wf = true ∧ encode (g f d a) = encodeFda (pattern.extractLsb' 10 6) f d a := by
      exact fun _ _ _ => ⟨rfl, rfl⟩) :
    Row.Reencodes ⟨0xFC00#16, pattern, .one fun w => g (fieldF w) (bitAt 9 w) (bitAt 8 w)⟩ := by
  refine one fun w hits => ⟨(hg ..).1, ?_⟩
  rw [(hg ..).2, ← extractLsb'_of_hits hits rfl, encodeFda_fields]

theorem fa {g : Byte → Bool → Instr}
    (hg : ∀ f a, (g f a).wf = true ∧ encode (g f a) = encodeFa (pattern.extractLsb' 9 7) f a := by
      exact fun _ _ => ⟨rfl, rfl⟩) :
    Row.Reencodes ⟨0xFE00#16, pattern, .one fun w => g (fieldF w) (bitAt 8 w)⟩ := by
  refine one fun w hits => ⟨(hg ..).1, ?_⟩
  rw [(hg ..).2, ← extractLsb'_of_hits hits rfl, encodeFa_fields]

theorem bit {g : Byte → BitVec 3 → Bool → Instr}
    (hg : ∀ f b a, (g f b a).wf = true ∧ encode (g f b a) = encodeBit (pattern.extractLsb' 12 4) f b a := by
      exact fun _ _ _ => ⟨rfl, rfl⟩) :
    Row.Reencodes ⟨0xF000#16, pattern, .one fun w => g (fieldF w) (fieldB w) (bitAt 8 w)⟩ := by
  refine one fun w hits => ⟨(hg ..).1, ?_⟩
  rw [(hg ..).2, ← extractLsb'_of_hits hits rfl, encodeBit_fields]

theorem retS {g : Bool → Instr}
    (hg : ∀ x, (g x).wf = true ∧ encode (g x) = encodeS (pattern.extractLsb' 1 15) x := by
      exact fun _ => ⟨rfl, rfl⟩) :
    Row.Reencodes ⟨0xFFFE#16, pattern, .one fun w => g (bitAt 0 w)⟩ := by
  refine one fun w hits => ⟨(hg ..).1, ?_⟩
  rw [(hg ..).2, ← extractLsb'_of_hits hits rfl, encodeS_fields]

/-- The formats of an opcode and one literal, which is the `k` low bits. -/
theorem literal {n k : Nat} {g : BitVec k → Instr}
    (hnk : n + k = 16 := by rfl) (hmask : mask.extractLsb' k n = BitVec.allOnes n := by rfl)
    (hg : ∀ x, (g x).wf = true ∧ encode (g x) = [(pattern.extractLsb' k n ++ x).cast hnk] := by
      exact fun _ => ⟨rfl, rfl⟩) :
    Row.Reencodes ⟨mask, pattern, .one fun w => g (w.extractLsb' 0 k)⟩ := by
  refine one fun w hits => ⟨(hg _).1, ?_⟩
  rw [(hg _).2, ← extractLsb'_of_hits hits hmask, BitVec.extractLsb'_append_extractLsb'_eq_extractLsb' (by omega)]
  refine congrArg ([·]) (BitVec.eq_of_toNat_eq ?_)
  rw [BitVec.toNat_cast, hnk, BitVec.extractLsb'_eq_self]

/-- The rows of one word each, without operands. -/
theorem const {i : Instr} (hi : i.wf = true ∧ encode i = [pattern] := by exact ⟨rfl, rfl⟩) :
    Row.Reencodes ⟨0xFFFF#16, pattern, .one fun _ => i⟩ := by
  refine one fun w hits => ⟨hi.1, ?_⟩
  rw [hi.2, ← hits, show 0xFFFF#16 = BitVec.allOnes 16 from rfl, BitVec.and_allOnes]

/-! ### The rows of two words -/

theorem movff : Row.Reencodes ⟨0xF000#16, 0xC000#16, .two decodeMovff⟩ := by
  refine two fun w w2 i hits ok => ?_
  obtain ⟨hsecond, rfl⟩ := decodeMovff_eq_ok_iff.1 ok
  refine ⟨rfl, ?_⟩
  have hw : 0b1100#4 ++ w.extractLsb' 0 12 = w := by
    rw [← show w.extractLsb' 12 4 = 0b1100#4 from extractLsb'_of_hits hits rfl]
    exact BitVec.extractLsb'_append_extractLsb'
  rw [encode, hw, secondWord_extractLsb' hsecond]

theorem call : Row.Reencodes ⟨0xFE00#16, 0xEC00#16, .two decodeCall⟩ := by
  refine two fun w w2 i hits ok => ?_
  obtain ⟨hsecond, rfl⟩ := decodeCall_eq_ok_iff.1 ok
  refine ⟨rfl, ?_⟩
  have hw : [0b1110110#7 ++ BitVec.ofBool (bitAt 8 w) ++ w.extractLsb' 0 8] = [w] := by
    rw [← show w.extractLsb' 9 7 = 0b1110110#7 from extractLsb'_of_hits hits rfl]
    exact encodeFa_fields w
  rw [encode, literal20_low, literal20_high, List.singleton_inj.1 hw, secondWord_extractLsb' hsecond]

theorem goto : Row.Reencodes ⟨0xFF00#16, 0xEF00#16, .two decodeGoto⟩ := by
  refine two fun w w2 i hits ok => ?_
  obtain ⟨hsecond, rfl⟩ := decodeGoto_eq_ok_iff.1 ok
  refine ⟨rfl, ?_⟩
  have hw : 0b11101111#8 ++ w.extractLsb' 0 8 = w := by
    rw [← show w.extractLsb' 8 8 = 0b11101111#8 from extractLsb'_of_hits hits rfl]
    exact BitVec.extractLsb'_append_extractLsb'
  rw [encode, literal20_low, literal20_high, hw, secondWord_extractLsb' hsecond]

theorem lfsr : Row.Reencodes ⟨0xFFC0#16, 0xEE00#16, .two decodeLfsr⟩ := by
  refine two fun w w2 i hits ok => ?_
  obtain ⟨hsecond, ⟨hhigh, hff⟩, rfl⟩ := decodeLfsr_eq_ok_iff.1 ok
  refine ⟨bne_iff_ne.2 hff, ?_⟩
  have hw : 0b1110111000#10 ++ w.extractLsb' 4 2 ++ w.extractLsb' 0 4 = w := by
    rw [← show w.extractLsb' 6 10 = 0b1110111000#10 from extractLsb'_of_hits hits rfl]
    exact fields_lfsr w
  have hw2 : 0#4 ++ w2.extractLsb' 0 8 = w2.extractLsb' 0 12 := by
    rw [← hhigh, BitVec.extractLsb'_append_extractLsb'_eq_extractLsb' (by rfl)]
  rw [encode, BitVec.extractLsb'_append_eq_left, BitVec.extractLsb'_append_eq_right, hw, hw2,
    secondWord_extractLsb' hsecond]

end Row.Reencodes

open Row.Reencodes

/-! ### The table, row by row

The lemmas stand in the order of the rows. -/

theorem rowsByte_reencode : ∀ r ∈ rowsByte, r.Reencodes := by
  simp only [rowsByte, List.forall_mem_cons]
  exact ⟨fda, fda, fda, fa, fda, fa, fa, fa, fda, fda, fda, fda, fda, fda, fda, fda, movff, fa, fa, fa, fda, fda, fda,
    fda, fa, fda, fda, fda, fda, fa, fda, List.forall_mem_nil _⟩

theorem rowsBit_reencode : ∀ r ∈ rowsBit, r.Reencodes := by
  simp only [rowsBit, List.forall_mem_cons]
  exact ⟨bit, bit, bit, bit, bit, List.forall_mem_nil _⟩

theorem rowsFlow_reencode : ∀ r ∈ rowsFlow, r.Reencodes := by
  simp only [rowsFlow, List.forall_mem_cons]
  exact ⟨literal, literal, literal, literal, literal, literal, literal, literal, literal, literal, call, goto, retS, literal,
    retS, const, const, List.forall_mem_nil _⟩

theorem rowsSystem_reencode : ∀ r ∈ rowsSystem, r.Reencodes := by
  simp only [rowsSystem, List.forall_mem_cons]
  exact ⟨const, literal, const, const, const, const, List.forall_mem_nil _⟩

theorem rowsLiteral_reencode : ∀ r ∈ rowsLiteral, r.Reencodes := by
  simp only [rowsLiteral, List.forall_mem_cons]
  exact ⟨literal, literal, literal, lfsr, literal, literal, literal, literal, literal, List.forall_mem_nil _⟩

theorem rowsTable_reencode : ∀ r ∈ rowsTable, r.Reencodes := by
  simp only [rowsTable, List.forall_mem_cons]
  exact ⟨const, const, const, const, const, const, const, const, List.forall_mem_nil _⟩

theorem rows_reencode : ∀ r ∈ rows, r.Reencodes := by
  simp only [rows, List.forall_mem_append]
  exact ⟨⟨⟨⟨⟨rowsByte_reencode, rowsBit_reencode⟩, rowsFlow_reencode⟩, rowsSystem_reencode⟩, rowsLiteral_reencode⟩,
    rowsTable_reencode⟩

/-- Settles O3: what decodes, a row has read, and every row re-encodes what it reads. -/
theorem encodeDecode : Obligations.EncodeDecode := by
  intro bytes rest i h
  obtain ⟨r, hr, ws, hreads, rfl⟩ := exists_reads_of_decode h
  obtain ⟨hwf, rfl⟩ := rows_reencode r hr _ _ hreads
  exact ⟨hwf, rfl⟩

end Sys2Proof
end

section
/-! Every well-formed instruction is read back from its words: the constructors one by one, each by the lemma of its
format. -/

namespace Sys2Proof

/-! ### The formats of one word -/

section
variable {mask pattern : Word}

theorem exists_reads_one {g : Word → Instr} (hrow : rowOf pattern = some ⟨mask, pattern, .one g⟩) {w : Word}
    (hits : w &&& mask = pattern) : ∃ r ∈ rows, r.Reads [w] (g w) :=
  ⟨_, (rowOf_eq_some_iff.1 hrow).1, .one hits⟩

theorem exists_reads_two {g : Word → Word → Except Undecodable Instr}
    (hrow : rowOf pattern = some ⟨mask, pattern, .two g⟩) {w w2 : Word} {i : Instr} (hits : w &&& mask = pattern)
    (ok : g w w2 = .ok i) : ∃ r ∈ rows, r.Reads [w, w2] i :=
  ⟨_, (rowOf_eq_some_iff.1 hrow).1, .two hits ok⟩

theorem exists_reads_const {i : Instr} (hrow : rowOf pattern = some ⟨0xFFFF#16, pattern, .one fun _ => i⟩) :
    ∃ r ∈ rows, r.Reads [pattern] i :=
  exists_reads_one hrow BitVec.and_allOnes

end

theorem exists_reads_fda {op : BitVec 6} {g : Byte → Bool → Bool → Instr}
    (hrow : rowOf (op ++ 0#10) = some ⟨0xFC00#16, op ++ 0#10, .one fun w => g (fieldF w) (bitAt 9 w) (bitAt 8 w)⟩)
    (f : Byte) (d a : Bool) : ∃ r ∈ rows, r.Reads (encodeFda op f d a) (g f d a) := by
  have hread := exists_reads_one hrow ((and_opcode_iff (k := 10) _ op).2 (opcode_fda op f d a))
  rwa [fieldF_fda, bitAt_nine_fda, bitAt_eight_fda] at hread

theorem exists_reads_fa {op : BitVec 7} {g : Byte → Bool → Instr}
    (hrow : rowOf (op ++ 0#9) = some ⟨0xFE00#16, op ++ 0#9, .one fun w => g (fieldF w) (bitAt 8 w)⟩)
    (f : Byte) (a : Bool) : ∃ r ∈ rows, r.Reads (encodeFa op f a) (g f a) := by
  have hread := exists_reads_one hrow ((and_opcode_iff (k := 9) _ op).2 (opcode_fa op f a))
  rwa [fieldF_fa, bitAt_eight_fa] at hread

theorem exists_reads_bit {op : BitVec 4} {g : Byte → BitVec 3 → Bool → Instr}
    (hrow : rowOf (op ++ 0#12) = some ⟨0xF000#16, op ++ 0#12, .one fun w => g (fieldF w) (fieldB w) (bitAt 8 w)⟩)
    (f : Byte) (b : BitVec 3) (a : Bool) : ∃ r ∈ rows, r.Reads (encodeBit op f b a) (g f b a) := by
  have hread := exists_reads_one hrow ((and_opcode_iff (k := 12) _ op).2 (opcode_bit op f b a))
  rwa [fieldF_bit, fieldB_bit, bitAt_eight_bit] at hread

theorem exists_reads_retS {op : BitVec 15} {g : Bool → Instr}
    (hrow : rowOf (op ++ 0#1) = some ⟨0xFFFE#16, op ++ 0#1, .one fun w => g (bitAt 0 w)⟩) (s : Bool) :
    ∃ r ∈ rows, r.Reads (encodeS op s) (g s) := by
  have hread := exists_reads_one hrow
    ((and_opcode_iff (k := 1) _ op).2 (BitVec.extractLsb'_append_eq_left (b := BitVec.ofBool s)))
  rwa [bitAt_zero_s] at hread

/-- The formats of an opcode and one literal, which is the `k` low bits. -/
theorem exists_reads_literal {n k : Nat} (hnk : n + k = 16) {op : BitVec n} {g : BitVec k → Instr}
    (hrow : rowOf ((op ++ 0#k).cast hnk) =
      some ⟨(BitVec.allOnes n ++ 0#k).cast hnk, (op ++ 0#k).cast hnk, .one fun w => g (w.extractLsb' 0 k)⟩)
    (x : BitVec k) : ∃ r ∈ rows, r.Reads [(op ++ x).cast hnk] (g x) := by
  have hits : (op ++ x).cast hnk &&& (BitVec.allOnes n ++ 0#k).cast hnk = (op ++ 0#k).cast hnk := by
    rw [BitVec.and_cast, (and_opcode_iff (op ++ x) op).2 BitVec.extractLsb'_append_eq_left]
  have hread := exists_reads_one hrow hits
  rwa [BitVec.extractLsb'_cast, BitVec.extractLsb'_append_eq_right] at hread

/-! ### The instructions of two words -/

theorem exists_reads_movff (fs fd : DataAddr) : ∃ r ∈ rows, r.Reads (encode (.movff fs fd)) (.movff fs fd) := by
  refine exists_reads_two (pattern := 0xC000#16) rfl
    ((and_opcode_iff (k := 12) _ 0b1100#4).2 BitVec.extractLsb'_append_eq_left) ?_
  rw [decodeMovff_eq_ok_iff, extractLsb'_secondWord]
  exact ⟨isSecondWord_secondWord fd, congrArg (Instr.movff · fd) BitVec.extractLsb'_append_eq_right.symm⟩

theorem exists_reads_call (k : BitVec 20) (s : Bool) : ∃ r ∈ rows, r.Reads (encode (.call k s)) (.call k s) := by
  refine exists_reads_two (pattern := 0xEC00#16) rfl ((and_opcode_iff (k := 9) _ 0b1110110#7).2 (opcode_fa ..)) ?_
  rw [decodeCall_eq_ok_iff, bitAt_eight_fa, literal20_halves (fieldF_fa ..) (extractLsb'_secondWord _)]
  exact ⟨isSecondWord_secondWord _, rfl⟩

theorem exists_reads_goto (k : BitVec 20) : ∃ r ∈ rows, r.Reads (encode (.goto k)) (.goto k) := by
  refine exists_reads_two (pattern := 0xEF00#16) rfl
    ((and_opcode_iff (k := 8) _ 0b11101111#8).2 BitVec.extractLsb'_append_eq_left) ?_
  rw [decodeGoto_eq_ok_iff,
    literal20_halves BitVec.extractLsb'_append_eq_right (extractLsb'_secondWord (k.extractLsb' 8 12))]
  exact ⟨isSecondWord_secondWord _, rfl⟩

theorem exists_reads_lfsr {ff : BitVec 2} (hff : ff ≠ 3#2) (k : BitVec 12) :
    ∃ r ∈ rows, r.Reads (encode (.lfsr ff k)) (.lfsr ff k) := by
  have halves : k.extractLsb' 8 4 ++ k.extractLsb' 0 8 = k := BitVec.extractLsb'_append_extractLsb' (w := 4) (len := 8)
  refine exists_reads_two (pattern := 0xEE00#16) rfl ((and_opcode_iff (k := 6) _ 0b1110111000#10).2 (opcode_lfsr ..)) ?_
  rw [decodeLfsr_eq_ok_iff, fieldFf_lfsr, fieldK_lfsr, extractLsb'_secondWord_high, extractLsb'_secondWord_low]
  exact ⟨isSecondWord_secondWord _, ⟨rfl, hff⟩, congrArg (Instr.lfsr ff) halves.symm⟩

/-! ### Every instruction -/

theorem exists_reads_encode {i : Instr} (hwf : i.wf = true) : ∃ r ∈ rows, r.Reads (encode i) i := by
  cases i
  case addwf | addwfc | andwf | comf | decf | decfsz | dcfsnz | incf | incfsz | infsnz | iorwf | movf | rlcf | rlncf
      | rrcf | rrncf | subfwb | subwf | subwfb | swapf | xorwf => exact exists_reads_fda rfl ..
  case clrf | cpfseq | cpfsgt | cpfslt | movwf | mulwf | negf | setf | tstfsz => exact exists_reads_fa rfl ..
  case bcf | bsf | btfsc | btfss | btg => exact exists_reads_bit rfl ..
  case bc | bn | bnc | bnn | bnov | bnz | bov | bz | bra | rcall | retlw | nopx | addlw | andlw | iorlw | movlb | movlw
      | mullw | sublw | xorlw => exact exists_reads_literal rfl rfl _
  case ret | retfie => exact exists_reads_retS rfl _
  case push | pop | nop | clrwdt | daw | reset | sleep | tblrd | tblrdPostInc | tblrdPostDec | tblrdPreInc | tblwt
      | tblwtPostInc | tblwtPostDec | tblwtPreInc => exact exists_reads_const rfl
  case movff fs fd => exact exists_reads_movff fs fd
  case call k s => exact exists_reads_call k s
  case goto k => exact exists_reads_goto k
  case lfsr ff k => exact exists_reads_lfsr (bne_iff_ne.1 hwf) k

/-- Settles O2: some row reads the words of the instruction, and what a row reads, decodes. -/
theorem decodeEncode : Obligations.DecodeEncode := by
  intro i rest hwf
  obtain ⟨r, hr, hreads⟩ := exists_reads_encode hwf
  exact decode_of_reads hr hreads rest

/-! ### Skips -/

/-- LFSR with ff = 3 has the row of LFSR (30_encoding.md R128). -/
theorem rowOf_lfsr_reserved {w : Word} (h : w &&& 0xFFF0#16 = 0xEE30#16) :
    rowOf w = some ⟨0xFFC0#16, 0xEE00#16, .two decodeLfsr⟩ := by
  have hrow : rowOf 0xEE00#16 = some ⟨0xFFC0#16, 0xEE00#16, .two decodeLfsr⟩ := rfl
  have hits : w &&& 0xFFC0#16 = 0xEE00#16 := by
    rw [show 0xFFC0#16 = 0xFFF0#16 &&& 0xFFC0#16 from rfl, ← BitVec.and_assoc, h]
    rfl
  exact rowOf_eq_some_iff.2 ⟨(rowOf_eq_some_iff.1 hrow).1, beq_iff_eq.2 hits⟩

/-- Nothing is read from LFSR with ff = 3, the two-word form that a skip refuses (30_encoding.md R136). -/
theorem not_reads_lfsr_reserved {r : Row} (hr : r ∈ rows) {w w2 : Word} {i : Instr} (h : r.Reads [w, w2] i) :
    w &&& 0xFFF0#16 ≠ 0xEE30#16 := by
  intro hreserved
  cases h with
  | two hits ok =>
    cases (rowOf_eq_some_iff.2 ⟨hr, beq_iff_eq.2 hits⟩).symm.trans (rowOf_lfsr_reserved hreserved)
    obtain ⟨-, ⟨-, hff⟩, -⟩ := decodeLfsr_eq_ok_iff.1 ok
    exact hff (extractLsb'_of_hits hreserved rfl)

/-- A skip passes over two bytes for each word that a row reads (41_byte_skip.md R201). -/
theorem skippedBytes_of_reads {r : Row} (hr : r ∈ rows) {w : Word} {ws : List Word} {i : Instr}
    (h : r.Reads (w :: ws) i) : skippedBytes w = some (2 * (w :: ws).length) := by
  cases h with
  | one hits =>
    have hrow := rowOf_eq_some_iff.2 ⟨hr, beq_iff_eq.2 hits⟩
    rw [skippedBytes, isTwoWord_of_rowOf hrow, hrow]
    rfl
  | two hits ok =>
    have hrow := rowOf_eq_some_iff.2 ⟨hr, beq_iff_eq.2 hits⟩
    have hff := not_reads_lfsr_reserved hr (.two hits ok)
    rw [skippedBytes, isTwoWord_of_rowOf hrow]
    simp [Build.isTwo, hff]

/-- Settles O5: the words of the instruction are words that a row reads. -/
theorem skipLength : Obligations.SkipLength := by
  intro i w rest hwf henc
  obtain ⟨r, hr, hreads⟩ := exists_reads_encode hwf
  rw [henc] at hreads ⊢
  exact skippedBytes_of_reads hr hreads

/-! ### Words written out -/

/-- Settles O1, by running the decoder on each word. -/
theorem knownWordsDecode : Obligations.KnownWordsDecode :=
  ⟨rfl, rfl, rfl, rfl, rfl, rfl, rfl, rfl, rfl⟩

end Sys2Proof
end

section
/-! The instruction that a step runs: the bytes fetched at PC start with the bytes of the instruction that stands there. -/

namespace Sys2Proof.Machine

/-- The core runs the instruction that the bytes at PC decode to (30_encoding.md R124). -/
theorem runInstr_of_decode {s : State} {i : Instr} {rest : List Byte}
    (h : decode (fetchBytes 4 s.pc s) = .ok (i, rest)) : runInstr s = exec i s := by
  simp only [runInstr, fetch, h]
  rfl

/-- Fewer bytes fetched from the same address are the first of more. -/
theorem fetchBytes_extend {m n : Nat} (h : m ≤ n) (a : ProgAddr) (s : State) :
    ∃ rest, fetchBytes n a s = fetchBytes m a s ++ rest := by
  induction m generalizing n a with
  | zero => exact ⟨_, rfl⟩
  | succ m ih =>
    obtain ⟨n, rfl⟩ : ∃ n', n = n' + 1 := ⟨n - 1, by omega⟩
    rw [fetchBytes, fetchBytes]
    cases progRead a s with
    | none => exact ⟨[], rfl⟩
    | some b =>
      obtain ⟨rest, hrest⟩ := ih (Nat.le_of_succ_le_succ h) (a + 1#21)
      exact ⟨rest, congrArg (b :: ·) hrest⟩

/-- Where an instruction stands at PC, the four bytes that are fetched decode to it. -/
theorem exists_decode_of_instrAtPc {i : Instr} {s : State} (hwf : i.wf = true) (h : InstrAtPc i s) :
    ∃ rest, decode (fetchBytes 4 s.pc s) = .ok (i, rest) := by
  have hlen : 2 * (encode i).length ≤ 4 := by
    obtain h1 | h2 := encode_length i <;> omega
  obtain ⟨rest, hrest⟩ := fetchBytes_extend hlen s.pc s
  rw [hrest, h]
  exact ⟨rest, decodeEncode i rest hwf⟩

/-- Settles O6: the second clause is the first one, by `exists_decode_of_instrAtPc`. -/
theorem stepRunsInstruction : Obligations.StepRunsInstruction := by
  intro s i hnext
  have hbytes : ∀ rest, decode (fetchBytes 4 s.pc s) = .ok (i, rest) → step s = exec i s :=
    fun rest hdec => (step_of_instrNext hnext).trans (runInstr_of_decode hdec)
  refine ⟨hbytes, fun hwf hat => ?_⟩
  obtain ⟨rest, hdec⟩ := exists_decode_of_instrAtPc hwf hat
  exact hbytes rest hdec

end Sys2Proof.Machine
end

section
/-! The byte-oriented instructions that compute and store (40_byte_oriented.md): each is one of the patterns, so that
its statement comes down to what its operation computes. -/

namespace Sys2Proof.Machine

theorem byteOp_of_eq {op : ByteFn} {f : Byte} {d a : Bool} {s : State} {r : Byte} {u : FlagUpdate}
    (hr : CanRead f a s) (hd : CanStore d f a s) (h : op (operandValue f a s) s.w s.status = (r, u)) :
    byteOp op f d a s = .next (byteNext f d a r u s) := by
  rw [byteOp_ready hr hd, h]

/-! ### Sums and differences -/

/-- Settles O18: each of the three is one `add8`. -/
theorem addToFile : Obligations.AddToFile := by
  intro f d a s hr hd
  dsimp only [exec]
  exact ⟨byteOp_of_eq hr hd (add8_eq_sumOf ..), byteOp_of_eq hr hd (add8_eq_sumOf ..),
    byteOp_of_eq hr hd (add8_eq_sumOf ..)⟩

/-- Settles O19: each of the five adds a complement; DECF adds that of 1. -/
theorem subtractFromFile : Obligations.SubtractFromFile := by
  intro f d a s hr hd
  dsimp only [exec]
  refine ⟨byteOp_of_eq hr hd (add8_complement _ _ true), byteOp_of_eq hr hd (add8_complement ..),
    byteOp_of_eq hr hd (add8_complement ..), byteOp_of_eq hr hd (add8_complement _ 1#8 true), ?_⟩
  rintro rfl
  exact byteOp_of_eq hr hd (add8_complement 0#8 _ true)

/-! ### Logic -/

theorem resultZN_eq (r : Byte) : resultZN r = (r, logicFlags r) := by
  rw [resultZN, flagsZN_eq]

theorem bits_complement (x : Byte) : Bits (x ^^^ 0xFF#8) fun j => !x.getLsbD j := by
  intro j hj
  rw [show (0xFF#8) = BitVec.allOnes 8 from rfl, BitVec.xor_allOnes, BitVec.getLsbD_not]
  simp [hj]

/-- Settles O20: the bits of the results by the library's laws of bit vectors, the flags by `resultZN_eq`. -/
theorem logicOnFile : Obligations.LogicOnFile := by
  intro f d a s
  dsimp only [exec]
  exact ⟨encodeFda_word .., encodeFda_word .., encodeFda_word .., encodeFda_word .., encodeFda_word ..,
    fun hr hd =>
      ⟨⟨_, fun _ _ => BitVec.getLsbD_and, byteOp_of_eq hr hd (resultZN_eq _)⟩,
        ⟨_, fun _ _ => BitVec.getLsbD_or, byteOp_of_eq hr hd (resultZN_eq _)⟩,
        ⟨_, fun _ _ => BitVec.getLsbD_xor, byteOp_of_eq hr hd (resultZN_eq _)⟩,
        ⟨_, bits_complement _, byteOp_of_eq hr hd (resultZN_eq _)⟩,
        byteOp_of_eq hr hd (resultZN_eq _)⟩⟩

/-! ### Rotates -/

theorem flagsCZN_eq (c : Bool) (r : Byte) : flagsCZN c r = { logicFlags r with c := some c } := by
  rw [← flagsZN_eq]
  rfl

theorem bits_rotateLeftThroughCarry (x : Byte) (c : Bool) :
    Bits (x.extractLsb' 0 7 ++ BitVec.ofBool c : BitVec 8) fun j => if j = 0 then c else x.getLsbD (j - 1) := by
  intro j hj
  rw [BitVec.getLsbD_append]
  interval_cases j <;> simp

theorem bits_rotateRightThroughCarry (x : Byte) (c : Bool) :
    Bits (BitVec.ofBool c ++ x.extractLsb' 1 7 : BitVec 8) fun j => if j = 7 then c else x.getLsbD (j + 1) := by
  intro j hj
  rw [BitVec.getLsbD_append]
  interval_cases j <;> simp

/-- The low `k` bits moved above the `m` bits over them: what RRNCF does for k = 1, SWAPF for k = 4, RLNCF for k = 7. -/
theorem getLsbD_exchange {n j : Nat} (k m : Nat) (x : BitVec n) (hj : j < k + m) :
    (x.extractLsb' 0 k ++ x.extractLsb' k m).getLsbD j = x.getLsbD ((j + k) % (k + m)) := by
  rw [BitVec.getLsbD_append]
  split
  case isTrue hlow =>
    rw [Nat.mod_eq_of_lt (by omega)]
    simp [hlow, Nat.add_comm]
  case isFalse hhigh =>
    have hwrap : (j + k) % (k + m) = j - m := by
      rw [Nat.mod_eq_sub_mod (by omega), Nat.mod_eq_of_lt (by omega)]
      omega
    have hlt : j - m < k := by omega
    simp [hwrap, hlt]

/-- Settles O21: through carry by the two lemmas on bits above, without it by `getLsbD_exchange`. -/
theorem rotateFile : Obligations.RotateFile := by
  intro f d a s
  dsimp only [exec]
  exact ⟨encodeFda_word .., encodeFda_word .., encodeFda_word .., encodeFda_word .., encodeFda_word ..,
    fun hr hd =>
      ⟨⟨_, bits_rotateLeftThroughCarry _ _, byteOp_of_eq hr hd (congrArg (Prod.mk _) (flagsCZN_eq _ _))⟩,
        ⟨_, fun _ => getLsbD_exchange 7 1 _, byteOp_of_eq hr hd (resultZN_eq _)⟩,
        ⟨_, bits_rotateRightThroughCarry _ _, byteOp_of_eq hr hd (congrArg (Prod.mk _) (flagsCZN_eq _ _))⟩,
        ⟨_, fun _ => getLsbD_exchange 1 7 _, byteOp_of_eq hr hd (resultZN_eq _)⟩,
        ⟨_, fun _ => getLsbD_exchange 4 4 _, byteOp_of_eq hr hd rfl⟩⟩⟩

/-! ### Stores -/

/-- Settles O22, by the lemma of each pattern: neither asks that f be readable. -/
theorem storeToFile : Obligations.StoreToFile := by
  intro f a s
  dsimp only [exec]
  exact ⟨encodeFa_word .., encodeFa_word .., encodeFa_word .., fun ho hw =>
    ⟨constOp_next_iff.2 ⟨ho, hw, rfl⟩, constOp_next_iff.2 ⟨ho, hw, rfl⟩, execMovwf_next_iff.2 ⟨ho, hw, rfl⟩⟩⟩

end Sys2Proof.Machine
end

section
/-! What the instructions with a file operand can leave, family by family (the lists of Safety.lean): each family is
one or two of the patterns of Machine/Operands.lean. -/

namespace Sys2Proof.Machine

section
variable {f : Byte} {b : BitVec 3} {d a : Bool} {s t : State} {i : Instr}

theorem exec_next_of_mem_aluInstrs (hi : i ∈ aluInstrs f d a) (h : exec i s = .next t) :
    ∃ r u, t = byteNext f d a r u s := by
  unfold aluInstrs at hi
  fin_cases hi <;> dsimp only [exec] at h
  all_goals exact ⟨_, _, (byteOp_next_iff.1 h).2.2⟩

theorem countSkip_next {delta : Byte} {cond : Byte → Bool} (h : countSkip delta cond f d a s = .next t) :
    ∃ r, t = byteNext f d a r noFlags s ∨ ∃ n, t = afterSkip n s (byteNext f d a r noFlags s) := by
  obtain ⟨_, _, ⟨_, ht⟩ | ⟨_, n, _, ht⟩⟩ := countSkip_next_iff.1 h
  · exact ⟨_, .inl ht⟩
  · exact ⟨_, .inr ⟨n, ht⟩⟩

theorem exec_next_of_mem_countInstrs (hi : i ∈ countInstrs f d a) (h : exec i s = .next t) :
    ∃ r, t = byteNext f d a r noFlags s ∨ ∃ n, t = afterSkip n s (byteNext f d a r noFlags s) := by
  unfold countInstrs at hi
  fin_cases hi <;> dsimp only [exec] at h
  all_goals exact countSkip_next h

theorem exec_next_of_mem_modifyInstrs (hi : i ∈ modifyInstrs f b a) (h : exec i s = .next t) :
    ∃ r u, t = byteNext f true a r u s := by
  obtain rfl | hbit := List.mem_cons.1 hi
  · dsimp only [exec] at h
    exact ⟨_, _, (byteOp_next_iff.1 h).2.2⟩
  · fin_cases hbit <;> dsimp only [exec] at h
    all_goals exact ⟨_, _, (bitOp_next_iff.1 h).2.2⟩

theorem exec_next_of_mem_storeInstrs (hi : i ∈ storeInstrs f a) (h : exec i s = .next t) :
    (∃ r u, t = byteNext f true a r u s) ∨ t = storeNext f a s.w s := by
  unfold storeInstrs at hi
  fin_cases hi <;> dsimp only [exec] at h
  · exact .inl ⟨_, _, (constOp_next_iff.1 h).2.2⟩
  · exact .inr (execMovwf_next_iff.1 h).2.2
  · exact .inl ⟨_, _, (constOp_next_iff.1 h).2.2⟩

theorem testSkip_next {cond : Byte → Byte → Bool} (h : testSkip cond f a s = .next t) :
    ∃ n, t = skipped n (readNext f a s) := by
  obtain ⟨_, ⟨_, n, _, ht⟩ | ⟨_, ht⟩⟩ := testSkip_next_iff.1 h
  · exact ⟨n, ht⟩
  · exact ⟨0, ht.trans (skipped_zero _).symm⟩

/-- MULWF (40_byte_oriented.md R175) with the FSR update of its operand made before the product is stored: the two touch
different registers. -/
theorem execMulwf_next (h : execMulwf f a s = .next t) :
    t = setProduct s.w (operandValue f a s) (readNext f a s) := by
  rw [(execMulwf_next_iff.1 h).2, readNext]
  unfold postUpdate
  split <;> rfl

theorem exec_next_of_mem_testInstrs (hi : i ∈ testInstrs f b a) (h : exec i s = .next t) :
    (i = .mulwf f a ∧ t = setProduct s.w (operandValue f a s) (readNext f a s)) ∨
      ∃ n, t = skipped n (readNext f a s) := by
  obtain rfl | hskip := List.mem_cons.1 hi
  · exact .inl ⟨rfl, execMulwf_next h⟩
  · right
    fin_cases hskip <;> dsimp only [exec] at h
    all_goals exact testSkip_next h

end

end Sys2Proof.Machine
end

section
/-! The frame of the instructions that read their operand and write no file register. -/

namespace Sys2Proof.Machine

/-! ### Reads -/

theorem regReadEffect_of_ne_pcl {r : CoreReg} (h : r ≠ .pcl) (s : State) : regReadEffect r s = s := by
  cases r
  case pcl => exact absurd rfl h
  all_goals rfl

/-- A read of a peripheral register changes no interrupt register but the PORTB mismatch (60_exceptions.md R332). -/
theorem readEffect_irq (x : DataAddr) (s : State) :
    (readEffect x s).irq = { s.irq with rbMismatch := (readEffect x s).irq.rbMismatch } := by
  have hdevice : (deviceReadEffect x s).irq = { s.irq with rbMismatch := (deviceReadEffect x s).irq.rbMismatch } := by
    unfold deviceReadEffect
    split <;> rfl
  unfold readEffect
  split
  case h_2 => rw [regReadEffect_irq]
  case h_4 | h_5 => exact hdevice
  all_goals rfl

/-- Only a read of PCL loads the latches (10_state.md R32). -/
theorem readEffect_latches {x : DataAddr} (h : place x ≠ .reg .pcl) (s : State) :
    (readEffect x s).pclath = s.pclath ∧ (readEffect x s).pclatu = s.pclatu := by
  unfold readEffect
  split
  case h_2 r hr =>
    rw [regReadEffect_of_ne_pcl fun e => h (e ▸ hr)]
    exact ⟨rfl, rfl⟩
  case h_4 | h_5 => simp
  all_goals exact ⟨rfl, rfl⟩

/-- Only a read of a peripheral register draws a free value (20_memory.md R98) and touches the interrupt registers. -/
theorem readEffect_draws_irq {x : DataAddr} (hd : place x ≠ .device) (he : place x ≠ .eecon2) (s : State) :
    (readEffect x s).draws = s.draws ∧ (readEffect x s).irq = s.irq := by
  unfold readEffect
  split
  case h_4 hx => exact absurd hx hd
  case h_5 hx => exact absurd hx he
  case h_2 => simp
  all_goals exact ⟨rfl, rfl⟩

theorem readNext_latches {f : Byte} {a : Bool} {s : State} (h : place (effAddr f a s) ≠ .reg .pcl) :
    (readNext f a s).pclath = s.pclath ∧ (readNext f a s).pclatu = s.pclatu := by
  simpa [readNext, afterRead] using readEffect_latches h (accessState 2 (rawAddr f a s) s)

theorem readNext_draws_irq {f : Byte} {a : Bool} {s : State} (hd : place (effAddr f a s) ≠ .device)
    (he : place (effAddr f a s) ≠ .eecon2) : (readNext f a s).draws = s.draws ∧ (readNext f a s).irq = s.irq := by
  simpa [readNext, afterRead] using readEffect_draws_irq hd he (accessState 2 (rawAddr f a s) s)

theorem readNext_irq (f : Byte) (a : Bool) (s : State) :
    (readNext f a s).irq = { s.irq with rbMismatch := (readNext f a s).irq.rbMismatch } := by
  simpa [readNext, afterRead] using readEffect_irq (effAddr f a s) (accessState 2 (rawAddr f a s) s)

theorem accessState_get {raw : DataAddr} {n : FsrIx} (h : ∀ m, place raw ≠ .indirect n m) (k : Nat) (s : State) :
    (accessState k raw s).fsr.get n = s.fsr.get n :=
  preUpdate_get h

theorem readNext_get {f : Byte} {a : Bool} {s : State} {n : FsrIx} (h : ∀ m, place (rawAddr f a s) ≠ .indirect n m) :
    (readNext f a s).fsr.get n = s.fsr.get n := by
  unfold readNext afterRead
  rw [postUpdate_get h, readEffect_fsr, accessState_get h]

/-! ### The instructions -/

/-- `t` is what the read of the operand leaves, but for PC, W, PRODH:PRODL and STATUS. -/
def OnlyReads (f : Byte) (a : Bool) (s t : State) : Prop :=
  ∃ pc w prodh prodl status,
    t = { readNext f a s with pc := pc, w := w, prodh := prodh, prodl := prodl, status := status }

/-- With W as destination the FSR update of the operand may as well come before the result is stored. -/
theorem byteNext_w (f : Byte) (a : Bool) (r : Byte) (u : FlagUpdate) (s : State) :
    byteNext f false a r u s = setFlags u ((readNext f a s).setW r) := by
  unfold byteNext readNext postUpdate destEffect
  split <;> rfl

variable {f : Byte} {b : BitVec 3} {a : Bool} {s t : State} {i : Instr}

theorem onlyReads_of_mem_quietInstrs (hi : i ∈ quietInstrs f b a) (h : exec i s = .next t) : OnlyReads f a s t := by
  simp only [quietInstrs, List.mem_append] at hi
  obtain (halu | hcount) | htest := hi
  · obtain ⟨r, u, rfl⟩ := exec_next_of_mem_aluInstrs halu h
    rw [byteNext_w]
    exact ⟨_, _, _, _, _, rfl⟩
  · obtain ⟨r, rfl | ⟨n, rfl⟩⟩ := exec_next_of_mem_countInstrs hcount h <;> rw [byteNext_w]
    all_goals exact ⟨_, _, _, _, _, rfl⟩
  · obtain ⟨_, rfl⟩ | ⟨n, rfl⟩ := exec_next_of_mem_testInstrs htest h
    all_goals exact ⟨_, _, _, _, _, rfl⟩

theorem w_of_mem_testInstrs (hi : i ∈ testInstrs f b a) (h : exec i s = .next t) : t.w = s.w := by
  obtain ⟨_, rfl⟩ | ⟨n, rfl⟩ := exec_next_of_mem_testInstrs hi h
  all_goals exact readNext_w f a s

theorem product_of_mem_quietInstrs (hi : i ∈ quietInstrs f b a) (hm : i ≠ .mulwf f a) (h : exec i s = .next t) :
    t.prodh = s.prodh ∧ t.prodl = s.prodl := by
  simp only [quietInstrs, List.mem_append] at hi
  obtain (halu | hcount) | htest := hi
  · obtain ⟨r, u, rfl⟩ := exec_next_of_mem_aluInstrs halu h
    simp [byteNext_w]
  · obtain ⟨r, rfl | ⟨n, rfl⟩⟩ := exec_next_of_mem_countInstrs hcount h
    all_goals simp [byteNext_w, afterSkip, skipped]
  · obtain ⟨hmul, _⟩ | ⟨n, rfl⟩ := exec_next_of_mem_testInstrs htest h
    · exact absurd hmul hm
    · simp [skipped]

/-- Settles O28: `OnlyReads` is the frame, the exceptions are what the read of the operand changes. -/
theorem frameNoFileWrite : Obligations.FrameNoFileWrite := by
  intro f b a s t i hi h
  have hw : i ∈ testInstrs f b a → t.w = s.w := fun htest => w_of_mem_testInstrs htest h
  have hproduct : i ≠ .mulwf f a → t.prodh = s.prodh ∧ t.prodl = s.prodl :=
    fun hm => product_of_mem_quietInstrs hi hm h
  obtain ⟨pc, w, prodh, prodl, status, rfl⟩ := onlyReads_of_mem_quietInstrs hi h
  refine ⟨?_, fun x => ramByte_congr x (readNext_ram f a s), hw, hproduct, readNext_latches, fun hd he => ?_,
    fun n => readNext_get⟩
  · dsimp only
    rw [← readNext_irq, readNext_eq]
  · obtain ⟨hdraws, hirq⟩ := readNext_draws_irq hd he
    exact ⟨hdraws, congrArg IrqRegs.rbMismatch hirq⟩

end Sys2Proof.Machine
end

section
/-! The frame of the instructions that write their operand. -/

namespace Sys2Proof.Machine

/-- `t` is what a store to the operand leaves, of some byte and after the read of the operand or without one, but for PC
and STATUS. -/
def Stores (f : Byte) (a : Bool) (s t : State) : Prop :=
  ∃ v u pc status, (u = afterRead f a s ∨ u = accessState 2 (rawAddr f a s) s) ∧
    t = { postUpdate (rawAddr f a s) (writeEffect (effAddr f a s) v u) with pc := pc, status := status }

section
variable {f : Byte} {b : BitVec 3} {a : Bool} {s t : State} {i : Instr}

/-- The FSR update may as well come before the flags are written. -/
theorem byteNext_f (f : Byte) (a : Bool) (r : Byte) (u : FlagUpdate) (s : State) :
    byteNext f true a r u s =
      setFlags u (postUpdate (rawAddr f a s) (writeEffect (effAddr f a s) r (afterRead f a s))) := by
  unfold byteNext postUpdate destEffect
  split <;> rfl

theorem byteNext_stores (f : Byte) (a : Bool) (r : Byte) (u : FlagUpdate) (s : State) :
    Stores f a s (byteNext f true a r u s) :=
  ⟨r, _, _, _, .inl rfl, byteNext_f f a r u s⟩

theorem Stores.afterSkip (h : Stores f a s t) (n : Nat) : Stores f a s (afterSkip n s t) := by
  obtain ⟨v, u, pc, status, hu, rfl⟩ := h
  exact ⟨v, u, _, status, hu, rfl⟩

theorem stores_of_mem_writerInstrs (hi : i ∈ writerInstrs f b a) (h : exec i s = .next t) : Stores f a s t := by
  simp only [writerInstrs, List.mem_append] at hi
  obtain ((halu | hcount) | hmodify) | hstore := hi
  · obtain ⟨r, u, rfl⟩ := exec_next_of_mem_aluInstrs halu h
    exact byteNext_stores ..
  · obtain ⟨r, rfl | ⟨n, rfl⟩⟩ := exec_next_of_mem_countInstrs hcount h
    · exact byteNext_stores ..
    · exact (byteNext_stores ..).afterSkip n
  · obtain ⟨r, u, rfl⟩ := exec_next_of_mem_modifyInstrs hmodify h
    exact byteNext_stores ..
  · obtain ⟨r, u, rfl⟩ | rfl := exec_next_of_mem_storeInstrs hstore h
    · exact byteNext_stores ..
    · exact ⟨s.w, _, _, _, .inr rfl, rfl⟩

end

/-! ### A byte of RAM as destination -/

theorem afterRead_of_ram {f : Byte} {a : Bool} {s : State} (h : place (effAddr f a s) = .ram) :
    afterRead f a s = accessState 2 (rawAddr f a s) s :=
  readEffect_of_ram h _

/-- Settles O29: the store is one write of RAM, since the read of a byte of RAM changes nothing. -/
theorem frameRamWrite : Obligations.FrameRamWrite := by
  intro f b a s t i hi hp h
  obtain ⟨v, u, pc, status, hu, rfl⟩ := stores_of_mem_writerInstrs hi h
  rw [afterRead_of_ram hp, or_self] at hu
  subst hu
  refine ⟨?_, fun x hx => ?_, fun n hn => ?_⟩
  · dsimp only
    rw [writeEffect_ram hp, postUpdate_eq, ramWrite, accessState_eq]
    rfl
  · calc ramByte x _ = ramByte x (writeEffect (effAddr f a s) v (accessState 2 (rawAddr f a s) s)) :=
          ramByte_congr x (postUpdate_ram ..)
      _ = ramByte x (accessState 2 (rawAddr f a s) s) := ramByte_writeEffect_of_ne hx ..
      _ = ramByte x s := ramByte_congr x (accessState_ram ..)
  · exact (postUpdate_get hn).trans (by rw [writeEffect_ram hp, ramWrite_fsr, accessState_get hn])

/-! ### A register of the core as destination -/

/-- No write of a register reaches the watchdog's counter and scaler or the PORTB mismatch (10_state.md R41, R61;
60_exceptions.md R332). -/
@[simp] theorem regWrite_wdt_mismatch (r : CoreReg) (v : Byte) (s : State) :
    (regWrite r v s).wdt.counter = s.wdt.counter ∧ (regWrite r v s).wdt.scaler = s.wdt.scaler ∧
      (regWrite r v s).irq.rbMismatch = s.irq.rbMismatch := by
  cases r
  case tosu | tosh | tosl => simp [regWrite]
  all_goals exact ⟨rfl, rfl, rfl⟩

/-- The value of a register but PCL and STATUS where PC, STATUS and the FSRs may have changed. -/
theorem regValue_of_fsr {q : CoreReg} {s : State} {pc : ProgAddr} {status : Flags} {fsr : Fsrs} (hpcl : q ≠ .pcl)
    (hstatus : q ≠ .status) (hfsr : ∀ n, q = .fsrh n ∨ q = .fsrl n → fsr.get n = s.fsr.get n) :
    regValue q { s with pc := pc, status := status, fsr := fsr } = regValue q s := by
  cases q
  case pcl => exact absurd rfl hpcl
  case status => exact absurd rfl hstatus
  case fsrh n => simp only [regValue, getFsr, hfsr n (.inl rfl)]
  case fsrl n => simp only [regValue, getFsr, hfsr n (.inr rfl)]
  all_goals rfl

theorem regValue_regReadEffect {q r : CoreReg} (h : r = .pcl → q ≠ .pclath ∧ q ≠ .pclatu) (s : State) :
    regValue q (regReadEffect r s) = regValue q s := by
  by_cases hr : r = .pcl
  · obtain ⟨hh, hu⟩ := h hr
    subst hr
    cases q
    case pclath => exact absurd rfl hh
    case pclatu => exact absurd rfl hu
    all_goals rfl
  · rw [regReadEffect_of_ne_pcl hr]

/-- `q` is no byte of the FSR that a raw address goes through. -/
abbrev NotOfPointer (q : CoreReg) (raw : DataAddr) : Prop :=
  ∀ n m, place raw = .indirect n m → q ≠ .fsrh n ∧ q ≠ .fsrl n

theorem NotOfPointer.direct {q : CoreReg} {raw : DataAddr} (h : NotOfPointer q raw) {n : FsrIx}
    (hn : q = .fsrh n ∨ q = .fsrl n) (m : IndirectMode) : place raw ≠ .indirect n m :=
  fun e => hn.elim (h n m e).1 (h n m e).2

theorem regValue_accessState {q : CoreReg} {raw : DataAddr} (hpcl : q ≠ .pcl) (hstatus : q ≠ .status)
    (hfsr : NotOfPointer q raw) (k : Nat) (s : State) : regValue q (accessState k raw s) = regValue q s := by
  rw [accessState_eq]
  exact regValue_of_fsr hpcl hstatus fun n hn => accessState_get (hfsr.direct hn) k s

section
variable {f : Byte} {a : Bool} {s u : State} {r : CoreReg}

theorem afterRead_of_reg (hp : place (effAddr f a s) = .reg r) :
    afterRead f a s = regReadEffect r (accessState 2 (rawAddr f a s) s) := by
  rw [afterRead, readEffect, hp]

/-- Before the store to a register only PC, the FSR of the operand and the latches can have changed. -/
theorem source_of_reg (hp : place (effAddr f a s) = .reg r)
    (hu : u = afterRead f a s ∨ u = accessState 2 (rawAddr f a s) s) :
    ∃ pc fsr pclath pclatu, u = { s with pc := pc, fsr := fsr, pclath := pclath, pclatu := pclatu } := by
  obtain rfl | rfl := hu
  · rw [afterRead_of_reg hp, regReadEffect_eq, accessState_eq]
    exact ⟨_, _, _, _, rfl⟩
  · rw [accessState_eq]
    exact ⟨_, _, _, _, rfl⟩

theorem regValue_source {q : CoreReg} (hp : place (effAddr f a s) = .reg r)
    (hu : u = afterRead f a s ∨ u = accessState 2 (rawAddr f a s) s) (hpcl : q ≠ .pcl) (hstatus : q ≠ .status)
    (hlatch : r = .pcl → q ≠ .pclath ∧ q ≠ .pclatu) (hfsr : NotOfPointer q (rawAddr f a s)) :
    regValue q u = regValue q s := by
  have haccess := regValue_accessState hpcl hstatus hfsr 2 s
  obtain rfl | rfl := hu
  · rw [afterRead_of_reg hp, regValue_regReadEffect hlatch, haccess]
  · exact haccess

end

theorem regValue_postUpdate {q : CoreReg} {raw : DataAddr} (hpcl : q ≠ .pcl) (hstatus : q ≠ .status)
    (hfsr : NotOfPointer q raw) (pc : ProgAddr) (status : Flags) (s : State) :
    regValue q { postUpdate raw s with pc := pc, status := status } = regValue q s := by
  have hpost := regValue_of_fsr (s := s) (pc := pc) (status := status) (fsr := (postUpdate raw s).fsr) hpcl hstatus
    fun n hn => postUpdate_get (hfsr.direct hn)
  rwa [postUpdate_eq]

/-- Settles O30: the value of `q` goes unchanged through the access, the write of `r` and the FSR update; the other parts
are fields that a write of a register does not reach. -/
theorem frameRegisterWrite : Obligations.FrameRegisterWrite := by
  intro f b a s t i r hi hp h
  obtain ⟨v, u, pc, status, hu, rfl⟩ := stores_of_mem_writerInstrs hi h
  rw [writeEffect_reg hp]
  refine ⟨fun q hq hpcl hstatus hlatch htos hfsr => ?_, ?_⟩
  · rw [regValue_postUpdate hpcl hstatus hfsr, regValue_regWrite_of_ne q r v u hq hpcl htos,
      regValue_source hp hu hpcl hstatus hlatch hfsr]
  · obtain ⟨_, _, _, _, rfl⟩ := source_of_reg hp hu
    refine ⟨fun x => ramByte_congr x (by simp), by simp, by simp, by simp, by simp, by simp, by simp, by simp, by simp,
      by simp, by simp, by simp, fun n hn => (stackEntry_congr n (postUpdate_stack ..)).trans ?_⟩
    rw [stackEntry_regWrite (by exact hn)]
    rfl

end Sys2Proof.Machine
end

section
/-! The flags that the instructions with a file operand leave alone, wherever STATUS is not where they store. -/

namespace Sys2Proof.Machine

/-! ### Stores -/

/-- Only a write of STATUS changes the flags besides the instruction's own (10_state.md R23). -/
theorem regWrite_status {r : CoreReg} (h : r ≠ .status) (v : Byte) (s : State) :
    (regWrite r v s).status = s.status := by
  cases r
  case status => exact absurd rfl h
  case tosu | tosh | tosl => exact setStackEntry_status ..
  all_goals rfl

theorem writeEffect_status {x : DataAddr} (h : place x ≠ .reg .status) (v : Byte) (s : State) :
    (writeEffect x v s).status = s.status := by
  unfold writeEffect
  split
  case h_2 r hr => exact regWrite_status (fun e => h (e ▸ hr)) v s
  all_goals rfl

theorem destEffect_status {d : Bool} {x : DataAddr} (h : d = true → place x ≠ .reg .status) (v : Byte) (s : State) :
    (destEffect d x v s).status = s.status := by
  cases d
  case false => rfl
  case true => exact writeEffect_status (h rfl) v s

/-! ### The patterns -/

section
variable {f : Byte} {b : BitVec 3} {d a : Bool} {s t : State} {i : Instr}

theorem byteNext_status (hp : d = true → place (effAddr f a s) ≠ .reg .status) (r : Byte) (u : FlagUpdate) :
    (byteNext f d a r u s).status = u.apply s.status := by
  rw [byteNext, postUpdate_status]
  exact congrArg u.apply ((destEffect_status hp r _).trans (afterRead_status f a s))

theorem byteOp_status {op : ByteFn} (hp : d = true → place (effAddr f a s) ≠ .reg .status)
    (h : byteOp op f d a s = .next t) : t.status = (op (operandValue f a s) s.w s.status).2.apply s.status := by
  obtain ⟨_, _, rfl⟩ := byteOp_next_iff.1 h
  exact byteNext_status hp _ _

theorem constOp_status {v : Byte} {u : FlagUpdate} (hp : place (effAddr f a s) ≠ .reg .status)
    (h : constOp v u f a s = .next t) : t.status = u.apply s.status := by
  obtain ⟨_, _, rfl⟩ := constOp_next_iff.1 h
  exact byteNext_status (fun _ => hp) _ _

theorem bitOp_status {op : Byte → Byte → Byte} (hp : place (effAddr f a s) ≠ .reg .status)
    (h : bitOp op f b a s = .next t) : t.status = s.status := by
  obtain ⟨_, _, rfl⟩ := bitOp_next_iff.1 h
  exact byteNext_status (fun _ => hp) _ _

theorem execMovwf_status (hp : place (effAddr f a s) ≠ .reg .status) (h : execMovwf f a s = .next t) :
    t.status = s.status := by
  obtain ⟨_, _, rfl⟩ := execMovwf_next_iff.1 h
  rw [storeNext, postUpdate_status, writeEffect_status hp, accessState_status]

theorem status_of_mem_countInstrs (hp : d = true → place (effAddr f a s) ≠ .reg .status) (hi : i ∈ countInstrs f d a)
    (h : exec i s = .next t) : t.status = s.status := by
  obtain ⟨r, rfl | ⟨n, rfl⟩⟩ := exec_next_of_mem_countInstrs hi h
  all_goals exact byteNext_status hp r noFlags

theorem status_of_mem_testInstrs (hi : i ∈ testInstrs f b a) (h : exec i s = .next t) : t.status = s.status := by
  obtain ⟨_, rfl⟩ | ⟨n, rfl⟩ := exec_next_of_mem_testInstrs hi h
  all_goals exact readNext_status f a s

/-- STATUS stands at FD8h and nowhere else (10_state.md R60). -/
theorem place_ne_status {x : DataAddr} (h : x ≠ 0xFD8#12) : place x ≠ .reg .status :=
  fun hx => h (addr_eq_of_place_reg hx (by decide))

theorem execMovff_status {fs fd : DataAddr} (ht : writeTarget (.movff fs fd) s ≠ some 0xFD8#12)
    (h : execMovff fs fd s = .next t) : t.status = s.status := by
  obtain ⟨_, _, _, _, rfl⟩ := execMovff_next_iff.1 h
  have htarget : resolve fd (preUpdate fs (advance 4 s)) ≠ 0xFD8#12 := by
    rw [preUpdate_advance, resolve_advance]
    exact fun e => ht (congrArg some e)
  rw [postUpdate_status, postUpdate_status, writeEffect_status (place_ne_status htarget)]
  simp

end

/-- Settles O31: the flags of each pattern are its `FlagUpdate` applied to STATUS, and each list names instructions
whose update leaves the flags in question out. -/
theorem flagFrame : Obligations.FlagFrame := by
  intro f b d a s t i h
  refine ⟨fun hp => ⟨?_, ?_, ?_, fun hi => ?_, fun hi => ?_⟩, ?_⟩
  · rintro (rfl | hcount | htest)
    · dsimp only [exec] at h
      exact byteOp_status hp h
    · exact status_of_mem_countInstrs hp hcount h
    · exact status_of_mem_testInstrs htest h
  · intro hd hi
    have hstatus := hp hd
    fin_cases hi <;> dsimp only [exec] at h
    · exact bitOp_status hstatus h
    · exact bitOp_status hstatus h
    · exact bitOp_status hstatus h
    · exact execMovwf_status hstatus h
    · exact constOp_status hstatus h
  · rintro hd rfl
    dsimp only [exec] at h
    exact constOp_status (hp hd) h
  · fin_cases hi <;> dsimp only [exec] at h
    all_goals
      rw [byteOp_status hp h]
      rfl
  · fin_cases hi <;> dsimp only [exec] at h
    all_goals
      rw [byteOp_status hp h]
      rfl
  · rintro fs fd rfl ht
    dsimp only [exec] at h
    exact execMovff_status ht h

end Sys2Proof.Machine
end

section
/-! The skip instructions (41_byte_skip.md, 42_bit_oriented.md): each is one of two patterns, and its condition is said
of the operand's number. -/

namespace Sys2Proof.Machine

section
variable {f : Byte} {d a : Bool} {s : State} {n : Nat} {p : Bool}

/-! ### The skips that only test -/

/-- Only a skip that is taken asks anything of the next word. -/
theorem testSkip_ready {cond : Byte → Byte → Bool} (hr : CanRead f a s) (hp : cond (operandValue f a s) s.w = p)
    (hn : p = true → NextIs n s) :
    testSkip cond f a s = .next (skipped (if p then n else 0) (readNext f a s)) := by
  rw [testSkip_next_iff]
  refine ⟨hr, ?_⟩
  cases p with
  | true => exact .inl ⟨hp, n, hn rfl, rfl⟩
  | false => exact .inr ⟨hp, skipped_zero _⟩

theorem beq_eq_decide_toNat (x y : Byte) : (x == y) = decide (x.toNat = y.toNat) := by
  rw [beq_eq_decide, decide_eq_decide, BitVec.toNat_inj]

/-! ### The skips that count -/

/-- A taken skip leads to the address counted from the skip instruction (41_byte_skip.md R201). -/
theorem afterSkip_eq (n : Nat) (s t : State) :
    afterSkip n s t = { t with pc := BitVec.ofNat 21 (s.pc.toNat + 2 + n) } := by
  have hpc : BitVec.ofNat 21 ((s.pc + 2#21).toNat + n) = BitVec.ofNat 21 (s.pc.toNat + 2 + n) := by
    apply BitVec.eq_of_toNat_eq
    simp
  exact congrArg t.setPc hpc

/-- Where the count can be made it is, and the skip is decided on the result `r`. -/
theorem countSkip_ready {delta : Byte} {cond : Byte → Bool} {r : Byte} (hr : CanRead f a s) (hd : CanStore d f a s)
    (hsum : operandValue f a s + delta = r) (hp : cond r = p) :
    (p = false → countSkip delta cond f d a s = .next (byteNext f d a r noFlags s)) ∧
    (p = true → NextIs n s → countSkip delta cond f d a s =
      .next { byteNext f d a r noFlags s with pc := BitVec.ofNat 21 (s.pc.toNat + 2 + n) }) := by
  subst hsum hp
  constructor
  · intro hstay
    exact countSkip_next_iff.2 ⟨hr, hd, .inl ⟨hstay, rfl⟩⟩
  · intro htaken hn
    exact countSkip_next_iff.2 ⟨hr, hd, .inr ⟨htaken, n, hn, (afterSkip_eq ..).symm⟩⟩

/-- Adding FFh subtracts 1 (41_byte_skip.md R206, R207). -/
theorem add_ff_eq_pred (x : Byte) : x + 0xFF#8 = BitVec.ofInt 8 (x.toNat - 1 : Int) := by
  apply BitVec.eq_of_toNat_eq
  rw [BitVec.toNat_add, BitVec.toNat_ofInt, BitVec.toNat_ofNat]
  omega

theorem add_one_eq_succ (x : Byte) : x + 0x01#8 = BitVec.ofNat 8 (x.toNat + 1) := by
  rw [BitVec.ofNat_add, BitVec.ofNat_toNat, BitVec.setWidth_eq]

theorem bne_eq_decide_ne (x y : Byte) : (x != y) = decide (x ≠ y) := by
  rw [decide_not, ← beq_eq_decide, bne]

end

/-- Settles O26: the six are one pattern, and each condition of the model is that of the operand's number. -/
theorem testSkips : Obligations.TestSkips := by
  intro f b a s n hr
  dsimp only [exec]
  exact ⟨testSkip_ready hr rfl, testSkip_ready hr (beq_eq_decide_toNat ..), testSkip_ready hr rfl,
    testSkip_ready hr (beq_eq_decide_toNat ..), testSkip_ready hr rfl, testSkip_ready hr rfl⟩

/-- Settles O27: the four are one pattern, with the count as a sum modulo 256. -/
theorem countSkips : Obligations.CountSkips := by
  intro f d a s n hr hd
  dsimp only [exec]
  exact ⟨countSkip_ready hr hd (add_ff_eq_pred _) (beq_eq_decide ..),
    countSkip_ready hr hd (add_ff_eq_pred _) (bne_eq_decide_ne ..),
    countSkip_ready hr hd (add_one_eq_succ _) (beq_eq_decide ..),
    countSkip_ready hr hd (add_one_eq_succ _) (bne_eq_decide_ne ..)⟩

end Sys2Proof.Machine
end

section
/-! The bit instructions that write (42_bit_oriented.md): they are one pattern, and what each does to the byte follows
from the bits of its mask. -/

namespace Sys2Proof.Machine

/-- Where the byte can be read and written back, it is, and STATUS gets no update. -/
theorem bitOp_ready {op : Byte → Byte → Byte} {f : Byte} {b : BitVec 3} {a : Bool} {s : State} (hr : CanRead f a s)
    (hw : Writable (effAddr f a s)) :
    bitOp op f b a s = .next (byteNext f true a (op (operandValue f a s) (1#8 <<< b.toNat)) noFlags s) :=
  bitOp_next_iff.2 ⟨hr, hw, rfl⟩

/-! ### The mask -/

section
variable (x : Byte) (b : BitVec 3)

/-- The mask of bit b has that bit and no other (42_bit_oriented.md R221). -/
theorem getLsbD_mask (j : Nat) : (1#8 <<< b.toNat).getLsbD j = decide (j = b.toNat) := by
  have hb : b.toNat < 8 := b.isLt
  rw [← BitVec.twoPow_eq, BitVec.getLsbD_twoPow]
  simp [hb, eq_comm]

theorem bits_clear : Bits (x &&& (0xFF#8 ^^^ 1#8 <<< b.toNat)) fun j => if j = b.toNat then false else x.getLsbD j := by
  intro j hj
  have hmask : (0xFF#8 ^^^ 1#8 <<< b.toNat).getLsbD j = !(1#8 <<< b.toNat).getLsbD j := by
    rw [BitVec.xor_comm]
    exact bits_complement _ j hj
  rw [BitVec.getLsbD_and, hmask, getLsbD_mask]
  by_cases hjb : j = b.toNat <;> simp [hjb]

theorem bits_set : Bits (x ||| 1#8 <<< b.toNat) fun j => if j = b.toNat then true else x.getLsbD j := by
  intro j _
  rw [BitVec.getLsbD_or, getLsbD_mask]
  by_cases hjb : j = b.toNat <;> simp [hjb]

theorem bits_toggle : Bits (x ^^^ 1#8 <<< b.toNat) fun j => x.getLsbD j != decide (j = b.toNat) := by
  intro j _
  rw [BitVec.getLsbD_xor, getLsbD_mask]

end

/-- Settles O25: the three are one pattern, and each combines the byte with the mask of bit b. -/
theorem bitWrites : Obligations.BitWrites := by
  intro f b a s
  dsimp only [exec]
  exact ⟨encodeBit_word .., encodeBit_word .., encodeBit_word .., fun hr hw =>
    ⟨⟨_, bits_clear _ b, bitOp_ready hr hw⟩, ⟨_, bits_set _ b, bitOp_ready hr hw⟩,
      ⟨_, bits_toggle _ b, bitOp_ready hr hw⟩⟩⟩

end Sys2Proof.Machine
end

section
/-! The branches, the jump, the calls and the returns (43_control_flow.md): the word of each branch, and the next state of
each instruction in full. -/

namespace Sys2Proof.Machine

/-! ### Words -/

/-- The word of formats LIT8 and BR8 as a number (30_encoding.md R121). -/
theorem encodeK_word (op : BitVec 8) (k : Byte) : encodeK op k = [BitVec.ofNat 16 (op.toNat * 256 + k.toNat)] :=
  congrArg ([·]) (append_eq_ofNat op k)

/-- The word of format BR11 as a number (30_encoding.md R121). -/
theorem encodeN11_word (op : BitVec 5) (n : BitVec 11) :
    encodeN11 op n = [BitVec.ofNat 16 (op.toNat * 2048 + n.toNat)] :=
  congrArg ([·]) (append_eq_ofNat op n)

theorem secondWord_eq (x : BitVec 12) : secondWord x = BitVec.ofNat 16 (0xF000 + x.toNat) :=
  append_eq_ofNat 0xF#4 x

/-- The low 8 bits of the literal of GOTO stand in its first word, the high 12 in its second (30_encoding.md R123). -/
theorem encode_goto_words (k : BitVec 20) : EncodedAs (.goto k) [0xEF00 + k.toNat % 256, 0xF000 + k.toNat / 256] := by
  have hlow : (k.extractLsb' 0 8).toNat = k.toNat % 256 := BitVec.extractLsb'_toNat ..
  have hhigh : (k.extractLsb' 8 12).toNat = k.toNat / 256 := by
    have hk := k.isLt
    rw [BitVec.extractLsb'_toNat, Nat.shiftRight_eq_div_pow]
    omega
  rw [EncodedAs, encode, append_eq_ofNat, secondWord_eq, hlow, hhigh]
  rfl

/-! ### Branches and jumps -/

section
variable (s : State)

theorem pcPlus_two : pcPlus 2 s = s.pc + 2#21 := (branchTarget_eq (by decide) 0#1 s).symm.trans (BitVec.add_zero _)

/-- A conditional branch, on the signed offset (30_encoding.md R123). -/
theorem branchIf_eq (p : Bool) (n : BitVec 8) :
    branchIf p n s = .next { s with pc := if p then pcPlus (2 + 2 * n.toInt) s else pcPlus 2 s } := by
  cases p
  · rw [pcPlus_two]
    rfl
  · rw [← branchTarget_eq (by decide)]
    rfl

theorem exec_bra (n : BitVec 11) : exec (.bra n) s = .next { s with pc := pcPlus (2 + 2 * n.toInt) s } := by
  rw [← branchTarget_eq (by decide)]
  rfl

theorem exec_goto (k : BitVec 20) : exec (.goto k) s = .next { s with pc := BitVec.ofNat 21 (2 * k.toNat) } := by
  rw [← wordAddr_eq]
  rfl

end

/-- Settles O39: the eight conditional branches are one pattern, each with its own flag. -/
theorem branches : Obligations.Branches := by
  intro n m k s
  exact ⟨⟨encodeK_word .., branchIf_eq ..⟩, ⟨encodeK_word .., branchIf_eq ..⟩, ⟨encodeK_word .., branchIf_eq ..⟩,
    ⟨encodeK_word .., branchIf_eq ..⟩, ⟨encodeK_word .., branchIf_eq ..⟩, ⟨encodeK_word .., branchIf_eq ..⟩,
    ⟨encodeK_word .., branchIf_eq ..⟩, ⟨encodeK_word .., branchIf_eq ..⟩, ⟨encodeN11_word .., exec_bra ..⟩,
    ⟨encode_goto_words k, exec_goto ..⟩⟩

/-! ### Calls -/

/-- A sequence whose first part is known to answer `a` goes on from `a`. -/
theorem andThen_of_eq_next {α β : Type} {r : Res α} {a : α} (h : r = .next a) (k : α → Res β) : andThen r k = k a := by
  rw [h, andThen_next]

section
variable {s : State}

/-- CALL where the stack has room: a push of the address after its two words, then what the fast form saves, then the
jump (43_control_flow.md R237). -/
theorem exec_call_of_room (k : BitVec 20) (fast : Bool) (hroom : s.sp.toNat < Config.stackDepth) :
    ∃ t, exec (.call k fast) s = .next t ∧ Pushed (s.pc + 4#21) s t ∧
      t = { s with
        pc := BitVec.ofNat 21 (2 * k.toNat), sp := t.sp, stack := t.stack
        shadow := if fast then ⟨s.w, s.status, s.bsr⟩ else s.shadow } := by
  obtain ⟨u, hpush, hpushed, hu⟩ := push_spec (s.pc + 4#21) (advance 4 s) hroom
  refine ⟨(if fast then saveShadow u else u).setPc (wordAddr k), ?_, ?_, ?_⟩
  · exact andThen_of_eq_next hpush _
  · cases fast <;> exact hpushed
  · rw [hu, wordAddr_eq]
    cases fast <;> rfl

/-- RCALL where the stack has room (43_control_flow.md R236). -/
theorem exec_rcall_of_room (n : BitVec 11) (hroom : s.sp.toNat < Config.stackDepth) :
    ∃ t, exec (.rcall n) s = .next t ∧ Pushed (s.pc + 2#21) s t ∧
      t = { s with pc := pcPlus (2 + 2 * n.toInt) s, sp := t.sp, stack := t.stack } := by
  obtain ⟨u, hpush, hpushed, hu⟩ := push_spec (s.pc + 2#21) (advance 2 s) hroom
  refine ⟨u.setPc (branchTarget n (s.pc + 2#21)), ?_, hpushed, ?_⟩
  · exact andThen_of_eq_next hpush _
  · rw [hu, branchTarget_eq (by decide)]
    rfl

end

/-- Settles O40: each of the three is a push, after which CALL and RCALL load PC. -/
theorem calls : Obligations.Calls := by
  intro k fast n s hroom
  exact ⟨exec_call_of_room k fast hroom, exec_rcall_of_room n hroom, push_spec (s.pc + 2#21) (advance 2 s) hroom⟩

/-! ### Returns -/

section
variable {s : State}

/-- The return address comes off the stack into PC, bit 0 cleared (43_control_flow.md R239). -/
theorem returnFromCall_of_sp_ne_zero (hsp : s.sp ≠ 0#5) :
    returnFromCall s = .next { s with pc := evenPc (stackEntry s.sp s).toNat, sp := s.sp - 1#5 } := by
  rw [evenPc_toNat]
  exact returnFromCall_next_iff.2 ⟨hsp, rfl⟩

theorem exec_ret_of_sp_ne_zero (fast : Bool) (hsp : s.sp ≠ 0#5) :
    exec (.ret fast) s =
      let u := { s with pc := evenPc (stackEntry s.sp s).toNat, sp := s.sp - 1#5 }
      .next (if fast then restoreShadow u else u) :=
  andThen_of_eq_next (returnFromCall_of_sp_ne_zero (s := advance 2 s) hsp) _

theorem exec_pop_of_sp_ne_zero (hsp : s.sp ≠ 0#5) :
    exec .pop s = .next { s with pc := s.pc + 2#21, sp := s.sp - 1#5 } :=
  andThen_of_eq_next (pop_next_iff (s := advance 2 s).2 ⟨hsp, rfl⟩) _

end

/-- Settles O41: the four take the top entry off the stack, and RETURN 1 and RETLW load the registers besides. -/
theorem returns : Obligations.Returns := by
  intro k s hsp
  exact ⟨exec_ret_of_sp_ne_zero false hsp, exec_ret_of_sp_ne_zero true hsp,
    returnFromCall_of_sp_ne_zero (s := (advance 2 s).setW k) hsp, exec_pop_of_sp_ne_zero hsp⟩

end Sys2Proof.Machine
end

section
/-! A fast CALL and the fast RETURN that follows it, and the branches and jumps to themselves that end a run. -/

namespace Sys2Proof.Machine

/-! ### A call and its return -/

/-- A CALL that answers a state found room on the stack (10_state.md R36). -/
theorem room_of_exec_call {k : BitVec 20} {fast : Bool} {s t : State} (h : exec (.call k fast) s = .next t) :
    s.sp.toNat < Config.stackDepth := by
  obtain ⟨u, hpush, -⟩ := andThen_next_iff.1 h
  exact (push_next_iff.1 hpush).1

section
variable {v : ProgAddr} {s t : State} (h : Pushed v s t)
include h

theorem Pushed.sp_ne_zero : t.sp ≠ 0#5 := by
  obtain ⟨hsp, -, -⟩ := h
  intro h0
  simp [h0] at hsp

/-- A pop gives the pointer back that a push has moved. -/
theorem Pushed.sp_pred : t.sp - 1#5 = s.sp := by
  obtain ⟨hsp, -, -⟩ := h
  bv_omega

/-- No entry at or below the old top is the one a push writes. -/
theorem Pushed.stackEntry_of_le {n : BitVec 5} (hn : n.toNat ≤ s.sp.toNat) : stackEntry n t = stackEntry n s := by
  obtain ⟨hsp, -, hother⟩ := h
  refine hother n ?_
  rintro rfl
  omega

end

theorem pc_add_four_even {p : ProgAddr} (h : p.getLsbD 0 = false) : (p + 4#21).getLsbD 0 = false := by
  simp only [BitVec.getLsbD, Nat.testBit_zero, decide_eq_false_iff_not] at h ⊢
  rw [BitVec.toNat_add, BitVec.toNat_ofNat]
  omega

/-- Settles O44: the return pops what the call has pushed, an even address, and the fast forms save and restore the
three registers. -/
theorem callThenReturn : Obligations.CallThenReturn := by
  intro k s t u heven hcall hret
  obtain ⟨t', hcall', hpushed, ht⟩ := exec_call_of_room k true (room_of_exec_call hcall)
  obtain rfl : t = t' := Host.Outcome.next.inj (hcall.symm.trans hcall')
  have hu := Host.Outcome.next.inj (hret.symm.trans (exec_ret_of_sp_ne_zero true hpushed.sp_ne_zero))
  have ⟨_, htop, _⟩ := hpushed
  rw [htop, evenPc_toNat, evenAddr_of_even (pc_add_four_even heven), hpushed.sp_pred] at hu
  refine ⟨?_, fun n hn => ?_⟩
  · rw [hu, ht]
    rfl
  · rw [hu]
    exact hpushed.stackEntry_of_le hn

/-! ### The end of a run -/

/-- Where the instruction at PC gives the state back, the machine stays (70_reset_and_hazards.md R395). -/
theorem quiescent_of_exec_eq {s : State} {i : Instr} (hnext : InstrNext s) (hwf : i.wf = true) (hat : InstrAtPc i s)
    (hexec : exec i s = .next s) : Quiescent s :=
  ((stepRunsInstruction s i hnext).2 hwf hat).trans hexec

/-- BRA by -1 word goes to itself. -/
theorem exec_bra_self (s : State) : exec (.bra 0x7FF#11) s = .next s := by
  have hpc : pcPlus (2 + 2 * (0x7FF#11).toInt) s = s.pc := by
    rw [show 2 + 2 * (0x7FF#11).toInt = 0 from rfl, pcPlus, Int.add_zero, BitVec.ofInt_natCast, BitVec.ofNat_toNat,
      BitVec.setWidth_eq]
  rw [exec_bra, hpc]

/-- GOTO to the address it stands at goes to itself. -/
theorem exec_goto_self {k : BitVec 20} {s : State} (hk : 2 * k.toNat = s.pc.toNat) : exec (.goto k) s = .next s := by
  rw [exec_goto, hk, BitVec.ofNat_toNat, BitVec.setWidth_eq]

/-- Settles O60: D7FFh is BRA by -1 word, and both give the state back. -/
theorem endOfRun : Obligations.EndOfRun := by
  intro s hnext
  exact ⟨fun hbytes => quiescent_of_exec_eq (i := .bra 0x7FF#11) hnext rfl hbytes (exec_bra_self s),
    fun k hk hat => quiescent_of_exec_eq hnext rfl hat (exec_goto_self hk)⟩

end Sys2Proof.Machine
end

section
/-! NOP, CLRWDT and SLEEP (44_control_system.md): what setting TO and PD does to each bit of RCON, and the next state of
each instruction in full. -/

namespace Sys2Proof.Machine

/-! ### Bits of RCON -/

/-- A merge takes the bits that the mask names from the new value and the others from the old one. -/
theorem getLsbD_merge {j : Nat} (mask v old : Byte) (hj : j < 8) :
    (merge mask v old).getLsbD j = if mask.getLsbD j then v.getLsbD j else old.getLsbD j := by
  rw [merge, BitVec.getLsbD_or, BitVec.getLsbD_and, BitVec.getLsbD_and, BitVec.getLsbD_not]
  cases mask.getLsbD j <;> simp [hj]

/-- TO is bit 3 of RCON and PD bit 2 (10_state.md R41; log 26). -/
theorem bits_setToPd (toBit pdBit : Bool) (s : State) :
    Bits (setToPd toBit pdBit s).rcon fun j => if j = 3 then toBit else if j = 2 then pdBit else s.rcon.getLsbD j := by
  intro j hj
  refine (getLsbD_merge _ _ _ hj).trans ?_
  simp only [BitVec.getLsbD_append]
  interval_cases j <;> simp

/-! ### The instructions -/

section
variable (s : State)

/-- CLRWDT in full (44_control_system.md R262). -/
theorem exec_clrwdt : exec .clrwdt s = .next { s with
    pc := s.pc + 2#21, wdt := { s.wdt with counter := 0, scaler := 0 }, rcon := (setToPd true true s).rcon } := rfl

/-- SLEEP in full (44_control_system.md R267). -/
theorem exec_sleep : exec .sleep s = .next { s with
    pc := s.pc + 2#21, wdt := { s.wdt with counter := 0, scaler := 0 }, rcon := (setToPd true false s).rcon
    sleeping := true } := rfl

end

/-- Settles O45: NOP is the advance of PC alone, and the RCON that CLRWDT and SLEEP leave has its bits by
`bits_setToPd`. -/
theorem systemControl : Obligations.SystemControl := by
  intro x s
  exact ⟨rfl, congrArg ([·]) (secondWord_eq x), rfl, rfl, rfl, rfl, ⟨_, bits_setToPd true true s, exec_clrwdt s⟩,
    ⟨_, bits_setToPd true false s, exec_sleep s⟩⟩

end Sys2Proof.Machine
end

section
/-! The literal instructions (45_literal.md): those on W are one pattern, so that each comes down to what its operation
computes; the products; and the loads of FSR0 to FSR2 and BSR. -/

namespace Sys2Proof.Machine

/-! ### The pattern of W and a literal -/

/-- The pattern of 45_literal.md R280 in full, on what its operation computes. -/
theorem literalOp_of_eq {op : ByteFn} {k : Byte} {s : State} {r : Byte} {u : FlagUpdate}
    (h : op k s.w s.status = (r, u)) : literalOp op k s = .next (literalNext r u s) := by
  rw [literalOp, h]
  rfl

/-- Settles O14: ADDLW is one `add8`, SUBLW adds the complement of W to k. -/
theorem arithmeticLiterals : Obligations.ArithmeticLiterals := by
  intro k s
  dsimp only [exec]
  exact ⟨literalOp_of_eq (add8_eq_sumOf ..), literalOp_of_eq (add8_complement _ _ true)⟩

/-- Settles O15: the bits of the results by the library's laws of bit vectors, the flags by `resultZN_eq`; MOVLW is the
pattern with no flag written. -/
theorem logicLiterals : Obligations.LogicLiterals := by
  intro k s
  dsimp only [exec]
  exact ⟨encodeK_word .., encodeK_word .., encodeK_word .., encodeK_word ..,
    ⟨_, fun _ _ => BitVec.getLsbD_and, literalOp_of_eq (resultZN_eq _)⟩,
    ⟨_, fun _ _ => BitVec.getLsbD_or, literalOp_of_eq (resultZN_eq _)⟩,
    ⟨_, fun _ _ => BitVec.getLsbD_xor, literalOp_of_eq (resultZN_eq _)⟩,
    rfl⟩

/-! ### Products -/

/-- The two halves of a 16-bit number make it up again. -/
theorem toNat_halves (p : Word) : (p.extractLsb' 8 8).toNat * 256 + (p.extractLsb' 0 8).toNat = p.toNat := by
  have hp := p.isLt
  rw [BitVec.extractLsb'_toNat, BitVec.extractLsb'_toNat, Nat.shiftRight_eq_div_pow]
  omega

/-- The product of two bytes fits 16 bits. -/
theorem toNat_mul_setWidth (x y : Byte) : (x.setWidth 16 * y.setWidth 16).toNat = x.toNat * y.toNat := by
  have hwidth (z : Byte) : (z.setWidth 16).toNat = z.toNat := BitVec.toNat_setWidth_of_le (by decide)
  have hlt : x.toNat * y.toNat < 2 ^ 8 * 2 ^ 8 := Nat.mul_lt_mul'' x.isLt y.isLt
  rw [BitVec.toNat_mul_of_lt (by rwa [hwidth, hwidth]), hwidth, hwidth]

/-- PRODH:PRODL takes the product whole, and nothing else changes (40_byte_oriented.md R175, 45_literal.md R287). -/
theorem exists_setProduct_eq (x y : Byte) (s : State) : ∃ h l : Byte, h.toNat * 256 + l.toNat = x.toNat * y.toNat ∧
    setProduct x y s = { s with prodh := h, prodl := l } :=
  ⟨_, _, (toNat_halves _).trans (toNat_mul_setWidth x y), rfl⟩

/-- MULWF wherever f can be read (40_byte_oriented.md R175). -/
theorem execMulwf_ready {f : Byte} {a : Bool} {s : State} (hr : CanRead f a s) :
    execMulwf f a s = .next (setProduct s.w (operandValue f a s) (readNext f a s)) := by
  have hnext := execMulwf_next_iff.2 ⟨hr, rfl⟩
  rw [← execMulwf_next hnext]
  exact hnext

/-- Settles O16: both instructions are `setProduct`, MULLW after the advance of PC and MULWF after the read of f. -/
theorem products : Obligations.Products := by
  intro k f a s
  refine ⟨encodeK_word .., encodeFa_word .., ?_, fun hr => ?_⟩
  · obtain ⟨h, l, hprod, heq⟩ := exists_setProduct_eq s.w k (advance 2 s)
    exact ⟨h, l, hprod, congrArg _ heq⟩
  · obtain ⟨h, l, hprod, heq⟩ := exists_setProduct_eq s.w (operandValue f a s) (readNext f a s)
    exact ⟨h, l, hprod, (execMulwf_ready hr).trans (congrArg _ heq)⟩

/-! ### Pointers and the bank -/

/-- LFSR in full where its field names an FSR (45_literal.md R284). -/
theorem exec_lfsr_of_some {ff : BitVec 2} {n : FsrIx} (h : fsrOfField ff = some n) (k : BitVec 12) (s : State) :
    exec (.lfsr ff k) s = .next { s with pc := s.pc + 4#21, fsr := s.fsr.put n k } := by
  dsimp only [exec]
  rw [execLfsr, h]
  rfl

/-- LFSR is refused where its field names none (decision D5). -/
theorem exec_lfsr_of_none {ff : BitVec 2} (h : fsrOfField ff = none) (k : BitVec 12) (s : State) :
    exec (.lfsr ff k) s = .refused .reservedForm := by
  dsimp only [exec]
  rw [execLfsr, h]

/-- Settles O17: the four values of the field by the two lemmas above; MOVLB is an advance and a write of BSR. -/
theorem pointerLiterals : Obligations.PointerLiterals := by
  intro s k b
  exact ⟨exec_lfsr_of_some (n := .f0) rfl k s, exec_lfsr_of_some (n := .f1) rfl k s,
    exec_lfsr_of_some (n := .f2) rfl k s, exec_lfsr_of_none rfl k s, rfl⟩

end Sys2Proof.Machine
end

section
/-! TBLRD (46_table.md section 2): the wrap of TBLPTR as a number, and the next state of a table read in full, on the
byte that it finds. -/

namespace Sys2Proof.Machine

/-! ### TBLPTR modulo 2^21 -/

theorem progAddr_succ (a : ProgAddr) : a + 1#21 = BitVec.ofNat 21 (a.toNat + 1) := by bv_omega

/-- One back is 2^21 - 1 further (46_table.md R301, decision D21). -/
theorem progAddr_pred (a : ProgAddr) : a - 1#21 = BitVec.ofNat 21 (a.toNat + 2097151) := by bv_omega

/-! ### Table reads -/

section
variable {m : TableMode} {s : State}

/-- A table read in full where the address it uses has a byte (46_table.md R301 to R305). -/
theorem tableRead_of_progRead {v : Byte} (h21 : s.tblptr21 = false) (hv : progRead (tableAddr m s) s = some v) :
    tableRead m s = .next { s with pc := s.pc + 2#21, tablat := v, tblptr := tableNext m s } :=
  tableRead_next_iff.2 ⟨h21, v, hv, rfl⟩

end

/-- Settles O49: the first three modes read the byte at TBLPTR and so share its value, TBLRD+* reads the one after. -/
theorem tableReads : Obligations.TableReads := by
  intro s h21
  rw [← progAddr_succ, ← progAddr_pred]
  refine ⟨fun hat => ?_, fun hnext => ?_⟩
  · obtain ⟨v, hv⟩ := Option.isSome_iff_exists.1 (progRead_isSome s.tblptr s hat)
    exact ⟨v, hv, tableRead_of_progRead (m := .none) h21 hv, tableRead_of_progRead (m := .postInc) h21 hv,
      tableRead_of_progRead (m := .postDec) h21 hv⟩
  · obtain ⟨v, hv⟩ := Option.isSome_iff_exists.1
      (progRead_isSome (s.tblptr + 1#21) s (by rwa [BitVec.toNat_add]))
    exact ⟨v, hv, tableRead_of_progRead (m := .preInc) h21 hv⟩

end Sys2Proof.Machine
end

section
/-! The invariant of the machine (State.Inv): every operation on the state keeps it, each by its own lemma, and from them
every execution pattern, every instruction and every step. -/

namespace Sys2Proof.Machine

/-! ### Unimplemented bits -/

section
variable {m x y v : Byte}

theorem and_mask_within : (x &&& m) &&& ~~~m = 0#8 := by
  rw [BitVec.and_assoc, BitVec.and_not_self]
  exact BitVec.and_zero

theorem and_within (hx : x &&& ~~~m = 0#8) : (x &&& y) &&& ~~~m = 0#8 := by
  rw [BitVec.and_assoc, BitVec.and_comm y, ← BitVec.and_assoc, hx, BitVec.zero_and]

theorem or_within (hx : x &&& ~~~m = 0#8) (hy : y &&& ~~~m = 0#8) : (x ||| y) &&& ~~~m = 0#8 := by
  rw [BitVec.and_or_distrib_right, hx, hy, BitVec.or_zero]

/-- A merge stays within the implemented bits where both of its parts do. -/
theorem merge_within (hv : v &&& ~~~m = 0#8) (hx : x &&& ~~~m = 0#8) : merge y v x &&& ~~~m = 0#8 :=
  or_within (and_within hv) (and_within hx)

end

/-! ### The parts of the invariant -/

/-- The unimplemented bits of the interrupt registers are 0, and RBIF is 1 while the PORTB mismatch lasts
(60_exceptions.md R331, R332). -/
structure IrqRegs.Wf (r : IrqRegs) : Prop where
  intcon2 : r.intcon2 &&& ~~~maskIntcon2 = 0#8
  intcon3 : r.intcon3 &&& ~~~maskIntcon3 = 0#8
  pir1 : r.pir1 &&& ~~~mask1 = 0#8
  pie1 : r.pie1 &&& ~~~mask1 = 0#8
  ipr1 : r.ipr1 &&& ~~~mask1 = 0#8
  pir2 : r.pir2 &&& ~~~mask2 = 0#8
  pie2 : r.pie2 &&& ~~~mask2 = 0#8
  ipr2 : r.ipr2 &&& ~~~mask2 = 0#8
  mismatch : r.rbMismatch = true → r.intcon.getLsbD 0 = true

/-- What the invariant asks of RCON and the sleep: unimplemented bits 0, and asleep TO = 1, PD = 0 and no wake-up under
way (10_state.md R61; 44_control_system.md R267). -/
structure SleepWf (rcon : Byte) (sleeping waking : Bool) : Prop where
  within : rcon &&& ~~~maskRcon = 0#8
  asleep : sleeping = true → rcon.getLsbD 3 = true ∧ rcon.getLsbD 2 = false ∧ waking = false

/-- The invariant by its parts: PC, the two memories, the interrupt registers, and RCON with the sleep. -/
theorem State.inv_iff (s : State) :
    s.Inv ↔ s.pc.getLsbD 0 = false ∧ Memory.wf ramUnlisted Config.ramBytes s.ram ∧
      Memory.wf progUnlisted Config.progBytes s.prog ∧ s.irq.Wf ∧ SleepWf s.rcon s.sleeping s.waking := by
  constructor
  · rintro ⟨hpc, hram, hprog, ⟨h2, h3⟩, ⟨hf1, he1, hp1⟩, ⟨hf2, he2, hp2⟩, hrcon, hsleep, hmismatch⟩
    exact ⟨hpc, hram, hprog, ⟨h2, h3, hf1, he1, hp1, hf2, he2, hp2, hmismatch⟩, ⟨hrcon, hsleep⟩⟩
  · rintro ⟨hpc, hram, hprog, ⟨h2, h3, hf1, he1, hp1, hf2, he2, hp2, hmismatch⟩, ⟨hrcon, hsleep⟩⟩
    exact ⟨hpc, hram, hprog, ⟨h2, h3⟩, ⟨hf1, he1, hp1⟩, ⟨hf2, he2, hp2⟩, hrcon, hsleep, hmismatch⟩

section
variable {s t : State}

theorem State.Inv.irq_wf (hs : s.Inv) : s.irq.Wf := by
  obtain ⟨_, _, _, hirq, _⟩ := s.inv_iff.1 hs
  exact hirq

theorem State.Inv.sleep_wf (hs : s.Inv) : SleepWf s.rcon s.sleeping s.waking := by
  obtain ⟨_, _, _, _, hsleep⟩ := s.inv_iff.1 hs
  exact hsleep

/-- The fields that the invariant speaks of may change one part at a time. -/
theorem State.Inv.setPc (hs : s.Inv) {p : ProgAddr} (hp : p.getLsbD 0 = false) : (s.setPc p).Inv :=
  ⟨hp, hs.2⟩

theorem State.Inv.setIrq (hs : s.Inv) {r : IrqRegs} (hr : r.Wf) : (s.setIrq r).Inv := by
  obtain ⟨hpc, hram, hprog, _, hsleep⟩ := s.inv_iff.1 hs
  exact (State.inv_iff _).2 ⟨hpc, hram, hprog, hr, hsleep⟩

/-- RCON, `sleeping` and `waking` change together, since the invariant ties them. -/
theorem State.Inv.setSleep (hs : s.Inv) {rcon : Byte} {sleeping waking : Bool} (h : SleepWf rcon sleeping waking) :
    State.Inv { s with rcon := rcon, sleeping := sleeping, waking := waking } := by
  obtain ⟨hpc, hram, hprog, hirq, _⟩ := s.inv_iff.1 hs
  exact (State.inv_iff _).2 ⟨hpc, hram, hprog, hirq, h⟩

/-- Awake, the invariant asks of RCON only its unimplemented bits. -/
theorem SleepWf.awake {rcon : Byte} (h : rcon &&& ~~~maskRcon = 0#8) (waking : Bool) : SleepWf rcon false waking :=
  ⟨h, fun hf => absurd hf Bool.false_ne_true⟩

/-- A core that is awake, or has just woken, meets the invariant whatever wake-up is under way. -/
theorem State.Inv.wake (hs : s.Inv) (waking : Bool) : State.Inv { s with sleeping := false, waking := waking } :=
  hs.setSleep (.awake hs.sleep_wf.within waking)

end

/-! ### PC -/

theorem getLsbD_zero_eq_false_iff (p : ProgAddr) : p.getLsbD 0 = false ↔ p.toNat % 2 = 0 := by
  rw [BitVec.getLsbD, Nat.testBit_zero, decide_eq_false_iff_not]
  omega

/-- An even number of bytes further PC is even (10_state.md R31). -/
theorem add_even {p q : ProgAddr} (hp : p.getLsbD 0 = false) (hq : q.getLsbD 0 = false) :
    (p + q).getLsbD 0 = false := by
  rw [getLsbD_zero_eq_false_iff] at hp hq ⊢
  rw [BitVec.toNat_add]
  omega

theorem branchTarget_even {k : Nat} (n : BitVec k) {p : ProgAddr} (hp : p.getLsbD 0 = false) :
    (branchTarget n p).getLsbD 0 = false :=
  add_even hp (by simp)

theorem wordAddr_even (k : BitVec 20) : (wordAddr k).getLsbD 0 = false := by
  rw [wordAddr, BitVec.getLsbD_append]
  rfl

theorem skippedBytes_even {w : Word} {n : Nat} (h : skippedBytes w = some n) : n = 2 ∨ n = 4 := by
  unfold skippedBytes at h
  split at h
  · split at h
    · cases h
    · exact .inr (Option.some.inj h).symm
  · split at h
    · exact .inl (Option.some.inj h).symm
    · cases h

/-! ### The operations of an access to data -/

section
variable {s : State}

theorem State.Inv.advance_two (hs : s.Inv) : (advance 2 s).Inv := hs.setPc (add_even hs.1 rfl)

theorem State.Inv.advance_four (hs : s.Inv) : (advance 4 s).Inv := hs.setPc (add_even hs.1 rfl)

theorem State.Inv.preUpdate (hs : s.Inv) (raw : DataAddr) : (preUpdate raw s).Inv := by
  rw [preUpdate_eq]
  exact hs

theorem State.Inv.postUpdate (hs : s.Inv) (raw : DataAddr) : (postUpdate raw s).Inv := by
  rw [postUpdate_eq]
  exact hs

theorem State.Inv.setStackEntry (hs : s.Inv) (n : BitVec 5) (v : ProgAddr) : (setStackEntry n v s).Inv := by
  rw [setStackEntry_eq]
  exact hs

theorem State.Inv.accessState (hs : s.Inv) (raw : DataAddr) : (accessState 2 raw s).Inv := hs.advance_two.preUpdate raw

/-- No read starts a PORTB mismatch (60_exceptions.md R332). -/
theorem mismatch_of_readEffect {a : DataAddr} (h : (readEffect a s).irq.rbMismatch = true) :
    s.irq.rbMismatch = true := by
  have hdevice : (deviceReadEffect a s).irq.rbMismatch = true → s.irq.rbMismatch = true := by
    unfold deviceReadEffect
    split
    · exact fun hf => absurd hf Bool.false_ne_true
    · exact id
  unfold readEffect at h
  split at h
  case h_2 => rwa [regReadEffect_irq] at h
  case h_4 | h_5 => exact hdevice h
  all_goals exact h

/-- A read ends at most the PORTB mismatch (60_exceptions.md R332). -/
theorem State.Inv.readEffect (hs : s.Inv) (a : DataAddr) : (readEffect a s).Inv := by
  have hwf : (Machine.readEffect a s).irq.Wf := by
    have hirq := hs.irq_wf
    rw [readEffect_irq]
    refine { hirq with mismatch := fun h => hirq.mismatch ?_ }
    exact mismatch_of_readEffect h
  rw [readEffect_eq]
  exact hs.setIrq hwf

/-- A store to an interrupt register keeps its unimplemented bits 0, and RBIF 1 while the mismatch lasts; TO and PD of RCON
take no store (10_state.md R61; 60_exceptions.md R331). -/
theorem State.Inv.regWrite (hs : s.Inv) (r : CoreReg) (v : Byte) : (regWrite r v s).Inv := by
  have hirq := hs.irq_wf
  have hsleep := hs.sleep_wf
  cases r
  case tosu | tosh | tosl => exact hs.setStackEntry _ _
  case pcl => exact hs.setPc (evenAddr_even _)
  case intcon =>
    refine hs.setIrq { hirq with mismatch := fun h => ?_ }
    dsimp only at h ⊢
    rw [if_pos h]
    simp
  case intcon2 => exact hs.setIrq { hirq with intcon2 := and_mask_within }
  case intcon3 => exact hs.setIrq { hirq with intcon3 := and_mask_within }
  case ipr1 => exact hs.setIrq { hirq with ipr1 := and_mask_within }
  case pir1 => exact hs.setIrq { hirq with pir1 := and_mask_within }
  case pie1 => exact hs.setIrq { hirq with pie1 := and_mask_within }
  case ipr2 => exact hs.setIrq { hirq with ipr2 := and_mask_within }
  case pir2 => exact hs.setIrq { hirq with pir2 := and_mask_within }
  case pie2 => exact hs.setIrq { hirq with pie2 := and_mask_within }
  case rcon =>
    have hkeep (j : Nat) (hj : j = 2 ∨ j = 3) :
        (merge 0x93#8 v s.rcon &&& maskRcon).getLsbD j = s.rcon.getLsbD j := by
      rw [BitVec.getLsbD_and, getLsbD_merge _ _ _ (by omega)]
      obtain rfl | rfl := hj <;> simp [maskRcon]
    refine hs.setSleep ⟨and_mask_within, ?_⟩
    rw [hkeep 3 (.inr rfl), hkeep 2 (.inl rfl)]
    exact hsleep.asleep
  all_goals exact hs

theorem State.Inv.writeEffect (hs : s.Inv) (a : DataAddr) (v : Byte) : (writeEffect a v s).Inv := by
  by_cases hram : place a = .ram
  · rw [writeEffect_ram hram]
    exact ⟨hs.1, ramWrite_wf a v hram hs.2.1, hs.2.2⟩
  · unfold Machine.writeEffect
    split
    case h_1 h => exact absurd h hram
    case h_2 r _ => exact hs.regWrite r v
    all_goals exact hs

theorem State.Inv.destEffect (hs : s.Inv) (d : Bool) (a : DataAddr) (v : Byte) : (destEffect d a v s).Inv := by
  cases d
  · exact hs
  · exact hs.writeEffect a v

theorem State.Inv.readNext (hs : s.Inv) (f : Byte) (a : Bool) : (readNext f a s).Inv :=
  ((hs.accessState _).readEffect _).postUpdate _

theorem State.Inv.byteNext (hs : s.Inv) (f : Byte) (d a : Bool) (r : Byte) (u : FlagUpdate) :
    (byteNext f d a r u s).Inv :=
  State.Inv.postUpdate (s := setFlags u _) (((hs.accessState _).readEffect _).destEffect d _ r) _

theorem State.Inv.storeNext (hs : s.Inv) (f : Byte) (a : Bool) (v : Byte) : (storeNext f a v s).Inv :=
  ((hs.accessState _).writeEffect _ v).postUpdate _

/-- A skip that answers a state has passed over one word or two (41_byte_skip.md R201). -/
theorem State.Inv.skipped {n : Nat} {t : State} (hs : s.Inv) (hn : NextIs n t) : (skipped n s).Inv := by
  rw [← advance_eq_skipped]
  obtain ⟨w, _, hw⟩ := Option.bind_eq_some_iff.1 hn
  obtain rfl | rfl := skippedBytes_even hw
  · exact hs.advance_two
  · exact hs.advance_four

end

/-! ### The patterns -/

section
variable {f : Byte} {d a : Bool} {s t : State} (hs : s.Inv)
include hs

theorem byteOp_inv {op : ByteFn} (h : byteOp op f d a s = .next t) : t.Inv := by
  obtain ⟨_, _, rfl⟩ := byteOp_next_iff.1 h
  exact hs.byteNext ..

theorem constOp_inv {v : Byte} {u : FlagUpdate} (h : constOp v u f a s = .next t) : t.Inv := by
  obtain ⟨_, _, rfl⟩ := constOp_next_iff.1 h
  exact hs.byteNext ..

theorem bitOp_inv {op : Byte → Byte → Byte} {b : BitVec 3} (h : bitOp op f b a s = .next t) : t.Inv := by
  obtain ⟨_, _, rfl⟩ := bitOp_next_iff.1 h
  exact hs.byteNext ..

theorem testSkip_inv {cond : Byte → Byte → Bool} (h : testSkip cond f a s = .next t) : t.Inv := by
  obtain ⟨_, ⟨_, n, hn, rfl⟩ | ⟨_, rfl⟩⟩ := testSkip_next_iff.1 h
  · exact (hs.readNext f a).skipped hn
  · exact hs.readNext f a

theorem countSkip_inv {delta : Byte} {cond : Byte → Bool} (h : countSkip delta cond f d a s = .next t) : t.Inv := by
  obtain ⟨_, _, ⟨_, rfl⟩ | ⟨_, n, hn, rfl⟩⟩ := countSkip_next_iff.1 h
  · exact hs.byteNext ..
  · exact ((hs.byteNext ..).setPc (add_even hs.1 rfl)).skipped hn

theorem execMovwf_inv (h : execMovwf f a s = .next t) : t.Inv := by
  obtain ⟨_, _, rfl⟩ := execMovwf_next_iff.1 h
  exact hs.storeNext ..

theorem execMulwf_inv (h : execMulwf f a s = .next t) : t.Inv := by
  rw [execMulwf_next h]
  exact hs.readNext f a

theorem execMovff_inv {fs fd : DataAddr} (h : execMovff fs fd s = .next t) : t.Inv := by
  obtain ⟨_, _, _, _, rfl⟩ := execMovff_next_iff.1 h
  exact ((((((hs.advance_four).preUpdate fs).preUpdate fd).readEffect _).writeEffect _ _).postUpdate fs).postUpdate fd

theorem branchIf_inv {cond : Bool} {n : BitVec 8} (h : branchIf cond n s = .next t) : t.Inv := by
  obtain rfl := Host.Outcome.next.inj h
  cases cond
  · exact hs.advance_two
  · exact hs.setPc (branchTarget_even n (add_even hs.1 rfl))

theorem push_inv {v : ProgAddr} (h : push v s = .next t) : t.Inv := by
  obtain ⟨_, rfl⟩ := push_next_iff.1 h
  have hsp : (s.setSp (s.sp + 1#5)).Inv := hs
  exact hsp.setStackEntry _ _

theorem returnFromCall_inv (h : returnFromCall s = .next t) : t.Inv := by
  obtain ⟨_, rfl⟩ := returnFromCall_next_iff.1 h
  exact State.Inv.setPc (s := s.setSp _) hs (evenAddr_even _)

theorem State.Inv.enableOnReturn : (enableOnReturn s).Inv := by
  have hirq := hs.irq_wf
  refine hs.setIrq { hirq with mismatch := fun h => ?_ }
  simp [hirq.mismatch h]

theorem tableRead_inv {m : TableMode} (h : tableRead m s = .next t) : t.Inv := by
  obtain ⟨_, _, _, rfl⟩ := tableRead_next_iff.1 h
  exact hs.advance_two

theorem tableWrite_inv {m : TableMode} (h : tableWrite m s = .next t) : t.Inv := by
  obtain ⟨_, rfl⟩ := tableWrite_next_iff.1 h
  exact hs.advance_two

/-! ### The instructions that are no pattern -/

theorem execRcall_inv {n : BitVec 11} (h : execRcall n s = .next t) : t.Inv := by
  obtain ⟨u, hpush, hjump⟩ := andThen_next_iff.1 h
  obtain rfl := Host.Outcome.next.inj hjump
  exact (push_inv hs.advance_two hpush).setPc (branchTarget_even n (add_even hs.1 rfl))

theorem execCall_inv {k : BitVec 20} {fast : Bool} (h : execCall k fast s = .next t) : t.Inv := by
  obtain ⟨u, hpush, hjump⟩ := andThen_next_iff.1 h
  obtain rfl := Host.Outcome.next.inj hjump
  have hu := (push_inv hs.advance_four hpush).setPc (wordAddr_even k)
  cases fast <;> exact hu

theorem execReturn_inv {fast : Bool} (h : execReturn fast s = .next t) : t.Inv := by
  obtain ⟨u, hpop, hrestore⟩ := andThen_next_iff.1 h
  obtain rfl := Host.Outcome.next.inj hrestore
  have hu := returnFromCall_inv hs.advance_two hpop
  cases fast <;> exact hu

theorem execRetfie_inv {fast : Bool} (h : execRetfie fast s = .next t) : t.Inv := by
  obtain ⟨u, hpop, hrestore⟩ := andThen_next_iff.1 h
  obtain rfl := Host.Outcome.next.inj hrestore
  have hu := (returnFromCall_inv hs.advance_two hpop).enableOnReturn
  cases fast <;> exact hu

theorem execPop_inv (h : execPop s = .next t) : t.Inv := by
  obtain ⟨p, hpop, ht⟩ := andThen_next_iff.1 h
  obtain ⟨_, rfl⟩ := pop_next_iff.1 hpop
  obtain rfl := Host.Outcome.next.inj ht
  exact hs.advance_two

theorem execLfsr_inv {ff : BitVec 2} {k : BitVec 12} (h : execLfsr ff k s = .next t) : t.Inv := by
  unfold execLfsr at h
  split at h
  · obtain rfl := Host.Outcome.next.inj h
    exact hs.advance_four
  · cases h

theorem SleepWf.setToPd (toBit pdBit : Bool) {sleeping waking : Bool}
    (h : sleeping = true → toBit = true ∧ pdBit = false ∧ waking = false) :
    SleepWf (setToPd toBit pdBit s).rcon sleeping waking where
  within := merge_within (by cases toBit <;> cases pdBit <;> rfl) hs.sleep_wf.within
  asleep hsleep := by
    obtain ⟨hto, hpd, hw⟩ := h hsleep
    exact ⟨(bits_setToPd toBit pdBit s 3 (by decide)).trans hto, (bits_setToPd toBit pdBit s 2 (by decide)).trans hpd, hw⟩

end

/-! ### Resets -/

section
variable {s : State}

theorem wf_reset : State.reset.irq.Wf where
  intcon2 := by decide
  intcon3 := by decide
  pir1 := by decide
  pie1 := by decide
  ipr1 := by decide
  pir2 := by decide
  pie2 := by decide
  ipr2 := by decide
  mismatch h := absurd h Bool.false_ne_true

theorem wf_reset_irq {intcon : Byte} {mismatch : Bool} (h : mismatch = true → intcon.getLsbD 0 = true) :
    IrqRegs.Wf { State.reset.irq with intcon := intcon, rbMismatch := mismatch } :=
  { wf_reset with mismatch := h }

theorem reset_rcon_within : State.reset.rcon &&& ~~~maskRcon = 0#8 := by decide

/-- A reset is awake at the reset vector with the memories as they were; it is for the interrupt registers and RCON to be
looked at. -/
theorem inv_of_reset {t : State} (hs : s.Inv) (hpc : t.pc = Config.resetVector) (hram : t.ram = s.ram ∨ t.ram = [])
    (hprog : t.prog = s.prog) (hirq : t.irq.Wf) (hrcon : t.rcon &&& ~~~maskRcon = 0#8) (hsleep : t.sleeping = false) :
    t.Inv := by
  obtain ⟨_, hsram, hsprog, _, _⟩ := s.inv_iff.1 hs
  refine (State.inv_iff t).2 ⟨by rw [hpc]; rfl, ?_, by rwa [hprog], hirq, by rw [hsleep]; exact .awake hrcon _⟩
  obtain h | h := hram <;> rw [h]
  · exact hsram
  · exact Memory.wf_nil _ _

theorem State.Inv.resetStep (hs : s.Inv) (cause : ResetCause) : (resetStep cause s).Inv := by
  have hkept (mask : Byte) : (s.rcon &&& mask) &&& ~~~maskRcon = 0#8 := and_within hs.sleep_wf.within
  have hwarm : (warmReset s).irq.Wf := wf_reset_irq fun h => by simp [hs.irq_wf.mismatch h]
  cases cause
  case powerOn => exact inv_of_reset hs rfl (.inr rfl) rfl (wf_reset_irq fun h => h) reset_rcon_within rfl
  case mclr =>
    refine inv_of_reset hs rfl (.inl rfl) rfl hwarm ?_ rfl
    dsimp only [Machine.resetStep, State.setRcon_rcon]
    split
    · exact merge_within rfl (hkept _)
    · exact hkept _
  case resetInstruction => exact inv_of_reset hs rfl (.inl rfl) rfl hwarm (hkept _) rfl
  case wdt => exact inv_of_reset hs rfl (.inl rfl) rfl hwarm (merge_within rfl (hkept _)) rfl
  case brownOut =>
    exact inv_of_reset hs rfl (.inl rfl) rfl (wf_reset_irq fun h => absurd h Bool.false_ne_true)
      (merge_within rfl (hkept _)) rfl

end

/-! ### Every instruction -/

/-- Every instruction that an awake core executes keeps the invariant; SLEEP sets TO and clears PD as it stops the core. -/
theorem exec_inv {i : Instr} {s t : State} (hs : s.Inv) (hawake : s.sleeping = false) (hwaking : s.waking = false)
    (h : exec i s = .next t) : t.Inv := by
  cases i <;> dsimp only [exec] at h
  case addwf | addwfc | andwf | comf | decf | incf | iorwf | movf | rlcf | rlncf | rrcf | rrncf | subfwb | subwf
      | subwfb | swapf | xorwf | negf => exact byteOp_inv hs h
  case clrf | setf => exact constOp_inv hs h
  case bcf | bsf | btg => exact bitOp_inv hs h
  case decfsz | dcfsnz | incfsz | infsnz => exact countSkip_inv hs h
  case cpfseq | cpfsgt | cpfslt | tstfsz | btfsc | btfss => exact testSkip_inv hs h
  case movwf => exact execMovwf_inv hs h
  case mulwf => exact execMulwf_inv hs h
  case movff => exact execMovff_inv hs h
  case bc | bn | bnc | bnn | bnov | bnz | bov | bz => exact branchIf_inv hs h
  case rcall => exact execRcall_inv hs h
  case call => exact execCall_inv hs h
  case ret => exact execReturn_inv hs h
  case retlw k =>
    have hw : ((advance 2 s).setW k).Inv := hs.advance_two
    exact returnFromCall_inv hw h
  case retfie => exact execRetfie_inv hs h
  case push => exact push_inv hs.advance_two h
  case pop => exact execPop_inv hs h
  case lfsr => exact execLfsr_inv hs h
  case tblrd | tblrdPostInc | tblrdPostDec | tblrdPreInc => exact tableRead_inv hs h
  case tblwt | tblwtPostInc | tblwtPostDec | tblwtPreInc => exact tableWrite_inv hs h
  all_goals obtain rfl := Host.Outcome.next.inj h
  case addlw | andlw | iorlw | movlw | sublw | xorlw | mullw | movlb | nop | nopx | daw => exact hs.advance_two
  case bra n => exact hs.setPc (branchTarget_even n (add_even hs.1 rfl))
  case goto k => exact hs.setPc (wordAddr_even k)
  case reset => exact hs.resetStep _
  case clrwdt => exact hs.advance_two.setSleep (.setToPd hs true true fun hf => by simp [hawake] at hf)
  case sleep => exact hs.advance_two.setSleep (.setToPd hs true false fun _ => ⟨rfl, rfl, hwaking⟩)

/-! ### Every step -/

section
variable {s t : State}

theorem State.Inv.wakeUp (hs : s.Inv) : (wakeUp s).Inv := by
  obtain ⟨_, _, h⟩ | ⟨_, h⟩ := wakeUp_cases s <;> rw [h]
  · exact hs.wake true
  · exact hs

theorem State.Inv.stayAwakeForEntry (hs : s.Inv) : (stayAwakeForEntry s).Inv := by
  unfold Machine.stayAwakeForEntry
  split
  · exact hs.wake s.waking
  · exact hs

theorem runInstr_inv (hs : s.Inv) (hawake : s.sleeping = false) (hwaking : s.waking = false)
    (h : runInstr s = .next t) : t.Inv := by
  obtain ⟨i, _, hexec⟩ := runInstr_next_iff.1 h
  exact exec_inv hs hawake hwaking hexec

theorem core1_inv (hs : s.Inv) (h : core1 s = .next t) : t.Inv := by
  obtain ⟨_, rfl⟩ | ⟨hawake, _, hafter⟩ | ⟨hawake, hwaking, hrun⟩ := core1_next_iff.1 h
  · exact hs
  · obtain ⟨u, hu, rfl⟩ := afterSleep_next_iff.1 hafter
    have hready : (s.setWaking false).Inv := hs.setSleep (by rw [hawake]; exact .awake hs.sleep_wf.within false)
    exact (runInstr_inv hready hawake rfl hu).stayAwakeForEntry
  · exact runInstr_inv hs hawake hwaking hrun

/-- An entry clears a global enable, goes to an even vector and leaves the core awake (60_exceptions.md R333). -/
theorem inv_of_entry (hs : s.Inv) {mask : Byte} {vector : ProgAddr} (hmask : mask.getLsbD 0 = true)
    (hvector : vector.getLsbD 0 = false) :
    ((((saveShadow (setStackEntry (s.sp + 1#5) s.pc (s.setSp (s.sp + 1#5)))).setIrq
      { s.irq with intcon := s.irq.intcon &&& mask }).setPc vector).setSleeping false).Inv := by
  have hirq := hs.irq_wf
  have hwf : IrqRegs.Wf { s.irq with intcon := s.irq.intcon &&& mask } :=
    { hirq with mismatch := fun h => by rw [BitVec.getLsbD_and, hirq.mismatch h, hmask]; rfl }
  have hsp : (s.setSp (s.sp + 1#5)).Inv := hs
  have hpushed : (saveShadow (setStackEntry (s.sp + 1#5) s.pc (s.setSp (s.sp + 1#5)))).Inv := hsp.setStackEntry _ _
  exact ((hpushed.setIrq hwf).setPc hvector).wake _

theorem interruptEntry_inv {level : Level} (hs : s.Inv) (h : interruptEntry level s = .next t) : t.Inv := by
  obtain ⟨_, rfl⟩ := interruptEntry_next_iff.1 h
  cases level
  · exact inv_of_entry (mask := 0x7F#8) (vector := Config.hiVector) hs rfl rfl
  · exact inv_of_entry (mask := 0xBF#8) (vector := Config.loVector) hs rfl rfl

theorem boundary_inv (hs : s.Inv) (h : boundary s = .next t) : t.Inv := by
  obtain ⟨_, _, hentry⟩ | ⟨_, hcore⟩ := boundary_next_iff.1 h
  · exact interruptEntry_inv hs hentry
  · exact core1_inv hs hcore

/-- A flag that is raised is an implemented bit, and a PORTB change sets RBIF with the mismatch (60_exceptions.md R332). -/
theorem IrqRegs.Wf.raise {r : IrqRegs} (hr : r.Wf) (src : Source) : (src.raise r).Wf := by
  cases src
  case int0 | tmr0 => exact { hr with mismatch := fun h => by simp [Source.raise, hr.mismatch h] }
  case rbChange => exact { hr with mismatch := fun _ => by simp [Source.raise] }
  case int1 | int2 => exact { hr with intcon3 := or_within hr.intcon3 rfl }
  case psp | adc | usartRx | usartTx | mssp | ccp1 | tmr2 | tmr1 => exact { hr with pir1 := or_within hr.pir1 rfl }
  case eeprom | busCollision | lowVoltage | tmr3 | ccp2 => exact { hr with pir2 := or_within hr.pir2 rfl }

theorem State.Inv.raiseFlag (hs : s.Inv) (src : Source) : (raiseFlag src s).Inv := by
  unfold Machine.raiseFlag
  split
  · exact (hs.setIrq (hs.irq_wf.raise src)).wakeUp
  · exact hs.wakeUp

theorem State.Inv.usartBuffers (hs : s.Inv) (rcif txif : Bool) : (usartBuffers rcif txif s).Inv := by
  refine (hs.setIrq ?_).wakeUp
  exact { hs.irq_wf with pir1 := merge_within (by cases rcif <;> cases txif <;> rfl) hs.irq_wf.pir1 }

theorem State.Inv.wdtTimeout (hs : s.Inv) : (wdtTimeout s).Inv := by
  unfold Machine.wdtTimeout
  split
  · exact hs
  · split
    · exact hs.setSleep (.setToPd hs false false fun hf => absurd hf Bool.false_ne_true)
    · exact hs.resetStep .wdt

theorem event_inv {e : Input} (hs : s.Inv) (h : event e s = .next t) : t.Inv := by
  cases e
  case delayInterrupt => exact core1_inv hs h
  case proceed => exact boundary_inv hs h
  all_goals obtain rfl := Host.Outcome.next.inj h
  case raiseFlag src => exact hs.raiseFlag src
  case usartBuffers rcif txif => exact hs.usartBuffers rcif txif
  case wdtClock counter scaler =>
    unfold wdtClock
    split <;> exact hs
  case wdtTimeout => exact hs.wdtTimeout
  all_goals exact hs.resetStep _

/-- Settles O10: a step is waking up and then the core's own step or an event's; each of their parts keeps the invariant. -/
theorem stepKeepsInv : Obligations.StepKeepsInv := by
  intro s t hs h
  cases hin : s.inputs with
  | nil =>
    rw [step_of_no_input hin] at h
    exact boundary_inv hs.wakeUp h
  | cons e rest =>
    rw [step_of_input hin] at h
    exact event_inv (State.Inv.wakeUp (s := s.setInputs rest) hs) h

end

/-- Settles O9: empty memories are in canonical form, and a core that is awake with no mismatch meets the conditions on
the sleep and on RBIF. -/
theorem resetInv : Obligations.ResetInv :=
  (State.inv_iff _).2 ⟨rfl, reset_ram_wf, reset_prog_wf, wf_reset_irq fun h => h, .awake reset_rcon_within _⟩

end Sys2Proof.Machine
end

section
/-! The bytes at PC that are no instruction (30_encoding.md R127, R134, R136): what the decoder answers, and the refusal of
the step. -/

namespace Sys2Proof

/-! ### The decoder's refusals -/

/-- The rows that read two words (30_encoding.md R128). -/
theorem twoWordRows : rows.filter (fun r => r.build.isTwo) =
    [⟨0xF000#16, 0xC000#16, .two decodeMovff⟩, ⟨0xFE00#16, 0xEC00#16, .two decodeCall⟩,
      ⟨0xFF00#16, 0xEF00#16, .two decodeGoto⟩, ⟨0xFFC0#16, 0xEE00#16, .two decodeLfsr⟩] := rfl

theorem isSecondWord_iff_le (w : Word) : isSecondWord w = true ↔ 0xF000 ≤ w.toNat := by
  have hw := w.isLt
  rw [isSecondWord_iff, ← BitVec.toNat_inj, BitVec.extractLsb'_toNat, Nat.shiftRight_eq_div_pow, BitVec.toNat_ofNat]
  omega

/-- Each of the four decoders of two words looks at bits 15:12 of the second word first (30_encoding.md R127). -/
theorem decodeWords_badSecondWord {w w2 : Word} (htwo : isTwoWord w = true) (h : isSecondWord w2 = false) :
    decodeWords w w2 = .error .badSecondWord := by
  rw [isTwoWord_eq_any, List.any_eq_true] at htwo
  obtain ⟨r, hr, hr2⟩ := htwo
  obtain ⟨hbuild, hhit⟩ := Bool.and_eq_true_iff.1 hr2
  have hmem : r ∈ rows.filter (fun r => r.build.isTwo) := List.mem_filter.2 ⟨hr, hbuild⟩
  rw [decodeWords, rowOf_eq_some_iff.2 ⟨hr, hhit⟩]
  rw [twoWordRows] at hmem
  fin_cases hmem
  · simp [decodeMovff, h]
  · simp [decodeCall, h]
  · simp [decodeGoto, h]
  · simp [decodeLfsr, h]

/-- LFSR with a reserved field: ff = 3, or bits 11:8 of the second word not 0 (30_encoding.md R136). -/
theorem decodeWords_lfsr_reserved {w w2 : Word} (h2 : isSecondWord w2 = true) (hlo : 0xEE00 ≤ w.toNat)
    (hhi : w.toNat ≤ 0xEE3F) (h : 0xEE30 ≤ w.toNat ∨ 0xF100 ≤ w2.toNat) :
    decodeWords w w2 = .error .reservedForm := by
  have hmem : (⟨0xFFC0#16, 0xEE00#16, .two decodeLfsr⟩ : Row) ∈ rows := (rowOf_eq_some_iff (w := 0xEE00#16).1 rfl).1
  have hhit : (⟨0xFFC0#16, 0xEE00#16, .two decodeLfsr⟩ : Row).hits w = true := by
    rw [Row.hits_iff_range hmem]
    exact ⟨hlo, Nat.lt_succ_of_le hhi⟩
  have hreserved : (w2.extractLsb' 8 4 != 0#4 || w.extractLsb' 4 2 == 3#2) = true := by
    have hw2 := w2.isLt
    rw [isSecondWord_iff_le] at h2
    rw [Bool.or_eq_true, bne_iff_ne, ne_eq, beq_iff_eq, ← BitVec.toNat_inj, ← BitVec.toNat_inj,
      BitVec.extractLsb'_toNat, BitVec.extractLsb'_toNat, Nat.shiftRight_eq_div_pow, Nat.shiftRight_eq_div_pow,
      BitVec.toNat_ofNat, BitVec.toNat_ofNat]
    omega
  rw [decodeWords, rowOf_eq_some_iff.2 ⟨hmem, hhit⟩]
  dsimp only
  rw [decodeLfsr, if_pos h2, if_pos hreserved]

/-- A word of no row starts no instruction of two words. -/
theorem isTwoWord_of_rowOf_none {w : Word} (h : rowOf w = none) : isTwoWord w = false := by
  rw [isTwoWord_eq_any, List.any_eq_false]
  intro r hr hhit
  obtain ⟨_, hhit⟩ := Bool.and_eq_true_iff.1 hhit
  rw [rowOf_eq_some_iff.2 ⟨hr, hhit⟩] at h
  cases h

/-- Bytes that start with a word of no row are rejected under the word's name (30_encoding.md R134). -/
theorem decode_of_rowOf_none {w : Word} (rest : List Byte) (h : rowOf w = none) :
    decode (bytesOfWord w ++ rest) = .error
      (if 0x0110 ≤ w.toNat ∧ w.toNat ≤ 0x01FF then .reservedForm else .unassigned) := by
  rw [decode_one w rest (isTwoWord_of_rowOf_none h), (unassignedWords w 0#16).2 h]
  rfl

/-- An instruction of two words whose bytes end early is truncated (20_memory.md R93). -/
theorem decode_truncated {w : Word} {rest : List Byte} (htwo : isTwoWord w = true) (h : rest.length < 2) :
    decode (bytesOfWord w ++ rest) = .error .truncated := by
  match rest, h with
  | [], _ => simp [bytesOfWord, decode, htwo]
  | [b], _ => simp [bytesOfWord, decode, htwo]

theorem decode_two_error {w w2 : Word} {e : Undecodable} (htwo : isTwoWord w = true)
    (h : decodeWords w w2 = .error e) : decode (bytesOfWord w ++ bytesOfWord w2) = .error e := by
  have hdec := decode_two w w2 [] htwo
  rw [List.append_nil, h] at hdec
  exact hdec

end Sys2Proof

namespace Sys2Proof.Machine

/-! ### Words of program memory -/

section
variable {a : ProgAddr} {s : State}

theorem fetch16_eq_some_iff {w : Word} : fetch16 a s = some w ↔
    ∃ low high, progRead a s = some low ∧ progRead (a + 1#21) s = some high ∧ w = wordOf low high := by
  unfold fetch16
  cases progRead a s <;> cases progRead (a + 1#21) s <;> simp [eq_comm]

/-- The bytes fetched where a word stands are its bytes, and then those from the next word on. -/
theorem fetchBytes_of_fetch16 {w : Word} (h : fetch16 a s = some w) (n : Nat) :
    fetchBytes (n + 2) a s = bytesOfWord w ++ fetchBytes n (a + 2#21) s := by
  obtain ⟨low, high, hlow, hhigh, rfl⟩ := fetch16_eq_some_iff.1 h
  rw [fetchBytes, hlow]
  dsimp only
  rw [fetchBytes, hhigh, bytesOfWord_wordOf, BitVec.add_assoc]
  rfl

/-- Where no word stands, fewer than two bytes are fetched. -/
theorem fetchBytes_of_fetch16_none (h : fetch16 a s = none) : (fetchBytes 2 a s).length < 2 := by
  unfold fetch16 at h
  rw [fetchBytes]
  cases hlow : progRead a s with
  | none => exact Nat.zero_lt_two
  | some low =>
    rw [hlow] at h
    dsimp only
    rw [fetchBytes]
    cases hhigh : progRead (a + 1#21) s with
    | none => exact Nat.one_lt_two
    | some high =>
      rw [hhigh] at h
      cases h

theorem fetchBytes_outside (h : Config.progBytes ≤ a.toNat) (n : Nat) : fetchBytes n a s = [] := by
  cases n with
  | zero => rfl
  | succ n => rw [fetchBytes, progRead_none a s h]

end

/-! ### The refusal of a step -/

/-- Bytes at PC that are no instruction refuse it under their name (60_exceptions.md R321). -/
theorem runInstr_of_decode_error {s : State} {e : Undecodable} (h : decode (fetchBytes 4 s.pc s) = .error e) :
    runInstr s = .refused (refusalOf e) := by
  simp only [runInstr, fetch, h]
  rfl

/-- Settles O7: each clause by what the decoder answers on the bytes fetched at PC. -/
theorem stepRefusesUndecodable : Obligations.StepRefusesUndecodable := by
  intro s hnext
  rw [step_of_instrNext hnext]
  refine ⟨fun hpc => ?_, fun w hw => ?_⟩
  · refine runInstr_of_decode_error (e := .truncated) ?_
    rw [fetchBytes_outside hpc]
    rfl
  · have hbytes : fetchBytes 4 s.pc s = bytesOfWord w ++ fetchBytes 2 (s.pc + 2#21) s := fetchBytes_of_fetch16 hw 2
    have refused {e : Undecodable} (h : decode (bytesOfWord w ++ fetchBytes 2 (s.pc + 2#21) s) = .error e) :
        runInstr s = .refused (refusalOf e) := runInstr_of_decode_error (hbytes ▸ h)
    refine ⟨fun hrow => ?_, fun htwo hnone => ?_, fun w2 htwo hw2 => ?_⟩
    · rw [refused (decode_of_rowOf_none _ hrow), apply_ite refusalOf]
      rfl
    · exact refused (decode_truncated htwo (fetchBytes_of_fetch16_none hnone))
    · have hbytes2 : fetchBytes 2 (s.pc + 2#21) s = bytesOfWord w2 :=
        (fetchBytes_of_fetch16 hw2 0).trans (List.append_nil _)
      rw [hbytes2] at refused
      refine ⟨fun hlow => ?_, fun hsecond hlo hhi hreserved => ?_⟩
      · have hbad : isSecondWord w2 = false := by
          rw [Bool.eq_false_iff, ne_eq, isSecondWord_iff_le]
          omega
        exact refused (decode_two_error htwo (decodeWords_badSecondWord htwo hbad))
      · have h2 := (isSecondWord_iff_le w2).2 hsecond
        exact refused (decode_two_error htwo (decodeWords_lfsr_reserved h2 hlo hhi hreserved))

end Sys2Proof.Machine
end

section
/-! Who requests an interrupt, and at which level (60_exceptions.md R332, R335). -/

namespace Sys2Proof.Machine

theorem any_allSources (p : Source → Bool) : allSources.any p = true ↔ ∃ i, p i = true := by
  have all : ∀ i : Source, i ∈ allSources := by intro i; cases i <;> decide
  simp only [List.any_eq_true, all, true_and]

theorem requestedLevel_high_iff {s : State} : requestedLevel s = some .high ↔ requestsHigh s = true := by
  unfold requestedLevel
  cases requestsHigh s <;> cases requestsLow s <;> simp

theorem requestedLevel_low_iff {s : State} :
    requestedLevel s = some .low ↔ requestsHigh s = false ∧ requestsLow s = true := by
  unfold requestedLevel
  cases requestsHigh s <;> cases requestsLow s <;> simp

section
variable {s : State}

/-- With IPEN = 0 every request is high, and those of the peripheral group need PEIE besides (60_exceptions.md R335). -/
theorem requestsHigh_iff_of_no_ipen (h : ipen s = false) : requestsHigh s = true ↔ gieh s = true ∧
    ((∃ i : Source, i.requests s.irq = true ∧ (!i.peripheral) = true) ∨
      (giel s = true ∧ ∃ i : Source, i.requests s.irq = true ∧ i.peripheral = true)) := by
  simp only [requestsHigh, h, Bool.false_eq_true, if_false, Bool.and_eq_true, Bool.or_eq_true, any_allSources]

/-- With IPEN = 1 a source of high priority requests high (60_exceptions.md R335). -/
theorem requestsHigh_iff_of_ipen (h : ipen s = true) : requestsHigh s = true ↔ gieh s = true ∧
    ∃ i : Source, i.requests s.irq = true ∧ i.highPriority s.irq = true := by
  simp only [requestsHigh, h, if_true, Bool.and_eq_true, any_allSources]

theorem requestsLow_iff : requestsLow s = true ↔ ((ipen s = true ∧ gieh s = true) ∧ giel s = true) ∧
    ∃ i : Source, i.requests s.irq = true ∧ (!i.highPriority s.irq) = true := by
  simp only [requestsLow, Bool.and_eq_true, any_allSources]

theorem requestsHigh_gieh (h : requestsHigh s = true) : gieh s = true := by
  cases hipen : ipen s with
  | false => exact ((requestsHigh_iff_of_no_ipen hipen).1 h).1
  | true => exact ((requestsHigh_iff_of_ipen hipen).1 h).1

/-- A request of either level stands only with GIEH set, a low one only with GIEL set too (60_exceptions.md R335). -/
theorem enabled_of_requestedLevel {level : Level} (h : requestedLevel s = some level) :
    gieh s = true ∧ (level = .low → giel s = true) := by
  cases level with
  | high => exact ⟨requestsHigh_gieh (requestedLevel_high_iff.1 h), fun e => nomatch e⟩
  | low =>
    obtain ⟨_, hlow⟩ := requestedLevel_low_iff.1 h
    obtain ⟨⟨⟨_, hgieh⟩, hgiel⟩, _⟩ := requestsLow_iff.1 hlow
    exact ⟨hgieh, fun _ => hgiel⟩

/-- With the global enable 0 nothing is requested (60_exceptions.md R339). -/
theorem requestedLevel_of_gieh_false (h : gieh s = false) : requestedLevel s = none := by
  cases hlevel : requestedLevel s with
  | none => rfl
  | some level => exact absurd (enabled_of_requestedLevel hlevel).1 (by simp [h])

end

/-- Settles O54: the bits of the sources by evaluating the two tables, the levels by what each of the two tests of
`requestedLevel` asks. -/
theorem requestPriority : Obligations.RequestPriority := by
  intro s r row first second asked
  refine ⟨?_, fun hipen => ⟨?_, fun hlow => ?_⟩, fun hipen => ⟨?_, ?_⟩⟩
  · have bits (i : Source) : row i (i.flag r) (i.enable r) (i.highPriority r) i.peripheral :=
      ⟨rfl, rfl, rfl, rfl, rfl⟩
    exact ⟨bits .int0, bits .int1, bits .int2, bits .tmr0, bits .rbChange, bits .psp, bits .adc, bits .usartRx,
      bits .usartTx, bits .mssp, bits .ccp1, bits .tmr2, bits .tmr1, bits .eeprom, bits .busCollision,
      bits .lowVoltage, bits .tmr3, bits .ccp2⟩
  · rw [requestedLevel_high_iff, requestsHigh_iff_of_no_ipen hipen]
    rfl
  · obtain ⟨_, hlow⟩ := requestedLevel_low_iff.1 hlow
    obtain ⟨⟨⟨hon, _⟩, _⟩, _⟩ := requestsLow_iff.1 hlow
    exact absurd (hipen.symm.trans hon) Bool.false_ne_true
  · rw [requestedLevel_high_iff, requestsHigh_iff_of_ipen hipen]
    rfl
  · have hhigh : requestsHigh s = true ↔ gieh s = true ∧ asked (fun i => i.highPriority s.irq) :=
      requestsHigh_iff_of_ipen hipen
    have hlow : requestsLow s = true ↔ ((ipen s = true ∧ gieh s = true) ∧ giel s = true) ∧
        asked (fun i => !i.highPriority s.irq) := requestsLow_iff
    rw [requestedLevel_low_iff, ← Bool.not_eq_true, hhigh, hlow]
    constructor
    · rintro ⟨hno, ⟨⟨_, hgieh⟩, hgiel⟩, hsome⟩
      exact ⟨hgieh, hgiel, hsome, fun hh => hno ⟨hgieh, hh⟩⟩
    · rintro ⟨hgieh, hgiel, hsome, hno⟩
      exact ⟨fun hh => hno hh.2, ⟨⟨hipen, hgieh⟩, hgiel⟩, hsome⟩

end Sys2Proof.Machine
end

section
/-! What the instructions leave of the global enable and of a wake-up under way. -/

namespace Sys2Proof.Machine

/-- Between `s` and `t` no wake-up has begun, and the global enable has not been set unless `mayEnable`. -/
structure KeepsControl (mayEnable : Prop) (s t : State) : Prop where
  waking : s.waking = false → t.waking = false
  gie : ¬ mayEnable → s.irq.intcon.getLsbD 7 = false → t.irq.intcon.getLsbD 7 = false

section
variable {mayEnable : Prop} {s t u : State}

theorem keepsControl_of_eq (hwaking : t.waking = s.waking) (hintcon : ¬ mayEnable → t.irq.intcon = s.irq.intcon) :
    KeepsControl mayEnable s t :=
  ⟨fun h => hwaking.trans h, fun hno h => by rw [hintcon hno, h]⟩

/-- An operation that answers a state with the interrupt registers and `waking` as they were. -/
theorem next_keepsControl (h : (.next u : Res State) = .next t) (hwaking : u.waking = s.waking)
    (hirq : u.irq = s.irq) : KeepsControl mayEnable s t := by
  cases h
  exact keepsControl_of_eq hwaking fun _ => by rw [hirq]

/-- INTCON is at FF2h and nowhere else. -/
theorem writeEffect_intcon {a : DataAddr} (h : a ≠ 0xFF2#12) (v : Byte) (s : State) :
    (writeEffect a v s).irq.intcon = s.irq.intcon := by
  unfold writeEffect
  split
  case h_2 r hr =>
    cases r
    case intcon => exact absurd (addr_eq_of_place_reg hr rfl) h
    case tosu | tosh | tosl => simp [regWrite]
    all_goals rfl
  all_goals rfl

theorem afterRead_intcon (f : Byte) (a : Bool) (s : State) : (afterRead f a s).irq.intcon = s.irq.intcon := by
  rw [afterRead, readEffect_irq, accessState_irq]

theorem readNext_keepsControl (f : Byte) (a : Bool) (s : State) : KeepsControl mayEnable s (readNext f a s) :=
  keepsControl_of_eq (readNext_waking f a s) fun _ => by rw [readNext_irq]

theorem byteNext_keepsControl (f : Byte) (d a : Bool) (r : Byte) (w : FlagUpdate) (s : State) :
    KeepsControl ((if d then some (effAddr f a s) else none) = some 0xFF2#12) s (byteNext f d a r w s) := by
  refine keepsControl_of_eq (by simp [byteNext]) fun hno => ?_
  rw [byteNext, postUpdate_irq, setFlags_irq, ← afterRead_intcon f a s]
  cases d with
  | false => rfl
  | true => exact writeEffect_intcon (fun e => hno (congrArg some e)) r _

theorem KeepsControl.afterSkip (h : KeepsControl mayEnable s t) (n : Nat) (s' : State) :
    KeepsControl mayEnable s (afterSkip n s' t) := ⟨h.waking, h.gie⟩

end

/-! ### The patterns -/

section
variable {mayEnable : Prop} {f : Byte} {d a : Bool} {s t u : State}

theorem byteOp_keepsControl {op : ByteFn} (h : byteOp op f d a s = .next t) :
    KeepsControl ((if d then some (effAddr f a s) else none) = some 0xFF2#12) s t := by
  obtain ⟨_, _, rfl⟩ := byteOp_next_iff.1 h
  exact byteNext_keepsControl ..

theorem constOp_keepsControl {v : Byte} {w : FlagUpdate} (h : constOp v w f a s = .next t) :
    KeepsControl (some (effAddr f a s) = some 0xFF2#12) s t := by
  obtain ⟨_, _, rfl⟩ := constOp_next_iff.1 h
  exact byteNext_keepsControl f true a ..

theorem bitOp_keepsControl {op : Byte → Byte → Byte} {b : BitVec 3} (h : bitOp op f b a s = .next t) :
    KeepsControl (some (effAddr f a s) = some 0xFF2#12) s t := by
  obtain ⟨_, _, rfl⟩ := bitOp_next_iff.1 h
  exact byteNext_keepsControl f true a ..

theorem countSkip_keepsControl {delta : Byte} {cond : Byte → Bool} (h : countSkip delta cond f d a s = .next t) :
    KeepsControl ((if d then some (effAddr f a s) else none) = some 0xFF2#12) s t := by
  obtain ⟨r, rfl | ⟨n, rfl⟩⟩ := countSkip_next h
  · exact byteNext_keepsControl ..
  · exact (byteNext_keepsControl ..).afterSkip n s

theorem testSkip_keepsControl {cond : Byte → Byte → Bool} (h : testSkip cond f a s = .next t) :
    KeepsControl mayEnable s t := by
  obtain ⟨n, rfl⟩ := testSkip_next h
  have hread : KeepsControl mayEnable s (readNext f a s) := readNext_keepsControl f a s
  exact ⟨hread.waking, hread.gie⟩

theorem execMovwf_keepsControl (h : execMovwf f a s = .next t) :
    KeepsControl (some (effAddr f a s) = some 0xFF2#12) s t := by
  obtain ⟨_, _, rfl⟩ := execMovwf_next_iff.1 h
  refine keepsControl_of_eq (by simp [storeNext]) fun hno => ?_
  rw [storeNext, postUpdate_irq, writeEffect_intcon (fun e => hno (congrArg some e)), accessState_irq]

theorem execMulwf_keepsControl (h : execMulwf f a s = .next t) : KeepsControl mayEnable s t := by
  rw [execMulwf_next h]
  have hread : KeepsControl mayEnable s (readNext f a s) := readNext_keepsControl f a s
  exact ⟨hread.waking, hread.gie⟩

theorem execMovff_keepsControl {fs fd : DataAddr} (h : execMovff fs fd s = .next t) :
    KeepsControl (some (resolve fd (preUpdate fs s)) = some 0xFF2#12) s t := by
  obtain ⟨_, _, _, _, rfl⟩ := execMovff_next_iff.1 h
  rw [← resolve_advance fd 4 (preUpdate fs s), ← preUpdate_advance]
  refine keepsControl_of_eq (by simp) fun hno => ?_
  rw [postUpdate_irq, postUpdate_irq, writeEffect_intcon (fun e => hno (congrArg some e)), readEffect_irq]
  simp

theorem branchIf_keepsControl {cond : Bool} {n : BitVec 8} (h : branchIf cond n s = .next t) :
    KeepsControl mayEnable s t :=
  next_keepsControl h (by cases cond <;> rfl) (by cases cond <;> rfl)

/-- The state `u` of the push has PC moved. -/
theorem push_keepsControl {v : ProgAddr} (h : push v u = .next t) (hwaking : u.waking = s.waking)
    (hirq : u.irq = s.irq) : KeepsControl mayEnable s t := by
  obtain ⟨_, rfl⟩ := push_next_iff.1 h
  exact keepsControl_of_eq (by simpa using hwaking) fun _ => by simp [hirq]

theorem returnFromCall_keepsControl (h : returnFromCall u = .next t) (hwaking : u.waking = s.waking)
    (hirq : u.irq = s.irq) : KeepsControl mayEnable s t := by
  obtain ⟨_, rfl⟩ := returnFromCall_next_iff.1 h
  exact keepsControl_of_eq hwaking fun _ => by simp [hirq]

theorem execRcall_keepsControl {n : BitVec 11} (h : execRcall n s = .next t) : KeepsControl mayEnable s t := by
  obtain ⟨u, hpush, hjump⟩ := andThen_next_iff.1 h
  obtain rfl := Host.Outcome.next.inj hjump
  have hu : KeepsControl mayEnable s u := push_keepsControl hpush rfl rfl
  exact ⟨hu.waking, hu.gie⟩

theorem execCall_keepsControl {k : BitVec 20} {fast : Bool} (h : execCall k fast s = .next t) :
    KeepsControl mayEnable s t := by
  obtain ⟨u, hpush, hjump⟩ := andThen_next_iff.1 h
  obtain rfl := Host.Outcome.next.inj hjump
  have hu : KeepsControl mayEnable s u := push_keepsControl hpush rfl rfl
  cases fast <;> exact ⟨hu.waking, hu.gie⟩

theorem execReturn_keepsControl {fast : Bool} (h : execReturn fast s = .next t) : KeepsControl mayEnable s t := by
  obtain ⟨u, hpop, hrestore⟩ := andThen_next_iff.1 h
  obtain rfl := Host.Outcome.next.inj hrestore
  have hu : KeepsControl mayEnable s u := returnFromCall_keepsControl hpop rfl rfl
  cases fast <;> exact ⟨hu.waking, hu.gie⟩

/-- RETFIE sets a global enable, and begins no wake-up. -/
theorem execRetfie_keepsControl {fast : Bool} (henable : mayEnable) (h : execRetfie fast s = .next t) :
    KeepsControl mayEnable s t := by
  obtain ⟨u, hpop, hrestore⟩ := andThen_next_iff.1 h
  obtain rfl := Host.Outcome.next.inj hrestore
  have hu : KeepsControl mayEnable s u := returnFromCall_keepsControl hpop rfl rfl
  cases fast <;> exact ⟨hu.waking, fun hno => absurd henable hno⟩

theorem execPop_keepsControl (h : execPop s = .next t) : KeepsControl mayEnable s t := by
  obtain ⟨p, hpop, ht⟩ := andThen_next_iff.1 h
  obtain ⟨_, rfl⟩ := pop_next_iff.1 hpop
  exact next_keepsControl ht rfl rfl

theorem execLfsr_keepsControl {ff : BitVec 2} {k : BitVec 12} (h : execLfsr ff k s = .next t) :
    KeepsControl mayEnable s t := by
  unfold execLfsr at h
  split at h
  · exact next_keepsControl h rfl rfl
  · cases h

theorem tableRead_keepsControl {m : TableMode} (h : tableRead m s = .next t) : KeepsControl mayEnable s t := by
  obtain ⟨_, _, _, rfl⟩ := tableRead_next_iff.1 h
  exact keepsControl_of_eq rfl fun _ => rfl

theorem tableWrite_keepsControl {m : TableMode} (h : tableWrite m s = .next t) : KeepsControl mayEnable s t := by
  obtain ⟨_, rfl⟩ := tableWrite_next_iff.1 h
  exact keepsControl_of_eq rfl fun _ => rfl

theorem execReset_keepsControl (h : execReset s = .next t) : KeepsControl mayEnable s t := by
  obtain rfl := Host.Outcome.next.inj h
  refine ⟨fun _ => rfl, fun _ _ => ?_⟩
  show (s.irq.intcon &&& 0x01#8).getLsbD 7 = false
  simp

end

/-! ### Every instruction -/

/-- No instruction begins a wake-up, and only RETFIE and a store to INTCON can set the global enable. -/
theorem exec_keepsControl {i : Instr} {s t : State} (h : exec i s = .next t) :
    KeepsControl ((∃ fast, i = .retfie fast) ∨ writeTarget i s = some 0xFF2#12) s t := by
  have weaken {p : Prop} (hk : KeepsControl p s t) (hp : p → writeTarget i s = some 0xFF2#12) :
      KeepsControl ((∃ fast, i = .retfie fast) ∨ writeTarget i s = some 0xFF2#12) s t :=
    ⟨hk.waking, fun hno => hk.gie fun h => hno (.inr (hp h))⟩
  cases i <;> dsimp only [exec] at h
  case addwf | addwfc | andwf | comf | decf | incf | iorwf | movf | rlcf | rlncf | rrcf | rrncf | subfwb | subwf
      | subwfb | swapf | xorwf | negf => exact weaken (byteOp_keepsControl h) id
  case clrf | setf => exact weaken (constOp_keepsControl h) id
  case bcf | bsf | btg => exact weaken (bitOp_keepsControl h) id
  case decfsz | dcfsnz | incfsz | infsnz => exact weaken (countSkip_keepsControl h) id
  case movwf => exact weaken (execMovwf_keepsControl h) id
  case movff => exact weaken (execMovff_keepsControl h) id
  case cpfseq | cpfsgt | cpfslt | tstfsz | btfsc | btfss => exact testSkip_keepsControl h
  case mulwf => exact execMulwf_keepsControl h
  case bc | bn | bnc | bnn | bnov | bnz | bov | bz => exact branchIf_keepsControl h
  case rcall => exact execRcall_keepsControl h
  case call => exact execCall_keepsControl h
  case ret => exact execReturn_keepsControl h
  case retlw => exact returnFromCall_keepsControl h rfl rfl
  case retfie fast => exact execRetfie_keepsControl (.inl ⟨fast, rfl⟩) h
  case push => exact push_keepsControl h rfl rfl
  case pop => exact execPop_keepsControl h
  case lfsr => exact execLfsr_keepsControl h
  case tblrd | tblrdPostInc | tblrdPostDec | tblrdPreInc => exact tableRead_keepsControl h
  case tblwt | tblwtPostInc | tblwtPostDec | tblwtPreInc => exact tableWrite_keepsControl h
  case reset => exact execReset_keepsControl h
  case clrwdt | sleep => exact next_keepsControl h (by simp) (by simp)
  all_goals exact next_keepsControl h rfl rfl

/-- Settles O12: both levels need the global enable, and what instructions do to it is `exec_keepsControl`. -/
theorem interruptsStayOff : Obligations.InterruptsStayOff := by
  intro s hoff
  refine ⟨requestedLevel_of_gieh_false hoff, fun i t hretfie htarget h => (exec_keepsControl h).gie ?_ hoff⟩
  rintro (⟨fast, hi⟩ | htgt)
  · exact hretfie fast hi
  · exact htarget htgt

end Sys2Proof.Machine
end

section
/-! Interrupt entry and the return from it (60_exceptions.md R333, R336; 43_control_flow.md R241): the enable each changes,
and the next state of each in full. -/

namespace Sys2Proof.Machine

/-! ### The enables of INTCON -/

/-- The bit of INTCON that enables a level: GIEH or GIEL (10_state.md R40). -/
def Level.enableBit : Level → Nat
  | .high => 7
  | .low => 6

/-- INTCON with the enable of a level cleared, as an entry at that level leaves it (60_exceptions.md R333). -/
def clearedEnable (level : Level) (intcon : Byte) : Byte :=
  intcon &&& (match level with | .high => 0x7F#8 | .low => 0xBF#8)

theorem bits_clearedEnable (level : Level) (intcon : Byte) :
    Bits (clearedEnable level intcon) fun j => intcon.getLsbD j && decide (j ≠ level.enableBit) := by
  intro j hj
  unfold clearedEnable
  rw [BitVec.getLsbD_and]
  cases level <;> interval_cases j <;> rfl

theorem bits_enableOnReturn (s : State) : Bits (enableOnReturn s).irq.intcon fun j =>
    s.irq.intcon.getLsbD j || decide (j = if s.irq.intcon.getLsbD 7 then 6 else 7) := by
  intro j hj
  show (s.irq.intcon ||| (if s.irq.intcon.getLsbD 7 then 0x40#8 else 0x80#8)).getLsbD j = _
  rw [BitVec.getLsbD_or]
  cases s.irq.intcon.getLsbD 7 <;> interval_cases j <;> rfl

/-- Two bytes with the same eight bits are the same. -/
theorem Bits.unique {x y : Byte} {g : Nat → Bool} (hx : Bits x g) (hy : Bits y g) : x = y :=
  BitVec.eq_of_getLsbD_eq fun j hj => (hx j hj).trans (hy j hj).symm

/-! ### Entry -/

section
variable {s : State}

/-- A push shows in the stack and its pointer only. -/
theorem Pushed.congr {v : ProgAddr} {t u : State} (h : Pushed v s u) (hsp : t.sp = u.sp) (hstack : t.stack = u.stack) :
    Pushed v s t := by
  obtain ⟨hptr, htop, hother⟩ := h
  refine ⟨by rw [hsp, hptr], by rw [hsp, stackEntry_congr _ hstack, htop], fun n hn => ?_⟩
  rw [stackEntry_congr n hstack, hother n (hsp ▸ hn)]

/-- Interrupt entry where the stack has room (60_exceptions.md R333). -/
theorem interruptEntry_of_room (level : Level) (hroom : s.sp.toNat < Config.stackDepth) :
    ∃ t, interruptEntry level s = .next t ∧ Pushed s.pc s t ∧
      t = { s with
        pc := BitVec.ofNat 21 (match level with | .high => 8 | .low => 24)
        sp := t.sp, stack := t.stack, shadow := ⟨s.w, s.status, s.bsr⟩
        irq := { s.irq with intcon := clearedEnable level s.irq.intcon }
        sleeping := false } := by
  obtain ⟨u, hpush, hpushed, hu⟩ := push_spec s.pc s hroom
  have hirq : u.irq = s.irq := by rw [hu]
  refine ⟨((((saveShadow u).setIrq { u.irq with intcon := clearedEnable level u.irq.intcon }).setPc
    (match level with | .high => Config.hiVector | .low => Config.loVector)).setSleeping false), ?_, ?_, ?_⟩
  · exact andThen_of_eq_next hpush _
  · exact hpushed.congr (by simp) (by simp)
  · rw [hirq, hu]
    cases level <;> rfl

/-- Settles O52: an entry is a push and the writes of the fields that `interruptEntry_of_room` lists. -/
theorem interruptEntry_spec : Obligations.InterruptEntry := by
  intro s level hroom
  obtain ⟨t, hentry, hpushed, ht⟩ := interruptEntry_of_room level hroom
  refine ⟨t, _, hentry, hpushed, ?_, ht⟩
  have hbits := bits_clearedEnable level s.irq.intcon
  cases level <;> exact hbits

/-! ### Return -/

/-- RETFIE where the stack is not empty: the return, the enable, and the registers restored in the fast form
(43_control_flow.md R241). -/
theorem exec_retfie_of_sp_ne_zero (fast : Bool) (hsp : s.sp ≠ 0#5) :
    exec (.retfie fast) s =
      let u := { s with
        pc := evenPc (stackEntry s.sp s).toNat, sp := s.sp - 1#5
        irq := { s.irq with intcon := (enableOnReturn s).irq.intcon } }
      .next (if fast then restoreShadow u else u) :=
  andThen_of_eq_next (returnFromCall_of_sp_ne_zero (s := advance 2 s) hsp) _

/-- Settles O42: both forms by `exec_retfie_of_sp_ne_zero`, the enable by its bits. -/
theorem returnFromInterrupt_spec : Obligations.ReturnFromInterrupt := by
  intro s hsp
  exact ⟨_, bits_enableOnReturn s, exec_retfie_of_sp_ne_zero false hsp, exec_retfie_of_sp_ne_zero true hsp⟩

/-! ### An entry and its return -/

/-- The enable that a return sets is the one that the entry has cleared: a request of the high level stands only with GIEH
set, one of the low level only with GIEH and GIEL set (60_exceptions.md R335, R336). -/
theorem enableOnReturn_of_clearedEnable {t : State} {level : Level} (hreq : requestedLevel s = some level)
    (ht : t.irq.intcon = clearedEnable level s.irq.intcon) : (enableOnReturn t).irq.intcon = s.irq.intcon := by
  obtain ⟨hgieh, hgiel⟩ := enabled_of_requestedLevel hreq
  have hcleared := bits_clearedEnable level s.irq.intcon
  refine Bits.unique (bits_enableOnReturn t) fun j hj => ?_
  rw [ht, hcleared j hj, hcleared 7 (by decide)]
  unfold gieh at hgieh
  cases level with
  | high =>
    by_cases hj7 : j = 7
    · subst hj7
      simp [Level.enableBit, hgieh]
    · simp [Level.enableBit, hj7]
  | low =>
    have hgiel : s.irq.intcon.getLsbD 6 = true := hgiel rfl
    by_cases hj6 : j = 6
    · subst hj6
      simp [Level.enableBit, hgieh, hgiel]
    · simp [Level.enableBit, hgieh, hj6]

end

/-- Settles O53: RETFIE pops the address that the entry has pushed, sets the enable that it has cleared, and restores the
registers that it has saved. -/
theorem retfieUndoesEntry : Obligations.RetfieUndoesEntry := by
  intro s t u level heven hawake hreq hentry hretfie
  obtain ⟨t', hentry', hpushed, ht⟩ := interruptEntry_of_room level (interruptEntry_next_iff.1 hentry).1
  obtain rfl : t = t' := Host.Outcome.next.inj (hentry.symm.trans hentry')
  have hintcon : t.irq.intcon = clearedEnable level s.irq.intcon := by rw [ht]
  have hu := Host.Outcome.next.inj (hretfie.symm.trans (exec_retfie_of_sp_ne_zero true hpushed.sp_ne_zero))
  obtain ⟨_, htop, _⟩ := id hpushed
  rw [htop, evenPc_toNat, evenAddr_of_even heven, hpushed.sp_pred, enableOnReturn_of_clearedEnable hreq hintcon] at hu
  refine ⟨?_, fun n hn => ?_⟩
  · rw [hu, ht, ← hawake]
    rfl
  · rw [hu]
    exact hpushed.stackEntry_of_le hn

/-! ### The stops of the stack -/

/-- A sequence whose first part is a fault is that fault. -/
theorem andThen_of_eq_fault {α β : Type} {r : Res α} {e : Fault} (h : r = .fault e) (k : α → Res β) :
    andThen r k = .fault e := by
  rw [h, andThen_fault]

theorem push_of_full {v : ProgAddr} {s : State} (h : s.sp = 31#5) : push v s = .fault .stackOverflow := by
  rw [push, h]
  rfl

theorem pop_of_empty {s : State} (h : s.sp = 0#5) : pop s = .fault .stackUnderflow := if_pos h

theorem returnFromCall_of_empty {s : State} (h : s.sp = 0#5) : returnFromCall s = .fault .stackUnderflow :=
  andThen_of_eq_fault (pop_of_empty h) _

/-- Settles O43: each of the four begins with a push, or with a pop, once PC is advanced. -/
theorem stackStops : Obligations.StackStops := by
  intro k b fast n level s
  refine ⟨fun hfull => ?_, fun hempty => ?_⟩
  · exact ⟨andThen_of_eq_fault (push_of_full (s := advance 4 s) hfull) _,
      andThen_of_eq_fault (push_of_full (s := advance 2 s) hfull) _, push_of_full (s := advance 2 s) hfull,
      andThen_of_eq_fault (push_of_full hfull) _⟩
  · have hreturn : returnFromCall (advance 2 s) = .fault .stackUnderflow := returnFromCall_of_empty hempty
    exact ⟨andThen_of_eq_fault hreturn _, returnFromCall_of_empty (s := (advance 2 s).setW b) hempty,
      andThen_of_eq_fault hreturn _, andThen_of_eq_fault (pop_of_empty (s := advance 2 s) hempty) _⟩

end Sys2Proof.Machine
end

section
/-! Flags that are raised (60_exceptions.md R332): the register and the bit of each source's flag, and that raising it
changes that bit and no other. -/

namespace Sys2Proof.Machine

/-- The registers that hold the flags of the sources (60_exceptions.md R332). -/
inductive FlagReg where
  | intcon
  | intcon3
  | pir1
  | pir2
deriving DecidableEq

def FlagReg.get (r : IrqRegs) : FlagReg → Byte
  | .intcon => r.intcon
  | .intcon3 => r.intcon3
  | .pir1 => r.pir1
  | .pir2 => r.pir2

/-- The register and the bit of a source's flag (60_exceptions.md R332). -/
def Source.flagAt : Source → FlagReg × BitVec 3
  | .int0 => (.intcon, 1#3)
  | .int1 => (.intcon3, 0#3)
  | .int2 => (.intcon3, 1#3)
  | .tmr0 => (.intcon, 2#3)
  | .rbChange => (.intcon, 0#3)
  | .psp => (.pir1, 7#3)
  | .adc => (.pir1, 6#3)
  | .usartRx => (.pir1, 5#3)
  | .usartTx => (.pir1, 4#3)
  | .mssp => (.pir1, 3#3)
  | .ccp1 => (.pir1, 2#3)
  | .tmr2 => (.pir1, 1#3)
  | .tmr1 => (.pir1, 0#3)
  | .eeprom => (.pir2, 4#3)
  | .busCollision => (.pir2, 3#3)
  | .lowVoltage => (.pir2, 2#3)
  | .tmr3 => (.pir2, 1#3)
  | .ccp2 => (.pir2, 0#3)

theorem Source.flag_eq (r : IrqRegs) (i : Source) : i.flag r = (i.flagAt.1.get r).getLsbD i.flagAt.2.toNat := by
  cases i <;> rfl

/-- No two sources share a flag. -/
theorem Source.flagAt_injective {i j : Source} (h : i.flagAt = j.flagAt) : i = j := by
  have all : ∀ i : Source, i ∈ allSources := by intro i; cases i <;> decide
  have distinct : ∀ i ∈ allSources, ∀ j ∈ allSources, i.flagAt = j.flagAt → i = j := by decide
  exact distinct i (all i) j (all j) h

/-- Raising a flag sets one bit of one register. -/
theorem FlagReg.get_raise (r : IrqRegs) (src : Source) (k : FlagReg) :
    k.get (src.raise r) = if k = src.flagAt.1 then k.get r ||| 1#8 <<< src.flagAt.2.toNat else k.get r := by
  cases src <;> cases k <;> rfl

section
variable (r : IrqRegs) (src : Source)

theorem Source.flag_raise (i : Source) : i.flag (src.raise r) = (i.flag r || decide (i = src)) := by
  have hsame : i = src ↔ i.flagAt.1 = src.flagAt.1 ∧ i.flagAt.2 = src.flagAt.2 :=
    ⟨fun h => by rw [h]; exact ⟨rfl, rfl⟩, fun h => Source.flagAt_injective (Prod.ext h.1 h.2)⟩
  rw [Source.flag_eq, Source.flag_eq, FlagReg.get_raise]
  by_cases hreg : i.flagAt.1 = src.flagAt.1
  · rw [if_pos hreg, bits_set _ _ _ i.flagAt.2.isLt]
    simp only [BitVec.toNat_inj]
    by_cases hbit : i.flagAt.2 = src.flagAt.2
    · simp [hsame.2 ⟨hreg, hbit⟩]
    · simp [hbit, show i ≠ src from fun h => hbit (hsame.1 h).2]
  · simp [hreg, show i ≠ src from fun h => hreg (hsame.1 h).1]

/-- The bits above the flags of a register stay as they are. -/
theorem FlagReg.getLsbD_raise {k : FlagReg} {j : Nat} (hj : src.flagAt.1 = k → src.flagAt.2.toNat < j) :
    (k.get (src.raise r)).getLsbD j = (k.get r).getLsbD j := by
  rw [FlagReg.get_raise]
  split
  · rename_i hk
    rw [BitVec.getLsbD_or, getLsbD_mask, decide_eq_false (Nat.ne_of_gt (hj hk.symm)), Bool.or_false]
  · rfl

/-- The flags of INTCON are its bits 2:0, those of INTCON3 its bits 1:0, those of PIR2 its bits 4:0
(60_exceptions.md R331). -/
theorem Source.flagAt_bounds : (src.flagAt.1 = .intcon → src.flagAt.2.toNat < 3) ∧
    (src.flagAt.1 = .intcon3 → src.flagAt.2.toNat < 2) ∧ (src.flagAt.1 = .pir2 → src.flagAt.2.toNat < 5) := by
  cases src <;> decide

theorem intcon_raise {j : Nat} (hj : 3 ≤ j) : (src.raise r).intcon.getLsbD j = r.intcon.getLsbD j :=
  FlagReg.getLsbD_raise r src (k := .intcon) fun h => Nat.lt_of_lt_of_le (src.flagAt_bounds.1 h) hj

theorem intcon3_raise {j : Nat} (hj : 2 ≤ j) : (src.raise r).intcon3.getLsbD j = r.intcon3.getLsbD j :=
  FlagReg.getLsbD_raise r src (k := .intcon3) fun h => Nat.lt_of_lt_of_le (src.flagAt_bounds.2.1 h) hj

theorem pir2_raise {j : Nat} (hj : 5 ≤ j) : (src.raise r).pir2.getLsbD j = r.pir2.getLsbD j :=
  FlagReg.getLsbD_raise r src (k := .pir2) fun h => Nat.lt_of_lt_of_le (src.flagAt_bounds.2.2 h) hj

/-- Raising a flag touches only the registers that hold flags, and the mismatch where PORTB changes
(60_exceptions.md R332). -/
theorem Source.raise_eq : src.raise r = { r with
    intcon := (src.raise r).intcon, intcon3 := (src.raise r).intcon3, pir1 := (src.raise r).pir1
    pir2 := (src.raise r).pir2, rbMismatch := r.rbMismatch || decide (src = .rbChange) } := by
  obtain ⟨⟩ := r
  cases src <;> simp [Source.raise]

/-- No flag is an enable. -/
theorem Source.enable_raise (i : Source) : i.enable (src.raise r) = i.enable r := by
  cases i
  case int0 | tmr0 | rbChange => exact intcon_raise r src (by decide)
  case int1 | int2 => exact intcon3_raise r src (by decide)
  all_goals
    rw [Source.raise_eq]
    rfl

/-- No flag is a priority. -/
theorem Source.highPriority_raise (i : Source) : i.highPriority (src.raise r) = i.highPriority r := by
  cases i
  case int0 => rfl
  case int1 | int2 => exact intcon3_raise r src (by decide)
  all_goals
    rw [Source.raise_eq]
    rfl

end

end Sys2Proof.Machine
end

section
/-! Waking up, and the events of the environment (60_exceptions.md R332, R346, R348). -/

namespace Sys2Proof.Machine

section
variable {s : State}

/-! ### Waking up -/

theorem wakeUp_of_wakingSource (hs : s.sleeping = true) (hw : WakingSource s) :
    wakeUp s = { s with sleeping := false, waking := true } := by
  rw [wakeUp, hs, wakes_iff.2 hw]
  rfl

theorem wakeUp_of_no_source (hw : ¬ WakingSource s) : wakeUp s = s := by
  rw [← wakes_iff] at hw
  rw [wakeUp, Bool.eq_false_iff.2 hw, Bool.and_false]
  rfl

theorem wakeUp_sleeping_iff : (wakeUp s).sleeping = true ↔ s.sleeping = true ∧ ¬ WakingSource s := by
  by_cases hw : WakingSource s
  · cases hs : s.sleeping
    · simp [hs]
    · simp [wakeUp_of_wakingSource hs hw, hw]
  · simp [wakeUp_of_no_source hw, hw]

theorem wakeUp_waking_iff : (wakeUp s).waking = true ↔ s.waking = true ∨ (s.sleeping = true ∧ WakingSource s) := by
  by_cases hw : WakingSource s
  · cases hs : s.sleeping
    · simp [hs]
    · simp [wakeUp_of_wakingSource hs hw, hw]
  · simp [wakeUp_of_no_source hw, hw]

/-- What wakes the core goes on to wake it when another flag is raised: flags are only set and no enable changes. -/
theorem WakingSource.raise {t : State} (h : WakingSource s) (src : Source) (hirq : t.irq = src.raise s.irq)
    (hrcon : t.rcon = s.rcon) : WakingSource t := by
  obtain ⟨i, hreq, hgroup⟩ := h
  obtain ⟨hflag, henable⟩ := Bool.and_eq_true_iff.1 hreq
  refine ⟨i, ?_, ?_⟩
  · rw [hirq, Source.requests, Source.flag_raise, Source.enable_raise, hflag, henable]
    rfl
  · rwa [hirq, hrcon, intcon_raise _ _ (by decide)]

/-! ### Raising a flag -/

/-- Only TMR0 and TMR2 stand still in SLEEP, and every source is on this device (60_exceptions.md R348; log 20). -/
theorem canRaise_iff {src : Source} {sleeping : Bool} :
    src.canRaise sleeping = true ↔ ¬ (sleeping = true ∧ (src = .tmr0 ∨ src = .tmr2)) := by
  cases src <;> cases sleeping <;> decide

/-- Waking up holds back no flag. -/
theorem canRaise_wakeUp {src : Source} (h : src.canRaise s.sleeping = true) :
    src.canRaise (wakeUp s).sleeping = true := by
  rw [canRaise_iff] at h ⊢
  exact fun ⟨hs, hsrc⟩ => h ⟨(wakeUp_sleeping_iff.1 hs).1, hsrc⟩

theorem raiseFlag_of_canRaise {src : Source} (h : src.canRaise s.sleeping = true) :
    raiseFlag src s = wakeUp (s.setIrq (src.raise s.irq)) := by
  rw [raiseFlag, if_pos h]

/-- What the event leaves of the machine but the interrupt registers: the core may wake up before the flag is raised and
after it. -/
theorem wakeUp_setIrq_wakeUp (r : IrqRegs) (s : State) : ∃ sleeping waking,
    wakeUp ((wakeUp s).setIrq r) = { s with irq := r, sleeping := sleeping, waking := waking } := by
  rw [wakeUp_eq ((wakeUp s).setIrq r)]
  generalize (wakeUp ((wakeUp s).setIrq r)).sleeping = sleeping, (wakeUp ((wakeUp s).setIrq r)).waking = waking
  rw [wakeUp_eq s]
  exact ⟨_, _, rfl⟩

/-- A core that may wake up on `p` and then on the weaker `q` is asleep where neither holds: where `q` does not. -/
theorem asleep_twice_iff {asleep p q : Prop} (h : p → q) : (asleep ∧ ¬ p) ∧ ¬ q ↔ asleep ∧ ¬ q := by tauto

theorem woken_twice_iff {asleep waking p q : Prop} (h : p → q) :
    (waking ∨ asleep ∧ p) ∨ (asleep ∧ ¬ p) ∧ q ↔ waking ∨ asleep ∧ q := by tauto

/-- A source that wakes the core before the flag is raised does so after it: between the two only the later counts. -/
theorem sleep_wakeUp_raise {src : Source} {t : State} (ht : t = wakeUp ((wakeUp s).setIrq (src.raise s.irq))) :
    (t.sleeping = true ↔ s.sleeping = true ∧ ¬ WakingSource t) ∧
      (t.waking = true ↔ s.waking = true ∨ (s.sleeping = true ∧ WakingSource t)) := by
  have hraised : WakingSource t ↔ WakingSource ((wakeUp s).setIrq (src.raise s.irq)) := by
    rw [ht, WakingSource, wakeUp_irq, wakeUp_rcon]
  have hmono : WakingSource s → WakingSource t := fun h => hraised.2 (h.raise src rfl (wakeUp_rcon s))
  have hsleeping := wakeUp_sleeping_iff (s := (wakeUp s).setIrq (src.raise s.irq))
  have hwaking := wakeUp_waking_iff (s := (wakeUp s).setIrq (src.raise s.irq))
  rw [← ht, ← hraised, State.setIrq_sleeping, wakeUp_sleeping_iff] at hsleeping hwaking
  rw [State.setIrq_waking, wakeUp_waking_iff] at hwaking
  exact ⟨hsleeping.trans (asleep_twice_iff hmono), hwaking.trans (woken_twice_iff hmono)⟩

/-- Settles O55: the event sets one flag between two chances to wake up, of which the second is the weaker condition. -/
theorem raiseFlagSetsOne : Obligations.RaiseFlagSetsOne := by
  intro s src rest hin hcan
  have hcan' : src.canRaise (wakeUp (s.setInputs rest)).sleeping = true := canRaise_wakeUp (s := s.setInputs rest) hcan
  have hstep : step s = .next (wakeUp ((wakeUp (s.setInputs rest)).setIrq (src.raise s.irq))) := by
    rw [step_of_input hin, event, raiseFlag_of_canRaise hcan', wakeUp_irq]
    rfl
  obtain ⟨hsleeping, hwaking⟩ := sleep_wakeUp_raise (s := s.setInputs rest) (src := src) rfl
  refine ⟨_, hstep, ?_, hsleeping, hwaking, ?_⟩
  · obtain ⟨sleeping, waking, ht⟩ := wakeUp_setIrq_wakeUp (src.raise s.irq) (s.setInputs rest)
    rw [ht]
    rfl
  · rw [wakeUp_irq, State.setIrq_irq]
    exact ⟨fun i => ⟨Source.flag_raise _ _ i, Source.enable_raise _ _ i, Source.highPriority_raise _ _ i⟩,
      Source.raise_eq _ _, fun j => intcon_raise _ _, fun j => intcon3_raise _ _, fun j => pir2_raise _ _⟩

/-! ### The steps of the core -/

/-- What is fetched depends on PC and program memory only. -/
theorem runInstr_of_decode_congr {t : State} {i : Instr} {rest : List Byte} (hpc : t.pc = s.pc)
    (hprog : t.prog = s.prog) (h : decode (fetchBytes 4 s.pc s) = .ok (i, rest)) : runInstr t = exec i t :=
  runInstr_of_decode (rest := rest) (by rw [hpc, fetchBytes_congr 4 s.pc hprog, h])

/-- A boundary left to the core (60_exceptions.md R335). -/
theorem step_of_no_event {rest : List Input} (h : (s.inputs = [] ∧ rest = []) ∨ s.inputs = .proceed :: rest) :
    step s = boundary (wakeUp (s.setInputs rest)) := by
  obtain ⟨hin, rfl⟩ | hin := h
  · have hsame : s.setInputs [] = s := by rw [← hin]; rfl
    rw [step_of_no_input hin, hsame]
  · rw [step_of_input hin]
    rfl

/-- Asleep, or before the instruction after SLEEP, no entry is made (60_exceptions.md R348). -/
theorem boundary_of_sleep (h : s.sleeping = true ∨ s.waking = true) : boundary s = core1 s := by
  have hnone : takenLevel s = none := if_pos (by simpa using h)
  rw [boundary, hnone]

/-- An awake core with no wake-up under way takes the request that stands, and otherwise runs the instruction. -/
theorem boundary_of_awake (hs : s.sleeping = false) (hw : s.waking = false) :
    (∀ level, requestedLevel s = some level → boundary s = interruptEntry level s) ∧
      (requestedLevel s = none → boundary s = runInstr s) := by
  have htaken : takenLevel s = requestedLevel s := by simp [takenLevel, hs, hw]
  refine ⟨fun level h => ?_, fun h => ?_⟩
  · rw [boundary, htaken, h]
  · rw [boundary, htaken, h, core1, hs, hw]
    rfl

theorem core1_of_awake (hs : s.sleeping = false) (hw : s.waking = false) : core1 s = runInstr s := by
  rw [core1, hs, hw]
  rfl

theorem core1_of_asleep (hs : s.sleeping = true) : core1 s = .next s := if_pos hs

/-- The instruction after SLEEP, and then the request that stands keeps the core awake (60_exceptions.md R348; log 19). -/
theorem core1_of_waking (hs : s.sleeping = false) (hw : s.waking = true) {t : State}
    (h : runInstr (s.setWaking false) = .next t) :
    core1 s = .next { t with sleeping := t.sleeping && (requestedLevel t).isNone } := by
  rw [core1, hs, hw]
  rw [if_neg Bool.false_ne_true, if_pos rfl, afterSleep, h, andThen_next, stayAwakeForEntry]
  cases requestedLevel t <;> simp [State.setSleeping]

end

/-- Settles O56: waking up by its two cases; a boundary with no event, and so also one with `proceed` or `delayInterrupt`,
is `core1` wherever the core sleeps or has just woken. -/
theorem sleepAndWake : Obligations.SleepAndWake := by
  intro s rest
  refine ⟨wakeUp_of_wakingSource, fun h => h.elim wakeUp_of_awake wakeUp_of_no_source, fun hin => ?_⟩
  have hstep : (wakeUp (s.setInputs rest)).sleeping = true ∨ (wakeUp (s.setInputs rest)).waking = true →
      step s = core1 (wakeUp (s.setInputs rest)) := by
    intro h
    obtain hnone | hproceed | hdelay := hin
    · rw [step_of_no_event (.inl hnone), boundary_of_sleep h]
    · rw [step_of_no_event (.inr hproceed), boundary_of_sleep h]
    · rw [step_of_input hdelay, event]
  refine ⟨fun hs hno => ?_, fun hwoken j t hwf hat hexec => ?_⟩
  · have hstay : wakeUp (s.setInputs rest) = s.setInputs rest := wakeUp_of_no_source hno
    rw [hstay] at hstep
    exact (hstep (.inl hs)).trans (core1_of_asleep (s := s.setInputs rest) hs)
  · have hup : wakeUp (s.setInputs rest) = { s with inputs := rest, sleeping := false, waking := true } := by
      obtain ⟨hs, hsource⟩ | ⟨hs, hw⟩ := hwoken
      · exact wakeUp_of_wakingSource (s := s.setInputs rest) hs hsource
      · rw [wakeUp_of_awake (s := s.setInputs rest) hs, State.setInputs, ← hs, ← hw]
    rw [hup] at hstep
    obtain ⟨tail, hdec⟩ := exists_decode_of_instrAtPc hwf hat
    have hrun : runInstr { s with inputs := rest, sleeping := false, waking := false } = .next t :=
      (runInstr_of_decode_congr (by rfl) (by rfl) hdec).trans hexec
    exact ⟨(exec_keepsControl hexec).waking rfl, (hstep (.inr rfl)).trans (core1_of_waking rfl rfl hrun)⟩

end Sys2Proof.Machine
end

section
/-! The resets (70_reset_and_hazards.md R370, 10_state.md R64): the registers each leaves, and the cause that RCON
records. -/

namespace Sys2Proof.Machine

section
variable (s : State) (cause : ResetCause)

/-- What every reset leaves, the registers named that not all causes load with one value (10_state.md R64). -/
theorem resetStep_eq :
    let t := resetStep cause s
    t = { s with
      pc := 0#21, bsr := 0#4, tblptr := 0#21, tblptr21 := false, tablat := 0#8, pclath := 0#8, pclatu := 0#5, sp := 0#5
      wdt := ⟨0, 0, false⟩, sleeping := false, waking := false
      irq := { State.reset.irq with intcon := t.irq.intcon, rbMismatch := t.irq.rbMismatch }
      rcon := t.rcon, w := t.w, status := t.status, fsr := t.fsr, prodh := t.prodh, prodl := t.prodl, ram := t.ram
      stack := t.stack, stkful := t.stkful, stkunf := t.stkunf, shadow := t.shadow, holding := t.holding } := by
  cases cause <;> rfl

/-- Of INTCON a reset leaves at most RBIF (10_state.md R64). -/
theorem resetStep_intcon : ∃ x : Byte, (resetStep cause s).irq.intcon = x &&& 0x01#8 := by
  cases cause
  case powerOn => exact ⟨0#8, rfl⟩
  case brownOut => exact ⟨s.irq.intcon &&& 0xFE#8, by
    show (s.irq.intcon &&& 0x01#8) &&& 0xFE#8 = _
    rw [BitVec.and_assoc, BitVec.and_assoc, BitVec.and_comm 0x01#8]⟩
  all_goals exact ⟨s.irq.intcon, rfl⟩

theorem resetStep_no_enable : (resetStep cause s).irq.intcon &&& 0xFE#8 = 0#8 := by
  obtain ⟨x, hx⟩ := resetStep_intcon s cause
  rw [hx, BitVec.and_assoc]
  exact BitVec.and_zero

theorem resetStep_gieh : gieh (resetStep cause s) = false := by
  obtain ⟨x, hx⟩ := resetStep_intcon s cause
  rw [gieh, hx, BitVec.getLsbD_and]
  exact Bool.and_false _

/-- RCON as a reset with a cause of its own leaves it: IPEN and the unimplemented bits 0, the bits of the mask by the cause,
the others as they were. -/
theorem getLsbD_merge_rcon {j : Nat} (mask v : Byte) (hj : j < 8) :
    (merge mask v (s.rcon &&& 0x1F#8)).getLsbD j =
      if mask.getLsbD j then v.getLsbD j else s.rcon.getLsbD j && decide (j < 5) := by
  have hlow : (0x1F#8).getLsbD j = decide (j < 5) := by interval_cases j <;> rfl
  rw [getLsbD_merge _ _ _ hj, BitVec.getLsbD_and, hlow]

/-- Settles O58: the registers by `resetStep_eq`, the requests by the global enable, and RCON bit by bit from the merge that
each cause makes. -/
theorem resetCauses : Obligations.ResetCauses := by
  intro s cause
  refine ⟨resetStep_eq s cause, resetStep_no_enable s cause, requestedLevel_of_gieh_false (resetStep_gieh s cause),
    fun hwarm => ?_, fun hwarm hbrown => ?_, ?_, fun j hj => ?_⟩
  · cases cause
    case powerOn => exact absurd rfl hwarm
    all_goals exact ⟨rfl, rfl, rfl, rfl, rfl, rfl, rfl, rfl, rfl, rfl, rfl⟩
  · cases cause
    case powerOn => exact absurd rfl hwarm
    case brownOut => exact absurd rfl hbrown
    all_goals exact ⟨(BitVec.getLsbD_and ..).trans (Bool.and_true _), rfl⟩
  · rintro rfl
    exact ⟨rfl, rfl, fun _ => rfl⟩
  · cases cause
    case powerOn => interval_cases j <;> simp [resetStep, State.reset]
    case mclr =>
      cases hs : s.sleeping with
      | false =>
        have hrcon : (resetStep .mclr s).rcon = s.rcon &&& 0x1F#8 := by simp [resetStep, hs]
        rw [hrcon]
        interval_cases j <;> simp
      | true =>
        have hrcon : (resetStep .mclr s).rcon = merge 0x0C#8 0x08#8 (s.rcon &&& 0x1F#8) := by simp [resetStep, hs]
        rw [hrcon, getLsbD_merge_rcon s _ _ hj]
        interval_cases j <;> simp
    case resetInstruction => interval_cases j <;> simp [resetStep]
    case wdt =>
      refine (getLsbD_merge_rcon s 0x0C#8 0x04#8 hj).trans ?_
      interval_cases j <;> simp
    case brownOut =>
      refine (getLsbD_merge_rcon s 0x1D#8 0x1C#8 hj).trans ?_
      interval_cases j <;> simp

/-- Settles O48: the step of RESET is the reset step of its cause; the rest of RCON and RBIF are two masks. -/
theorem resetInstruction : Obligations.ResetInstruction := by
  intro s
  refine ⟨s.rcon &&& 0x0F#8, s.irq.intcon &&& 0x01#8, fun j hj => ?_, fun j hj => ?_, rfl⟩
  · rw [BitVec.getLsbD_and]
    interval_cases j <;> simp
  · rw [BitVec.getLsbD_and]
    interval_cases j <;> simp

/-- Settles O59, by the fields of `State.reset`; empty RAM holds no value at any address. -/
theorem powerOnValues : Obligations.PowerOnValues :=
  ⟨rfl, rfl, rfl, rfl, rfl, rfl, rfl, rfl, rfl, rfl, rfl, rfl, rfl, rfl, rfl, rfl, rfl, rfl, rfl, rfl, rfl, rfl,
    fun _ => rfl⟩

end

end Sys2Proof.Machine
end

section
/-! What a step is (60_exceptions.md R334, R335, R346): each event, and the boundaries that the environment leaves to the
core. -/

namespace Sys2Proof.Machine

section
variable {s : State}

/-! ### The events -/

/-- A flag whose device stands still in SLEEP is not raised there (60_exceptions.md R348; log 20). -/
theorem raiseFlag_eq (src : Source) (s : State) : raiseFlag src s = wakeUp
    (if s.sleeping = true ∧ (src = .tmr0 ∨ src = .tmr2) then s else { s with irq := src.raise s.irq }) := by
  by_cases hcan : src.canRaise s.sleeping = true
  · rw [raiseFlag_of_canRaise hcan, if_neg (canRaise_iff.1 hcan)]
    rfl
  · rw [raiseFlag, if_neg hcan, if_pos (Decidable.not_not.1 (mt canRaise_iff.2 hcan))]

/-- RCIF is bit 5 of PIR1 and TXIF bit 4 (60_exceptions.md R331, R332). -/
theorem bits_usartBuffers (rcif txif : Bool) (pir1 : Byte) :
    Bits (merge maskUsart (0#2 ++ BitVec.ofBool rcif ++ BitVec.ofBool txif ++ 0#4 : BitVec 8) pir1)
      fun j => if j = 5 then rcif else if j = 4 then txif else pir1.getLsbD j := by
  intro j hj
  refine (getLsbD_merge _ _ _ hj).trans ?_
  simp only [BitVec.getLsbD_append, maskUsart]
  interval_cases j <;> simp

theorem wdtRuns_iff : wdtRuns s = true ↔ s.wdt.swdten = true ∨ Config.wdtEnabled = true := by
  rw [wdtRuns, Bool.or_eq_true, or_comm]

theorem wdtClock_eq (counter scaler : Nat) (s : State) :
    wdtClock counter scaler s = if s.wdt.swdten = true ∨ Config.wdtEnabled = true then
      { s with wdt := { s.wdt with counter := counter, scaler := scaler } } else s := by
  rw [wdtClock]
  exact if_congr wdtRuns_iff rfl rfl

/-- Whether the core sleeps or has just woken, a power-on and a brown-out end alike. -/
theorem resetStep_wakeUp {cause : ResetCause} (h : cause ≠ .mclr) (s : State) :
    resetStep cause (wakeUp s) = resetStep cause s := by
  rw [wakeUp_eq]
  cases cause
  case mclr => exact absurd rfl h
  all_goals rfl

end

/-- Settles O8: each event's step is that of `event`, after the core has had its chance to wake up; awake it stays as it
is. -/
theorem stepOrder : Obligations.StepOrder := by
  intro s rest s1 s'
  have hirq : s'.irq = s.irq := wakeUp_irq s1
  have hwdt : s'.wdt = s.wdt := wakeUp_wdt s1
  have hrun {i : Instr} {tail : List Byte} (hdec : decode (fetchBytes 4 s.pc s) = .ok (i, tail)) :
      runInstr s1 = exec i s1 := runInstr_of_decode_congr (by rfl) (by rfl) hdec
  have happly {e : Input} (hin : s.inputs = e :: rest) : step s = event e s' := step_of_input hin
  refine ⟨fun hs hw hin => ?_, fun hs hw hin i tail hdec => ?_, fun hin => ?_, fun hin => ?_, fun hin => ?_,
    fun src hin => ?_, fun rcif txif hin => ?_, fun counter scaler hin => ?_⟩
  · have hstep : step s = boundary s1 :=
      (step_of_no_event hin).trans (congrArg boundary (wakeUp_of_awake (s := s1) hs))
    obtain ⟨hentry, hcore⟩ := boundary_of_awake (s := s1) hs hw
    exact ⟨fun level hlevel => hstep.trans (hentry level hlevel),
      fun i tail hnone hdec => hstep.trans ((hcore hnone).trans (hrun hdec))⟩
  · have hstep : step s = core1 s1 := (happly hin).trans (congrArg core1 (wakeUp_of_awake (s := s1) hs))
    exact hstep.trans ((core1_of_awake (s := s1) hs hw).trans (hrun hdec))
  · exact (happly hin).trans (congrArg Host.Outcome.next (resetStep_wakeUp (cause := .powerOn) (by decide) s1))
  · exact happly hin
  · exact (happly hin).trans (congrArg Host.Outcome.next (resetStep_wakeUp (cause := .brownOut) (by decide) s1))
  · rw [happly hin, event, raiseFlag_eq, hirq]
  · rw [happly hin, event, usartBuffers, hirq]
    exact ⟨_, bits_usartBuffers rcif txif s.irq.pir1, rfl⟩
  · rw [happly hin, event, wdtClock_eq, hwdt]

/-- Settles O57: the three cases of `wdtTimeout`, after the core has had its chance to wake up. -/
theorem watchdogTimeout : Obligations.WatchdogTimeout := by
  intro s rest hin s1
  have hstep : step s = .next (wdtTimeout (wakeUp s1)) := step_of_input hin
  have hruns {b : Bool} (h : wdtRuns s1 = b) : wdtRuns (wakeUp s1) = b := by rw [wdtRuns, wakeUp_wdt]; exact h
  refine ⟨fun hcfg hsoft => ?_, fun hon hawake => ?_, fun hon hs hno => ?_⟩
  · have hoff : wdtRuns s1 = false := by
      show (Config.wdtEnabled || s.wdt.swdten) = false
      rw [hcfg, hsoft]
      rfl
    rw [hstep, wdtTimeout, hruns hoff]
    rfl
  · have hon : wdtRuns s1 = true := wdtRuns_iff.2 hon.symm
    have hup : (wakeUp s1).sleeping = false := by
      rw [Bool.eq_false_iff, ne_eq, wakeUp_sleeping_iff]
      rintro ⟨hs, hno⟩
      exact hawake.elim (fun h => absurd (h.symm.trans hs) Bool.false_ne_true) hno
    refine ⟨?_, rfl, rfl, rfl, rfl, rfl, ?_, ?_, resetStep_gieh s1 .wdt⟩
    · rw [hstep, wdtTimeout, hruns hon, hup, resetStep_wakeUp (by decide)]
      rfl
    · exact (resetCauses s1 .wdt).2.2.2.2.2.2 3 (by decide)
    · exact (resetCauses s1 .wdt).2.2.2.2.2.2 2 (by decide)
  · have hon : wdtRuns s1 = true := wdtRuns_iff.2 hon.symm
    have hstay : wakeUp s1 = s1 := wakeUp_of_no_source hno
    refine ⟨_, bits_setToPd false false s, ?_⟩
    rw [hstep, hstay, wdtTimeout, hon]
    exact congrArg _ (if_pos hs)

end Sys2Proof.Machine
end

section
/-! DAW (44_control_system.md R263) and the correction of a sum of two BCD bytes. -/

namespace Sys2Proof.Machine

theorem decimalAdjust_eq (w : Byte) (dc c : Bool) : decimalAdjust w dc c =
    let low := if 9 < w.toNat % 16 ∨ dc = true then w.toNat + 6 else w.toNat
    if 9 < low / 16 ∨ c = true then low + 96 else low := by
  simp only [decimalAdjust, Bool.or_eq_true, decide_eq_true_eq, gt_iff_lt]

/-- DAW in full, on what the two corrections give (44_control_system.md R263). -/
theorem exec_daw (s : State) :
    let n := decimalAdjust s.w s.status.dc s.status.c
    exec .daw s = .next { s with
      pc := s.pc + 2#21, w := BitVec.ofNat 8 n
      status := { s.status with c := s.status.c || decide (256 ≤ n) } } := by
  intro n
  rw [Bool.or_comm]
  rfl

/-- Settles O46, by `decimalAdjust_eq`. -/
theorem decimalAdjust_spec : Obligations.DecimalAdjust := by
  intro s low high
  have hhigh : decimalAdjust s.w s.status.dc s.status.c = high := decimalAdjust_eq ..
  rw [← hhigh]
  exact exec_daw s

/-- The correction of the sum of two BCD bytes, of the digits a, b and c, d: 6 brings the low digit and its carry right,
60h the high digit and the hundred. -/
theorem decimalAdjust_bcd {a b c d : Nat} (ha : a < 10) (hb : b < 10) (hc : c < 10) (hd : d < 10) {w : Byte}
    {dc carry : Bool} (hw : w.toNat = (a * 16 + b + (c * 16 + d)) % 256) (hdc : dc = true ↔ 16 ≤ b + d)
    (hcarry : carry = true ↔ 256 ≤ a * 16 + b + (c * 16 + d)) :
    decimalAdjust w dc carry % 256 = (a + c + (b + d) / 10) % 10 * 16 + (b + d) % 10 ∧
      (carry || decide (256 ≤ decimalAdjust w dc carry)) = decide (10 ≤ a + c + (b + d) / 10) := by
  rw [Bool.eq_iff_iff, Bool.or_eq_true, decide_eq_true_iff, decide_eq_true_iff]
  have hlow : (9 < w.toNat % 16 ∨ dc = true) ↔ 10 ≤ b + d := by
    rw [hw, hdc]
    omega
  rw [decimalAdjust_eq]
  simp only [hlow, hcarry]
  by_cases h10 : 10 ≤ b + d
  · have hhigh : (9 < (w.toNat + 6) / 16 ∨ 256 ≤ a * 16 + b + (c * 16 + d)) ↔ 9 ≤ a + c := by omega
    simp only [if_pos h10, hhigh]
    split <;> omega
  · have hhigh : (9 < w.toNat / 16 ∨ 256 ≤ a * 16 + b + (c * 16 + d)) ↔ 10 ≤ a + c := by omega
    simp only [if_neg h10, hhigh]
    split <;> omega

/-- Settles O47: the sum by `arithmeticLiterals`, its correction by `decimalAdjust_bcd` on the four digits. -/
theorem bcdAddition : Obligations.BcdAddition := by
  intro x y k s t u hx hy hw hk hadd hdaw
  obtain ⟨hsum, _⟩ := arithmeticLiterals k s
  obtain rfl := Host.Outcome.next.inj (hadd.symm.trans hsum)
  obtain rfl := Host.Outcome.next.inj (hdaw.symm.trans (exec_daw _))
  obtain ⟨hdigits, hhundred⟩ := decimalAdjust_bcd (a := x / 10) (b := x % 10) (c := y / 10) (d := y % 10)
    (w := (sumOf s.w k false).1) (dc := decide (16 ≤ s.w.toNat % 16 + k.toNat % 16 + 0))
    (carry := decide (256 ≤ s.w.toNat + k.toNat + 0)) (by omega) (by omega) (by omega) (by omega)
    (by rw [← hw, ← hk]; exact BitVec.toNat_ofNat ..) (by rw [decide_eq_true_iff, hw, hk]; omega)
    (by rw [decide_eq_true_iff, hw, hk]; rfl)
  exact ⟨(BitVec.toNat_ofNat ..).trans (hdigits.trans (by omega)), hhundred.trans (decide_eq_decide.2 (by omega))⟩

end Sys2Proof.Machine
end

section
/-! TBLWT (46_table.md section 3): the holding latch that the address selects. -/

namespace Sys2Proof.Machine

/-- The latches after a table write: the one selected has the byte, the others what they had (46_table.md R306). -/
theorem holding_setIfInBounds (holding : Vector Byte Config.holdingBytes) (a : ProgAddr) (v : Byte) {j : Nat}
    (hj : j < 8) :
    (holding.setIfInBounds (holdingIndex a) v)[j]? = if j = a.toNat % 8 then some v else holding[j]? := by
  have hindex : holdingIndex a = a.toNat % 8 := rfl
  rw [hindex, Vector.getElem?_setIfInBounds]
  by_cases h : a.toNat % 8 = j
  · rw [if_pos h, if_pos h.symm, if_pos (by rw [h]; exact hj)]
  · rw [if_neg h, if_neg (Ne.symm h)]

/-- A table write in full (46_table.md R306 to R309). -/
theorem tableWrite_spec {m : TableMode} {s : State} (h21 : s.tblptr21 = false) {address after : Nat}
    (haddress : (tableAddr m s).toNat % 8 = address % 8) (hafter : tableNext m s = BitVec.ofNat 21 after) :
    ∃ h : Vector Byte Config.holdingBytes,
      (∀ j, j < 8 → h[j]? = if j = address % 8 then some s.tablat else s.holding[j]?) ∧
      tableWrite m s = .next { s with pc := s.pc + 2#21, holding := h, tblptr := BitVec.ofNat 21 after } := by
  refine ⟨s.holding.setIfInBounds (holdingIndex (tableAddr m s)) s.tablat, fun j hj => ?_, ?_⟩
  · rw [holding_setIfInBounds _ _ _ hj, haddress]
  · rw [← hafter]
    exact tableWrite_next_iff.2 ⟨h21, rfl⟩

/-- Settles O50: the four modes by the address that each uses and the TBLPTR that it leaves. -/
theorem tableWrites : Obligations.TableWrites := by
  intro s h21
  have hsame : s.tblptr = BitVec.ofNat 21 s.tblptr.toNat := by simp
  have hnext : (s.tblptr + 1#21).toNat % 8 = (s.tblptr.toNat + 1) % 8 := by
    rw [BitVec.toNat_add, BitVec.toNat_ofNat]
    omega
  exact ⟨tableWrite_spec (m := .none) h21 rfl hsame, tableWrite_spec (m := .postInc) h21 rfl (progAddr_succ _),
    tableWrite_spec (m := .postDec) h21 rfl (progAddr_pred _), tableWrite_spec (m := .preInc) h21 hnext (progAddr_succ _)⟩

end Sys2Proof.Machine
end

section
/-! Where the table instructions and the skips stop (46_table.md R301, 41_byte_skip.md R201). -/

namespace Sys2Proof.Machine

/-! ### Table instructions -/

section
variable {m : TableMode} {s : State}

theorem tableRead_configSpace (h : s.tblptr21 = true) : tableRead m s = .refused .configSpace := if_pos h

theorem tableWrite_configSpace (h : s.tblptr21 = true) : tableWrite m s = .refused .configSpace := if_pos h

theorem tableRead_outside (h21 : s.tblptr21 = false) (h : Config.progBytes ≤ (tableAddr m s).toNat) :
    tableRead m s = .refused .unimplementedProgram := by
  rw [tableRead, h21, progRead_none _ s h]
  rfl

end

/-! ### Skips -/

/-- A word of no row and LFSR with ff = 3 are not skipped over (30_encoding.md R134, R136). -/
theorem skippedBytes_eq_none {w : Word} (h : rowOf w = none ∨ (0xEE30 ≤ w.toNat ∧ w.toNat ≤ 0xEE3F)) :
    skippedBytes w = none := by
  obtain hnone | ⟨hlo, hhi⟩ := h
  · rw [skippedBytes, isTwoWord_of_rowOf_none hnone, hnone]
    rfl
  · have hreserved : w &&& 0xFFF0#16 = 0xEE30#16 := by
      apply BitVec.eq_of_toNat_eq
      rw [show 0xFFF0#16 = BitVec.allOnes 16 <<< 4 from rfl, toNat_and_high]
      show w.toNat / 16 * 16 = 60976
      omega
    have htwo : isTwoWord w = true := isTwoWord_of_rowOf (rowOf_lfsr_reserved hreserved)
    rw [skippedBytes, htwo, hreserved]
    rfl

/-- A skip at `s` stops as `r` does, whatever the word after it is that a skip cannot pass (41_byte_skip.md R201). -/
def SkipStops (s : State) (r : Res State) : Prop :=
  (fetch16 (s.pc + 2#21) s = none → r = .refused .unimplementedProgram) ∧
  (∀ w : Word, fetch16 (s.pc + 2#21) s = some w → rowOf w = none ∨ (0xEE30 ≤ w.toNat ∧ w.toNat ≤ 0xEE3F) →
    r = .refused .skipOverUnassigned)

theorem skip_stops {s t : State} (hpc : t.pc = s.pc + 2#21) (hprog : t.prog = s.prog) : SkipStops s (skip t) := by
  have hword : fetch16 t.pc t = fetch16 (s.pc + 2#21) s := by rw [hpc, fetch16_congr _ hprog]
  refine ⟨fun hnone => ?_, fun w hw hbad => ?_⟩
  · rw [skip, hword, hnone]
  · rw [skip, hword, hw]
    dsimp only
    rw [skippedBytes_eq_none hbad]

section
variable {f : Byte} {d a : Bool} {s : State}

theorem fileOperand_of_ok (h : OperandOk f a s) :
    fileOperand f a (advance 2 s) = .next (effAddr f a s, accessState 2 (rawAddr f a s) s) :=
  fileOperand_next_iff.2 ⟨h, rfl⟩

theorem dataRead_of_canRead (h : CanRead f a s) :
    dataRead (effAddr f a s) (accessState 2 (rawAddr f a s) s) = .next (operandValue f a s, afterRead f a s) :=
  dataRead_next_iff.2 ⟨readable_accessState.2 h.2, rfl⟩

/-- A test skip that is taken goes on as `skip` does. -/
theorem testSkip_taken {cond : Byte → Byte → Bool} (hr : CanRead f a s) (hc : cond (operandValue f a s) s.w = true) :
    testSkip cond f a s = skip (readNext f a s) := by
  have hw : (afterRead f a s).w = s.w := by simp [afterRead]
  rw [testSkip, fileOperand_of_ok hr.1, andThen_next, dataRead_of_canRead hr, andThen_next, skipIf, hw, if_pos hc]
  rfl

theorem testSkip_stops {i : Instr} {cond : Byte → Byte → Bool} (he : exec i s = testSkip cond f a s)
    (hr : CanRead f a s) (hc : cond (operandValue f a s) s.w = true) : SkipStops s (exec i s) := by
  rw [he, testSkip_taken hr hc]
  exact skip_stops (readNext_pc f a s) (readNext_prog f a s)

/-- A counting skip that is taken goes on as `skip` does from the address of the next instruction. -/
theorem countSkip_stops {i : Instr} {delta : Byte} {cond : Byte → Bool} (he : exec i s = countSkip delta cond f d a s)
    (hr : CanRead f a s) (hd : CanStore d f a s) (hc : cond (operandValue f a s + delta) = true) :
    SkipStops s (exec i s) := by
  have hdest := (dest_next_iff (v := operandValue f a s + delta) (s := afterRead f a s)).2 ⟨hd, rfl⟩
  rw [he, countSkip, fileOperand_of_ok hr.1, andThen_next, dataRead_of_canRead hr, andThen_next, hdest, andThen_next,
    if_pos hc, postUpdate_setPc]
  exact skip_stops rfl (by simp)

end

/-- Settles O51: the table instructions by their first two tests, the skips by what `skip` answers once they are taken. -/
theorem tableAndSkipStops : Obligations.TableAndSkipStops := by
  intro s
  refine ⟨fun h21 i hi => ?_, fun h21 hout i hi => ?_, fun h21 hout => ?_, fun f b d a hr => ?_⟩
  · fin_cases hi
    iterate 4 · exact tableRead_configSpace h21
    all_goals exact tableWrite_configSpace h21
  · fin_cases hi
    · exact tableRead_outside (m := .none) h21 hout
    · exact tableRead_outside (m := .postInc) h21 hout
    · exact tableRead_outside (m := .postDec) h21 hout
  · refine tableRead_outside (m := .preInc) h21 ?_
    show Config.progBytes ≤ (s.tblptr + 1#21).toNat
    rwa [BitVec.toNat_add]
  · exact ⟨
      fun h => testSkip_stops (cond := fun x w => x.ult w) rfl hr (decide_eq_true h),
      fun h => testSkip_stops (cond := fun x w => x == w) rfl hr (beq_iff_eq.2 h),
      fun h => testSkip_stops (cond := fun x w => w.ult x) rfl hr (decide_eq_true h),
      fun h => testSkip_stops (cond := fun x _ => x == 0#8) rfl hr (beq_iff_eq.2 h),
      fun h => testSkip_stops (cond := fun x _ => !x.getLsbD b.toNat) rfl hr (Bool.not_eq_eq_eq_not.2 h),
      fun h => testSkip_stops (cond := fun x _ => x.getLsbD b.toNat) rfl hr h,
      fun hd => ⟨
        fun h => countSkip_stops (cond := fun r => r == 0#8) rfl hr hd (by rw [h]; rfl),
        fun h => countSkip_stops (cond := fun r => r != 0#8) rfl hr hd (bne_iff_ne.2 fun e => h (by bv_omega)),
        fun h => countSkip_stops (cond := fun r => r == 0#8) rfl hr hd (by rw [h]; rfl),
        fun h => countSkip_stops (cond := fun r => r != 0#8) rfl hr hd (bne_iff_ne.2 fun e => h (by bv_omega))⟩⟩

end Sys2Proof.Machine
end

section
/-! Operands that are PCL or a peripheral register (10_state.md R32, 20_memory.md R98). -/

namespace Sys2Proof.Machine

/-! ### PCL -/

theorem place_pclAddr_direct (n : FsrIx) (m : IndirectMode) : place pclAddr ≠ .indirect n m := by
  rw [(place_pcl_iff _).2 rfl]
  exact Place.noConfusion

theorem rawAddr_pcl (s : State) : rawAddr 0xF9#8 false s = pclAddr := rfl

theorem effAddr_pcl (s : State) : effAddr 0xF9#8 false s = pclAddr := resolve_of_direct place_pclAddr_direct s

theorem operandOk_pcl (s : State) : OperandOk 0xF9#8 false s := touchesOwnFsr_of_direct place_pclAddr_direct _

theorem accessState_pcl (s : State) : accessState 2 pclAddr s = advance 2 s :=
  preUpdate_of_direct place_pclAddr_direct _

/-- Reading PCL copies the rest of the next instruction's address into the latches (10_state.md R32). -/
theorem readNext_pcl (s : State) : readNext 0xF9#8 false s = regReadEffect .pcl (advance 2 s) := by
  have hplace : place (effAddr 0xF9#8 false s) = .reg .pcl := (place_pcl_iff _).2 (effAddr_pcl s)
  rw [readNext, rawAddr_pcl, postUpdate_of_direct place_pclAddr_direct, afterRead_of_reg hplace, rawAddr_pcl,
    accessState_pcl]

theorem operandValue_pcl (s : State) : operandValue 0xF9#8 false s = (s.pc + 2#21).extractLsb' 0 8 := by
  rw [operandValue, effAddr_pcl, rawAddr_pcl, accessState_pcl, readValue, (place_pcl_iff _).2 rfl]
  rfl

/-- The three bytes of a program address, as the latches and PCL hold it. -/
theorem toNat_thirds (p : ProgAddr) :
    (p.extractLsb' 16 5).toNat * 65536 + (p.extractLsb' 8 8).toNat * 256 + (p.extractLsb' 0 8).toNat = p.toNat := by
  have hp := p.isLt
  simp only [BitVec.extractLsb'_toNat, Nat.shiftRight_eq_div_pow]
  omega

/-- Settles O34: what a read of PCL leaves by `readNext_pcl`, the target of a write by the sum of its three bytes. -/
theorem programCounterAsRegister : Obligations.ProgramCounterAsRegister := by
  intro s
  have hplace : place (effAddr 0xF9#8 false s) = .reg .pcl := (place_pcl_iff _).2 (effAddr_pcl s)
  constructor
  · have hread : CanRead 0xF9#8 false s := ⟨operandOk_pcl s, by simp [Readable, hplace]⟩
    refine ⟨_, byteOp_ready (op := fun x _ _ => resultZN x) (d := false) hread nofun,
      byteNext_pc (d := false) nofun _ _, ?_⟩
    rw [byteNext_w, readNext_pcl, operandValue_pcl]
    exact (toNat_thirds _).trans (BitVec.toNat_add _ _)
  · refine (execMovwf_next_iff.2 ⟨operandOk_pcl s, by simp [Writable, hplace], ?_⟩ : execMovwf _ _ _ = _)
    rw [storeNext, rawAddr_pcl, postUpdate_of_direct place_pclAddr_direct, accessState_pcl, writeEffect_reg hplace]
    have htarget : s.pclatu.toNat * 65536 + s.pclath.toNat * 256 + s.w.toNat =
        (s.pclatu ++ s.pclath ++ s.w : BitVec 21).toNat := by
      rw [toNat_append_add, toNat_append_add]
      omega
    rw [htarget, evenPc_toNat]
    rfl

/-! ### Peripheral registers -/

theorem place_portb : place portbAddr = .device := by decide

theorem dataRead_device {a : DataAddr} (h : place a = .device) (s : State) :
    dataRead a s = .next (Config.deviceByte s.draws a, deviceReadEffect a s) := by
  simp only [dataRead, readValue, readEffect, h]

/-- Settles O35: `dataRead_device` at PORTB and elsewhere, and the write of each place. -/
theorem peripheralAccess : Obligations.PeripheralAccess := by
  intro a v s
  refine ⟨fun h hne => ?_, ?_, fun h => ?_, fun h => ?_⟩
  · rw [dataRead_device h, deviceReadEffect, if_neg hne]
    rfl
  · rw [dataRead_device place_portb, deviceReadEffect, if_pos rfl]
    rfl
  · simp only [dataWrite, writeEffect, h]
    rfl
  · simp only [dataWrite, h]

end Sys2Proof.Machine
end

section
/-! What a register of the core reads as after a write of it (10_state.md R61, R62; 20_memory.md R87). -/

namespace Sys2Proof.Machine

/-! ### Fields below zeros -/

/-- A field of the low bits under zeros is a mask of them. -/
theorem zeros_append_low {k n : Nat} (v : BitVec (k + n)) :
    0#k ++ v.extractLsb' 0 n = v &&& (0#k ++ BitVec.allOnes n) := by
  apply BitVec.eq_of_getLsbD_eq
  intro j hj
  rw [BitVec.getLsbD_and, BitVec.getLsbD_append, BitVec.getLsbD_append]
  by_cases hjn : j < n <;> simp [hjn]

theorem ofBool_getLsbD (v : Byte) (i : Nat) : BitVec.ofBool (v.getLsbD i) = v.extractLsb' i 1 := by
  apply BitVec.eq_of_getLsbD_eq
  intro j hj
  obtain rfl : j = 0 := by omega
  simp

theorem toByte_ofByte (v : Byte) : (Flags.ofByte v).toByte = v &&& 0x1F#8 := by
  apply BitVec.eq_of_getLsbD_eq
  intro j hj
  simp only [Flags.toByte, Flags.ofByte, BitVec.getLsbD_append, BitVec.getLsbD_and]
  interval_cases j <;> simp

theorem tblptru_byte (v : Byte) :
    (0#2 ++ BitVec.ofBool (v.getLsbD 5) ++ v.extractLsb' 0 5 : BitVec 8) = v &&& 0x3F#8 := by
  apply BitVec.eq_of_getLsbD_eq
  intro j hj
  simp only [BitVec.getLsbD_append, BitVec.getLsbD_and]
  interval_cases j <;> simp

/-- A jump target has the byte written to PCL, bit 0 cleared (10_state.md R32). -/
theorem evenAddr_low (u : BitVec 5) (h v : Byte) : (evenAddr (u ++ h ++ v)).extractLsb' 0 8 = v &&& 0xFE#8 := by
  apply BitVec.eq_of_getLsbD_eq
  intro j hj
  rw [BitVec.getLsbD_extractLsb', evenAddr, BitVec.getLsbD_and, BitVec.getLsbD_append, BitVec.getLsbD_and]
  interval_cases j <;> simp

/-- The flags of STKPTR stay only where the byte written has them (10_state.md R38; log 11). -/
theorem stkptrByte_write (v : Byte) (s : State) :
    stkptrByte (regWrite .stkptr v s) = (v &&& 0x1F#8) ||| (v &&& stkptrByte s &&& 0xC0#8) := by
  apply BitVec.eq_of_getLsbD_eq
  intro j hj
  simp only [regWrite, stkptrByte, BitVec.getLsbD_append, BitVec.getLsbD_and, BitVec.getLsbD_or]
  interval_cases j <;> simp [Bool.and_comm]

theorem merge_and (mask v old k : Byte) :
    merge mask v old &&& k = (v &&& (mask &&& k)) ||| (old &&& (~~~mask &&& k)) := by
  rw [merge, BitVec.and_comm, BitVec.and_or_distrib_left]
  ac_rfl

theorem and_mask1 (v : Byte) : v &&& mask1 = v := BitVec.and_allOnes

/-! ### The registers of more than one byte -/

theorem regValue_fsrl (n : FsrIx) (v : Byte) (s : State) : regValue (.fsrl n) (regWrite (.fsrl n) v s) = v := by
  rw [regWrite, regValue, getFsr_putFsr, if_pos rfl, fsrl_low]

theorem regValue_fsrh (n : FsrIx) (v : Byte) (s : State) :
    regValue (.fsrh n) (regWrite (.fsrh n) v s) = v &&& 0x0F#8 := by
  rw [regWrite, regValue, getFsr_putFsr, if_pos rfl, fsrh_high]
  exact zeros_append_low (k := 4) (n := 4) v

/-- A byte of TOS reads as the same byte of what was written, where the stack has an entry. -/
theorem tos_write {s : State} (hsp : s.sp ≠ 0#5) (p : ProgAddr) : tos (setStackEntry s.sp p s) = p := by
  rw [tos_setStackEntry, if_neg hsp]

theorem tos_write_empty {s : State} (hsp : s.sp = 0#5) (p : ProgAddr) : tos (setStackEntry s.sp p s) = 0#21 := by
  rw [tos_setStackEntry, if_pos hsp]

/-- Settles O33, register by register: a byte kept whole, a mask of it, or bits merged with the old ones. -/
theorem registerReadBack : Obligations.RegisterReadBack := by
  intro v s
  refine ⟨fun r hr => ?_, fun r hr => ?_, fun r hr => ?_, ?_, ?_, ?_, rfl, rfl, rfl, ?_, ?_, stkptrByte_write v s,
    fun hsp => ?_, fun hsp => ?_⟩
  · fin_cases hr
    · rfl
    · exact high_high v s.tblptr
    · exact low_low v s.tblptr
    iterate 4 · rfl
    iterate 3 · exact regValue_fsrl _ v s
    iterate 2 · exact and_mask1 v
  · fin_cases hr
    · exact zeros_append_low (k := 3) (n := 5) v
    · exact toByte_ofByte v
    all_goals rfl
  · fin_cases hr
    · exact zeros_append_low (k := 4) (n := 4) v
    all_goals exact regValue_fsrh _ v s
  · simp only [regWrite, regValue, State.setTblptr21_tblptr, State.setTblptr21_tblptr21,
      State.setTblptr_tblptr, upper_upper]
    exact tblptru_byte v
  · show 0#7 ++ BitVec.ofBool (v.getLsbD 0) = v &&& 0x01#8
    rw [ofBool_getLsbD]
    exact zeros_append_low (k := 7) (n := 1) v
  · exact evenAddr_low _ _ v
  · exact merge_and 0x93#8 v s.rcon maskRcon
  · refine (merge_and maskUsart s.irq.pir1 v mask1).trans ?_
    rw [BitVec.or_comm]
    rfl
  · simp only [regWrite, regValue, tos_write hsp, upper_upper, high_high, low_low, and_true]
    exact zeros_append_low (k := 3) (n := 5) v
  · simp only [regWrite, regValue, tos_write_empty hsp]
    decide

end Sys2Proof.Machine
end

section
/-! The five ways through an FSR (20_memory.md R89). -/

namespace Sys2Proof.Machine

/-- The pointer after an access through it (20_memory.md R89). -/
def pointerAfter : IndirectMode → DataAddr → DataAddr
  | .indf, p | .plusW, p => p
  | .postInc, p | .preInc, p => p + 1#12
  | .postDec, p => p - 1#12

/-- The address an access through a pointer goes to, as a number (20_memory.md R89). -/
def targetThrough (m : IndirectMode) (p : Nat) (w : Int) : Nat :=
  match m with
  | .indf | .postInc | .postDec => p
  | .preInc => (p + 1) % 4096
  | .plusW => ((p + w) % 4096).toNat

section
variable {raw : DataAddr} {n : FsrIx} {m : IndirectMode} {s : State}

/-- Between them the updates before and after the access move the pointer once, and no other FSR. -/
theorem get_of_indirect (h : place raw = .indirect n m) (k : FsrIx) (x : DataAddr) (v : Byte) :
    (postUpdate raw (ramWrite x v (accessState 2 raw s))).fsr.get k =
      if k = n then pointerAfter m (s.fsr.get n) else s.fsr.get k := by
  have hadvance : (advance 2 s).fsr = s.fsr := rfl
  have hget (t : State) (p : DataAddr) : (putFsr n p t).fsr.get k = if k = n then p else t.fsr.get k := getFsr_putFsr ..
  cases m <;>
    simp only [postUpdate, accessState, preUpdate, h, hget, getFsr, ramWrite_fsr, hadvance, pointerAfter] <;>
    split_ifs with hk <;> simp [hk]

theorem resolve_toNat (h : place raw = .indirect n m) :
    (resolve raw s).toNat = targetThrough m (s.fsr.get n).toNat s.w.toInt := by
  have hp := (s.fsr.get n).isLt
  cases m <;> simp only [resolve, h, getFsr, targetThrough]
  · rw [BitVec.toNat_add]
    rfl
  · rw [BitVec.toNat_add, BitVec.signExtend, BitVec.toNat_ofInt]
    norm_num
    omega

theorem pointerAfter_toNat (p : DataAddr) : (pointerAfter m p).toNat =
    match m with
    | .indf | .plusW => p.toNat
    | .postInc | .preInc => (p.toNat + 1) % 4096
    | .postDec => (p.toNat + 4095) % 4096 := by
  cases m <;> simp only [pointerAfter] <;> bv_omega

end

theorem isFsrByte_of_ram {a : DataAddr} (h : place a = .ram) (n : FsrIx) : isFsrByte n a = false := by
  have hlt := (place_ram_iff a).1 h
  rw [← Bool.not_eq_true]
  intro hbyte
  cases n <;> simp only [isFsrByte, Bool.or_eq_true, beq_iff_eq] at hbyte <;>
    obtain rfl | rfl := hbyte <;> exact absurd hlt (by decide)

/-- An operand in RAM is no byte of an FSR. -/
theorem operandOk_of_ram {f : Byte} {a : Bool} {s : State} (h : place (effAddr f a s) = .ram) : OperandOk f a s := by
  rw [OperandOk, touchesOwnFsr]
  split
  · rw [List.any_cons, isFsrByte_of_ram h]
    rfl
  · rfl

/-- Settles O37: an indirect register reached takes and gives nothing; a store through one goes to `resolve_toNat` and
moves the pointer to `pointerAfter_toNat`. -/
theorem indirectAddressing : Obligations.IndirectAddressing := by
  intro s n m f
  refine ⟨fun x v h => ⟨by simp only [dataRead, readValue, readEffect, h],
    by simp only [dataWrite, writeEffect, h]⟩, ?_⟩
  intro h p target pointer htarget
  have haddr : (effAddr f false s).toNat = target := (resolve_toNat h).trans (by cases m <;> rfl)
  have hram : place (effAddr f false s) = .ram := (place_ram_iff _).2 (by rwa [haddr])
  refine ⟨_, execMovwf_next_iff.2 ⟨operandOk_of_ram hram, writable_of_ram hram, rfl⟩, ?_⟩
  rw [storeNext, writeEffect_ram hram]
  refine ⟨?_, fun k hk => ?_, fun x => ?_⟩
  · rw [get_of_indirect h, if_pos rfl]
    exact pointerAfter_toNat _
  · rw [get_of_indirect h, if_neg hk]
  · have heq : x = effAddr f false s ↔ x.toNat = target := by rw [← haddr, BitVec.toNat_inj]
    rw [ramByte_congr x (postUpdate_ram _ _), ramByte_ramWrite, ramByte_congr x (accessState_ram _ _ _)]
    simp only [heq]

end Sys2Proof.Machine
end

section
/-! Where a data access stops (60_exceptions.md R322): each pattern up to the access that stops it. -/

namespace Sys2Proof.Machine

/-! ### The accesses -/

section
variable {x : DataAddr} {f : Byte} {a : Bool} {s : State}

theorem fileOperand_of_not_ok (h : ¬ OperandOk f a s) :
    fileOperand f a (advance 2 s) = .refused .indirectSelfReference := by
  rw [fileOperand, if_pos]
  simpa [OperandOk, effAddr] using h

theorem dataRead_unimplemented (h : place x = .unimplemented) : dataRead x s = .refused .unimplementedData := by
  simp only [dataRead, h]

theorem dataRead_unwritten (h : place x = .ram) (hnone : ramByte x s = none) :
    dataRead x s = .fault .readOfUnwritten := by
  simp [dataRead, h, hnone]

theorem dataRead_eecon2 (h : place x = .eecon2) : dataRead x s = .next (readValue x s, readEffect x s) := by
  simp only [dataRead, h]

theorem dataReadDiscard_unimplemented (h : place x = .unimplemented) :
    dataReadDiscard x s = .refused .unimplementedData := by
  simp only [dataReadDiscard, h]

theorem dataReadDiscard_eecon2 (h : place x = .eecon2) : dataReadDiscard x s = .next (readEffect x s) := by
  simp only [dataReadDiscard, h]

theorem dataWrite_unimplemented (h : place x = .unimplemented) (v : Byte) :
    dataWrite x v s = .refused .unimplementedData := by
  simp only [dataWrite, h]

theorem dataWrite_eecon2 (h : place x = .eecon2) (v : Byte) : dataWrite x v s = .refused .flashProgramming := by
  simp only [dataWrite, h]

end

/-! ### The patterns up to the read, and up to the write -/

/-- `r` resolves the operand of an instruction at `s` and reads it before anything else. -/
def ReadsFirst (f : Byte) (a : Bool) (s : State) (r : Res State) : Prop :=
  ∃ k : DataAddr → Byte × State → Res State,
    r = andThen (fileOperand f a (advance 2 s)) fun o => andThen (dataRead o.1 o.2) (k o.1)

/-- `r` goes on from that read with a write of the operand. -/
def ReadsThenWrites (f : Byte) (a : Bool) (s : State) (r : Res State) : Prop :=
  ∃ (v : Byte × State → Byte) (k : Byte × State → State → Res State),
    r = andThen (fileOperand f a (advance 2 s)) fun o => andThen (dataRead o.1 o.2) fun x =>
      andThen (dataWrite o.1 (v x) x.2) (k x)

section
variable {f : Byte} {b : BitVec 3} {d a : Bool} {s : State} {i : Instr} {r : Res State}

theorem byteOp_readsFirst (op : ByteFn) : ReadsFirst f a s (byteOp op f d a s) :=
  ⟨fun o x => andThen (dest d o (op x.1 x.2.w x.2.status).1 x.2) fun s3 =>
    .next (postUpdate (rawAddr f a s) (setFlags (op x.1 x.2.w x.2.status).2 s3)), rfl⟩

theorem countSkip_readsFirst (delta : Byte) (cond : Byte → Bool) : ReadsFirst f a s (countSkip delta cond f d a s) :=
  ⟨fun o x => andThen (dest d o (x.1 + delta) x.2) fun s3 =>
    if cond (x.1 + delta) then skip (postUpdate (rawAddr f a s) (s3.setPc (advance 2 s).pc))
    else .next (postUpdate (rawAddr f a s) s3), rfl⟩

theorem testSkip_readsFirst (cond : Byte → Byte → Bool) : ReadsFirst f a s (testSkip cond f a s) :=
  ⟨fun _ x => skipIf (cond x.1 x.2.w) (postUpdate (rawAddr f a s) x.2), rfl⟩

theorem execMulwf_readsFirst : ReadsFirst f a s (execMulwf f a s) :=
  ⟨fun _ x => .next (postUpdate (rawAddr f a s) (setProduct x.2.w x.1 x.2)), rfl⟩

theorem byteOp_readsThenWrites (op : ByteFn) : ReadsThenWrites f a s (byteOp op f true a s) :=
  ⟨fun x => (op x.1 x.2.w x.2.status).1,
    fun x s3 => .next (postUpdate (rawAddr f a s) (setFlags (op x.1 x.2.w x.2.status).2 s3)), rfl⟩

theorem bitOp_readsThenWrites (op : Byte → Byte → Byte) : ReadsThenWrites f a s (bitOp op f b a s) :=
  ⟨fun x => op x.1 (1#8 <<< b.toNat), fun _ s3 => .next (postUpdate (rawAddr f a s) s3), rfl⟩

theorem countSkip_readsThenWrites (delta : Byte) (cond : Byte → Bool) :
    ReadsThenWrites f a s (countSkip delta cond f true a s) :=
  ⟨fun x => x.1 + delta, fun x s3 =>
    if cond (x.1 + delta) then skip (postUpdate (rawAddr f a s) (s3.setPc (advance 2 s).pc))
    else .next (postUpdate (rawAddr f a s) s3), rfl⟩

theorem ReadsThenWrites.readsFirst (h : ReadsThenWrites f a s r) : ReadsFirst f a s r := by
  obtain ⟨v, k, rfl⟩ := h
  exact ⟨fun o x => andThen (dataWrite o (v x) x.2) (k x), rfl⟩

/-! ### The instructions by their pattern -/

theorem exec_of_mem_aluInstrs (hi : i ∈ aluInstrs f d a) : ∃ op, exec i s = byteOp op f d a s := by
  unfold aluInstrs at hi
  fin_cases hi <;> dsimp only [exec]
  all_goals exact ⟨_, rfl⟩

theorem exec_of_mem_countInstrs (hi : i ∈ countInstrs f d a) :
    ∃ delta cond, exec i s = countSkip delta cond f d a s := by
  unfold countInstrs at hi
  fin_cases hi <;> dsimp only [exec]
  all_goals exact ⟨_, _, rfl⟩

theorem readsThenWrites_of_mem_modifyInstrs (hi : i ∈ modifyInstrs f b a) : ReadsThenWrites f a s (exec i s) := by
  obtain rfl | hbit := List.mem_cons.1 hi
  · exact byteOp_readsThenWrites fun x _ _ => add8 0x00#8 (x ^^^ 0xFF#8) true
  · fin_cases hbit <;> dsimp only [exec]
    all_goals exact bitOp_readsThenWrites _

theorem readsFirst_of_mem_testInstrs (hi : i ∈ testInstrs f b a) : ReadsFirst f a s (exec i s) := by
  obtain rfl | hskip := List.mem_cons.1 hi
  · exact execMulwf_readsFirst
  · fin_cases hskip <;> dsimp only [exec]
    all_goals exact testSkip_readsFirst _

theorem readsFirst_of_mem_readerInstrs (hi : i ∈ readerInstrs f b d a) : ReadsFirst f a s (exec i s) := by
  simp only [readerInstrs, List.mem_append] at hi
  obtain ((halu | hcount) | hmodify) | htest := hi
  · obtain ⟨op, h⟩ := exec_of_mem_aluInstrs halu
    exact h ▸ byteOp_readsFirst op
  · obtain ⟨delta, cond, h⟩ := exec_of_mem_countInstrs hcount
    exact h ▸ countSkip_readsFirst delta cond
  · exact (readsThenWrites_of_mem_modifyInstrs hmodify).readsFirst
  · exact readsFirst_of_mem_testInstrs htest

/-- An instruction that writes f reads it before, or is one of those that need no value of it. -/
theorem readsThenWrites_of_mem_writerInstrs (hi : i ∈ writerInstrs f b a) :
    ReadsThenWrites f a s (exec i s) ∨ i ∈ storeInstrs f a := by
  simp only [writerInstrs, List.mem_append] at hi
  obtain ((halu | hcount) | hmodify) | hstore := hi
  · obtain ⟨op, h⟩ := exec_of_mem_aluInstrs halu
    exact .inl (h ▸ byteOp_readsThenWrites op)
  · obtain ⟨delta, cond, h⟩ := exec_of_mem_countInstrs hcount
    exact .inl (h ▸ countSkip_readsThenWrites delta cond)
  · exact .inl (readsThenWrites_of_mem_modifyInstrs hmodify)
  · exact .inr hstore

/-! ### Where each pattern stops -/

theorem ReadsFirst.stops_at_operand (h : ReadsFirst f a s r) (hok : ¬ OperandOk f a s) :
    r = .refused .indirectSelfReference := by
  obtain ⟨k, rfl⟩ := h
  rw [fileOperand_of_not_ok hok, andThen_refused]

theorem ReadsFirst.eq_of_ok (h : ReadsFirst f a s r) (hok : OperandOk f a s) :
    ∃ k, r = andThen (dataRead (effAddr f a s) (accessState 2 (rawAddr f a s) s)) k := by
  obtain ⟨k, rfl⟩ := h
  rw [fileOperand_of_ok hok, andThen_next]
  exact ⟨_, rfl⟩

theorem ReadsThenWrites.stops_at_eecon2 (h : ReadsThenWrites f a s r) (hok : OperandOk f a s)
    (hp : place (effAddr f a s) = .eecon2) : r = .refused .flashProgramming := by
  obtain ⟨v, k, rfl⟩ := h
  rw [fileOperand_of_ok hok, andThen_next, dataRead_eecon2 hp, andThen_next, dataWrite_eecon2 hp, andThen_refused]

/-- `r` stops at its operand as a store of it does that uses no value of it. -/
structure StoreStops (f : Byte) (a : Bool) (s : State) (r : Res State) : Prop where
  operand : ¬ OperandOk f a s → r = .refused .indirectSelfReference
  unimplemented : OperandOk f a s → place (effAddr f a s) = .unimplemented → r = .refused .unimplementedData
  eecon2 : OperandOk f a s → place (effAddr f a s) = .eecon2 → r = .refused .flashProgramming

theorem constOp_storeStops (v : Byte) (u : FlagUpdate) : StoreStops f a s (constOp v u f a s) where
  operand hok := by rw [constOp, fileOperand_of_not_ok hok, andThen_refused]
  unimplemented hok hp := by
    rw [constOp, fileOperand_of_ok hok, andThen_next, dataReadDiscard_unimplemented hp, andThen_refused]
  eecon2 hok hp := by
    rw [constOp, fileOperand_of_ok hok, andThen_next, dataReadDiscard_eecon2 hp, andThen_next, dataWrite_eecon2 hp,
      andThen_refused]

theorem execMovwf_storeStops : StoreStops f a s (execMovwf f a s) where
  operand hok := by rw [execMovwf, fileOperand_of_not_ok hok, andThen_refused]
  unimplemented hok hp := by
    rw [execMovwf, fileOperand_of_ok hok, andThen_next, dataWrite_unimplemented hp, andThen_refused]
  eecon2 hok hp := by rw [execMovwf, fileOperand_of_ok hok, andThen_next, dataWrite_eecon2 hp, andThen_refused]

theorem storeStops_of_mem_storeInstrs (hi : i ∈ storeInstrs f a) : StoreStops f a s (exec i s) := by
  unfold storeInstrs at hi
  fin_cases hi <;> dsimp only [exec]
  · exact constOp_storeStops _ _
  · exact execMovwf_storeStops
  · exact constOp_storeStops _ _

end

/-! ### MOVFF -/

section
variable {fs fd : DataAddr} {s : State}

theorem exec_movff : exec (.movff fs fd) s = execMovff fs fd s := rfl

theorem execMovff_own (hs : movffForbids fs = false) (hd : movffForbids fd = false)
    (own : touchesOwnFsr fs [resolve fs (advance 4 s), resolve fd (preUpdate fs (advance 4 s))] = true ∨
      touchesOwnFsr fd [resolve fs (advance 4 s), resolve fd (preUpdate fs (advance 4 s))] = true) :
    execMovff fs fd s = .refused .indirectSelfReference := by
  simp only [execMovff, hs, hd, Bool.or_false, Bool.false_eq_true, if_false]
  exact if_pos (Bool.or_eq_true _ _ ▸ own)

/-- MOVFF past its two tests: the source is read, then the target written. -/
theorem execMovff_of_not_own (hs : movffForbids fs = false) (hd : movffForbids fd = false)
    (own : ¬ (touchesOwnFsr fs [resolve fs (advance 4 s), resolve fd (preUpdate fs (advance 4 s))] = true ∨
      touchesOwnFsr fd [resolve fs (advance 4 s), resolve fd (preUpdate fs (advance 4 s))] = true)) :
    execMovff fs fd s =
      andThen (dataRead (resolve fs (advance 4 s)) (preUpdate fd (preUpdate fs (advance 4 s)))) fun x =>
      andThen (dataWrite (resolve fd (preUpdate fs (advance 4 s))) x.1 x.2) fun s3 =>
        .next (postUpdate fd (postUpdate fs s3)) := by
  simp only [execMovff, hs, hd, Bool.or_false, Bool.false_eq_true, if_false]
  exact if_neg (Bool.or_eq_true _ _ ▸ own)

end

/-- Settles O38: what reads f stops by `ReadsFirst`, a write of EECON2 by `ReadsThenWrites`, the stores that use no value
by `StoreStops`, MOVFF by the first access that stops. -/
theorem dataStops : Obligations.DataStops := by
  intro f b d a fs fd s
  refine ⟨fun hok i hi => ?_, fun hok => ⟨fun hp i hi => ?_, fun hp hnone i hi => ?_, fun hp i hi => ?_⟩, ?_⟩
  · obtain hread | hstore := List.mem_append.1 hi
    · exact (readsFirst_of_mem_readerInstrs hread).stops_at_operand hok
    · exact (storeStops_of_mem_storeInstrs hstore).operand hok
  · obtain hread | hstore := List.mem_append.1 hi
    · obtain ⟨k, heq⟩ := (readsFirst_of_mem_readerInstrs hread).eq_of_ok hok
      rw [heq, dataRead_unimplemented hp, andThen_refused]
    · exact (storeStops_of_mem_storeInstrs hstore).unimplemented hok hp
  · obtain ⟨k, heq⟩ := (readsFirst_of_mem_readerInstrs hi).eq_of_ok hok
    have hunwritten : ramByte (effAddr f a s) (accessState 2 (rawAddr f a s) s) = none :=
      (ramByte_congr _ (accessState_ram ..)).trans hnone
    rw [heq, dataRead_unwritten hp hunwritten, andThen_fault]
  · obtain hwrite | hstore := readsThenWrites_of_mem_writerInstrs hi
    · exact hwrite.stops_at_eecon2 hok hp
    · exact (storeStops_of_mem_storeInstrs hstore).eecon2 hok hp
  · intro source target barred own hfs hfd
    have allowed {x : DataAddr} (hx : ¬ barred x) : movffForbids x = false :=
      Bool.eq_false_iff.2 fun h => hx ((movffForbids_iff x).1 h)
    have hram : (preUpdate fd (preUpdate fs (advance 4 s))).ram = s.ram := by simp
    refine ⟨execMovff_own (allowed hfs) (allowed hfd), fun hown => ?_⟩
    have heq := execMovff_of_not_own (allowed hfs) (allowed hfd) hown
    refine ⟨fun hp => ?_, fun hp hnone => ?_, fun hread => ?_⟩
    · rw [exec_movff, heq, dataRead_unimplemented hp, andThen_refused]
    · rw [exec_movff, heq, dataRead_unwritten hp ((ramByte_congr source hram).trans hnone), andThen_fault]
    · have hready := dataRead_next_iff.2 ⟨⟨hread.1, fun hp => (ramByte_congr source hram).symm ▸ hread.2 hp⟩, rfl⟩
      refine ⟨fun hp => ?_, fun hp => ?_⟩
      · rw [exec_movff, heq, hready, andThen_next, dataWrite_unimplemented hp, andThen_refused]
      · rw [exec_movff, heq, hready, andThen_next, dataWrite_eecon2 hp, andThen_refused]

end Sys2Proof.Machine
end
